-- ==== Sys2Proof/Word.lean ====
section
/-! DEFINITION. The widths of МУР128 (spec/00_scope.md R7): 128-bit words, 8-bit bytes, 32-bit instruction
words, two files of 32 registers, and the two register names that are aliases (spec/10_state.md R22). -/

namespace Sys2Proof

/-- A register, an address or the instruction pointer: 128 bits (R7). -/
abbrev Word := BitVec 128

/-- One cell of memory (R40). -/
abbrev Byte := BitVec 8

/-- One instruction: a 32-bit word, bit 31 the left-most of the source's figures (R9, R70). -/
abbrev InstrWord := BitVec 32

/-- The number of an integer register `r0` .. `r31` (R21); its 5-bit code is the number itself (R74). -/
abbrev Reg := Fin 32

/-- The number of a floating-point register `f0` .. `f31` (R25, R74). -/
abbrev FReg := Fin 32

/-- `sp` is `r31` (R22). -/
abbrev spReg : Reg := 31

/-- `bp` is `r30` (R22); no instruction uses it implicitly. -/
abbrev bpReg : Reg := 30

/-- The 32 register numbers in ascending order: the range of `push r0-r31` and `pop r0-r31` (R300, R302). -/
def allRegs : List Reg :=
  [0, 1, 2, 3, 4, 5, 6, 7, 8, 9, 10, 11, 12, 13, 14, 15,
   16, 17, 18, 19, 20, 21, 22, 23, 24, 25, 26, 27, 28, 29, 30, 31]

/-- The unsigned reading `u(v)` (R10). -/
abbrev uval (v : Word) : Nat := v.toNat

/-- The signed reading `s(v)`, two's complement (R10, D1). -/
abbrev sval (v : Word) : Int := v.toInt

end Sys2Proof
end

