-- ==== Sys2Proof/Config.lean ====
section
/-! DEFINITION. The open parameters of spec/00_scope.md R8 as plain data, the shape of the floating-point record
FP (spec/43_float_move.md R221, spec/44_float_arith.md R241), and the free values of spec/00_scope.md R14.

A `Config` stands in every State, so a statement over all states holds for every value of every parameter
(notes/assumptions/4.md). -/

namespace Sys2Proof

/-- BYTE_ORDER (R50, D3): one order for data, stack slots and instruction fetch. -/
inductive ByteOrder where
  | little
  | big
  deriving DecidableEq, Repr

/-- SDIV_ROUNDING (R168, D14): how a signed quotient is rounded. -/
inductive SdivRounding where
  | trunc
  | floor
  deriving DecidableEq, Repr

/-- POP_ORDER (R138, D18): the order in which a `pop` loads its range. -/
inductive PopOrder where
  | sourceAscending
  | descending
  deriving DecidableEq, Repr

/-- ROUNDN_TIE (R254, D21): where `roundn` sends a tie. -/
inductive RoundnTie where
  | even
  | away
  deriving DecidableEq, Repr

/-- Which record FP is in force (R241): the IEEE 754 defaults, or operations left uninterpreted
(notes/assumptions/10.md). -/
inductive FpChoice where
  | ieee754
  | uninterpreted
  deriving DecidableEq, Repr

/-- A run of byte addresses `base`, `base + 1`, .. of length `size`: one piece of MEM_DOMAIN (R46). -/
structure AddrRange where
  base : Nat
  size : Nat
  deriving DecidableEq, Repr

/-- The parameters of R8. Constant through a run: no instruction reads them as data or writes them. -/
structure Config where
  /-- BYTE_ORDER (D3). -/
  byteOrder : ByteOrder
  /-- MEM_DOMAIN (D6): the byte addresses that hold memory are those some range covers. -/
  memDomain : List AddrRange
  /-- SDIV_ROUNDING (D14). -/
  sdivRounding : SdivRounding
  /-- POP_ORDER (D18). -/
  popOrder : PopOrder
  /-- Which record FP (D19, D20). -/
  fp : FpChoice
  /-- ROUNDN_TIE (D21). -/
  roundnTie : RoundnTie
  /-- RESET_IP (D29): read by `State.launch` alone. -/
  resetIp : Word
  /-- HALT_IP (D30), optional. -/
  haltIp : Option Word
  deriving DecidableEq, Repr

/-- The whole address space `0 .. 2^128-1`, the default MEM_DOMAIN (R46). -/
def wholeSpace : List AddrRange := [⟨0, 2 ^ 128⟩]

/-- The defaults of R8. RESET_IP has none there: 0 is a DESIGN CHOICE (notes/assumptions/2.md). -/
def Config.specDefault : Config where
  byteOrder := .little
  memDomain := wholeSpace
  sdivRounding := .trunc
  popOrder := .sourceAscending
  fp := .ieee754
  roundnTie := .even
  resetIp := 0
  haltIp := none

/-- What a floating-point function answers: bits, "a NaN" of its format without saying which (R240), or an
unspecified value `any` (R14). -/
inductive FpVal (w : Nat) where
  | bits (v : BitVec w)
  | anyNan
  | any
  deriving DecidableEq, Repr, Inhabited

/-- The result of `FP.cmp` (R241). -/
inductive FpOrder where
  | lt
  | eq
  | gt
  | un
  deriving DecidableEq, Repr, Inhabited

/-- The modes n, l, g, t of `FP.toInt` (R241): nearest, floor, ceiling, toward zero. -/
inductive RoundMode where
  | nearest
  | floor
  | ceiling
  | trunc
  deriving DecidableEq, Repr, Inhabited

/-- The configuration record FP (R221, R241). -/
structure Fp where
  add : Word → Word → FpVal 128
  sub : Word → Word → FpVal 128
  mul : Word → Word → FpVal 128
  div : Word → Word → FpVal 128
  cmp : Word → Word → FpOrder
  toInt : RoundMode → Word → Option Int
  frac : Word → FpVal 128
  from32 : BitVec 32 → FpVal 128
  from64 : BitVec 64 → FpVal 128
  from80 : BitVec 80 → FpVal 128
  to32 : Word → FpVal 32
  to64 : Word → FpVal 64
  to80 : Word → FpVal 80
  deriving Inhabited

/-- The free value of the n-th draw `any_128()` (R14): no body, so nothing can be proved of it
(DESIGN CHOICE, notes/assumptions/7.md). -/
opaque Config.anyWord : Nat → Word

/-- A record FP of which only its being functions is known (R221, R241; DESIGN CHOICE,
notes/assumptions/10.md). -/
opaque Config.uninterpretedFp : Fp

end Sys2Proof
end

