-- ==== Sys2Proof/Syntax.lean ====
section
/-! DEFINITION. The instructions of МУР128: one constructor per row of spec/opcode_table.json, its operands as the
templates of spec/30_encoding.md R72 give them. Immediates stand as the unwidened fields of the word (R77, R96). -/

namespace Sys2Proof

/-- The conditions of Table 3.1.3 (30 R76); their meaning is `Machine.holds` (45 R271). -/
inductive Cond where
  | s
  | z
  | p
  | nz
  | ge
  | le
  deriving DecidableEq, Repr

/-- The scale factors of Table 3.1.4 (20 R42, 30 R75). -/
inductive Scale where
  | x1
  | x2
  | x4
  | x8
  | x16
  | x10
  deriving DecidableEq, Repr

/-- The memory operand of template M: base `B`, index `IX`, scale `SF` (20 R41). -/
structure MemOperand where
  base : Reg
  index : Reg
  scale : Scale
  deriving DecidableEq, Repr

/-- The 147 instruction forms. `d` is a destination, `a` and `b` sources, `t` a tested register. -/
inductive Instr where
  -- Integer moves (30 R78)
  /-- `mov reg1, reg2` (R120). -/
  | movR (d a : Reg)
  /-- `movu reg, imm15` (R121). -/
  | movu (d : Reg) (imm : BitVec 15)
  /-- `movs reg, imm15` (R122). -/
  | movs (d : Reg) (imm : BitVec 15)
  /-- `mov reg, [mem128]` (R123). -/
  | movLoad (d : Reg) (m : MemOperand)
  /-- `mov8u reg, [mem8]` (R124). -/
  | mov8u (d : Reg) (m : MemOperand)
  /-- `mov16u reg, [mem16]` (R125). -/
  | mov16u (d : Reg) (m : MemOperand)
  /-- `mov32u reg, [mem32]` (R126). -/
  | mov32u (d : Reg) (m : MemOperand)
  /-- `mov64u reg, [mem64]` (R127). -/
  | mov64u (d : Reg) (m : MemOperand)
  /-- `mov8s reg, [mem8]` (R128). -/
  | mov8s (d : Reg) (m : MemOperand)
  /-- `mov16s reg, [mem16]` (R129). -/
  | mov16s (d : Reg) (m : MemOperand)
  /-- `mov32s reg, [mem32]` (R130). -/
  | mov32s (d : Reg) (m : MemOperand)
  /-- `mov64s reg, [mem64]` (R131). -/
  | mov64s (d : Reg) (m : MemOperand)
  /-- `mov [mem128], reg` (R132). -/
  | movStore (r : Reg) (m : MemOperand)
  /-- `mov8 [mem8], reg` (R133). -/
  | mov8 (r : Reg) (m : MemOperand)
  /-- `mov16 [mem16], reg` (R134). -/
  | mov16 (r : Reg) (m : MemOperand)
  /-- `mov32 [mem32], reg` (R135). -/
  | mov32 (r : Reg) (m : MemOperand)
  /-- `mov64 [mem64], reg` (R136). -/
  | mov64 (r : Reg) (m : MemOperand)
  /-- `push ri-rj` (R137). -/
  | push (i j : Reg)
  /-- `pop ri-rj` (R138). -/
  | pop (i j : Reg)
  -- Integer arithmetic and compare (R79)
  /-- `addi reg1, reg2, reg3` (R150). -/
  | addiR (d a b : Reg)
  /-- `addi reg1, reg2, imm10` (R151). -/
  | addiI (d a : Reg) (imm : BitVec 10)
  /-- `subi reg1, reg2, reg3` (R152). -/
  | subiR (d a b : Reg)
  /-- `subi reg1, reg2, imm10` (R153). -/
  | subiI (d a : Reg) (imm : BitVec 10)
  /-- `muliu reg1, reg2, reg3` (R154). -/
  | muliuR (d a b : Reg)
  /-- `muliu reg1, reg2, imm10` (R155). -/
  | muliuI (d a : Reg) (imm : BitVec 10)
  /-- `mulis reg1, reg2, reg3` (R156). -/
  | mulisR (d a b : Reg)
  /-- `mulis reg1, reg2, imm10` (R157). -/
  | mulisI (d a : Reg) (imm : BitVec 10)
  /-- `diviu reg1, reg2, reg3` (R158). -/
  | diviuR (d a b : Reg)
  /-- `diviu reg1, reg2, imm10` (R159). -/
  | diviuI (d a : Reg) (imm : BitVec 10)
  /-- `divis reg1, reg2, reg3` (R160). -/
  | divisR (d a b : Reg)
  /-- `divis reg1, reg2, imm10` (R161). -/
  | divisI (d a : Reg) (imm : BitVec 10)
  /-- `modiu reg1, reg2, reg3` (R162). -/
  | modiuR (d a b : Reg)
  /-- `modiu reg1, reg2, imm10` (R163). -/
  | modiuI (d a : Reg) (imm : BitVec 10)
  /-- `modis reg1, reg2, reg3` (R164). -/
  | modisR (d a b : Reg)
  /-- `modis reg1, reg2, imm10` (R165). -/
  | modisI (d a : Reg) (imm : BitVec 10)
  /-- `divmodiu reg1, reg2, reg3, reg4` (R166). -/
  | divmodiu (q r a b : Reg)
  /-- `divmodis reg1, reg2, reg3, reg4` (R167). -/
  | divmodis (q r a b : Reg)
  /-- `cmpiu reg1, reg2, reg3` (R170). -/
  | cmpiuR (d a b : Reg)
  /-- `cmpiu reg1, reg2, imm10` (R171). -/
  | cmpiuI (d a : Reg) (imm : BitVec 10)
  /-- `cmpis reg1, reg2, reg3` (R172). -/
  | cmpisR (d a b : Reg)
  /-- `cmpis reg1, reg2, imm10` (R173). -/
  | cmpisI (d a : Reg) (imm : BitVec 10)
  -- Bitwise operations and shifts (R80)
  /-- `and reg1, reg2, reg3` (R190). -/
  | andR (d a b : Reg)
  /-- `and reg1, reg2, imm10` (R191). -/
  | andI (d a : Reg) (imm : BitVec 10)
  /-- `or reg1, reg2, reg3` (R192). -/
  | orR (d a b : Reg)
  /-- `or reg1, reg2, imm10` (R193). -/
  | orI (d a : Reg) (imm : BitVec 10)
  /-- `xor reg1, reg2, reg3` (R194). -/
  | xorR (d a b : Reg)
  /-- `xor reg1, reg2, imm10` (R195). -/
  | xorI (d a : Reg) (imm : BitVec 10)
  /-- `andn reg1, reg2, reg3` (R196). -/
  | andnR (d a b : Reg)
  /-- `andn reg1, reg2, imm10` (R197). -/
  | andnI (d a : Reg) (imm : BitVec 10)
  /-- `orn reg1, reg2, reg3` (R198). -/
  | ornR (d a b : Reg)
  /-- `orn reg1, reg2, imm10` (R199). -/
  | ornI (d a : Reg) (imm : BitVec 10)
  /-- `xorn reg1, reg2, reg3` (R200). -/
  | xornR (d a b : Reg)
  /-- `xorn reg1, reg2, imm10` (R201). -/
  | xornI (d a : Reg) (imm : BitVec 10)
  /-- `lshift reg1, reg2, reg3` (R202). -/
  | lshiftR (d a b : Reg)
  /-- `lshift reg1, reg2, imm10` (R203). -/
  | lshiftI (d a : Reg) (imm : BitVec 10)
  /-- `rshift reg1, reg2, reg3` (R204). -/
  | rshiftR (d a b : Reg)
  /-- `rshift reg1, reg2, imm10` (R205). -/
  | rshiftI (d a : Reg) (imm : BitVec 10)
  /-- `rshifts reg1, reg2, reg3` (R206). -/
  | rshiftsR (d a b : Reg)
  /-- `rshifts reg1, reg2, imm10` (R207). -/
  | rshiftsI (d a : Reg) (imm : BitVec 10)
  /-- `not reg1, reg2` (R208). -/
  | notR (d a : Reg)
  /-- `not reg, imm15` (R209). -/
  | notI (d : Reg) (imm : BitVec 15)
  -- Floating-point moves (R90)
  /-- `mov freg1, freg2` (R222). -/
  | movF (d a : FReg)
  /-- `mov freg, [mem128]` (R223). -/
  | movFLoad (d : FReg) (m : MemOperand)
  /-- `mov32f freg, [mem32]` (R224). -/
  | mov32fLoad (d : FReg) (m : MemOperand)
  /-- `mov64f freg, [mem64]` (R225). -/
  | mov64fLoad (d : FReg) (m : MemOperand)
  /-- `mov80f freg, [mem80]` (R226). -/
  | mov80fLoad (d : FReg) (m : MemOperand)
  /-- `mov32f [mem32], freg` (R227). -/
  | mov32fStore (r : FReg) (m : MemOperand)
  /-- `mov64f [mem64], freg` (R228). -/
  | mov64fStore (r : FReg) (m : MemOperand)
  /-- `mov80f [mem80], freg` (R229). -/
  | mov80fStore (r : FReg) (m : MemOperand)
  /-- `push fi-fj` (R230). -/
  | pushF (i j : FReg)
  /-- `pop fi-fj` (R231). -/
  | popF (i j : FReg)
  -- Floating-point arithmetic (R91)
  /-- `addf freg1, freg2, freg3` (R242). -/
  | addf (d a b : FReg)
  /-- `subf freg1, freg2, freg3` (R243). -/
  | subf (d a b : FReg)
  /-- `mulf freg1, freg2, freg3` (R244). -/
  | mulf (d a b : FReg)
  /-- `divf freg1, freg2, freg3` (R246). -/
  | divf (d a b : FReg)
  /-- `cmpf reg1, freg2, freg3` (R245). -/
  | cmpf (d : Reg) (a b : FReg)
  /-- `roundn reg1, freg2` (R247). -/
  | roundn (d : Reg) (a : FReg)
  /-- `roundl reg1, freg2` (R248). -/
  | roundl (d : Reg) (a : FReg)
  /-- `roundg reg1, freg2` (R249). -/
  | roundg (d : Reg) (a : FReg)
  /-- `roundt reg1, freg2` (R250). -/
  | roundt (d : Reg) (a : FReg)
  /-- `frac freg1, freg2` (R251). -/
  | frac (d a : FReg)
  -- Control transfer (R92)
  /-- `jmp reg` (R272). -/
  | jmp (a : Reg)
  /-- `jmpr reg` (R273). -/
  | jmprR (a : Reg)
  /-- `jmpr imm20` (R274). -/
  | jmprI (imm : BitVec 20)
  /-- `jmps reg1, reg2` (R275). -/
  | jmpS (t a : Reg)
  /-- `jmpz reg1, reg2` (R275). -/
  | jmpZ (t a : Reg)
  /-- `jmpp reg1, reg2` (R275). -/
  | jmpP (t a : Reg)
  /-- `jmpnz reg1, reg2` (R275). -/
  | jmpNz (t a : Reg)
  /-- `jmpge reg1, reg2` (R275). -/
  | jmpGe (t a : Reg)
  /-- `jmple reg1, reg2` (R275). -/
  | jmpLe (t a : Reg)
  /-- `jmpsr reg1, reg2` (R276). -/
  | jmpSrR (t a : Reg)
  /-- `jmpzr reg1, reg2` (R276). -/
  | jmpZrR (t a : Reg)
  /-- `jmppr reg1, reg2` (R276). -/
  | jmpPrR (t a : Reg)
  /-- `jmpnzr reg1, reg2` (R276). -/
  | jmpNzrR (t a : Reg)
  /-- `jmpger reg1, reg2` (R276). -/
  | jmpGerR (t a : Reg)
  /-- `jmpler reg1, reg2` (R276). -/
  | jmpLerR (t a : Reg)
  /-- `jmpsr reg, imm15` (R277). -/
  | jmpSrI (t : Reg) (imm : BitVec 15)
  /-- `jmpzr reg, imm15` (R277). -/
  | jmpZrI (t : Reg) (imm : BitVec 15)
  /-- `jmppr reg, imm15` (R277). -/
  | jmpPrI (t : Reg) (imm : BitVec 15)
  /-- `jmpnzr reg, imm15` (R277). -/
  | jmpNzrI (t : Reg) (imm : BitVec 15)
  /-- `jmpger reg, imm15` (R277). -/
  | jmpGerI (t : Reg) (imm : BitVec 15)
  /-- `jmpler reg, imm15` (R277). -/
  | jmpLerI (t : Reg) (imm : BitVec 15)
  /-- `call reg` (R278). -/
  | call (a : Reg)
  /-- `callr reg` (R279). -/
  | callrR (a : Reg)
  /-- `callr imm20` (R280). -/
  | callrI (imm : BitVec 20)
  /-- `calls reg1, reg2` (R281). -/
  | callS (t a : Reg)
  /-- `callz reg1, reg2` (R281). -/
  | callZ (t a : Reg)
  /-- `callp reg1, reg2` (R281). -/
  | callP (t a : Reg)
  /-- `callnz reg1, reg2` (R281). -/
  | callNz (t a : Reg)
  /-- `callge reg1, reg2` (R281). -/
  | callGe (t a : Reg)
  /-- `callle reg1, reg2` (R281). -/
  | callLe (t a : Reg)
  /-- `callsr reg1, reg2` (R282). -/
  | callSrR (t a : Reg)
  /-- `callzr reg1, reg2` (R282). -/
  | callZrR (t a : Reg)
  /-- `callpr reg1, reg2` (R282). -/
  | callPrR (t a : Reg)
  /-- `callnzr reg1, reg2` (R282). -/
  | callNzrR (t a : Reg)
  /-- `callger reg1, reg2` (R282). -/
  | callGerR (t a : Reg)
  /-- `calller reg1, reg2` (R282). -/
  | callLerR (t a : Reg)
  /-- `callsr reg, imm15` (R283). -/
  | callSrI (t : Reg) (imm : BitVec 15)
  /-- `callzr reg, imm15` (R283). -/
  | callZrI (t : Reg) (imm : BitVec 15)
  /-- `callpr reg, imm15` (R283). -/
  | callPrI (t : Reg) (imm : BitVec 15)
  /-- `callnzr reg, imm15` (R283). -/
  | callNzrI (t : Reg) (imm : BitVec 15)
  /-- `callger reg, imm15` (R283). -/
  | callGerI (t : Reg) (imm : BitVec 15)
  /-- `calller reg, imm15` (R283). -/
  | callLerI (t : Reg) (imm : BitVec 15)
  /-- `ret` (R284). -/
  | ret
  /-- `rets reg` (R285). -/
  | retS (t : Reg)
  /-- `retz reg` (R285). -/
  | retZ (t : Reg)
  /-- `retp reg` (R285). -/
  | retP (t : Reg)
  /-- `retnz reg` (R285). -/
  | retNz (t : Reg)
  /-- `retge reg` (R285). -/
  | retGe (t : Reg)
  /-- `retle reg` (R285). -/
  | retLe (t : Reg)
  /-- `reta reg` (R286). -/
  | retaR (a : Reg)
  /-- `reta imm20` (R287). -/
  | retaI (imm : BitVec 20)
  /-- `retas reg1, reg2` (R288). -/
  | retaSR (t a : Reg)
  /-- `retaz reg1, reg2` (R288). -/
  | retaZR (t a : Reg)
  /-- `retap reg1, reg2` (R288). -/
  | retaPR (t a : Reg)
  /-- `retanz reg1, reg2` (R288). -/
  | retaNzR (t a : Reg)
  /-- `retage reg1, reg2` (R288). -/
  | retaGeR (t a : Reg)
  /-- `retale reg1, reg2` (R288). -/
  | retaLeR (t a : Reg)
  /-- `retas reg, imm15` (R289). -/
  | retaSI (t : Reg) (imm : BitVec 15)
  /-- `retaz reg, imm15` (R289). -/
  | retaZI (t : Reg) (imm : BitVec 15)
  /-- `retap reg, imm15` (R289). -/
  | retaPI (t : Reg) (imm : BitVec 15)
  /-- `retanz reg, imm15` (R289). -/
  | retaNzI (t : Reg) (imm : BitVec 15)
  /-- `retage reg, imm15` (R289). -/
  | retaGeI (t : Reg) (imm : BitVec 15)
  /-- `retale reg, imm15` (R289). -/
  | retaLeI (t : Reg) (imm : BitVec 15)
  /-- `trap reg` (R300). -/
  | trapR (a : Reg)
  /-- `trap imm10` (R301). -/
  | trapI (imm : BitVec 10)
  /-- `reti` (R302). -/
  | reti
  deriving DecidableEq, Repr

end Sys2Proof
end

