-- ==== Sys2Proof/WellFormed.lean ====
section
/-! DEFINITION. Which terms of `Instr` the encoding has a word for (spec/20_memory.md R43, spec/40_int_move.md R139).
All other operands are well-formed by their types. -/

namespace Sys2Proof

/-- The index of a memory operand is one of `r0` .. `r30` (20 R43). -/
def MemOperand.wf (m : MemOperand) : Bool := m.index != spReg

/-- A range `ri-rj` or `fi-fj` has i ≤ j (40 R139). -/
def rangeWf (i j : Fin 32) : Bool := decide (i ≤ j)

/-- The checks of an instruction: its memory operand (20 R43) or its register range (40 R139). -/
def Instr.wf : Instr → Bool
  | .movR _ _ => true
  | .movu _ _ => true
  | .movs _ _ => true
  | .movLoad _ m => m.wf
  | .mov8u _ m => m.wf
  | .mov16u _ m => m.wf
  | .mov32u _ m => m.wf
  | .mov64u _ m => m.wf
  | .mov8s _ m => m.wf
  | .mov16s _ m => m.wf
  | .mov32s _ m => m.wf
  | .mov64s _ m => m.wf
  | .movStore _ m => m.wf
  | .mov8 _ m => m.wf
  | .mov16 _ m => m.wf
  | .mov32 _ m => m.wf
  | .mov64 _ m => m.wf
  | .push i j => rangeWf i j
  | .pop i j => rangeWf i j
  | .movF _ _ => true
  | .movFLoad _ m => m.wf
  | .mov32fLoad _ m => m.wf
  | .mov64fLoad _ m => m.wf
  | .mov80fLoad _ m => m.wf
  | .mov32fStore _ m => m.wf
  | .mov64fStore _ m => m.wf
  | .mov80fStore _ m => m.wf
  | .pushF i j => rangeWf i j
  | .popF i j => rangeWf i j
  | .addiR _ _ _ => true
  | .addiI _ _ _ => true
  | .subiR _ _ _ => true
  | .subiI _ _ _ => true
  | .muliuR _ _ _ => true
  | .muliuI _ _ _ => true
  | .mulisR _ _ _ => true
  | .mulisI _ _ _ => true
  | .diviuR _ _ _ => true
  | .diviuI _ _ _ => true
  | .divisR _ _ _ => true
  | .divisI _ _ _ => true
  | .modiuR _ _ _ => true
  | .modiuI _ _ _ => true
  | .modisR _ _ _ => true
  | .modisI _ _ _ => true
  | .divmodiu _ _ _ _ => true
  | .divmodis _ _ _ _ => true
  | .cmpiuR _ _ _ => true
  | .cmpiuI _ _ _ => true
  | .cmpisR _ _ _ => true
  | .cmpisI _ _ _ => true
  | .andR _ _ _ => true
  | .andI _ _ _ => true
  | .orR _ _ _ => true
  | .orI _ _ _ => true
  | .xorR _ _ _ => true
  | .xorI _ _ _ => true
  | .andnR _ _ _ => true
  | .andnI _ _ _ => true
  | .ornR _ _ _ => true
  | .ornI _ _ _ => true
  | .xornR _ _ _ => true
  | .xornI _ _ _ => true
  | .lshiftR _ _ _ => true
  | .lshiftI _ _ _ => true
  | .rshiftR _ _ _ => true
  | .rshiftI _ _ _ => true
  | .rshiftsR _ _ _ => true
  | .rshiftsI _ _ _ => true
  | .notR _ _ => true
  | .notI _ _ => true
  | .addf _ _ _ => true
  | .subf _ _ _ => true
  | .mulf _ _ _ => true
  | .divf _ _ _ => true
  | .cmpf _ _ _ => true
  | .roundn _ _ => true
  | .roundl _ _ => true
  | .roundg _ _ => true
  | .roundt _ _ => true
  | .frac _ _ => true
  | .jmp _ => true
  | .jmprR _ => true
  | .jmprI _ => true
  | .jmpS _ _ => true
  | .jmpZ _ _ => true
  | .jmpP _ _ => true
  | .jmpNz _ _ => true
  | .jmpGe _ _ => true
  | .jmpLe _ _ => true
  | .jmpSrR _ _ => true
  | .jmpZrR _ _ => true
  | .jmpPrR _ _ => true
  | .jmpNzrR _ _ => true
  | .jmpGerR _ _ => true
  | .jmpLerR _ _ => true
  | .jmpSrI _ _ => true
  | .jmpZrI _ _ => true
  | .jmpPrI _ _ => true
  | .jmpNzrI _ _ => true
  | .jmpGerI _ _ => true
  | .jmpLerI _ _ => true
  | .call _ => true
  | .callrR _ => true
  | .callrI _ => true
  | .callS _ _ => true
  | .callZ _ _ => true
  | .callP _ _ => true
  | .callNz _ _ => true
  | .callGe _ _ => true
  | .callLe _ _ => true
  | .callSrR _ _ => true
  | .callZrR _ _ => true
  | .callPrR _ _ => true
  | .callNzrR _ _ => true
  | .callGerR _ _ => true
  | .callLerR _ _ => true
  | .callSrI _ _ => true
  | .callZrI _ _ => true
  | .callPrI _ _ => true
  | .callNzrI _ _ => true
  | .callGerI _ _ => true
  | .callLerI _ _ => true
  | .ret => true
  | .retS _ => true
  | .retZ _ => true
  | .retP _ => true
  | .retNz _ => true
  | .retGe _ => true
  | .retLe _ => true
  | .retaR _ => true
  | .retaI _ => true
  | .retaSR _ _ => true
  | .retaZR _ _ => true
  | .retaPR _ _ => true
  | .retaNzR _ _ => true
  | .retaGeR _ _ => true
  | .retaLeR _ _ => true
  | .retaSI _ _ => true
  | .retaZI _ _ => true
  | .retaPI _ _ => true
  | .retaNzI _ _ => true
  | .retaGeI _ _ => true
  | .retaLeI _ _ => true
  | .trapR _ => true
  | .trapI _ => true
  | .reti => true

end Sys2Proof
end

