-- ==== Sys2Proof/Decode.lean ====
section
/-! DEFINITION. Decoding and encoding (spec/30_encoding.md). `decode` is total on 32-bit words and rejects by name
(R94, R96); `encode` writes the word of an instruction from the same tables (R72, R78 to R92). -/

namespace Sys2Proof

/-- Why a word selects no instruction: the six cases of R94. -/
inductive DecodeReject where
  /-- Case 1: (T, OP) is in no table. -/
  | unassigned
  /-- Case 2: condition bits on an unconditional form, or condition code 110 or 111. -/
  | badCondition
  /-- Case 3: a field the template shows as 0 is not all zero. -/
  | mustBeZero
  /-- Case 4: scale code 110 or 111. -/
  | reservedScale
  /-- Case 5: index register code 11111. -/
  | indexIsSp
  /-- Case 6: a register range with R1 > R2. -/
  | rangeReversed
  deriving DecidableEq, Repr

/-! ### Fields (R72) -/

/-- The slice `w[lo+n-1 : lo]` (R9). -/
def field (lo n : Nat) (w : InstrWord) : BitVec n := w.extractLsb' lo n

/-- The 5-bit register field whose lowest bit is `lo` (R74). -/
def regField (lo : Nat) (w : InstrWord) : Fin 32 := ⟨(field lo 5 w).toNat, (field lo 5 w).isLt⟩

/-- The field T, `w[31:30]` (R71). -/
def typeField (w : InstrWord) : BitVec 2 := field 30 2 w

/-- The field OP, `w[29:20]` (R71). -/
def opField (w : InstrWord) : BitVec 10 := field 20 10 w

/-- Accept an instruction only if the low `n` bits of the word are zero (R94 case 3). -/
def needZero (n : Nat) (w : InstrWord) (i : Except DecodeReject Instr) : Except DecodeReject Instr :=
  if field 0 n w = 0 then i else .error .mustBeZero

/-- The scale code `SF` (R42, R75): 16 comes before 10, 110 and 111 are reserved. -/
def scaleOf (c : BitVec 3) : Except DecodeReject Scale :=
  match c.toNat with
  | 0 => .ok .x1
  | 1 => .ok .x2
  | 2 => .ok .x4
  | 3 => .ok .x8
  | 4 => .ok .x16
  | 5 => .ok .x10
  | _ => .error .reservedScale

/-- The code of a scale factor (R42). -/
def scaleCode : Scale → BitVec 3
  | .x1 => 0
  | .x2 => 1
  | .x4 => 2
  | .x8 => 3
  | .x16 => 4
  | .x10 => 5

/-- The condition code (R76). -/
def condOf (c : BitVec 3) : Except DecodeReject Cond :=
  match c.toNat with
  | 0 => .ok .s
  | 1 => .ok .z
  | 2 => .ok .p
  | 3 => .ok .nz
  | 4 => .ok .ge
  | 5 => .ok .le
  | _ => .error .badCondition

/-! ### Reading the operands of a template (R72, R73) -/

/-- Template A: a 20-bit immediate. -/
def readA (mk : BitVec 20 → Instr) (w : InstrWord) : Except DecodeReject Instr :=
  .ok (mk (field 0 20 w))

/-- `trap imm10`: template A with `IMM[19:10] = 0` (R92, R94 case 3). -/
def readA10 (mk : BitVec 10 → Instr) (w : InstrWord) : Except DecodeReject Instr :=
  if field 10 10 w = 0 then .ok (mk (field 0 10 w)) else .error .mustBeZero

/-- Template B: one register. -/
def readB (mk : Fin 32 → Instr) (w : InstrWord) : Except DecodeReject Instr :=
  needZero 15 w (.ok (mk (regField 15 w)))

/-- Template C: one register and a 15-bit immediate. -/
def readC (mk : Fin 32 → BitVec 15 → Instr) (w : InstrWord) : Except DecodeReject Instr :=
  .ok (mk (regField 15 w) (field 0 15 w))

/-- Template D: two registers. -/
def readD (mk : Fin 32 → Fin 32 → Instr) (w : InstrWord) : Except DecodeReject Instr :=
  needZero 10 w (.ok (mk (regField 15 w) (regField 10 w)))

/-- Template D of a register range, R1 ≤ R2 (40 R139). -/
def readRange (mk : Fin 32 → Fin 32 → Instr) (w : InstrWord) : Except DecodeReject Instr :=
  needZero 10 w
    (if regField 15 w ≤ regField 10 w then .ok (mk (regField 15 w) (regField 10 w))
     else .error .rangeReversed)

/-- Template E: two registers and a 10-bit immediate. -/
def readE (mk : Fin 32 → Fin 32 → BitVec 10 → Instr) (w : InstrWord) : Except DecodeReject Instr :=
  .ok (mk (regField 15 w) (regField 10 w) (field 0 10 w))

/-- Template F: three registers. -/
def readF (mk : Fin 32 → Fin 32 → Fin 32 → Instr) (w : InstrWord) : Except DecodeReject Instr :=
  needZero 5 w (.ok (mk (regField 15 w) (regField 10 w) (regField 5 w)))

/-- Template G: four registers. -/
def readG (mk : Fin 32 → Fin 32 → Fin 32 → Fin 32 → Instr) (w : InstrWord) :
    Except DecodeReject Instr :=
  .ok (mk (regField 15 w) (regField 10 w) (regField 5 w) (regField 0 w))

/-- Template M: a register and a memory operand; the index is not `r31` (20 R43). -/
def readM (mk : Fin 32 → MemOperand → Instr) (w : InstrWord) : Except DecodeReject Instr :=
  needZero 2 w
    (if regField 5 w = spReg then .error .indexIsSp
     else (scaleOf (field 2 3 w)).bind fun sc => .ok (mk (regField 15 w) ⟨regField 10 w, regField 5 w, sc⟩))

/-- Template Z: no operand (R73). -/
def readZ (i : Instr) (w : InstrWord) : Except DecodeReject Instr :=
  needZero 20 w (.ok i)

/-! ### The conditional forms of a row of R92, by condition -/

/-- `jmp<cc> reg1, reg2`. -/
def jmpCc : Cond → Reg → Reg → Instr
  | .s => .jmpS
  | .z => .jmpZ
  | .p => .jmpP
  | .nz => .jmpNz
  | .ge => .jmpGe
  | .le => .jmpLe

/-- `jmp<cc>r reg1, reg2`. -/
def jmpCcrR : Cond → Reg → Reg → Instr
  | .s => .jmpSrR
  | .z => .jmpZrR
  | .p => .jmpPrR
  | .nz => .jmpNzrR
  | .ge => .jmpGerR
  | .le => .jmpLerR

/-- `jmp<cc>r reg, imm15`. -/
def jmpCcrI : Cond → Reg → BitVec 15 → Instr
  | .s => .jmpSrI
  | .z => .jmpZrI
  | .p => .jmpPrI
  | .nz => .jmpNzrI
  | .ge => .jmpGerI
  | .le => .jmpLerI

/-- `call<cc> reg1, reg2`. -/
def callCc : Cond → Reg → Reg → Instr
  | .s => .callS
  | .z => .callZ
  | .p => .callP
  | .nz => .callNz
  | .ge => .callGe
  | .le => .callLe

/-- `call<cc>r reg1, reg2`. -/
def callCcrR : Cond → Reg → Reg → Instr
  | .s => .callSrR
  | .z => .callZrR
  | .p => .callPrR
  | .nz => .callNzrR
  | .ge => .callGerR
  | .le => .callLerR

/-- `call<cc>r reg, imm15`. -/
def callCcrI : Cond → Reg → BitVec 15 → Instr
  | .s => .callSrI
  | .z => .callZrI
  | .p => .callPrI
  | .nz => .callNzrI
  | .ge => .callGerI
  | .le => .callLerI

/-- `ret<cc> reg`. -/
def retCc : Cond → Reg → Instr
  | .s => .retS
  | .z => .retZ
  | .p => .retP
  | .nz => .retNz
  | .ge => .retGe
  | .le => .retLe

/-- `reta<cc> reg1, reg2`. -/
def retaCcR : Cond → Reg → Reg → Instr
  | .s => .retaSR
  | .z => .retaZR
  | .p => .retaPR
  | .nz => .retaNzR
  | .ge => .retaGeR
  | .le => .retaLeR

/-- `reta<cc> reg, imm15`. -/
def retaCcI : Cond → Reg → BitVec 15 → Instr
  | .s => .retaSI
  | .z => .retaZI
  | .p => .retaPI
  | .nz => .retaNzI
  | .ge => .retaGeI
  | .le => .retaLeI

/-! ### The opcode map -/

/-- T = 00: integer instructions that are no moves (R79, R80). -/
def decodeInt (op : Nat) (w : InstrWord) : Except DecodeReject Instr :=
  match op with
  | 0 => readF .addiR w
  | 1 => readE .addiI w
  | 2 => readF .subiR w
  | 3 => readE .subiI w
  | 4 => readF .muliuR w
  | 5 => readE .muliuI w
  | 6 => readF .mulisR w
  | 7 => readE .mulisI w
  | 8 => readF .diviuR w
  | 9 => readE .diviuI w
  | 10 => readF .divisR w
  | 11 => readE .divisI w
  | 12 => readF .modiuR w
  | 13 => readE .modiuI w
  | 14 => readF .modisR w
  | 15 => readE .modisI w
  | 16 => readG .divmodiu w
  | 17 => readG .divmodis w
  | 18 => readF .cmpiuR w
  | 19 => readE .cmpiuI w
  | 20 => readF .cmpisR w
  | 21 => readE .cmpisI w
  | 22 => readF .andR w
  | 23 => readE .andI w
  | 24 => readF .orR w
  | 25 => readE .orI w
  | 26 => readF .xorR w
  | 27 => readE .xorI w
  | 28 => readF .andnR w
  | 29 => readE .andnI w
  | 30 => readF .ornR w
  | 31 => readE .ornI w
  | 32 => readF .xornR w
  | 33 => readE .xornI w
  | 34 => readF .lshiftR w
  | 35 => readE .lshiftI w
  | 36 => readF .rshiftR w
  | 37 => readE .rshiftI w
  | 38 => readF .rshiftsR w
  | 39 => readE .rshiftsI w
  | 40 => readD .notR w
  | 41 => readC .notI w
  | _ => .error .unassigned

/-- T = 01: floating-point instructions that are no moves (R91). -/
def decodeFloat (op : Nat) (w : InstrWord) : Except DecodeReject Instr :=
  match op with
  | 0 => readF .addf w
  | 1 => readF .subf w
  | 2 => readF .mulf w
  | 3 => readF .divf w
  | 4 => readF .cmpf w
  | 5 => readD .roundn w
  | 6 => readD .roundl w
  | 7 => readD .roundg w
  | 8 => readD .roundt w
  | 9 => readD .frac w
  | _ => .error .unassigned

/-- T = 11: moves, integer and floating point (R78, R90). -/
def decodeMove (op : Nat) (w : InstrWord) : Except DecodeReject Instr :=
  match op with
  | 0 => readD .movR w
  | 1 => readC .movu w
  | 2 => readC .movs w
  | 3 => readM .movLoad w
  | 4 => readM .mov8u w
  | 5 => readM .mov16u w
  | 6 => readM .mov32u w
  | 7 => readM .mov64u w
  | 8 => readM .mov8s w
  | 9 => readM .mov16s w
  | 10 => readM .mov32s w
  | 11 => readM .mov64s w
  | 12 => readM .movStore w
  | 13 => readM .mov8 w
  | 14 => readM .mov16 w
  | 15 => readM .mov32 w
  | 16 => readM .mov64 w
  | 17 => readRange .push w
  | 18 => readRange .pop w
  | 19 => readD .movF w
  | 20 => readM .movFLoad w
  | 21 => readM .mov32fLoad w
  | 22 => readM .mov64fLoad w
  | 23 => readM .mov80fLoad w
  | 24 => readM .mov32fStore w
  | 25 => readM .mov64fStore w
  | 26 => readM .mov80fStore w
  | 27 => readRange .pushF w
  | 28 => readRange .popF w
  | _ => .error .unassigned

/-- An unconditional form has `OP[2:0] = 000` (R92, R94 case 2). -/
def uncond (c : BitVec 3) (i : Except DecodeReject Instr) : Except DecodeReject Instr :=
  if c = 0 then i else .error .badCondition

/-- A conditional form has a condition code in `OP[2:0]` (R92, R94 case 2). -/
def withCond (c : BitVec 3) (mk : Cond → Except DecodeReject Instr) : Except DecodeReject Instr :=
  (condOf c).bind mk

/-- T = 10: control transfer; `k = OP[9:3]` the row of R92, `c = OP[2:0]` the condition (R96). -/
def decodeControl (k : Nat) (c : BitVec 3) (w : InstrWord) : Except DecodeReject Instr :=
  match k with
  | 0 => uncond c (readB .jmp w)
  | 1 => uncond c (readB .jmprR w)
  | 2 => uncond c (readA .jmprI w)
  | 3 => withCond c fun cc => readD (jmpCc cc) w
  | 4 => withCond c fun cc => readD (jmpCcrR cc) w
  | 5 => withCond c fun cc => readC (jmpCcrI cc) w
  | 6 => uncond c (readB .call w)
  | 7 => uncond c (readB .callrR w)
  | 8 => uncond c (readA .callrI w)
  | 9 => withCond c fun cc => readD (callCc cc) w
  | 10 => withCond c fun cc => readD (callCcrR cc) w
  | 11 => withCond c fun cc => readC (callCcrI cc) w
  | 12 => uncond c (readZ .ret w)
  | 13 => withCond c fun cc => readB (retCc cc) w
  | 14 => uncond c (readB .retaR w)
  | 15 => uncond c (readA .retaI w)
  | 16 => withCond c fun cc => readD (retaCcR cc) w
  | 17 => withCond c fun cc => readC (retaCcI cc) w
  | 18 => uncond c (readB .trapR w)
  | 19 => uncond c (readA10 .trapI w)
  | 20 => uncond c (readZ .reti w)
  | _ => .error .unassigned

/-- `Decode(w)` (R96): by T and OP, then by the row's template. It depends on the word alone. -/
def decode (w : InstrWord) : Except DecodeReject Instr :=
  match (typeField w).toNat with
  | 0 => decodeInt (opField w).toNat w
  | 1 => decodeFloat (opField w).toNat w
  | 2 => decodeControl (field 23 7 w).toNat (field 20 3 w) w
  | _ => decodeMove (opField w).toNat w

/-! ### Encoding -/

/-- The 5-bit code of a register (R74). -/
def regCode (r : Fin 32) : BitVec 5 := BitVec.ofNat 5 r.val

/-- The 12 leading bits T:OP of a word (R71). -/
def keyOf (t : BitVec 2) (op : BitVec 10) : BitVec 12 := t ++ op

/-- Template A. -/
def wordA (k : BitVec 12) (imm : BitVec 20) : InstrWord := k ++ imm

/-- Template B. -/
def wordB (k : BitVec 12) (a : Fin 32) : InstrWord := k ++ regCode a ++ 0#15

/-- Template C. -/
def wordC (k : BitVec 12) (a : Fin 32) (imm : BitVec 15) : InstrWord := k ++ regCode a ++ imm

/-- Template D. -/
def wordD (k : BitVec 12) (a b : Fin 32) : InstrWord := k ++ regCode a ++ regCode b ++ 0#10

/-- Template E. -/
def wordE (k : BitVec 12) (a b : Fin 32) (imm : BitVec 10) : InstrWord :=
  k ++ regCode a ++ regCode b ++ imm

/-- Template F. -/
def wordF (k : BitVec 12) (a b c : Fin 32) : InstrWord :=
  k ++ regCode a ++ regCode b ++ regCode c ++ 0#5

/-- Template G. -/
def wordG (k : BitVec 12) (a b c d : Fin 32) : InstrWord :=
  k ++ regCode a ++ regCode b ++ regCode c ++ regCode d

/-- Template M. -/
def wordM (k : BitVec 12) (a : Fin 32) (m : MemOperand) : InstrWord :=
  k ++ regCode a ++ regCode m.base ++ regCode m.index ++ scaleCode m.scale ++ 0#2

/-- Template Z (R73). -/
def wordZ (k : BitVec 12) : InstrWord := k ++ 0#20

/-- The word of an instruction (R78 to R92); total, so an ill-formed term has a word too, which `decode` rejects. -/
def encode : Instr → InstrWord
  | .movR d a => wordD (keyOf 3 0) d a
  | .movu d imm => wordC (keyOf 3 1) d imm
  | .movs d imm => wordC (keyOf 3 2) d imm
  | .movLoad d m => wordM (keyOf 3 3) d m
  | .mov8u d m => wordM (keyOf 3 4) d m
  | .mov16u d m => wordM (keyOf 3 5) d m
  | .mov32u d m => wordM (keyOf 3 6) d m
  | .mov64u d m => wordM (keyOf 3 7) d m
  | .mov8s d m => wordM (keyOf 3 8) d m
  | .mov16s d m => wordM (keyOf 3 9) d m
  | .mov32s d m => wordM (keyOf 3 10) d m
  | .mov64s d m => wordM (keyOf 3 11) d m
  | .movStore r m => wordM (keyOf 3 12) r m
  | .mov8 r m => wordM (keyOf 3 13) r m
  | .mov16 r m => wordM (keyOf 3 14) r m
  | .mov32 r m => wordM (keyOf 3 15) r m
  | .mov64 r m => wordM (keyOf 3 16) r m
  | .push i j => wordD (keyOf 3 17) i j
  | .pop i j => wordD (keyOf 3 18) i j
  | .movF d a => wordD (keyOf 3 19) d a
  | .movFLoad d m => wordM (keyOf 3 20) d m
  | .mov32fLoad d m => wordM (keyOf 3 21) d m
  | .mov64fLoad d m => wordM (keyOf 3 22) d m
  | .mov80fLoad d m => wordM (keyOf 3 23) d m
  | .mov32fStore r m => wordM (keyOf 3 24) r m
  | .mov64fStore r m => wordM (keyOf 3 25) r m
  | .mov80fStore r m => wordM (keyOf 3 26) r m
  | .pushF i j => wordD (keyOf 3 27) i j
  | .popF i j => wordD (keyOf 3 28) i j
  | .addiR d a b => wordF (keyOf 0 0) d a b
  | .addiI d a imm => wordE (keyOf 0 1) d a imm
  | .subiR d a b => wordF (keyOf 0 2) d a b
  | .subiI d a imm => wordE (keyOf 0 3) d a imm
  | .muliuR d a b => wordF (keyOf 0 4) d a b
  | .muliuI d a imm => wordE (keyOf 0 5) d a imm
  | .mulisR d a b => wordF (keyOf 0 6) d a b
  | .mulisI d a imm => wordE (keyOf 0 7) d a imm
  | .diviuR d a b => wordF (keyOf 0 8) d a b
  | .diviuI d a imm => wordE (keyOf 0 9) d a imm
  | .divisR d a b => wordF (keyOf 0 10) d a b
  | .divisI d a imm => wordE (keyOf 0 11) d a imm
  | .modiuR d a b => wordF (keyOf 0 12) d a b
  | .modiuI d a imm => wordE (keyOf 0 13) d a imm
  | .modisR d a b => wordF (keyOf 0 14) d a b
  | .modisI d a imm => wordE (keyOf 0 15) d a imm
  | .divmodiu q r a b => wordG (keyOf 0 16) q r a b
  | .divmodis q r a b => wordG (keyOf 0 17) q r a b
  | .cmpiuR d a b => wordF (keyOf 0 18) d a b
  | .cmpiuI d a imm => wordE (keyOf 0 19) d a imm
  | .cmpisR d a b => wordF (keyOf 0 20) d a b
  | .cmpisI d a imm => wordE (keyOf 0 21) d a imm
  | .andR d a b => wordF (keyOf 0 22) d a b
  | .andI d a imm => wordE (keyOf 0 23) d a imm
  | .orR d a b => wordF (keyOf 0 24) d a b
  | .orI d a imm => wordE (keyOf 0 25) d a imm
  | .xorR d a b => wordF (keyOf 0 26) d a b
  | .xorI d a imm => wordE (keyOf 0 27) d a imm
  | .andnR d a b => wordF (keyOf 0 28) d a b
  | .andnI d a imm => wordE (keyOf 0 29) d a imm
  | .ornR d a b => wordF (keyOf 0 30) d a b
  | .ornI d a imm => wordE (keyOf 0 31) d a imm
  | .xornR d a b => wordF (keyOf 0 32) d a b
  | .xornI d a imm => wordE (keyOf 0 33) d a imm
  | .lshiftR d a b => wordF (keyOf 0 34) d a b
  | .lshiftI d a imm => wordE (keyOf 0 35) d a imm
  | .rshiftR d a b => wordF (keyOf 0 36) d a b
  | .rshiftI d a imm => wordE (keyOf 0 37) d a imm
  | .rshiftsR d a b => wordF (keyOf 0 38) d a b
  | .rshiftsI d a imm => wordE (keyOf 0 39) d a imm
  | .notR d a => wordD (keyOf 0 40) d a
  | .notI d imm => wordC (keyOf 0 41) d imm
  | .addf d a b => wordF (keyOf 1 0) d a b
  | .subf d a b => wordF (keyOf 1 1) d a b
  | .mulf d a b => wordF (keyOf 1 2) d a b
  | .divf d a b => wordF (keyOf 1 3) d a b
  | .cmpf d a b => wordF (keyOf 1 4) d a b
  | .roundn d a => wordD (keyOf 1 5) d a
  | .roundl d a => wordD (keyOf 1 6) d a
  | .roundg d a => wordD (keyOf 1 7) d a
  | .roundt d a => wordD (keyOf 1 8) d a
  | .frac d a => wordD (keyOf 1 9) d a
  | .jmp a => wordB (keyOf 2 0) a
  | .jmprR a => wordB (keyOf 2 8) a
  | .jmprI imm => wordA (keyOf 2 16) imm
  | .jmpS t a => wordD (keyOf 2 24) t a
  | .jmpZ t a => wordD (keyOf 2 25) t a
  | .jmpP t a => wordD (keyOf 2 26) t a
  | .jmpNz t a => wordD (keyOf 2 27) t a
  | .jmpGe t a => wordD (keyOf 2 28) t a
  | .jmpLe t a => wordD (keyOf 2 29) t a
  | .jmpSrR t a => wordD (keyOf 2 32) t a
  | .jmpZrR t a => wordD (keyOf 2 33) t a
  | .jmpPrR t a => wordD (keyOf 2 34) t a
  | .jmpNzrR t a => wordD (keyOf 2 35) t a
  | .jmpGerR t a => wordD (keyOf 2 36) t a
  | .jmpLerR t a => wordD (keyOf 2 37) t a
  | .jmpSrI t imm => wordC (keyOf 2 40) t imm
  | .jmpZrI t imm => wordC (keyOf 2 41) t imm
  | .jmpPrI t imm => wordC (keyOf 2 42) t imm
  | .jmpNzrI t imm => wordC (keyOf 2 43) t imm
  | .jmpGerI t imm => wordC (keyOf 2 44) t imm
  | .jmpLerI t imm => wordC (keyOf 2 45) t imm
  | .call a => wordB (keyOf 2 48) a
  | .callrR a => wordB (keyOf 2 56) a
  | .callrI imm => wordA (keyOf 2 64) imm
  | .callS t a => wordD (keyOf 2 72) t a
  | .callZ t a => wordD (keyOf 2 73) t a
  | .callP t a => wordD (keyOf 2 74) t a
  | .callNz t a => wordD (keyOf 2 75) t a
  | .callGe t a => wordD (keyOf 2 76) t a
  | .callLe t a => wordD (keyOf 2 77) t a
  | .callSrR t a => wordD (keyOf 2 80) t a
  | .callZrR t a => wordD (keyOf 2 81) t a
  | .callPrR t a => wordD (keyOf 2 82) t a
  | .callNzrR t a => wordD (keyOf 2 83) t a
  | .callGerR t a => wordD (keyOf 2 84) t a
  | .callLerR t a => wordD (keyOf 2 85) t a
  | .callSrI t imm => wordC (keyOf 2 88) t imm
  | .callZrI t imm => wordC (keyOf 2 89) t imm
  | .callPrI t imm => wordC (keyOf 2 90) t imm
  | .callNzrI t imm => wordC (keyOf 2 91) t imm
  | .callGerI t imm => wordC (keyOf 2 92) t imm
  | .callLerI t imm => wordC (keyOf 2 93) t imm
  | .ret => wordZ (keyOf 2 96)
  | .retS t => wordB (keyOf 2 104) t
  | .retZ t => wordB (keyOf 2 105) t
  | .retP t => wordB (keyOf 2 106) t
  | .retNz t => wordB (keyOf 2 107) t
  | .retGe t => wordB (keyOf 2 108) t
  | .retLe t => wordB (keyOf 2 109) t
  | .retaR a => wordB (keyOf 2 112) a
  | .retaI imm => wordA (keyOf 2 120) imm
  | .retaSR t a => wordD (keyOf 2 128) t a
  | .retaZR t a => wordD (keyOf 2 129) t a
  | .retaPR t a => wordD (keyOf 2 130) t a
  | .retaNzR t a => wordD (keyOf 2 131) t a
  | .retaGeR t a => wordD (keyOf 2 132) t a
  | .retaLeR t a => wordD (keyOf 2 133) t a
  | .retaSI t imm => wordC (keyOf 2 136) t imm
  | .retaZI t imm => wordC (keyOf 2 137) t imm
  | .retaPI t imm => wordC (keyOf 2 138) t imm
  | .retaNzI t imm => wordC (keyOf 2 139) t imm
  | .retaGeI t imm => wordC (keyOf 2 140) t imm
  | .retaLeI t imm => wordC (keyOf 2 141) t imm
  | .trapR a => wordB (keyOf 2 144) a
  | .trapI imm => wordA (keyOf 2 152) (0#10 ++ imm)
  | .reti => wordZ (keyOf 2 160)

/-! ### Words and bytes -/

/-- The word whose bytes, in address order, are given (20 R48); `none` unless there are four. -/
def wordOfBytes (order : ByteOrder) : List Byte → Option InstrWord
  | [b0, b1, b2, b3] =>
    match order with
    | .little => some (b3 ++ b2 ++ b1 ++ b0)
    | .big => some (b0 ++ b1 ++ b2 ++ b3)
  | _ => none

/-- The four bytes of a word in address order (20 R48). -/
def bytesOfWord (order : ByteOrder) (w : InstrWord) : List Byte :=
  match order with
  | .little => [field 0 8 w, field 8 8 w, field 16 8 w, field 24 8 w]
  | .big => [field 24 8 w, field 16 8 w, field 8 8 w, field 0 8 w]

/-- Decode the bytes of one instruction in address order. -/
def decodeBytes (order : ByteOrder) (bs : List Byte) : Option Instr :=
  (wordOfBytes order bs).bind fun w => (decode w).toOption

/-- The instruction the decoder reads from the word whose low `nbits` bits are `w`, laid out in the default byte
order (R8) and read back in it. -/
def decodeTableWord (nbits w : Nat) : Option Instr :=
  decodeBytes Config.specDefault.byteOrder
    (bytesOfWord Config.specDefault.byteOrder (BitVec.ofNat 32 (w % 2 ^ nbits)))

end Sys2Proof
end

