-- ==== Sys2Proof/Machine/State.lean ====
section
/-! DEFINITION. The state of МУР128 as plain data (spec/10_state.md R20, spec/20_memory.md R40), the faults of
spec/60_exceptions.md R311, and the launch and reset states (spec/70_reset_and_hazards.md R341). -/

namespace Sys2Proof.Machine

/-- The one memory (20 R40) as a list of (address, byte) pairs: addresses strictly rising below 2^128, no entry equal to
`unlistedByte` (`Memory.wf`). -/
abbrev Memory := List Host.Cell

/-- What an address that is not listed reads as. The spec gives memory no launch contents (10 R32):
DESIGN CHOICE, unsafe, notes/assumptions/3.md. -/
def unlistedByte : Byte := 0

/-- The state. The register list is closed: no flags, no control register, no mode (10 R20, R29, R30). -/
structure State where
  /-- `r0` .. `r31`; `r31` is `sp`, `r30` is `bp` (10 R21, R22). -/
  x : Vector Word 32
  /-- `f0` .. `f31` (10 R25). -/
  f : Vector Word 32
  /-- The instruction pointer (10 R26). -/
  ip : Word
  /-- The one memory (20 R40). -/
  mem : Memory
  /-- The model's own: the open parameters of the run (00 R8; notes/assumptions/4.md). -/
  cfg : Config
  /-- The model's own: how many `any_128()` values have been drawn (00 R14; notes/assumptions/7.md). -/
  draws : Nat
  deriving DecidableEq, Repr

/-- The model faults of 60 R311. A fault is an outcome of the model, not an event of the machine (00 R13): it saves
nothing and runs no handler. Each carries the faulted state `left`, in which the writes of the statements before the one
that raised it stay (60 R312, 40 R137; notes/assumptions/11.md); no step goes on from there. All four are safe: the model
stops where the spec gives no continuation. -/
inductive Fault where
  /-- The word selects no instruction (30 R94). Raised by `step` when `decode` rejects, `ip` already advanced. Safe. -/
  | illegalEncoding (w : InstrWord) (left : State)
  /-- The divisor of an integer division or remainder is 0 (41 R169). Raised by the divide and remainder
  instructions, before any write. Safe. -/
  | divideByZero (left : State)
  /-- The signed quotient of -2^127 by -1 (41 R169). Raised by `divis` and `divmodis`, before any write. Safe. -/
  | divideOverflow (left : State)
  /-- Some byte of the `n` bytes at `addr` lies outside MEM_DOMAIN (20 R44 to R46). Raised by the fetch and by every
  instruction that accesses memory, at its first access that fails; never under the default MEM_DOMAIN. Safe. -/
  | unmappedAccess (addr : Word) (n : Nat) (left : State)
  deriving DecidableEq, Repr

/-- The faulted state (00 R13, 60 R312). -/
def Fault.left : Fault → State
  | .illegalEncoding _ s => s
  | .divideByZero s => s
  | .divideOverflow s => s
  | .unmappedAccess _ _ s => s

/-- Refusals: the machine of this model refuses nothing. -/
inductive Refusal where
  /-- An instruction without a meaning in `exec`. No arm raises it. Safe. -/
  | notModelled (mnemonic : String)
  deriving DecidableEq, Repr

/-- The launch state of a run from the arguments the spec names: the parameters, the registers and the memory contents;
`ip` starts at RESET_IP (10 R32, 70 R341). No register and no byte has an initial value of its own: they are arguments
(70 R340). -/
def State.launch (c : Config) (x f : Vector Word 32) (mem : Memory) : State where
  x := x
  f := f
  ip := c.resetIp
  mem := mem
  cfg := c
  draws := 0

/-- The state right after reset. The spec leaves every value open (10 R32, 70 R340, R341): registers 0 and nothing listed in
memory are DESIGN CHOICES, unsafe, notes/assumptions/1.md to 3.md. -/
def State.reset : State :=
  State.launch Config.specDefault (Vector.replicate 32 0) (Vector.replicate 32 0) []

end Sys2Proof.Machine
end

