-- ==== Sys2Proof/Machine/Flags.lean ====
section
/-! DEFINITION. What stands in the place of flags. МУР128 has no flags register (spec/10_state.md R29): compares write a
three-way result to a register (spec/41_int_arith.md R175, spec/44_float_arith.md R245), and conditional transfers test
a register against zero (spec/45_control.md R271). -/

namespace Sys2Proof.Machine

/-- `cond(cc, v)` (R271): conditions on the two's complement reading; `p` is strict. -/
def holds : Cond → Word → Bool
  | .s, v => v.msb
  | .z, v => v == 0
  | .p, v => !v.msb && v != 0
  | .nz, v => v != 0
  | .ge, v => !v.msb
  | .le, v => v.msb || v == 0

/-- The three-way result -1, 0, +1 of comparing two integers (41 R175); -1 is all ones. -/
def compareResult (p q : Int) : Word :=
  if p < q then -1 else if p = q then 0 else 1

/-- The unsigned compare (41 R170). -/
def compareUnsigned (a b : Word) : Word := compareResult a.toNat b.toNat

/-- The signed compare (41 R172). -/
def compareSigned (a b : Word) : Word := compareResult a.toInt b.toInt

/-- The result of `cmpf` (44 R245): -1, 0, +1, or +2 for unordered. -/
def fpOrderResult : FpOrder → Word
  | .lt => -1
  | .eq => 0
  | .gt => 1
  | .un => 2

end Sys2Proof.Machine
end

