-- ==== Sys2Proof/Machine/Float.lean ====
section
/-! DEFINITION. The default record FP: IEEE 754 binary128 arithmetic and the 32-, 64- and 80-bit memory formats
(spec/44_float_arith.md R240, R241, R251, R254; spec/43_float_move.md R221). Results are computed exactly on integers and
rounded once. The layouts and the IEEE rules are marked by the spec as general knowledge (notes/assumptions/9.md). -/

namespace Sys2Proof.Machine

/-- A binary format with an implicit leading bit: sign, `expBits` of biased exponent, `fracBits` of fraction. -/
structure FpFormat where
  expBits : Nat
  fracBits : Nat
  deriving DecidableEq, Repr

/-- R221: sign `[31]`, exponent `[30:23]`, fraction `[22:0]`. -/
def binary32 : FpFormat := ⟨8, 23⟩

/-- R221: sign `[63]`, exponent `[62:52]`, fraction `[51:0]`. -/
def binary64 : FpFormat := ⟨11, 52⟩

/-- R221: the 80-bit format less its explicit integer bit: exponent of 15 bits, fraction `[62:0]`. -/
def extended80 : FpFormat := ⟨15, 63⟩

/-- R240: sign `[127]`, exponent `[126:112]`, fraction `[111:0]`. -/
def binary128 : FpFormat := ⟨15, 112⟩

/-- The exponent field of infinities and NaNs. -/
def FpFormat.maxExp (f : FpFormat) : Nat := 2 ^ f.expBits - 1

/-- The exponent bias. -/
def FpFormat.bias (f : FpFormat) : Nat := 2 ^ (f.expBits - 1) - 1

/-- The power of two of the last place of a subnormal, -16494 for binary128. -/
def FpFormat.minLsb (f : FpFormat) : Int := 1 - (f.bias : Int) - f.fracBits

/-- A floating-point datum: `fin neg m e` is the number `(-1)^neg * m * 2^e`, a signed zero when `m = 0` (R240). -/
inductive FpNum where
  | nan
  | inf (neg : Bool)
  | fin (neg : Bool) (m : Nat) (e : Int)
  deriving DecidableEq, Repr

/-- Read the bits of a format (the table of R240). -/
def unpack (f : FpFormat) (v : Nat) : FpNum :=
  let neg := v / 2 ^ (f.expBits + f.fracBits) % 2 == 1
  let e := v / 2 ^ f.fracBits % 2 ^ f.expBits
  let m := v % 2 ^ f.fracBits
  if e = f.maxExp then (if m = 0 then .inf neg else .nan)
  else if e = 0 then .fin neg m f.minLsb
  else .fin neg (2 ^ f.fracBits + m) (f.minLsb + (e - 1 : Nat))

/-- `m / 2^k` rounded to the nearest integer, ties to even. -/
def roundShift (m k : Nat) : Nat :=
  let q := m / 2 ^ k
  let r := m % 2 ^ k
  if 2 * r < 2 ^ k then q else if 2 ^ k < 2 * r then q + 1 else q + q % 2

/-- The exponent and fraction bits of `m * 2^e` rounded to nearest, ties to even: subnormal below the normal range,
infinity above the largest finite number (R221, R241). -/
def roundMagnitude (f : FpFormat) (m : Nat) (e : Int) : Nat :=
  if m = 0 then 0
  else
    let lsb := max (e + (m.log2 : Int) - f.fracBits) f.minLsb
    let sig := if lsb ≤ e then m * 2 ^ (e - lsb).toNat else roundShift m (lsb - e).toNat
    min ((lsb - f.minLsb).toNat * 2 ^ f.fracBits + sig) (f.maxExp * 2 ^ f.fracBits)

/-- A sign bit above a magnitude. -/
def withSign (w : Nat) (neg : Bool) (mag : Nat) : BitVec w :=
  BitVec.ofNat w (mag + if neg then 2 ^ (w - 1) else 0)

/-- Write a datum in a format of `w` bits. -/
def pack (f : FpFormat) (w : Nat) : FpNum → FpVal w
  | .nan => .anyNan
  | .inf neg => .bits (withSign w neg (f.maxExp * 2 ^ f.fracBits))
  | .fin neg m e => .bits (withSign w neg (roundMagnitude f m e))

/-- The binary128 datum of a register. -/
def num128 (v : Word) : FpNum := unpack binary128 v.toNat

/-- Write a datum to a register. -/
def pack128 (x : FpNum) : FpVal 128 := pack binary128 128 x

/-- The 80-bit pattern of a magnitude of `extended80`: the integer bit is set when the exponent field is not 0 (R221). -/
def extend80 (neg : Bool) (mag : Nat) : BitVec 80 :=
  withSign 80 neg
    (mag / 2 ^ 63 * 2 ^ 64 + (if mag / 2 ^ 63 = 0 then 0 else 2 ^ 63) + mag % 2 ^ 63)

/-- `m` with a sign. -/
def signed (neg : Bool) (m : Nat) : Int := if neg then -(m : Int) else m

/-- The integer numerators of two numbers over their common last place. -/
def aligned (s : Bool) (m : Nat) (e : Int) (t : Bool) (n : Nat) (g : Int) : Int × Int × Int :=
  let k := min e g
  (signed s (m * 2 ^ (e - k).toNat), signed t (n * 2 ^ (g - k).toNat), k)

/-- The exact sum (R241): an exact zero is -0 only if both operands are negative. -/
def addNum : FpNum → FpNum → FpNum
  | .nan, _ => .nan
  | _, .nan => .nan
  | .inf s, .inf t => if s = t then .inf s else .nan
  | .inf s, .fin _ _ _ => .inf s
  | .fin _ _ _, .inf t => .inf t
  | .fin s m e, .fin t n g =>
    let (p, q, k) := aligned s m e t n g
    .fin (if p + q = 0 then s && t else decide (p + q < 0)) (p + q).natAbs k

/-- The datum with the other sign. -/
def negNum : FpNum → FpNum
  | .nan => .nan
  | .inf s => .inf !s
  | .fin s m e => .fin (!s) m e

/-- The exact product; the sign is the exclusive or of the signs; `0 * inf` is invalid (R241). -/
def mulNum : FpNum → FpNum → FpNum
  | .nan, _ => .nan
  | _, .nan => .nan
  | .inf s, .inf t => .inf (s ^^ t)
  | .inf s, .fin t n _ => if n = 0 then .nan else .inf (s ^^ t)
  | .fin s m _, .inf t => if m = 0 then .nan else .inf (s ^^ t)
  | .fin s m e, .fin t n g => .fin (s ^^ t) (m * n) (e + g)

/-- The quotient with enough bits to round it correctly, its last bit set if the division is not exact; `x / 0` is
infinity, `0 / 0` and `inf / inf` are invalid (R241). -/
def divNum : FpNum → FpNum → FpNum
  | .nan, _ => .nan
  | _, .nan => .nan
  | .inf _, .inf _ => .nan
  | .inf s, .fin t _ _ => .inf (s ^^ t)
  | .fin s _ _, .inf t => .fin (s ^^ t) 0 0
  | .fin s m e, .fin t n g =>
    if n = 0 then (if m = 0 then .nan else .inf (s ^^ t))
    else
      let p := m * 2 ^ 230
      .fin (s ^^ t) (2 * (p / n) + if p % n = 0 then 0 else 1) (e - g - 231)

/-- Numeric order, `-0 = +0`, unordered with a NaN (R241, R245). -/
def cmpNum : FpNum → FpNum → FpOrder
  | .nan, _ => .un
  | _, .nan => .un
  | .inf s, .inf t => if s = t then .eq else if s then .lt else .gt
  | .inf s, .fin _ _ _ => if s then .lt else .gt
  | .fin _ _ _, .inf t => if t then .gt else .lt
  | .fin s m e, .fin t n g =>
    let (p, q, _) := aligned s m e t n g
    if p < q then .lt else if p = q then .eq else .gt

/-- The integer chosen from `p / q`, `q > 0`, by the mode (R254). -/
def roundInt (tie : RoundnTie) (mode : RoundMode) (p : Int) (q : Nat) : Int :=
  match mode with
  | .floor => p / q
  | .ceiling => -(-p / q)
  | .trunc => p.tdiv q
  | .nearest =>
    let z := p / q
    let r := p % q
    if 2 * r < q then z
    else if (q : Int) < 2 * r then z + 1
    else
      match tie with
      | .even => if z % 2 = 0 then z else z + 1
      | .away => if 0 ≤ p then z + 1 else z

/-- `FP.toInt` (R254): none for a NaN, an infinity, or an integer outside -2^127 .. 2^127 - 1. -/
def toIntNum (tie : RoundnTie) (mode : RoundMode) : FpNum → Option Int
  | .fin s m e =>
    let z := if 0 ≤ e then signed s (m * 2 ^ e.toNat) else roundInt tie mode (signed s m) (2 ^ (-e).toNat)
    if -2 ^ 127 ≤ z ∧ z ≤ 2 ^ 127 - 1 then some z else none
  | _ => none

/-- `FP.frac` (R251): `val - trunc(val)`, exact, with the sign of the operand when it is not zero, else +0. -/
def fracNum : FpNum → FpVal 128
  | .fin s m e =>
    let r := if 0 ≤ e then 0 else m % 2 ^ (-e).toNat
    if r = 0 then .bits 0 else pack128 (.fin s r e)
  | _ => .any

/-- `FP.from80` (R221): a pattern whose integer bit is inconsistent with its exponent is any value. -/
def widen80 (c : BitVec 80) : FpVal 128 :=
  let neg := c.msb
  let e := (c.extractLsb' 64 15).toNat
  let m := (c.extractLsb' 0 63).toNat
  match c.getLsbD 63 with
  | false => if e = 0 then pack128 (.fin neg m extended80.minLsb) else .any
  | true =>
    if e = 0 then .any
    else if e = extended80.maxExp then (if m = 0 then pack128 (.inf neg) else .anyNan)
    else pack128 (.fin neg (2 ^ 63 + m) (extended80.minLsb + (e - 1 : Nat)))

/-- `FP.to80` (R221). -/
def narrow80 (v : Word) : FpVal 80 :=
  match num128 v with
  | .nan => .anyNan
  | .inf neg => .bits (extend80 neg (extended80.maxExp * 2 ^ 63))
  | .fin neg m e => .bits (extend80 neg (roundMagnitude extended80 m e))

/-- The default record FP (R221, R241), with ROUNDN_TIE as a parameter. -/
def ieeeFp (tie : RoundnTie) : Fp where
  add a b := pack128 (addNum (num128 a) (num128 b))
  sub a b := pack128 (addNum (num128 a) (negNum (num128 b)))
  mul a b := pack128 (mulNum (num128 a) (num128 b))
  div a b := pack128 (divNum (num128 a) (num128 b))
  cmp a b := cmpNum (num128 a) (num128 b)
  toInt mode v := toIntNum tie mode (num128 v)
  frac v := fracNum (num128 v)
  from32 c := pack128 (unpack binary32 c.toNat)
  from64 c := pack128 (unpack binary64 c.toNat)
  from80 c := widen80 c
  to32 v := pack binary32 32 (num128 v)
  to64 v := pack binary64 64 (num128 v)
  to80 v := narrow80 v

/-- The record FP in force (R241). -/
def fpOf (c : Config) : Fp :=
  match c.fp with
  | .ieee754 => ieeeFp c.roundnTie
  | .uninterpreted => Config.uninterpretedFp

/-! ### Which NaN (R240: some NaN, unspecified)

Each function sends a drawn word onto the NaN encodings of its format: every NaN is the image of some draw
(notes/assumptions/8.md). -/

/-- A fraction that is not zero, from a drawn word. -/
def nanFraction (fracBits : Nat) (d : Word) : Nat :=
  if d.toNat % 2 ^ fracBits = 0 then 1 else d.toNat % 2 ^ fracBits

/-- Some NaN of a format of `w` bits. -/
def someNan (f : FpFormat) (w : Nat) (d : Word) : BitVec w :=
  withSign w d.msb (f.maxExp * 2 ^ f.fracBits + nanFraction f.fracBits d)

/-- Some NaN of the 80-bit format. -/
def someNan80 (d : Word) : BitVec 80 :=
  extend80 d.msb (extended80.maxExp * 2 ^ 63 + nanFraction 63 d)

end Sys2Proof.Machine
end

