-- ==== Sys2Proof/Machine/Memory.lean ====
section
/-! DEFINITION. The memory as a map from addresses to bytes (spec/20_memory.md R40): reading and writing one byte, the
canonical form, and the bytes of a multi-byte cell in BYTE_ORDER (R44, R45, R50). -/

namespace Sys2Proof.Machine

/-- The byte at an address. -/
def Memory.byteAt : Memory → Nat → Byte
  | [], _ => unlistedByte
  | c :: m, a => if c.1 = a then c.2 else Memory.byteAt m a

/-- Put a cell before the first cell of a higher address. -/
def Memory.insertCell (c : Host.Cell) : Memory → Memory
  | [] => [c]
  | c' :: m => if c.1 < c'.1 then c :: c' :: m else c' :: Memory.insertCell c m

/-- The memory without its cells at an address. -/
def Memory.dropCell (a : Nat) : Memory → Memory
  | [] => []
  | c :: m => if c.1 = a then Memory.dropCell a m else c :: Memory.dropCell a m

/-- Write one byte: a byte equal to `unlistedByte` is not listed. -/
def Memory.setByte (m : Memory) (a : Nat) (b : Byte) : Memory :=
  if b = unlistedByte then Memory.dropCell a m else Memory.insertCell (a, b) (Memory.dropCell a m)

/-- The canonical form: addresses strictly rising, each below 2^128, no listed byte that an unlisted address reads as. -/
abbrev Memory.wf (m : Memory) : Prop :=
  m.Pairwise (fun c c' => c.1 < c'.1) ∧ ∀ c ∈ m, c.1 < 2 ^ 128 ∧ c.2 ≠ unlistedByte

/-- The addresses of an `n`-byte access: they wrap past the top of the space (R44, R47). -/
def byteAddrs (a : Word) (n : Nat) : List Word :=
  (List.range n).map fun k => a + BitVec.ofNat 128 k

/-- Byte `k` of a word, counted from the least significant. -/
def byteOf (v : Word) (k : Nat) : Byte := v.extractLsb' (8 * k) 8

/-- The low `n` bytes of a word in address order (R45). -/
def cellBytes (order : ByteOrder) (n : Nat) (v : Word) : List Byte :=
  match order with
  | .little => (List.range n).map fun k => byteOf v k
  | .big => (List.range n).map fun k => byteOf v (n - 1 - k)

/-- The word whose bytes, least significant first, are given; zero above them. -/
def wordOfLittle : List Byte → Word
  | [] => 0
  | b :: bs => (wordOfLittle bs <<< 8) ||| b.setWidth 128

/-- The word of the bytes of a cell in address order (R44), zero above the cell's bits. -/
def cellWord (order : ByteOrder) (bs : List Byte) : Word :=
  match order with
  | .little => wordOfLittle bs
  | .big => wordOfLittle bs.reverse

/-- Write bytes at addresses, one after another (R45). -/
def writeBytes (m : Memory) : List Word → List Byte → Memory
  | a :: as, b :: bs => writeBytes (m.setByte a.toNat b) as bs
  | _, _ => m

end Sys2Proof.Machine
end

