-- ==== Sys2Proof/Machine/Operands.lean ====
section
/-! DEFINITION. Registers as operands, the widening of immediates (spec/30_encoding.md R77), the effective address
(spec/20_memory.md R41), the targets of control transfers (spec/45_control.md R270). -/

namespace Sys2Proof.Machine

/-- Read integer register `r` (10 R21; none is hardwired). -/
def State.getX (s : State) (r : Reg) : Word := s.x[r]

/-- Write integer register `r`. -/
def State.setX (s : State) (r : Reg) (v : Word) : State := { s with x := s.x.set r.val v r.isLt }

/-- Read floating-point register `r` (10 R25). -/
def State.getF (s : State) (r : FReg) : Word := s.f[r]

/-- Write floating-point register `r`. -/
def State.setF (s : State) (r : FReg) (v : Word) : State := { s with f := s.f.set r.val v r.isLt }

/-- Write the instruction pointer: any 128-bit value, no alignment (10 R28). -/
def State.setIp (s : State) (v : Word) : State := { s with ip := v }

/-- The stack pointer is `x[31]` (10 R22). -/
def State.sp (s : State) : Word := s.getX spReg

/-- Write the stack pointer. -/
def State.setSp (s : State) (v : Word) : State := s.setX spReg v

/-- An immediate of any width, extended with its sign (R77). -/
def sext {n : Nat} (imm : BitVec n) : Word := imm.signExtend 128

/-- An immediate of any width, extended with zeros (R77). -/
def zext {n : Nat} (imm : BitVec n) : Word := imm.setWidth 128

/-- The factor of a scale (20 R42). -/
def scaleFactor : Scale → Word
  | .x1 => 1
  | .x2 => 2
  | .x4 => 4
  | .x8 => 8
  | .x16 => 16
  | .x10 => 10

/-- The effective address `x[B] + x[IX] * scale(SF)` modulo 2^128 (20 R41). -/
def State.ea (s : State) (m : MemOperand) : Word :=
  s.getX m.base + s.getX m.index * scaleFactor m.scale

/-- `RelTarget(off)`: the offset counts instructions from the next one, modulo 2^128 (R270). -/
def relTarget (ip off : Word) : Word := ip + 4 * off

end Sys2Proof.Machine
end

