-- ==== Sys2Proof/Machine/Ops.lean ====
section
/-! DEFINITION. The shared operations: memory accesses (spec/20_memory.md), the stack (R49), push and pop loops
(spec/40_int_move.md R137, R138), free values (spec/00_scope.md R14), integer division (spec/41_int_arith.md R168),
calls and returns, and the software interrupt (spec/45_control.md R300 to R302). -/

namespace Sys2Proof.Machine

/-- The outcome of one step of this machine. -/
abbrev Outcome := Host.Outcome State Fault Refusal

/-- End an instruction: a raised fault stops the run in its faulted state (00 R13, 60 R312). -/
def finish : Except Fault State → Outcome
  | .ok s => .next s
  | .error r => .fault r

/-! ### Memory -/

/-- The byte at an address. -/
def State.readByte (s : State) (a : Word) : Byte := s.mem.byteAt a.toNat

/-- Whether an address is in MEM_DOMAIN (R46). -/
def State.inDomain (s : State) (a : Word) : Bool :=
  s.cfg.memDomain.any fun r => decide (r.base ≤ a.toNat ∧ a.toNat < r.base + r.size)

/-- Whether all bytes of an access are in MEM_DOMAIN (R44, R45). -/
def State.mapped (s : State) (a : Word) (n : Nat) : Bool := (byteAddrs a n).all s.inDomain

/-- The value of the `n`-byte cell at an address, `n ≤ 16`, extended with zeros to a word (R44). -/
def State.cell (s : State) (a : Word) (n : Nat) : Word :=
  cellWord s.cfg.byteOrder ((byteAddrs a n).map s.readByte)

/-- The state after the low `n` bytes of `v` are stored at an address (R45). -/
def State.store (s : State) (a : Word) (n : Nat) (v : Word) : State :=
  { s with mem := writeBytes s.mem (byteAddrs a n) (cellBytes s.cfg.byteOrder n v) }

/-- `MemRead(addr, n)` (R44). The faulted state is the one the access finds: earlier writes of the instruction stay
(60 R312). -/
def memRead (s : State) (a : Word) (n : Nat) : Except Fault Word :=
  if s.mapped a n then .ok (s.cell a n) else .error (.unmappedAccess a n s)

/-- `MemWrite(addr, n, v)` (R45). A failing write writes nothing; the faulted state is the one it finds (60 R312). -/
def memWrite (s : State) (a : Word) (n : Nat) (v : Word) : Except Fault State :=
  if s.mapped a n then .ok (s.store a n v) else .error (.unmappedAccess a n s)

/-- The fetch (R48): `MemRead(ip, 4)`, the same memory, byte order and domain as data. -/
def fetch (s : State) : Except Fault InstrWord :=
  (memRead s s.ip 4).map fun v => v.setWidth 32

/-- The state in which the fetch has advanced `ip` to the next instruction (00 R15, 10 R28). -/
def State.advance (s : State) : State := s.setIp (s.ip + 4)

/-- Whether the run has ended: HALT_IP is set and `ip` has reached it (00 R15, 70 R344). -/
def State.halted (s : State) : Bool := decide (s.cfg.haltIp = some s.ip)

/-- The state with a 32-bit word laid out where the next fetch reads it (R48). -/
def State.withWord (s : State) (w : InstrWord) : State := s.store s.ip 4 (w.setWidth 128)

/-! ### Free values -/

/-- The value of the next draw `any_128()` (00 R14). -/
def State.anyWord (s : State) : Word := Config.anyWord s.draws

/-- The state in which that draw has been taken. -/
def State.drawn (s : State) : State := { s with draws := s.draws + 1 }

/-- The bits an FP function's answer stands for: a NaN or an unspecified value is taken from the next draw (R14, R240). -/
def fpBits {w : Nat} (nan : Word → BitVec w) (s : State) : FpVal w → BitVec w
  | .bits v => v
  | .anyNan => nan s.anyWord
  | .any => s.anyWord.setWidth w

/-- The state after an FP function's answer has been read: a draw is taken if the answer needed one. -/
def fpAfter {w : Nat} (s : State) : FpVal w → State
  | .bits _ => s
  | .anyNan => s.drawn
  | .any => s.drawn

/-- Write an FP function's answer to a floating-point register. -/
def State.setFp (s : State) (d : FReg) (v : FpVal 128) : State :=
  (fpAfter s v).setF d (fpBits (someNan binary128 128) s v)

/-! ### Loads and stores -/

/-- Extend the low `8n` bits of a word with their sign. -/
def sextCell (n : Nat) (v : Word) : Word := sext (v.setWidth (8 * n))

/-- A load into an integer register: the cell's value through `widen` (40 R123 to R131). -/
def loadX (n : Nat) (widen : Word → Word) (d : Reg) (m : MemOperand) (s : State) : Except Fault State :=
  (memRead s (s.ea m) n).map fun v => s.setX d (widen v)

/-- A store of the low `n` bytes of a register (40 R132 to R136). -/
def storeX (n : Nat) (r : Reg) (m : MemOperand) (s : State) : Except Fault State :=
  memWrite s (s.ea m) n (s.getX r)

/-- A load into a floating-point register through a conversion (43 R223 to R226). -/
def loadF (n : Nat) (convert : Word → FpVal 128) (d : FReg) (m : MemOperand) (s : State) :
    Except Fault State :=
  (memRead s (s.ea m) n).map fun v => s.setFp d (convert v)

/-- A store of a floating-point register through a narrowing conversion to `8n` bits (43 R227 to R229). -/
def storeF (n : Nat) {w : Nat} (nan : Word → BitVec w) (v : FpVal w) (m : MemOperand) (s : State) :
    Except Fault State :=
  memWrite (fpAfter s v) (s.ea m) n (zext (fpBits nan s v))

/-! ### The stack -/

/-- `sp -= 16; *sp <- v`, where `v` is read after the decrement (20 R49, 00 R12). -/
def pushSlot (v : State → Word) (s : State) : Except Fault State :=
  let s1 := s.setSp (s.sp - 16)
  memWrite s1 s1.sp 16 (v s1)

/-- `... <- *sp; sp += 16`, where `put` receives the slot's value before the increment (20 R49, 00 R12). -/
def popSlot (put : Word → State → State) (s : State) : Except Fault State :=
  (memRead s s.sp 16).map fun v =>
    let s1 := put v s
    s1.setSp (s1.sp + 16)

/-- The numbers of a range in ascending order (40 R137); none when `i > j`. -/
def regRange (i j : Fin 32) : List (Fin 32) := allRegs.filter fun n => decide (i ≤ n ∧ n ≤ j)

/-- The loop of `push`: one slot for each register of the list (40 R137, 43 R230). -/
def pushAll (get : State → Fin 32 → Word) : List (Fin 32) → State → Except Fault State
  | [], s => .ok s
  | n :: ns, s => (pushSlot (fun s1 => get s1 n) s).bind (pushAll get ns)

/-- The loop of `pop`: one slot for each register of the list (40 R138, 43 R231). -/
def popAll (put : Fin 32 → Word → State → State) : List (Fin 32) → State → Except Fault State
  | [], s => .ok s
  | n :: ns, s => (popSlot (put n) s).bind (popAll put ns)

/-- A list of registers in the order of `POP_ORDER`, given ascending (40 R138). -/
def inPopOrder (order : PopOrder) (ns : List (Fin 32)) : List (Fin 32) :=
  match order with
  | .sourceAscending => ns
  | .descending => ns.reverse

/-- Write an integer register, in the argument order of `popAll`. -/
def putX (n : Reg) (v : Word) (s : State) : State := s.setX n v

/-- Write a floating-point register, in the argument order of `popAll`. -/
def putF (n : FReg) (v : Word) (s : State) : State := s.setF n v

/-! ### Integer division (41 R168, R169) -/

/-- `Q(p, q)`: a signed quotient rounded by SDIV_ROUNDING. -/
def quotient (r : SdivRounding) (p q : Int) : Int :=
  match r with
  | .trunc => p.tdiv q
  | .floor => p.fdiv q

/-- `udiv(a, b)`; a zero divisor faults. -/
def udiv (a b : Word) (s : State) : Except Fault Word :=
  if b = 0 then .error (.divideByZero s) else .ok (BitVec.ofNat 128 (a.toNat / b.toNat))

/-- `urem(a, b)`; a zero divisor faults. -/
def urem (a b : Word) (s : State) : Except Fault Word :=
  if b = 0 then .error (.divideByZero s) else .ok (BitVec.ofNat 128 (a.toNat - a.toNat / b.toNat * b.toNat))

/-- `sdiv(a, b)`; a zero divisor faults, and the quotient of -2^127 by -1 overflows. -/
def sdiv (a b : Word) (s : State) : Except Fault Word :=
  if b = 0 then .error (.divideByZero s)
  else if a.toInt = -2 ^ 127 ∧ b.toInt = -1 then .error (.divideOverflow s)
  else .ok (BitVec.ofInt 128 (quotient s.cfg.sdivRounding a.toInt b.toInt))

/-- `srem(a, b)`; a zero divisor faults. -/
def srem (a b : Word) (s : State) : Except Fault Word :=
  if b = 0 then .error (.divideByZero s)
  else .ok (BitVec.ofInt 128 (a.toInt - quotient s.cfg.sdivRounding a.toInt b.toInt * b.toInt))

/-- Write the answer of a division to a register, or stop with its fault before any write (R169). -/
def setDivision (d : Reg) (v : State → Except Fault Word) (s : State) : Except Fault State :=
  (v s).map fun w => s.setX d w

/-- Write a quotient, then a remainder, both of the old sources: equal registers end holding the remainder
(41 R166, D15). -/
def setDivMod (q r : Reg) (quo rem : State → Except Fault Word) (s : State) : Except Fault State :=
  (quo s).bind fun v => (rem s).map fun w => (s.setX q v).setX r w

/-! ### Shifts (42 R210) -/

/-- Write `shifted n` for a count `n` below 128; a larger count gives a free value. -/
def setShift (d : Reg) (count : Word) (shifted : Nat → Word) (s : State) : State :=
  if count.toNat < 128 then s.setX d (shifted count.toNat) else s.drawn.setX d s.anyWord

/-- Write the integer `FP.toInt` answers, or a free value where it answers none (44 R254). -/
def setRounded (d : Reg) (z : Option Int) (s : State) : State :=
  match z with
  | some z => s.setX d (BitVec.ofInt 128 z)
  | none => s.drawn.setX d s.anyWord

/-! ### Control transfer (45 R278 to R289) -/

/-- Push the return address, then go to a target read after the push (R278). -/
def callTo (target : State → Word) (s : State) : Except Fault State :=
  (pushSlot (fun s1 => s1.ip) s).map fun s1 => s1.setIp (target s1)

/-- `ip <- *sp; sp += 16` (R284). -/
def popIp (s : State) : Except Fault State := popSlot (fun v s1 => s1.setIp v) s

/-- A return that also removes `size` bytes of arguments; the size is read after the pop (R286). -/
def returnWith (size : State → Word) (s : State) : Except Fault State :=
  (popIp s).map fun s1 => s1.setSp (s1.sp + size s1)

/-- Do `act` if the condition holds of the tested value; otherwise nothing changes (R271, R281). -/
def onlyIf (c : Cond) (v : Word) (act : State → Except Fault State) (s : State) : Except Fault State :=
  if holds c v then act s else .ok s

/-! ### The software interrupt (60 R315, R317) -/

/-- The address of interrupt handler `n` (20 R54, 60 R316). -/
def handlerEntry (n : BitVec 10) : Word := zext n * 16

/-- TAKING THE SOFTWARE INTERRUPT (45 R300, R301): `push r0-r31; push ip; ip <- number * 16`. The number is read after
the pushes. There is no mode, mask or cause to change (60 R315). -/
def enterTrap (number : State → BitVec 10) (s : State) : Except Fault State :=
  (pushAll State.getX allRegs s).bind fun s1 =>
    (pushSlot (fun s2 => s2.ip) s1).map fun s2 => s2.setIp (handlerEntry (number s2))

/-- RETURNING FROM IT (45 R302): `pop ip; pop r0-r31`, the registers in the order of POP_ORDER. -/
def leaveTrap (s : State) : Except Fault State :=
  (popIp s).bind (popAll putX (inPopOrder s.cfg.popOrder allRegs))

end Sys2Proof.Machine
end

