-- ==== Sys2Proof/Machine/Bitwise.lean ====
section
/-! DEFINITION. Bitwise operations, shifts and not (spec/42_bitwise.md). The immediate is sign-extended in every form (30 R77). -/

namespace Sys2Proof.Machine

/-- `and reg1, reg2, reg3` (R190). -/
def execAndR (d a b : Reg) (s : State) : Outcome :=
  .next (s.setX d (s.getX a &&& s.getX b))

/-- `and reg1, reg2, imm10` (R191). -/
def execAndI (d a : Reg) (imm : BitVec 10) (s : State) : Outcome :=
  .next (s.setX d (s.getX a &&& sext imm))

/-- `or reg1, reg2, reg3` (R192). -/
def execOrR (d a b : Reg) (s : State) : Outcome :=
  .next (s.setX d (s.getX a ||| s.getX b))

/-- `or reg1, reg2, imm10` (R193). -/
def execOrI (d a : Reg) (imm : BitVec 10) (s : State) : Outcome :=
  .next (s.setX d (s.getX a ||| sext imm))

/-- `xor reg1, reg2, reg3` (R194). -/
def execXorR (d a b : Reg) (s : State) : Outcome :=
  .next (s.setX d (s.getX a ^^^ s.getX b))

/-- `xor reg1, reg2, imm10` (R195). -/
def execXorI (d a : Reg) (imm : BitVec 10) (s : State) : Outcome :=
  .next (s.setX d (s.getX a ^^^ sext imm))

/-- `andn reg1, reg2, reg3` (R196): the second source complemented (R189). -/
def execAndnR (d a b : Reg) (s : State) : Outcome :=
  .next (s.setX d (s.getX a &&& ~~~(s.getX b)))

/-- `andn reg1, reg2, imm10` (R197): the second source complemented (R189). -/
def execAndnI (d a : Reg) (imm : BitVec 10) (s : State) : Outcome :=
  .next (s.setX d (s.getX a &&& ~~~(sext imm)))

/-- `orn reg1, reg2, reg3` (R198): the second source complemented (R189). -/
def execOrnR (d a b : Reg) (s : State) : Outcome :=
  .next (s.setX d (s.getX a ||| ~~~(s.getX b)))

/-- `orn reg1, reg2, imm10` (R199): the second source complemented (R189). -/
def execOrnI (d a : Reg) (imm : BitVec 10) (s : State) : Outcome :=
  .next (s.setX d (s.getX a ||| ~~~(sext imm)))

/-- `xorn reg1, reg2, reg3` (R200): the second source complemented (R189). -/
def execXornR (d a b : Reg) (s : State) : Outcome :=
  .next (s.setX d (s.getX a ^^^ ~~~(s.getX b)))

/-- `xorn reg1, reg2, imm10` (R201): the second source complemented (R189). -/
def execXornI (d a : Reg) (imm : BitVec 10) (s : State) : Outcome :=
  .next (s.setX d (s.getX a ^^^ ~~~(sext imm)))

/-- `lshift reg1, reg2, reg3` (R202): a count of 128 or more gives a free value (R210). -/
def execLshiftR (d a b : Reg) (s : State) : Outcome :=
  .next (setShift d (s.getX b) (fun n => s.getX a <<< n) s)

/-- `lshift reg1, reg2, imm10` (R203): a count of 128 or more gives a free value (R210). -/
def execLshiftI (d a : Reg) (imm : BitVec 10) (s : State) : Outcome :=
  .next (setShift d (sext imm) (fun n => s.getX a <<< n) s)

/-- `rshift reg1, reg2, reg3` (R204): zeros enter; a count of 128 or more gives a free value (R210). -/
def execRshiftR (d a b : Reg) (s : State) : Outcome :=
  .next (setShift d (s.getX b) (fun n => s.getX a >>> n) s)

/-- `rshift reg1, reg2, imm10` (R205): zeros enter; a count of 128 or more gives a free value (R210). -/
def execRshiftI (d a : Reg) (imm : BitVec 10) (s : State) : Outcome :=
  .next (setShift d (sext imm) (fun n => s.getX a >>> n) s)

/-- `rshifts reg1, reg2, reg3` (R206): the sign stays; a count of 128 or more gives a free value (R210). -/
def execRshiftsR (d a b : Reg) (s : State) : Outcome :=
  .next (setShift d (s.getX b) (fun n => (s.getX a).sshiftRight n) s)

/-- `rshifts reg1, reg2, imm10` (R207): the sign stays; a count of 128 or more gives a free value (R210). -/
def execRshiftsI (d a : Reg) (imm : BitVec 10) (s : State) : Outcome :=
  .next (setShift d (sext imm) (fun n => (s.getX a).sshiftRight n) s)

/-- `not reg1, reg2` (R208). -/
def execNotR (d a : Reg) (s : State) : Outcome :=
  .next (s.setX d (~~~s.getX a))

/-- `not reg, imm15` (R209): the complement of the sign-extended constant. -/
def execNotI (d : Reg) (imm : BitVec 15) (s : State) : Outcome :=
  .next (s.setX d (~~~sext imm))

end Sys2Proof.Machine
end

