-- ==== Sys2Proof/Machine/Call.lean ====
section
/-! DEFINITION. Calls (spec/45_control.md R278 to R283). -/

namespace Sys2Proof.Machine

/-- `call reg` (R278): for `call sp` the target is the decremented `sp`. -/
def execCall (a : Reg) (s : State) : Outcome :=
  finish (callTo (fun s1 => s1.getX a) s)

/-- `callr reg` (R279). -/
def execCallrR (a : Reg) (s : State) : Outcome :=
  finish (callTo (fun s1 => relTarget s1.ip (s1.getX a)) s)

/-- `callr imm20` (R280). -/
def execCallrI (imm : BitVec 20) (s : State) : Outcome :=
  finish (callTo (fun s1 => relTarget s1.ip (sext imm)) s)

/-- `calls reg1, reg2` (R281). -/
def execCallS (t a : Reg) (s : State) : Outcome :=
  finish (onlyIf .s (s.getX t) (callTo fun s1 => s1.getX a) s)

/-- `callz reg1, reg2` (R281). -/
def execCallZ (t a : Reg) (s : State) : Outcome :=
  finish (onlyIf .z (s.getX t) (callTo fun s1 => s1.getX a) s)

/-- `callp reg1, reg2` (R281). -/
def execCallP (t a : Reg) (s : State) : Outcome :=
  finish (onlyIf .p (s.getX t) (callTo fun s1 => s1.getX a) s)

/-- `callnz reg1, reg2` (R281). -/
def execCallNz (t a : Reg) (s : State) : Outcome :=
  finish (onlyIf .nz (s.getX t) (callTo fun s1 => s1.getX a) s)

/-- `callge reg1, reg2` (R281). -/
def execCallGe (t a : Reg) (s : State) : Outcome :=
  finish (onlyIf .ge (s.getX t) (callTo fun s1 => s1.getX a) s)

/-- `callle reg1, reg2` (R281). -/
def execCallLe (t a : Reg) (s : State) : Outcome :=
  finish (onlyIf .le (s.getX t) (callTo fun s1 => s1.getX a) s)

/-- `callsr reg1, reg2` (R282). -/
def execCallSrR (t a : Reg) (s : State) : Outcome :=
  finish (onlyIf .s (s.getX t) (callTo fun s1 => relTarget s1.ip (s1.getX a)) s)

/-- `callzr reg1, reg2` (R282). -/
def execCallZrR (t a : Reg) (s : State) : Outcome :=
  finish (onlyIf .z (s.getX t) (callTo fun s1 => relTarget s1.ip (s1.getX a)) s)

/-- `callpr reg1, reg2` (R282). -/
def execCallPrR (t a : Reg) (s : State) : Outcome :=
  finish (onlyIf .p (s.getX t) (callTo fun s1 => relTarget s1.ip (s1.getX a)) s)

/-- `callnzr reg1, reg2` (R282). -/
def execCallNzrR (t a : Reg) (s : State) : Outcome :=
  finish (onlyIf .nz (s.getX t) (callTo fun s1 => relTarget s1.ip (s1.getX a)) s)

/-- `callger reg1, reg2` (R282). -/
def execCallGerR (t a : Reg) (s : State) : Outcome :=
  finish (onlyIf .ge (s.getX t) (callTo fun s1 => relTarget s1.ip (s1.getX a)) s)

/-- `calller reg1, reg2` (R282). -/
def execCallLerR (t a : Reg) (s : State) : Outcome :=
  finish (onlyIf .le (s.getX t) (callTo fun s1 => relTarget s1.ip (s1.getX a)) s)

/-- `callsr reg, imm15` (R283). -/
def execCallSrI (t : Reg) (imm : BitVec 15) (s : State) : Outcome :=
  finish (onlyIf .s (s.getX t) (callTo fun s1 => relTarget s1.ip (sext imm)) s)

/-- `callzr reg, imm15` (R283). -/
def execCallZrI (t : Reg) (imm : BitVec 15) (s : State) : Outcome :=
  finish (onlyIf .z (s.getX t) (callTo fun s1 => relTarget s1.ip (sext imm)) s)

/-- `callpr reg, imm15` (R283). -/
def execCallPrI (t : Reg) (imm : BitVec 15) (s : State) : Outcome :=
  finish (onlyIf .p (s.getX t) (callTo fun s1 => relTarget s1.ip (sext imm)) s)

/-- `callnzr reg, imm15` (R283). -/
def execCallNzrI (t : Reg) (imm : BitVec 15) (s : State) : Outcome :=
  finish (onlyIf .nz (s.getX t) (callTo fun s1 => relTarget s1.ip (sext imm)) s)

/-- `callger reg, imm15` (R283). -/
def execCallGerI (t : Reg) (imm : BitVec 15) (s : State) : Outcome :=
  finish (onlyIf .ge (s.getX t) (callTo fun s1 => relTarget s1.ip (sext imm)) s)

/-- `calller reg, imm15` (R283). -/
def execCallLerI (t : Reg) (imm : BitVec 15) (s : State) : Outcome :=
  finish (onlyIf .le (s.getX t) (callTo fun s1 => relTarget s1.ip (sext imm)) s)

end Sys2Proof.Machine
end

