-- ==== Sys2Proof/Machine/FloatArith.lean ====
section
/-! DEFINITION. Floating-point arithmetic, compare, rounding and fraction (spec/44_float_arith.md); no operation faults (R253). -/

namespace Sys2Proof.Machine

/-- `addf freg1, freg2, freg3` (R242). -/
def execAddf (d a b : FReg) (s : State) : Outcome :=
  .next (s.setFp d ((fpOf s.cfg).add (s.getF a) (s.getF b)))

/-- `subf freg1, freg2, freg3` (R243). -/
def execSubf (d a b : FReg) (s : State) : Outcome :=
  .next (s.setFp d ((fpOf s.cfg).sub (s.getF a) (s.getF b)))

/-- `mulf freg1, freg2, freg3` (R244). -/
def execMulf (d a b : FReg) (s : State) : Outcome :=
  .next (s.setFp d ((fpOf s.cfg).mul (s.getF a) (s.getF b)))

/-- `divf freg1, freg2, freg3` (R246): a zero divisor is no fault (R253). -/
def execDivf (d a b : FReg) (s : State) : Outcome :=
  .next (s.setFp d ((fpOf s.cfg).div (s.getF a) (s.getF b)))

/-- `cmpf reg1, freg2, freg3` (R245): -1, 0, +1, or +2 for unordered. -/
def execCmpf (d : Reg) (a b : FReg) (s : State) : Outcome :=
  .next (s.setX d (fpOrderResult ((fpOf s.cfg).cmp (s.getF a) (s.getF b))))

/-- `roundn reg1, freg2` (R247): to the nearest integer, ties by ROUNDN_TIE. -/
def execRoundn (d : Reg) (a : FReg) (s : State) : Outcome :=
  .next (setRounded d ((fpOf s.cfg).toInt .nearest (s.getF a)) s)

/-- `roundl reg1, freg2` (R248): to the greatest integer not above. -/
def execRoundl (d : Reg) (a : FReg) (s : State) : Outcome :=
  .next (setRounded d ((fpOf s.cfg).toInt .floor (s.getF a)) s)

/-- `roundg reg1, freg2` (R249): to the least integer not below. -/
def execRoundg (d : Reg) (a : FReg) (s : State) : Outcome :=
  .next (setRounded d ((fpOf s.cfg).toInt .ceiling (s.getF a)) s)

/-- `roundt reg1, freg2` (R250): toward zero. -/
def execRoundt (d : Reg) (a : FReg) (s : State) : Outcome :=
  .next (setRounded d ((fpOf s.cfg).toInt .trunc (s.getF a)) s)

/-- `frac freg1, freg2` (R251). -/
def execFrac (d a : FReg) (s : State) : Outcome :=
  .next (s.setFp d ((fpOf s.cfg).frac (s.getF a)))

end Sys2Proof.Machine
end

