-- ==== Sys2Proof/Machine/FloatMove.lean ====
section
/-! DEFINITION. Floating-point moves, loads, stores, push and pop (spec/43_float_move.md). -/

namespace Sys2Proof.Machine

/-- `mov freg1, freg2` (R222): all 128 bits, no NaN quieting. -/
def execMovF (d a : FReg) (s : State) : Outcome :=
  .next (s.setF d (s.getF a))

/-- `mov freg, [mem128]` (R223): no conversion. -/
def execMovFLoad (d : FReg) (m : MemOperand) (s : State) : Outcome :=
  finish (loadF 16 .bits d m s)

/-- `mov32f freg, [mem32]` (R224): through `FP.from32`. -/
def execMov32fLoad (d : FReg) (m : MemOperand) (s : State) : Outcome :=
  finish (loadF 4 (fun v => (fpOf s.cfg).from32 (v.setWidth 32)) d m s)

/-- `mov64f freg, [mem64]` (R225): through `FP.from64`. -/
def execMov64fLoad (d : FReg) (m : MemOperand) (s : State) : Outcome :=
  finish (loadF 8 (fun v => (fpOf s.cfg).from64 (v.setWidth 64)) d m s)

/-- `mov80f freg, [mem80]` (R226): through `FP.from80`. -/
def execMov80fLoad (d : FReg) (m : MemOperand) (s : State) : Outcome :=
  finish (loadF 10 (fun v => (fpOf s.cfg).from80 (v.setWidth 80)) d m s)

/-- `mov32f [mem32], freg` (R227): through `FP.to32`. -/
def execMov32fStore (r : FReg) (m : MemOperand) (s : State) : Outcome :=
  finish (storeF 4 (someNan binary32 32) ((fpOf s.cfg).to32 (s.getF r)) m s)

/-- `mov64f [mem64], freg` (R228): through `FP.to64`. -/
def execMov64fStore (r : FReg) (m : MemOperand) (s : State) : Outcome :=
  finish (storeF 8 (someNan binary64 64) ((fpOf s.cfg).to64 (s.getF r)) m s)

/-- `mov80f [mem80], freg` (R229): through `FP.to80`. -/
def execMov80fStore (r : FReg) (m : MemOperand) (s : State) : Outcome :=
  finish (storeF 10 someNan80 ((fpOf s.cfg).to80 (s.getF r)) m s)

/-- `push fi-fj` (R230): `fi` first, `fj` on top. -/
def execPushF (i j : FReg) (s : State) : Outcome :=
  finish (pushAll State.getF (regRange i j) s)

/-- `pop fi-fj` (R231): in the order of POP_ORDER. -/
def execPopF (i j : FReg) (s : State) : Outcome :=
  finish (popAll putF (inPopOrder s.cfg.popOrder (regRange i j)) s)

end Sys2Proof.Machine
end

