-- ==== Sys2Proof/Machine/IntArith.lean ====
section
/-! DEFINITION. Integer arithmetic and compare (spec/41_int_arith.md). The immediate is sign-extended in every form (30 R77). -/

namespace Sys2Proof.Machine

/-- `addi reg1, reg2, reg3` (R150): modulo 2^128. -/
def execAddiR (d a b : Reg) (s : State) : Outcome :=
  .next (s.setX d (s.getX a + s.getX b))

/-- `addi reg1, reg2, imm10` (R151): modulo 2^128. -/
def execAddiI (d a : Reg) (imm : BitVec 10) (s : State) : Outcome :=
  .next (s.setX d (s.getX a + sext imm))

/-- `subi reg1, reg2, reg3` (R152): modulo 2^128. -/
def execSubiR (d a b : Reg) (s : State) : Outcome :=
  .next (s.setX d (s.getX a - s.getX b))

/-- `subi reg1, reg2, imm10` (R153): modulo 2^128. -/
def execSubiI (d a : Reg) (imm : BitVec 10) (s : State) : Outcome :=
  .next (s.setX d (s.getX a - sext imm))

/-- `muliu reg1, reg2, reg3` (R154): the low 128 bits of the unsigned product. -/
def execMuliuR (d a b : Reg) (s : State) : Outcome :=
  .next (s.setX d (BitVec.ofNat 128 (uval (s.getX a) * uval (s.getX b))))

/-- `muliu reg1, reg2, imm10` (R155): the low 128 bits of the unsigned product. -/
def execMuliuI (d a : Reg) (imm : BitVec 10) (s : State) : Outcome :=
  .next (s.setX d (BitVec.ofNat 128 (uval (s.getX a) * uval (sext imm))))

/-- `mulis reg1, reg2, reg3` (R156): the low 128 bits of the signed product. -/
def execMulisR (d a b : Reg) (s : State) : Outcome :=
  .next (s.setX d (BitVec.ofInt 128 (sval (s.getX a) * sval (s.getX b))))

/-- `mulis reg1, reg2, imm10` (R157): the low 128 bits of the signed product. -/
def execMulisI (d a : Reg) (imm : BitVec 10) (s : State) : Outcome :=
  .next (s.setX d (BitVec.ofInt 128 (sval (s.getX a) * sval (sext imm))))

/-- `diviu reg1, reg2, reg3` (R158): the unsigned quotient. -/
def execDiviuR (d a b : Reg) (s : State) : Outcome :=
  finish (setDivision d (udiv (s.getX a) (s.getX b)) s)

/-- `diviu reg1, reg2, imm10` (R159): the unsigned quotient. -/
def execDiviuI (d a : Reg) (imm : BitVec 10) (s : State) : Outcome :=
  finish (setDivision d (udiv (s.getX a) (sext imm)) s)

/-- `divis reg1, reg2, reg3` (R160): the signed quotient. -/
def execDivisR (d a b : Reg) (s : State) : Outcome :=
  finish (setDivision d (sdiv (s.getX a) (s.getX b)) s)

/-- `divis reg1, reg2, imm10` (R161): the signed quotient. -/
def execDivisI (d a : Reg) (imm : BitVec 10) (s : State) : Outcome :=
  finish (setDivision d (sdiv (s.getX a) (sext imm)) s)

/-- `modiu reg1, reg2, reg3` (R162): the unsigned remainder. -/
def execModiuR (d a b : Reg) (s : State) : Outcome :=
  finish (setDivision d (urem (s.getX a) (s.getX b)) s)

/-- `modiu reg1, reg2, imm10` (R163): the unsigned remainder. -/
def execModiuI (d a : Reg) (imm : BitVec 10) (s : State) : Outcome :=
  finish (setDivision d (urem (s.getX a) (sext imm)) s)

/-- `modis reg1, reg2, reg3` (R164): the signed remainder. -/
def execModisR (d a b : Reg) (s : State) : Outcome :=
  finish (setDivision d (srem (s.getX a) (s.getX b)) s)

/-- `modis reg1, reg2, imm10` (R165): the signed remainder. -/
def execModisI (d a : Reg) (imm : BitVec 10) (s : State) : Outcome :=
  finish (setDivision d (srem (s.getX a) (sext imm)) s)

/-- `divmodiu reg1, reg2, reg3, reg4` (R166): quotient to `reg1`, then remainder to `reg2` (D15). -/
def execDivmodiu (q r a b : Reg) (s : State) : Outcome :=
  finish (setDivMod q r (udiv (s.getX a) (s.getX b)) (urem (s.getX a) (s.getX b)) s)

/-- `divmodis reg1, reg2, reg3, reg4` (R167): quotient to `reg1`, then remainder to `reg2` (D15). -/
def execDivmodis (q r a b : Reg) (s : State) : Outcome :=
  finish (setDivMod q r (sdiv (s.getX a) (s.getX b)) (srem (s.getX a) (s.getX b)) s)

/-- `cmpiu reg1, reg2, reg3` (R170): -1, 0 or +1. -/
def execCmpiuR (d a b : Reg) (s : State) : Outcome :=
  .next (s.setX d (compareUnsigned (s.getX a) (s.getX b)))

/-- `cmpiu reg1, reg2, imm10` (R171): -1, 0 or +1. -/
def execCmpiuI (d a : Reg) (imm : BitVec 10) (s : State) : Outcome :=
  .next (s.setX d (compareUnsigned (s.getX a) (sext imm)))

/-- `cmpis reg1, reg2, reg3` (R172): -1, 0 or +1. -/
def execCmpisR (d a b : Reg) (s : State) : Outcome :=
  .next (s.setX d (compareSigned (s.getX a) (s.getX b)))

/-- `cmpis reg1, reg2, imm10` (R173): -1, 0 or +1. -/
def execCmpisI (d a : Reg) (imm : BitVec 10) (s : State) : Outcome :=
  .next (s.setX d (compareSigned (s.getX a) (sext imm)))

end Sys2Proof.Machine
end

