-- ==== Sys2Proof/Machine/IntMove.lean ====
section
/-! DEFINITION. Integer moves, loads, stores, push and pop (spec/40_int_move.md). -/

namespace Sys2Proof.Machine

/-- `mov reg1, reg2` (R120). -/
def execMovR (d a : Reg) (s : State) : Outcome :=
  .next (s.setX d (s.getX a))

/-- `movu reg, imm15` (R121): 0 .. 32767. -/
def execMovu (d : Reg) (imm : BitVec 15) (s : State) : Outcome :=
  .next (s.setX d (zext imm))

/-- `movs reg, imm15` (R122): -16384 .. 16383. -/
def execMovs (d : Reg) (imm : BitVec 15) (s : State) : Outcome :=
  .next (s.setX d (sext imm))

/-- `mov reg, [mem128]` (R123): all 128 bits. -/
def execMovLoad (d : Reg) (m : MemOperand) (s : State) : Outcome :=
  finish (loadX 16 id d m s)

/-- `mov8u reg, [mem8]` (R124): zero-extended. -/
def execMov8u (d : Reg) (m : MemOperand) (s : State) : Outcome :=
  finish (loadX 1 id d m s)

/-- `mov16u reg, [mem16]` (R125): zero-extended. -/
def execMov16u (d : Reg) (m : MemOperand) (s : State) : Outcome :=
  finish (loadX 2 id d m s)

/-- `mov32u reg, [mem32]` (R126): zero-extended. -/
def execMov32u (d : Reg) (m : MemOperand) (s : State) : Outcome :=
  finish (loadX 4 id d m s)

/-- `mov64u reg, [mem64]` (R127): zero-extended. -/
def execMov64u (d : Reg) (m : MemOperand) (s : State) : Outcome :=
  finish (loadX 8 id d m s)

/-- `mov8s reg, [mem8]` (R128): sign-extended. -/
def execMov8s (d : Reg) (m : MemOperand) (s : State) : Outcome :=
  finish (loadX 1 (sextCell 1) d m s)

/-- `mov16s reg, [mem16]` (R129): sign-extended. -/
def execMov16s (d : Reg) (m : MemOperand) (s : State) : Outcome :=
  finish (loadX 2 (sextCell 2) d m s)

/-- `mov32s reg, [mem32]` (R130): sign-extended. -/
def execMov32s (d : Reg) (m : MemOperand) (s : State) : Outcome :=
  finish (loadX 4 (sextCell 4) d m s)

/-- `mov64s reg, [mem64]` (R131): sign-extended. -/
def execMov64s (d : Reg) (m : MemOperand) (s : State) : Outcome :=
  finish (loadX 8 (sextCell 8) d m s)

/-- `mov [mem128], reg` (R132). -/
def execMovStore (r : Reg) (m : MemOperand) (s : State) : Outcome :=
  finish (storeX 16 r m s)

/-- `mov8 [mem8], reg` (R133): the low 8 bits. -/
def execMov8 (r : Reg) (m : MemOperand) (s : State) : Outcome :=
  finish (storeX 1 r m s)

/-- `mov16 [mem16], reg` (R134): the low 16 bits. -/
def execMov16 (r : Reg) (m : MemOperand) (s : State) : Outcome :=
  finish (storeX 2 r m s)

/-- `mov32 [mem32], reg` (R135): the low 32 bits. -/
def execMov32 (r : Reg) (m : MemOperand) (s : State) : Outcome :=
  finish (storeX 4 r m s)

/-- `mov64 [mem64], reg` (R136): the low 64 bits. -/
def execMov64 (r : Reg) (m : MemOperand) (s : State) : Outcome :=
  finish (storeX 8 r m s)

/-- `push ri-rj` (R137): `ri` first, `rj` on top; the slot of `r31` gets the decremented `sp`. -/
def execPush (i j : Reg) (s : State) : Outcome :=
  finish (pushAll State.getX (regRange i j) s)

/-- `pop ri-rj` (R138): in the order of POP_ORDER. -/
def execPop (i j : Reg) (s : State) : Outcome :=
  finish (popAll putX (inPopOrder s.cfg.popOrder (regRange i j)) s)

end Sys2Proof.Machine
end

