-- ==== Sys2Proof/Machine/Jump.lean ====
section
/-! DEFINITION. Jumps (spec/45_control.md R272 to R277). `ip` is the address of the next instruction (10 R27). -/

namespace Sys2Proof.Machine

/-- `jmp reg` (R272): an absolute target, used as it is (R270). -/
def execJmp (a : Reg) (s : State) : Outcome :=
  .next (s.setIp (s.getX a))

/-- `jmpr reg` (R273). -/
def execJmprR (a : Reg) (s : State) : Outcome :=
  .next (s.setIp (relTarget s.ip (s.getX a)))

/-- `jmpr imm20` (R274). -/
def execJmprI (imm : BitVec 20) (s : State) : Outcome :=
  .next (s.setIp (relTarget s.ip (sext imm)))

/-- `jmps reg1, reg2` (R275). -/
def execJmpS (t a : Reg) (s : State) : Outcome :=
  finish (onlyIf .s (s.getX t) (fun s1 => .ok (s1.setIp (s1.getX a))) s)

/-- `jmpz reg1, reg2` (R275). -/
def execJmpZ (t a : Reg) (s : State) : Outcome :=
  finish (onlyIf .z (s.getX t) (fun s1 => .ok (s1.setIp (s1.getX a))) s)

/-- `jmpp reg1, reg2` (R275). -/
def execJmpP (t a : Reg) (s : State) : Outcome :=
  finish (onlyIf .p (s.getX t) (fun s1 => .ok (s1.setIp (s1.getX a))) s)

/-- `jmpnz reg1, reg2` (R275). -/
def execJmpNz (t a : Reg) (s : State) : Outcome :=
  finish (onlyIf .nz (s.getX t) (fun s1 => .ok (s1.setIp (s1.getX a))) s)

/-- `jmpge reg1, reg2` (R275). -/
def execJmpGe (t a : Reg) (s : State) : Outcome :=
  finish (onlyIf .ge (s.getX t) (fun s1 => .ok (s1.setIp (s1.getX a))) s)

/-- `jmple reg1, reg2` (R275). -/
def execJmpLe (t a : Reg) (s : State) : Outcome :=
  finish (onlyIf .le (s.getX t) (fun s1 => .ok (s1.setIp (s1.getX a))) s)

/-- `jmpsr reg1, reg2` (R276). -/
def execJmpSrR (t a : Reg) (s : State) : Outcome :=
  finish (onlyIf .s (s.getX t) (fun s1 => .ok (s1.setIp (relTarget s1.ip (s1.getX a)))) s)

/-- `jmpzr reg1, reg2` (R276). -/
def execJmpZrR (t a : Reg) (s : State) : Outcome :=
  finish (onlyIf .z (s.getX t) (fun s1 => .ok (s1.setIp (relTarget s1.ip (s1.getX a)))) s)

/-- `jmppr reg1, reg2` (R276). -/
def execJmpPrR (t a : Reg) (s : State) : Outcome :=
  finish (onlyIf .p (s.getX t) (fun s1 => .ok (s1.setIp (relTarget s1.ip (s1.getX a)))) s)

/-- `jmpnzr reg1, reg2` (R276). -/
def execJmpNzrR (t a : Reg) (s : State) : Outcome :=
  finish (onlyIf .nz (s.getX t) (fun s1 => .ok (s1.setIp (relTarget s1.ip (s1.getX a)))) s)

/-- `jmpger reg1, reg2` (R276). -/
def execJmpGerR (t a : Reg) (s : State) : Outcome :=
  finish (onlyIf .ge (s.getX t) (fun s1 => .ok (s1.setIp (relTarget s1.ip (s1.getX a)))) s)

/-- `jmpler reg1, reg2` (R276). -/
def execJmpLerR (t a : Reg) (s : State) : Outcome :=
  finish (onlyIf .le (s.getX t) (fun s1 => .ok (s1.setIp (relTarget s1.ip (s1.getX a)))) s)

/-- `jmpsr reg, imm15` (R277). -/
def execJmpSrI (t : Reg) (imm : BitVec 15) (s : State) : Outcome :=
  finish (onlyIf .s (s.getX t) (fun s1 => .ok (s1.setIp (relTarget s1.ip (sext imm)))) s)

/-- `jmpzr reg, imm15` (R277). -/
def execJmpZrI (t : Reg) (imm : BitVec 15) (s : State) : Outcome :=
  finish (onlyIf .z (s.getX t) (fun s1 => .ok (s1.setIp (relTarget s1.ip (sext imm)))) s)

/-- `jmppr reg, imm15` (R277). -/
def execJmpPrI (t : Reg) (imm : BitVec 15) (s : State) : Outcome :=
  finish (onlyIf .p (s.getX t) (fun s1 => .ok (s1.setIp (relTarget s1.ip (sext imm)))) s)

/-- `jmpnzr reg, imm15` (R277). -/
def execJmpNzrI (t : Reg) (imm : BitVec 15) (s : State) : Outcome :=
  finish (onlyIf .nz (s.getX t) (fun s1 => .ok (s1.setIp (relTarget s1.ip (sext imm)))) s)

/-- `jmpger reg, imm15` (R277). -/
def execJmpGerI (t : Reg) (imm : BitVec 15) (s : State) : Outcome :=
  finish (onlyIf .ge (s.getX t) (fun s1 => .ok (s1.setIp (relTarget s1.ip (sext imm)))) s)

/-- `jmpler reg, imm15` (R277). -/
def execJmpLerI (t : Reg) (imm : BitVec 15) (s : State) : Outcome :=
  finish (onlyIf .le (s.getX t) (fun s1 => .ok (s1.setIp (relTarget s1.ip (sext imm)))) s)

end Sys2Proof.Machine
end

