-- ==== Sys2Proof/Machine/Return.lean ====
section
/-! DEFINITION. Returns (spec/45_control.md R284 to R289). -/

namespace Sys2Proof.Machine

/-- `ret` (R284). -/
def execRet (s : State) : Outcome :=
  finish (popIp s)

/-- `rets reg` (R285). -/
def execRetS (t : Reg) (s : State) : Outcome :=
  finish (onlyIf .s (s.getX t) popIp s)

/-- `retz reg` (R285). -/
def execRetZ (t : Reg) (s : State) : Outcome :=
  finish (onlyIf .z (s.getX t) popIp s)

/-- `retp reg` (R285). -/
def execRetP (t : Reg) (s : State) : Outcome :=
  finish (onlyIf .p (s.getX t) popIp s)

/-- `retnz reg` (R285). -/
def execRetNz (t : Reg) (s : State) : Outcome :=
  finish (onlyIf .nz (s.getX t) popIp s)

/-- `retge reg` (R285). -/
def execRetGe (t : Reg) (s : State) : Outcome :=
  finish (onlyIf .ge (s.getX t) popIp s)

/-- `retle reg` (R285). -/
def execRetLe (t : Reg) (s : State) : Outcome :=
  finish (onlyIf .le (s.getX t) popIp s)

/-- `reta reg` (R286): for `reta sp` the popped `sp` is doubled. -/
def execRetaR (a : Reg) (s : State) : Outcome :=
  finish (returnWith (fun s1 => s1.getX a) s)

/-- `reta imm20` (R287): the size is zero-extended. -/
def execRetaI (imm : BitVec 20) (s : State) : Outcome :=
  finish (returnWith (fun _ => zext imm) s)

/-- `retas reg1, reg2` (R288). -/
def execRetaSR (t a : Reg) (s : State) : Outcome :=
  finish (onlyIf .s (s.getX t) (returnWith fun s1 => s1.getX a) s)

/-- `retaz reg1, reg2` (R288). -/
def execRetaZR (t a : Reg) (s : State) : Outcome :=
  finish (onlyIf .z (s.getX t) (returnWith fun s1 => s1.getX a) s)

/-- `retap reg1, reg2` (R288). -/
def execRetaPR (t a : Reg) (s : State) : Outcome :=
  finish (onlyIf .p (s.getX t) (returnWith fun s1 => s1.getX a) s)

/-- `retanz reg1, reg2` (R288). -/
def execRetaNzR (t a : Reg) (s : State) : Outcome :=
  finish (onlyIf .nz (s.getX t) (returnWith fun s1 => s1.getX a) s)

/-- `retage reg1, reg2` (R288). -/
def execRetaGeR (t a : Reg) (s : State) : Outcome :=
  finish (onlyIf .ge (s.getX t) (returnWith fun s1 => s1.getX a) s)

/-- `retale reg1, reg2` (R288). -/
def execRetaLeR (t a : Reg) (s : State) : Outcome :=
  finish (onlyIf .le (s.getX t) (returnWith fun s1 => s1.getX a) s)

/-- `retas reg, imm15` (R289). -/
def execRetaSI (t : Reg) (imm : BitVec 15) (s : State) : Outcome :=
  finish (onlyIf .s (s.getX t) (returnWith fun _ => zext imm) s)

/-- `retaz reg, imm15` (R289). -/
def execRetaZI (t : Reg) (imm : BitVec 15) (s : State) : Outcome :=
  finish (onlyIf .z (s.getX t) (returnWith fun _ => zext imm) s)

/-- `retap reg, imm15` (R289). -/
def execRetaPI (t : Reg) (imm : BitVec 15) (s : State) : Outcome :=
  finish (onlyIf .p (s.getX t) (returnWith fun _ => zext imm) s)

/-- `retanz reg, imm15` (R289). -/
def execRetaNzI (t : Reg) (imm : BitVec 15) (s : State) : Outcome :=
  finish (onlyIf .nz (s.getX t) (returnWith fun _ => zext imm) s)

/-- `retage reg, imm15` (R289). -/
def execRetaGeI (t : Reg) (imm : BitVec 15) (s : State) : Outcome :=
  finish (onlyIf .ge (s.getX t) (returnWith fun _ => zext imm) s)

/-- `retale reg, imm15` (R289). -/
def execRetaLeI (t : Reg) (imm : BitVec 15) (s : State) : Outcome :=
  finish (onlyIf .le (s.getX t) (returnWith fun _ => zext imm) s)

end Sys2Proof.Machine
end

