-- ==== Sys2Proof/Machine/System.lean ====
section
/-! DEFINITION. The software interrupt (spec/45_control.md R300 to R302, spec/60_exceptions.md R315, R317). -/

namespace Sys2Proof.Machine

/-- `trap reg` (R300): the low 10 bits of `reg`, read after the pushes. -/
def execTrapR (a : Reg) (s : State) : Outcome :=
  finish (enterTrap (fun s1 => (s1.getX a).setWidth 10) s)

/-- `trap imm10` (R301): an unsigned number. -/
def execTrapI (imm : BitVec 10) (s : State) : Outcome :=
  finish (enterTrap (fun _ => imm) s)

/-- `reti` (R302). -/
def execReti (s : State) : Outcome :=
  finish (leaveTrap s)

end Sys2Proof.Machine
end

