-- ==== Sys2Proof/Machine/Dispatch.lean ====
section
/-! DEFINITION. The dispatch: one arm per constructor of Instr, one direct call of its meaning. -/

namespace Sys2Proof.Machine

/-- Execute an instruction; `ip` already names the next one (00 R15). -/
def exec (i : Instr) (s : State) : Host.Outcome State Fault Refusal :=
  match i with
  | .movR d a => Sys2Proof.Machine.execMovR d a s
  | .movu d imm => Sys2Proof.Machine.execMovu d imm s
  | .movs d imm => Sys2Proof.Machine.execMovs d imm s
  | .movLoad d m => Sys2Proof.Machine.execMovLoad d m s
  | .mov8u d m => Sys2Proof.Machine.execMov8u d m s
  | .mov16u d m => Sys2Proof.Machine.execMov16u d m s
  | .mov32u d m => Sys2Proof.Machine.execMov32u d m s
  | .mov64u d m => Sys2Proof.Machine.execMov64u d m s
  | .mov8s d m => Sys2Proof.Machine.execMov8s d m s
  | .mov16s d m => Sys2Proof.Machine.execMov16s d m s
  | .mov32s d m => Sys2Proof.Machine.execMov32s d m s
  | .mov64s d m => Sys2Proof.Machine.execMov64s d m s
  | .movStore r m => Sys2Proof.Machine.execMovStore r m s
  | .mov8 r m => Sys2Proof.Machine.execMov8 r m s
  | .mov16 r m => Sys2Proof.Machine.execMov16 r m s
  | .mov32 r m => Sys2Proof.Machine.execMov32 r m s
  | .mov64 r m => Sys2Proof.Machine.execMov64 r m s
  | .push ri rj => Sys2Proof.Machine.execPush ri rj s
  | .pop ri rj => Sys2Proof.Machine.execPop ri rj s
  | .movF d a => Sys2Proof.Machine.execMovF d a s
  | .movFLoad d m => Sys2Proof.Machine.execMovFLoad d m s
  | .mov32fLoad d m => Sys2Proof.Machine.execMov32fLoad d m s
  | .mov64fLoad d m => Sys2Proof.Machine.execMov64fLoad d m s
  | .mov80fLoad d m => Sys2Proof.Machine.execMov80fLoad d m s
  | .mov32fStore r m => Sys2Proof.Machine.execMov32fStore r m s
  | .mov64fStore r m => Sys2Proof.Machine.execMov64fStore r m s
  | .mov80fStore r m => Sys2Proof.Machine.execMov80fStore r m s
  | .pushF ri rj => Sys2Proof.Machine.execPushF ri rj s
  | .popF ri rj => Sys2Proof.Machine.execPopF ri rj s
  | .addiR d a b => Sys2Proof.Machine.execAddiR d a b s
  | .addiI d a imm => Sys2Proof.Machine.execAddiI d a imm s
  | .subiR d a b => Sys2Proof.Machine.execSubiR d a b s
  | .subiI d a imm => Sys2Proof.Machine.execSubiI d a imm s
  | .muliuR d a b => Sys2Proof.Machine.execMuliuR d a b s
  | .muliuI d a imm => Sys2Proof.Machine.execMuliuI d a imm s
  | .mulisR d a b => Sys2Proof.Machine.execMulisR d a b s
  | .mulisI d a imm => Sys2Proof.Machine.execMulisI d a imm s
  | .diviuR d a b => Sys2Proof.Machine.execDiviuR d a b s
  | .diviuI d a imm => Sys2Proof.Machine.execDiviuI d a imm s
  | .divisR d a b => Sys2Proof.Machine.execDivisR d a b s
  | .divisI d a imm => Sys2Proof.Machine.execDivisI d a imm s
  | .modiuR d a b => Sys2Proof.Machine.execModiuR d a b s
  | .modiuI d a imm => Sys2Proof.Machine.execModiuI d a imm s
  | .modisR d a b => Sys2Proof.Machine.execModisR d a b s
  | .modisI d a imm => Sys2Proof.Machine.execModisI d a imm s
  | .divmodiu q r a b => Sys2Proof.Machine.execDivmodiu q r a b s
  | .divmodis q r a b => Sys2Proof.Machine.execDivmodis q r a b s
  | .cmpiuR d a b => Sys2Proof.Machine.execCmpiuR d a b s
  | .cmpiuI d a imm => Sys2Proof.Machine.execCmpiuI d a imm s
  | .cmpisR d a b => Sys2Proof.Machine.execCmpisR d a b s
  | .cmpisI d a imm => Sys2Proof.Machine.execCmpisI d a imm s
  | .andR d a b => Sys2Proof.Machine.execAndR d a b s
  | .andI d a imm => Sys2Proof.Machine.execAndI d a imm s
  | .orR d a b => Sys2Proof.Machine.execOrR d a b s
  | .orI d a imm => Sys2Proof.Machine.execOrI d a imm s
  | .xorR d a b => Sys2Proof.Machine.execXorR d a b s
  | .xorI d a imm => Sys2Proof.Machine.execXorI d a imm s
  | .andnR d a b => Sys2Proof.Machine.execAndnR d a b s
  | .andnI d a imm => Sys2Proof.Machine.execAndnI d a imm s
  | .ornR d a b => Sys2Proof.Machine.execOrnR d a b s
  | .ornI d a imm => Sys2Proof.Machine.execOrnI d a imm s
  | .xornR d a b => Sys2Proof.Machine.execXornR d a b s
  | .xornI d a imm => Sys2Proof.Machine.execXornI d a imm s
  | .lshiftR d a b => Sys2Proof.Machine.execLshiftR d a b s
  | .lshiftI d a imm => Sys2Proof.Machine.execLshiftI d a imm s
  | .rshiftR d a b => Sys2Proof.Machine.execRshiftR d a b s
  | .rshiftI d a imm => Sys2Proof.Machine.execRshiftI d a imm s
  | .rshiftsR d a b => Sys2Proof.Machine.execRshiftsR d a b s
  | .rshiftsI d a imm => Sys2Proof.Machine.execRshiftsI d a imm s
  | .notR d a => Sys2Proof.Machine.execNotR d a s
  | .notI d imm => Sys2Proof.Machine.execNotI d imm s
  | .addf d a b => Sys2Proof.Machine.execAddf d a b s
  | .subf d a b => Sys2Proof.Machine.execSubf d a b s
  | .mulf d a b => Sys2Proof.Machine.execMulf d a b s
  | .divf d a b => Sys2Proof.Machine.execDivf d a b s
  | .cmpf d a b => Sys2Proof.Machine.execCmpf d a b s
  | .roundn d a => Sys2Proof.Machine.execRoundn d a s
  | .roundl d a => Sys2Proof.Machine.execRoundl d a s
  | .roundg d a => Sys2Proof.Machine.execRoundg d a s
  | .roundt d a => Sys2Proof.Machine.execRoundt d a s
  | .frac d a => Sys2Proof.Machine.execFrac d a s
  | .jmp a => Sys2Proof.Machine.execJmp a s
  | .jmprR a => Sys2Proof.Machine.execJmprR a s
  | .jmprI imm => Sys2Proof.Machine.execJmprI imm s
  | .jmpS t a => Sys2Proof.Machine.execJmpS t a s
  | .jmpZ t a => Sys2Proof.Machine.execJmpZ t a s
  | .jmpP t a => Sys2Proof.Machine.execJmpP t a s
  | .jmpNz t a => Sys2Proof.Machine.execJmpNz t a s
  | .jmpGe t a => Sys2Proof.Machine.execJmpGe t a s
  | .jmpLe t a => Sys2Proof.Machine.execJmpLe t a s
  | .jmpSrR t a => Sys2Proof.Machine.execJmpSrR t a s
  | .jmpZrR t a => Sys2Proof.Machine.execJmpZrR t a s
  | .jmpPrR t a => Sys2Proof.Machine.execJmpPrR t a s
  | .jmpNzrR t a => Sys2Proof.Machine.execJmpNzrR t a s
  | .jmpGerR t a => Sys2Proof.Machine.execJmpGerR t a s
  | .jmpLerR t a => Sys2Proof.Machine.execJmpLerR t a s
  | .jmpSrI t imm => Sys2Proof.Machine.execJmpSrI t imm s
  | .jmpZrI t imm => Sys2Proof.Machine.execJmpZrI t imm s
  | .jmpPrI t imm => Sys2Proof.Machine.execJmpPrI t imm s
  | .jmpNzrI t imm => Sys2Proof.Machine.execJmpNzrI t imm s
  | .jmpGerI t imm => Sys2Proof.Machine.execJmpGerI t imm s
  | .jmpLerI t imm => Sys2Proof.Machine.execJmpLerI t imm s
  | .call a => Sys2Proof.Machine.execCall a s
  | .callrR a => Sys2Proof.Machine.execCallrR a s
  | .callrI imm => Sys2Proof.Machine.execCallrI imm s
  | .callS t a => Sys2Proof.Machine.execCallS t a s
  | .callZ t a => Sys2Proof.Machine.execCallZ t a s
  | .callP t a => Sys2Proof.Machine.execCallP t a s
  | .callNz t a => Sys2Proof.Machine.execCallNz t a s
  | .callGe t a => Sys2Proof.Machine.execCallGe t a s
  | .callLe t a => Sys2Proof.Machine.execCallLe t a s
  | .callSrR t a => Sys2Proof.Machine.execCallSrR t a s
  | .callZrR t a => Sys2Proof.Machine.execCallZrR t a s
  | .callPrR t a => Sys2Proof.Machine.execCallPrR t a s
  | .callNzrR t a => Sys2Proof.Machine.execCallNzrR t a s
  | .callGerR t a => Sys2Proof.Machine.execCallGerR t a s
  | .callLerR t a => Sys2Proof.Machine.execCallLerR t a s
  | .callSrI t imm => Sys2Proof.Machine.execCallSrI t imm s
  | .callZrI t imm => Sys2Proof.Machine.execCallZrI t imm s
  | .callPrI t imm => Sys2Proof.Machine.execCallPrI t imm s
  | .callNzrI t imm => Sys2Proof.Machine.execCallNzrI t imm s
  | .callGerI t imm => Sys2Proof.Machine.execCallGerI t imm s
  | .callLerI t imm => Sys2Proof.Machine.execCallLerI t imm s
  | .ret => Sys2Proof.Machine.execRet s
  | .retS t => Sys2Proof.Machine.execRetS t s
  | .retZ t => Sys2Proof.Machine.execRetZ t s
  | .retP t => Sys2Proof.Machine.execRetP t s
  | .retNz t => Sys2Proof.Machine.execRetNz t s
  | .retGe t => Sys2Proof.Machine.execRetGe t s
  | .retLe t => Sys2Proof.Machine.execRetLe t s
  | .retaR a => Sys2Proof.Machine.execRetaR a s
  | .retaI imm => Sys2Proof.Machine.execRetaI imm s
  | .retaSR t a => Sys2Proof.Machine.execRetaSR t a s
  | .retaZR t a => Sys2Proof.Machine.execRetaZR t a s
  | .retaPR t a => Sys2Proof.Machine.execRetaPR t a s
  | .retaNzR t a => Sys2Proof.Machine.execRetaNzR t a s
  | .retaGeR t a => Sys2Proof.Machine.execRetaGeR t a s
  | .retaLeR t a => Sys2Proof.Machine.execRetaLeR t a s
  | .retaSI t imm => Sys2Proof.Machine.execRetaSI t imm s
  | .retaZI t imm => Sys2Proof.Machine.execRetaZI t imm s
  | .retaPI t imm => Sys2Proof.Machine.execRetaPI t imm s
  | .retaNzI t imm => Sys2Proof.Machine.execRetaNzI t imm s
  | .retaGeI t imm => Sys2Proof.Machine.execRetaGeI t imm s
  | .retaLeI t imm => Sys2Proof.Machine.execRetaLeI t imm s
  | .trapR a => Sys2Proof.Machine.execTrapR a s
  | .trapI imm => Sys2Proof.Machine.execTrapI imm s
  | .reti => Sys2Proof.Machine.execReti s

end Sys2Proof.Machine
end

