-- ==== Sys2Proof/Machine/Step.lean ====
section
/-! DEFINITION. One step of the machine (spec/00_scope.md R15): the end of a run, the fetch, the advance of `ip`, the
decode, the execution. -/

namespace Sys2Proof.Machine

/-- `Step` (R15). At HALT_IP the run has ended: the state stays as it is (70 R344; notes/assumptions/6.md). The faults of
the fetch come before those of the decode, these before the instruction's own (60 R312). -/
def step (s : State) : Host.Outcome State Fault Refusal :=
  if s.halted then .next s
  else
    match fetch s with
    | .error r => .fault r
    | .ok w =>
      match decode w with
      | .error _ => .fault (.illegalEncoding w s.advance)
      | .ok i => exec i s.advance

/-- The state with the word whose low `nbits` bits are `w` stored where `step` fetches its next instruction: the load
that the environment does (70 R342; notes/assumptions/16.md). -/
def State.withFetchWord (s : State) (nbits w : Nat) : State :=
  s.withWord (BitVec.ofNat 32 (w % 2 ^ nbits))

end Sys2Proof.Machine
end

