-- ==== Sys2Proof/Safety.lean ====
section
/-! DEFINITION. The terms claims are stated in: when a run is safe, what it means that a step leaves a part of the state
alone, and how a cell's bytes lie in memory. -/

namespace Sys2Proof.Machine

/-- A run of `k` steps that ends in no fault and no refusal (spec/00_scope.md R13: a faulted state is never a successful
final state). -/
def SafeRun (k : Nat) (s : State) : Prop := ∃ t, Sys2Proof.core.run k s = .next t

/-- The run has ended with `s` as its successful final state (spec/70_reset_and_hazards.md R344). -/
def Ended (s : State) : Prop := s.cfg.haltIp = some s.ip

/-- Every byte of memory reads in `t` as in `s`. -/
def SameBytes (s t : State) : Prop := ∀ a : Word, t.readByte a = s.readByte a

/-- Every byte of memory outside the `n` bytes at `a` reads in `t` as in `s`. -/
def SameBytesOutside (a : Word) (n : Nat) (s t : State) : Prop :=
  ∀ b : Word, (∀ k < n, b ≠ a + BitVec.ofNat 128 k) → t.readByte b = s.readByte b

/-- Every integer register but those listed is in `t` as in `s`. -/
def SameXBut (rs : List Reg) (s t : State) : Prop := ∀ r, r ∉ rs → t.getX r = s.getX r

/-- Every floating-point register but those listed is in `t` as in `s`. -/
def SameFBut (rs : List FReg) (s t : State) : Prop := ∀ r, r ∉ rs → t.getF r = s.getF r

/-- All but the integer registers listed, and the model's draw counter, is in `t` as in `s`. -/
def OnlyX (rs : List Reg) (s t : State) : Prop :=
  SameXBut rs s t ∧ SameFBut [] s t ∧ SameBytes s t ∧ t.ip = s.ip ∧ t.cfg = s.cfg

/-- All but the floating-point registers listed, and the model's draw counter, is in `t` as in `s`. -/
def OnlyF (rs : List FReg) (s t : State) : Prop :=
  SameXBut [] s t ∧ SameFBut rs s t ∧ SameBytes s t ∧ t.ip = s.ip ∧ t.cfg = s.cfg

/-- All but the `n` bytes at `a`, and the model's draw counter, is in `t` as in `s`. -/
def OnlyBytes (a : Word) (n : Nat) (s t : State) : Prop :=
  SameXBut [] s t ∧ SameFBut [] s t ∧ SameBytesOutside a n s t ∧ t.ip = s.ip ∧ t.cfg = s.cfg

/-- All but the integer registers listed, `ip` and the `n` bytes at `a` is in `t` as in `s`. -/
def OnlyXIpBytes (rs : List Reg) (a : Word) (n : Nat) (s t : State) : Prop :=
  SameXBut rs s t ∧ SameFBut [] s t ∧ SameBytesOutside a n s t ∧ t.cfg = s.cfg

/-- Where byte `k` of an `n`-byte value, counted from the least significant, lies relative to the cell's address
(spec/20_memory.md R44). -/
def bytePlace (order : ByteOrder) (n k : Nat) : Nat :=
  match order with
  | .little => k
  | .big => n - 1 - k

/-- The `n` bytes at `a` hold the low `8n` bits of `v` in BYTE_ORDER (spec/20_memory.md R44, R45). -/
def HoldsCell (s : State) (a : Word) (n : Nat) (v : Word) : Prop :=
  ∀ k < n, s.readByte (a + BitVec.ofNat 128 (bytePlace s.cfg.byteOrder n k)) = v.extractLsb' (8 * k) 8

/-- The address of the `k`-th 16-byte slot below the stack pointer; the first is the next one pushed
(spec/20_memory.md R49). -/
def State.slotBelow (s : State) (k : Nat) : Word := s.sp - BitVec.ofNat 128 (16 * k)

/-- The address of the `k`-th 16-byte slot of the stack; slot 0 is the top, `*sp` (spec/20_memory.md R49). -/
def State.slotAbove (s : State) (k : Nat) : Word := s.sp + BitVec.ofNat 128 (16 * k)

/-- The slot, counted from the top of the stack, that a pop of the range `i` .. `j` loads into register `n`
(spec/40_int_move.md R138). -/
def popPlace (order : PopOrder) (i j n : Fin 32) : Nat :=
  match order with
  | .sourceAscending => n.val - i.val
  | .descending => j.val - n.val

/-- Every byte of the access is in MEM_DOMAIN (spec/20_memory.md R46). -/
def InDomain (s : State) (a : Word) (n : Nat) : Prop :=
  ∀ k < n, ∃ r ∈ s.cfg.memDomain,
    r.base ≤ (a + BitVec.ofNat 128 k).toNat ∧ (a + BitVec.ofNat 128 k).toNat < r.base + r.size

/-- The condition of a conditional transfer, on the integer a register holds (spec/45_control.md R271). -/
def CondTrue (c : Cond) (v : Word) : Prop :=
  match c with
  | .s => sval v < 0
  | .z => sval v = 0
  | .p => 0 < sval v
  | .nz => sval v ≠ 0
  | .ge => 0 ≤ sval v
  | .le => sval v ≤ 0

/-- The memory is in canonical form. -/
def State.Inv (s : State) : Prop := s.mem.wf

/-- A launch state: `ip` is RESET_IP. Nothing is said of any register or byte, because none has an initial value
(spec/70_reset_and_hazards.md R340, R341). -/
def State.IsLaunch (s : State) : Prop := s.ip = s.cfg.resetIp

/-! ### Words that select no instruction -/

/-- The slice `w[lo+n-1 : lo]` as a number (spec/00_scope.md R9). -/
def slice (w : InstrWord) (lo n : Nat) : Nat := w.toNat / 2 ^ lo % 2 ^ n

/-- (T, OP) is a row of template M (spec/30_encoding.md R78, R90). -/
def TemplateM (w : InstrWord) : Prop :=
  slice w 30 2 = 3 ∧ (3 ≤ slice w 20 10 ∧ slice w 20 10 ≤ 16 ∨ 20 ≤ slice w 20 10 ∧ slice w 20 10 ≤ 26)

/-- (T, OP) is a row of `push` or `pop` (spec/30_encoding.md R78, R90). -/
def TemplateRange (w : InstrWord) : Prop :=
  slice w 30 2 = 3 ∧ slice w 20 10 ∈ [17, 18, 27, 28]

/-- (T, OP) is a row of template D (spec/30_encoding.md R78 to R92). -/
def TemplateD (w : InstrWord) : Prop :=
  slice w 30 2 = 0 ∧ slice w 20 10 = 40 ∨
  slice w 30 2 = 1 ∧ 5 ≤ slice w 20 10 ∧ slice w 20 10 ≤ 9 ∨
  slice w 30 2 = 2 ∧ slice w 23 7 ∈ [3, 4, 9, 10, 16] ∨
  slice w 30 2 = 3 ∧ slice w 20 10 ∈ [0, 19] ∨
  TemplateRange w

/-- (T, OP) is a row of template F (spec/30_encoding.md R79, R80, R91). -/
def TemplateF (w : InstrWord) : Prop :=
  slice w 30 2 = 0 ∧ slice w 20 10 ≤ 38 ∧ slice w 20 10 % 2 = 0 ∧ slice w 20 10 ≠ 16 ∨
  slice w 30 2 = 1 ∧ slice w 20 10 ≤ 4

/-- The six cases of spec/30_encoding.md R94, on the slices of the word. -/
def IllegalWord (w : InstrWord) : Prop :=
  -- 1: (T, OP) is in no table
  (slice w 30 2 = 0 ∧ 42 ≤ slice w 20 10 ∨ slice w 30 2 = 1 ∧ 10 ≤ slice w 20 10 ∨
    slice w 30 2 = 3 ∧ 29 ≤ slice w 20 10 ∨ slice w 30 2 = 2 ∧ 21 ≤ slice w 23 7) ∨
  -- 2: a condition where there is none, or an unassigned one
  (slice w 30 2 = 2 ∧
    (slice w 23 7 ∈ [0, 1, 2, 6, 7, 8, 12, 14, 15, 18, 19, 20] ∧ slice w 20 3 ≠ 0 ∨
      slice w 23 7 ∈ [3, 4, 5, 9, 10, 11, 13, 16, 17] ∧ 6 ≤ slice w 20 3)) ∨
  -- 3: a field the template shows as 0 is not all zero
  (slice w 30 2 = 2 ∧ slice w 23 7 ∈ [0, 1, 6, 7, 13, 14, 18] ∧ slice w 0 15 ≠ 0) ∨
  (TemplateD w ∧ slice w 0 10 ≠ 0) ∨
  (TemplateF w ∧ slice w 0 5 ≠ 0) ∨
  (TemplateM w ∧ slice w 0 2 ≠ 0) ∨
  (slice w 30 2 = 2 ∧ slice w 23 7 ∈ [12, 20] ∧ slice w 0 20 ≠ 0) ∨
  (slice w 30 2 = 2 ∧ slice w 23 7 = 19 ∧ slice w 10 10 ≠ 0) ∨
  -- 4, 5: a reserved scale, the index 31
  (TemplateM w ∧ 6 ≤ slice w 2 3) ∨
  (TemplateM w ∧ slice w 5 5 = 31) ∨
  -- 6: a reversed range
  (TemplateRange w ∧ slice w 10 5 < slice w 15 5)

/-! ### Numbers of the floating-point formats (spec/43_float_move.md R221, spec/44_float_arith.md R240) -/

/-- A format: sign, `expBits` of exponent, `sigBits` of significand field, which holds the leading bit or not. -/
structure NumberFormat where
  expBits : Nat
  sigBits : Nat
  explicitOne : Bool
  deriving DecidableEq, Repr

/-- binary32. -/
def single : NumberFormat := ⟨8, 23, false⟩
/-- binary64. -/
def double : NumberFormat := ⟨11, 52, false⟩
/-- The 80-bit format, with an explicit integer bit. -/
def extended : NumberFormat := ⟨15, 64, true⟩
/-- binary128, the format of the registers. -/
def quad : NumberFormat := ⟨15, 112, false⟩

namespace NumberFormat

variable (F : NumberFormat) {w : Nat} (v : BitVec w)

/-- The sign bit. -/
def sign : Bool := v.toNat / 2 ^ (F.expBits + F.sigBits) % 2 == 1
/-- The exponent field. -/
def expField : Nat := v.toNat / 2 ^ F.sigBits % 2 ^ F.expBits
/-- The significand field. -/
def sigField : Nat := v.toNat % 2 ^ F.sigBits
/-- The exponent field of infinities and NaNs. -/
def topExp : Nat := 2 ^ F.expBits - 1
/-- The bias. -/
def excess : Int := 2 ^ (F.expBits - 1) - 1
/-- The number of bits behind the binary point of a significand. -/
def places : Nat := if F.explicitOne then F.sigBits - 1 else F.sigBits
/-- Where the format writes the leading bit, it agrees with the exponent field (R221). -/
def Regular : Prop := F.explicitOne = true → (F.expField v = 0 ↔ F.sigField v < 2 ^ (F.sigBits - 1))
/-- A zero, a subnormal or a normal number. -/
def Finite : Prop := F.expField v ≠ F.topExp ∧ F.Regular v
/-- An infinity. -/
def Infinite : Prop := F.expField v = F.topExp ∧ F.sigField v = if F.explicitOne then 2 ^ (F.sigBits - 1) else 0
/-- A NaN. -/
def NaN : Prop :=
  F.expField v = F.topExp ∧ (if F.explicitOne then 2 ^ (F.sigBits - 1) else 0) < F.sigField v

/-- The significand as an integer: the implicit leading bit counts when the exponent field is not 0. -/
def significand : Nat :=
  if F.explicitOne = false ∧ F.expField v ≠ 0 then 2 ^ F.sigBits + F.sigField v else F.sigField v

/-- The number a finite pattern stands for: a subnormal has the exponent of the least normal number. -/
def value : ℚ :=
  (if F.sign v then -1 else 1) * F.significand v * 2 ^ ((max (F.expField v) 1 : Nat) - F.excess - F.places)

/-- Half a place above the largest finite number: from here on magnitudes round to infinity. -/
def limit : ℚ := (2 - 2 ^ (-(F.places : Int) - 1)) * 2 ^ F.excess

/-- `r` is `x` rounded to nearest, ties to the even significand, to infinity from `limit` on, with the sign of `x`
where `x` is not zero (R221, R241). -/
def Rounds (x : ℚ) (r : BitVec w) : Prop :=
  (x ≠ 0 → (F.sign r = true ↔ x < 0)) ∧
  (F.limit ≤ |x| → F.Infinite r) ∧
  (|x| < F.limit → F.Finite r ∧
    ∀ c : BitVec w, F.Finite c → |F.value r - x| ≤ |F.value c - x| ∧
      (|F.value r - x| = |F.value c - x| → F.value c ≠ F.value r → F.significand r % 2 = 0))

end NumberFormat

/-- The bits a register or a cell may hold where a floating-point function answers `a` (R14, R240): the bits given, some
NaN of the format, or anything. -/
def FpAdmits {w : Nat} (F : NumberFormat) (a : FpVal w) (v : BitVec w) : Prop :=
  match a with
  | .bits b => v = b
  | .anyNan => F.NaN v
  | .any => True

/-- How many draws an answer takes (R14). -/
def fpDraws {w : Nat} : FpVal w → Nat
  | .bits _ => 0
  | .anyNan => 1
  | .any => 1

/-- The integer `z` that a mode chooses from the number `x` (spec/44_float_arith.md R254). -/
def ChoosesInt (tie : RoundnTie) (mode : RoundMode) (x : ℚ) (z : ℤ) : Prop :=
  match mode with
  | .floor => (z : ℚ) ≤ x ∧ x < z + 1
  | .ceiling => (z : ℚ) - 1 < x ∧ x ≤ z
  | .trunc => |(z : ℚ)| ≤ |x| ∧ |x| < |(z : ℚ)| + 1 ∧ 0 ≤ x * z
  | .nearest =>
    |(z : ℚ) - x| < 1 / 2 ∨
      |(z : ℚ) - x| = 1 / 2 ∧
        match tie with
        | .even => z % 2 = 0
        | .away => |x| < |(z : ℚ)|

/-! ### Division, calls and returns -/

/-- `k` and `m` are a quotient and the remainder of `p` by `q` under SDIV_ROUNDING (spec/41_int_arith.md R168). -/
def QuotRem (r : SdivRounding) (p q k m : Int) : Prop :=
  p = k * q + m ∧ |m| < |q| ∧
    match r with
    | .trunc => m ≠ 0 → (0 < m ↔ 0 < p)
    | .floor => m ≠ 0 → (0 < m ↔ 0 < q)

/-- `t` is `s` after a call of `target`: the return address on the stack, all else the same (spec/45_control.md R278). -/
def Called (s t : State) (target : Word) : Prop :=
  t.ip = target ∧ t.sp = s.slotBelow 1 ∧ HoldsCell t (s.slotBelow 1) 16 s.ip ∧
    SameXBut [spReg] s t ∧ SameFBut [] s t ∧ SameBytesOutside (s.slotBelow 1) 16 s t ∧ t.cfg = s.cfg

/-- `t` is `s` after a return to `target` that removes `size` more bytes (spec/45_control.md R284, R286). -/
def Returned (s t : State) (target size : Word) : Prop :=
  t.ip = target ∧ t.sp = s.sp + 16 + size ∧
    SameXBut [spReg] s t ∧ SameFBut [] s t ∧ SameBytes s t ∧ t.cfg = s.cfg

/-- `t` is `s` with another `ip` and nothing else changed. -/
def Moved (s t : State) (target : Word) : Prop :=
  t.ip = target ∧ SameXBut [] s t ∧ SameFBut [] s t ∧ SameBytes s t ∧ t.cfg = s.cfg

/-- `u` is `s` stopped at the push of register `i + k` of a range from `i` on: `sp` at that slot, the `k` slots before it written
with `v`, all else the same (spec/40_int_move.md R137, spec/60_exceptions.md R312). -/
def StoppedPushing (s u : State) (i : Fin 32) (k : Nat) (v : Fin 32 → Word) : Prop :=
  u.sp = s.slotBelow (k + 1) ∧
    (∀ n : Fin 32, i ≤ n → n.val < i.val + k → HoldsCell u (s.slotBelow (n.val + 1 - i.val)) 16 (v n)) ∧
    SameXBut [spReg] s u ∧ SameFBut [] s u ∧ SameBytesOutside (s.slotBelow k) (16 * k) s u ∧
    u.ip = s.ip ∧ u.cfg = s.cfg

/-- `u` is `s` stopped at a pop of integer registers: the registers `loaded` so far hold `v`, `sp` and `ip` are as given, all
else the same (spec/40_int_move.md R138, spec/60_exceptions.md R312). -/
def StoppedPopping (s u : State) (sp ip : Word) (loaded : Reg → Prop) (v : Reg → Word) : Prop :=
  u.sp = sp ∧ u.ip = ip ∧
    (∀ n : Reg, n ≠ spReg → (loaded n → u.getX n = v n) ∧ (¬ loaded n → u.getX n = s.getX n)) ∧
    SameFBut [] s u ∧ SameBytes s u ∧ u.cfg = s.cfg

/-- The word that a push of register `n` in a range from `i` on stores: the slot of `r31` gets its own address
(spec/40_int_move.md R137). -/
def State.pushed (s : State) (i n : Reg) : Word :=
  if n = spReg then s.slotBelow (n.val + 1 - i.val) else s.getX n

/-- The register read after one slot has been pushed: `sp` has moved (spec/45_control.md R278). -/
def State.getXPushed (s : State) (r : Reg) : Word := if r = spReg then s.slotBelow 1 else s.getX r

/-- The register read after one slot has been popped (spec/45_control.md R286). -/
def State.getXPopped (s : State) (r : Reg) : Word := if r = spReg then s.slotAbove 1 else s.getX r

/-- The target `off` instructions from `ip` (spec/45_control.md R270). -/
def State.target (s : State) (off : Int) : Word := BitVec.ofInt 128 (uval s.ip + 4 * off)

/-! ### Kinds of instruction -/

/-- The dividend and the divisor of the instructions that divide, and of no other (spec/41_int_arith.md R169). -/
def divisionOf (s : State) : Instr → Option (Word × Word)
  | .diviuR _ a b | .divisR _ a b | .modiuR _ a b | .modisR _ a b | .divmodiu _ _ a b | .divmodis _ _ a b =>
    some (s.getX a, s.getX b)
  | .diviuI _ a imm | .divisI _ a imm | .modiuI _ a imm | .modisI _ a imm => some (s.getX a, imm.signExtend 128)
  | _ => none

/-- The instructions whose signed quotient may not fit (spec/41_int_arith.md R169). -/
def dividesSigned : Instr → Bool
  | .divisR _ _ _ | .divisI _ _ _ | .divmodis _ _ _ _ => true
  | _ => false

/-- The instructions that write floating-point registers (spec/43_float_move.md, spec/44_float_arith.md). -/
def writesFloat : Instr → Bool
  | .movF _ _ | .movFLoad _ _ | .mov32fLoad _ _ | .mov64fLoad _ _ | .mov80fLoad _ _ | .popF _ _
  | .addf _ _ _ | .subf _ _ _ | .mulf _ _ _ | .divf _ _ _ | .frac _ _ => true
  | _ => false

/-- The instructions that store to memory (spec/20_memory.md R52). -/
def storesMemory : Instr → Bool
  | .movStore _ _ | .mov8 _ _ | .mov16 _ _ | .mov32 _ _ | .mov64 _ _ | .push _ _
  | .mov32fStore _ _ | .mov64fStore _ _ | .mov80fStore _ _ | .pushF _ _
  | .call _ | .callrR _ | .callrI _
  | .callS _ _ | .callZ _ _ | .callP _ _ | .callNz _ _ | .callGe _ _ | .callLe _ _
  | .callSrR _ _ | .callZrR _ _ | .callPrR _ _ | .callNzrR _ _ | .callGerR _ _ | .callLerR _ _
  | .callSrI _ _ | .callZrI _ _ | .callPrI _ _ | .callNzrI _ _ | .callGerI _ _ | .callLerI _ _
  | .trapR _ | .trapI _ => true
  | _ => false

/-- The instructions that read memory beside their fetch (spec/20_memory.md R52). -/
def loadsMemory : Instr → Bool
  | .movLoad _ _ | .mov8u _ _ | .mov16u _ _ | .mov32u _ _ | .mov64u _ _
  | .mov8s _ _ | .mov16s _ _ | .mov32s _ _ | .mov64s _ _ | .pop _ _
  | .movFLoad _ _ | .mov32fLoad _ _ | .mov64fLoad _ _ | .mov80fLoad _ _ | .popF _ _
  | .ret | .retaR _ | .retaI _
  | .retS _ | .retZ _ | .retP _ | .retNz _ | .retGe _ | .retLe _
  | .retaSR _ _ | .retaZR _ _ | .retaPR _ _ | .retaNzR _ _ | .retaGeR _ _ | .retaLeR _ _
  | .retaSI _ _ | .retaZI _ _ | .retaPI _ _ | .retaNzI _ _ | .retaGeI _ _ | .retaLeI _ _
  | .reti => true
  | _ => false

/-- The control transfers: the instructions of T = 10 (spec/45_control.md). -/
def transfersControl (i : Instr) : Bool := slice (encode i) 30 2 == 2

end Sys2Proof.Machine
end

