-- ==== Sys2Proof/Certificates/Slice0/Obligations.lean ====
section
/-! DEFINITION. The statements for the provers. `SameXBut`, `OnlyX`, `HoldsCell`, `InDomain` and the other terms are those of
Sys2Proof/Safety.lean. A statement over every state holds for every value of every open parameter, which the state
carries. -/

section Statements

open Sys2Proof Sys2Proof.Machine

/-! ### Encoding and decoding -/

/-- Every well-formed instruction is read back from its word, every operand at every value (30 R72, R74, R77, R96).
Rests on the spec's own decisions D11, D24, D25 and D26. -/
def Obligations.DecodeOfEncode : Prop := ∀ i : Instr, i.wf = true → decode (encode i) = .ok i

/-- Every word that selects an instruction is that instruction's word, bit for bit, and the instruction is well-formed
(30 R96). Rests on the spec's own decisions D8, D9, D10, D17, D24, D25 and D26. -/
def Obligations.EncodeOfDecode : Prop := ∀ (w : InstrWord) (i : Instr), decode w = .ok i → encode i = w ∧ i.wf = true

/-- The words `decode` rejects are exactly those of the six cases of 30 R94. That these words fault is a decision of
the spec, marked there (D8, D9, D10, D17). Rests on the spec's own decisions D8, D9, D10 and D17. -/
def Obligations.RejectedWordsAreTheSixCases : Prop :=
  ∀ w : InstrWord, (∃ e, decode w = .error e) ↔ IllegalWord w

/-- Words of every template, written out from their patterns, decode to what they stand for (30 R78 to R92). Rests on
the spec's own decisions D24, D25 and D26. -/
def Obligations.WrittenWordsDecode : Prop :=
  decode 0b11_0000000000_00001_00010_0000000000#32 = .ok (.movR 1 2) ∧
  decode 0b11_0000000010_00101_111111111111111#32 = .ok (.movs 5 (BitVec.ofInt 15 (-1))) ∧
  decode 0b11_0000001011_00001_00010_00011_011_00#32 = .ok (.mov64s 1 ⟨2, 3, .x8⟩) ∧
  decode 0b11_0000010000_00001_00010_00011_101_00#32 = .ok (.mov64 1 ⟨2, 3, .x10⟩) ∧
  decode 0b11_0000010001_00001_00011_0000000000#32 = .ok (.push 1 3) ∧
  decode 0b00_0000000001_00001_00010_1111111101#32 = .ok (.addiI 1 2 (BitVec.ofInt 10 (-3))) ∧
  decode 0b00_0000010000_00001_00010_00011_00100#32 = .ok (.divmodiu 1 2 3 4) ∧
  decode 0b00_0000011100_00001_00010_00011_00000#32 = .ok (.andnR 1 2 3) ∧
  decode 0b11_0000010111_00001_00010_00011_101_00#32 = .ok (.mov80fLoad 1 ⟨2, 3, .x10⟩) ∧
  decode 0b01_0000000100_00001_00010_00011_00000#32 = .ok (.cmpf 1 2 3) ∧
  decode 0b10_0000010000_11111111111111111110#32 = .ok (.jmprI (BitVec.ofInt 20 (-2))) ∧
  decode 0b10_0000101011_00001_111111111111101#32 = .ok (.jmpNzrI 1 (BitVec.ofInt 15 (-3))) ∧
  decode 0b10_0001101101_00001_000000000000000#32 = .ok (.retLe 1) ∧
  decode 0b10_0010011000_0000000000_0000000011#32 = .ok (.trapI 3) ∧
  decode 0b10_0010100000_00000000000000000000#32 = .ok .reti

/-! ### The step -/

/-- A step runs the instruction that the four bytes at `ip` decode to, with `ip` already at the next instruction: away
from HALT_IP, in either byte order (00 R15, 10 R27, 20 R48). Rests on the spec's own decisions D3, D4, D30 and D34. -/
def Obligations.StepRunsTheDecodedInstruction : Prop :=
  ∀ (s : State) (w : InstrWord) (i : Instr), s.cfg.haltIp ≠ some s.ip → InDomain s s.ip 4 →
    HoldsCell s s.ip 4 (w.setWidth 128) → decode w = .ok i →
    step s = exec i s.advance ∧ Moved s s.advance (s.ip + 4) ∧ s.advance.draws = s.draws

/-- The faults that come before an instruction's own: an unmapped fetch, in the state as it was, then a word that selects no
instruction, with `ip` already advanced (60 R312, 20 R48, 30 R94, 00 R15). Rests on the spec's own decisions D6, D8, D9, D10,
D17, D28 and D34. -/
def Obligations.FetchAndDecodeFaults : Prop :=
  ∀ s : State, s.cfg.haltIp ≠ some s.ip →
    (¬ InDomain s s.ip 4 → step s = .fault (.unmappedAccess s.ip 4 s)) ∧
    ∀ w : InstrWord, InDomain s s.ip 4 → HoldsCell s s.ip 4 (w.setWidth 128) → (∃ e, decode w = .error e) →
      step s = .fault (.illegalEncoding w s.advance)

/-- At HALT_IP no fetch happens and the state stays. That a step there answers the same state is the model's choice
(70 R344; notes/assumptions/6.md). Rests on the spec's own decision D30. -/
def Obligations.HaltedRunStays : Prop :=
  ∀ (s : State) (k : Nat), s.cfg.haltIp = some s.ip → Sys2Proof.core.run k s = .next s

/-- The launch state is the arguments given, with `ip` at RESET_IP. No register and no byte has an initial value: every contents
of the registers and of all bytes is that of a launch state, and a launch state is any state with `ip` at RESET_IP. The reset
state is the launch at the model's own choices, its memory in canonical form (70 R340, R341; notes/assumptions/1.md to 5.md).
Rests on the spec's own decision D29. -/
def Obligations.LaunchAndReset : Prop :=
  (∀ (c : Config) (x f : Vector Word 32) (m : Memory),
    (State.launch c x f m).ip = c.resetIp ∧ (State.launch c x f m).cfg = c ∧
    (∀ r : Reg, (State.launch c x f m).getX r = x[r]) ∧ (∀ r : FReg, (State.launch c x f m).getF r = f[r]) ∧
    (State.launch c x f m).mem = m) ∧
  (∀ (c : Config) (x f : Reg → Word) (bytes : Word → Byte), ∃ s : State, s.IsLaunch ∧ s.Inv ∧ s.cfg = c ∧
    (∀ r, s.getX r = x r) ∧ (∀ r, s.getF r = f r) ∧ ∀ a, s.readByte a = bytes a) ∧
  (∀ s : State, s.IsLaunch ↔ ∃ n, s = { State.launch s.cfg s.x s.f s.mem with draws := n }) ∧
  (∀ r : Reg, State.reset.getX r = 0) ∧ (∀ r : FReg, State.reset.getF r = 0) ∧
  State.reset.ip = Config.specDefault.resetIp ∧ State.reset.cfg = Config.specDefault ∧ State.reset.Inv

/-- Every step from a state with a canonical memory leads to one. The canonical form is the model's own (20 R40).
Rests on the spec's own decision D2. -/
def Obligations.EveryStepKeepsTheCanonicalMemory : Prop :=
  ∀ s t : State, s.Inv → step s = .next t → t.Inv

/-- The parameters are constant through every step, and free values are only ever drawn, never given back: the model's
own bookkeeping of the parameters of 00 R8 and the draws of 00 R14. See notes/assumptions/4.md and 7.md. -/
def Obligations.EveryStepKeepsTheParameters : Prop :=
  ∀ s t : State, step s = .next t → t.cfg = s.cfg ∧ s.draws ≤ t.draws

/-- No instruction is refused, and each model fault comes only from the instructions and the operands 60 R311 gives it: a divisor
of 0 in an instruction that divides, -2^127 by -1 where a signed quotient is written (both before any write, 41 R169), an access
of an instruction that reads or writes memory some byte of which lies outside MEM_DOMAIN, so never with the whole address
space as MEM_DOMAIN (20 R46, R52). Rests on the spec's own decisions D6, D13 and D28. -/
def Obligations.FaultsComeFromTheirInstructions : Prop :=
  ∀ (i : Instr) (s : State),
    (∀ r, exec i s ≠ .refused r) ∧
    (∀ w u, exec i s ≠ .fault (.illegalEncoding w u)) ∧
    (∀ u, exec i s = .fault (.divideByZero u) → (∃ p, divisionOf s i = some (p, 0)) ∧ u = s) ∧
    (∀ u, exec i s = .fault (.divideOverflow u) → dividesSigned i = true ∧
      (∃ p q, divisionOf s i = some (p, q) ∧ sval p = -2 ^ 127 ∧ sval q = -1) ∧ u = s) ∧
    (∀ a n u, exec i s = .fault (.unmappedAccess a n u) →
      (loadsMemory i = true ∨ storesMemory i = true) ∧ ¬ InDomain s a n ∧ s.cfg.memDomain ≠ wholeSpace ∧ u.cfg = s.cfg)

/-- The whole-machine frame: only instructions with a floating-point destination change the floating-point file, only
stores, pushes, calls and traps change memory, and an instruction that is no control transfer leaves `ip` at the next
instruction (10 R25, R28, 20 R52). Rests on the spec's own decisions D26 and D35. -/
def Obligations.EachKindOfStateHasItsWriters : Prop :=
  ∀ (i : Instr) (s t : State), exec i s = .next t →
    (writesFloat i = false → SameFBut [] s t) ∧ (storesMemory i = false → SameBytes s t) ∧
    (transfersControl i = false → t.ip = s.ip)

/-! ### Integer moves, loads and stores -/

/-- `mov`, `movu`, `movs`: encoding, value and frame (40 R120, R121, R122). -/
def Obligations.RegisterAndImmediateMoves : Prop :=
  ∀ (d a : Reg) (imm : BitVec 15) (s : State),
    (encode (.movR d a) = 3#2 ++ 0#10 ++ BitVec.ofNat 5 d ++ BitVec.ofNat 5 a ++ 0#10 ∧
      ∃ t, exec (.movR d a) s = .next t ∧ t.getX d = s.getX a ∧ OnlyX [d] s t) ∧
    (encode (.movu d imm) = 3#2 ++ 1#10 ++ BitVec.ofNat 5 d ++ imm ∧
      ∃ t, exec (.movu d imm) s = .next t ∧ uval (t.getX d) = imm.toNat ∧ OnlyX [d] s t) ∧
    (encode (.movs d imm) = 3#2 ++ 2#10 ++ BitVec.ofNat 5 d ++ imm ∧
      ∃ t, exec (.movs d imm) s = .next t ∧ OnlyX [d] s t ∧
        ∀ k < 128, (t.getX d).getLsbD k = if k < 15 then imm.getLsbD k else imm.getLsbD 14)

/-- The address of a memory operand: base plus index times the factor its scale names, modulo 2^128 (20 R41, R42).
Rests on the spec's own decision D7. -/
def Obligations.EffectiveAddress : Prop :=
  ∀ (s : State) (b x : Reg), ∀ p ∈ [(Scale.x1, 1), (Scale.x2, 2), (Scale.x4, 4), (Scale.x8, 8), (Scale.x16, 16),
      (Scale.x10, 10)],
    uval (s.ea ⟨b, x, p.1⟩) = (uval (s.getX b) + uval (s.getX x) * p.2) % 2 ^ 128

/-- Integer loads: the low bytes of the cell at the address, extended with zeros or with the sign; only the
destination changes, which may be the base or the index (40 R123 to R131, 20 R44). Rests on the spec's own decisions
D1, D3 and D6. -/
def Obligations.IntegerLoads : Prop :=
  ∀ (d : Reg) (m : MemOperand) (s : State) (v : Word),
    (∀ p ∈ [(Instr.movLoad d m, 16), (.mov8u d m, 1), (.mov16u d m, 2), (.mov32u d m, 4), (.mov64u d m, 8)],
      InDomain s (s.ea m) p.2 → HoldsCell s (s.ea m) p.2 v →
      ∃ t, exec p.1 s = .next t ∧ uval (t.getX d) = uval v % 2 ^ (8 * p.2) ∧ OnlyX [d] s t) ∧
    (∀ p ∈ [(Instr.mov8s d m, 1), (.mov16s d m, 2), (.mov32s d m, 4), (.mov64s d m, 8)],
      InDomain s (s.ea m) p.2 → HoldsCell s (s.ea m) p.2 v →
      ∃ t, exec p.1 s = .next t ∧ sval (t.getX d) = Int.bmod (uval v) (2 ^ (8 * p.2)) ∧ OnlyX [d] s t)

/-- Integer stores: the low bytes of the register at the address, in BYTE_ORDER, and no other byte (40 R132 to R136,
20 R45). Rests on the spec's own decisions D3 and D6. -/
def Obligations.IntegerStores : Prop :=
  ∀ (r : Reg) (m : MemOperand) (s : State),
    ∀ p ∈ [(Instr.movStore r m, 16), (.mov8 r m, 1), (.mov16 r m, 2), (.mov32 r m, 4), (.mov64 r m, 8)],
      InDomain s (s.ea m) p.2 →
      ∃ t, exec p.1 s = .next t ∧ HoldsCell t (s.ea m) p.2 (s.getX r) ∧ OnlyBytes (s.ea m) p.2 s t

/-- A load right after a store of the same width gives back what was stored, cut to that width and extended (20 R44,
R45, R60). Rests on the spec's own decisions D3, D6 and D31. -/
def Obligations.LoadAfterStore : Prop :=
  ∀ (r d : Reg) (m : MemOperand) (s : State),
    ∀ p ∈ [(Instr.movStore r m, Instr.movLoad d m, Instr.movLoad d m, 16), (.mov8 r m, .mov8u d m, .mov8s d m, 1),
        (.mov16 r m, .mov16u d m, .mov16s d m, 2), (.mov32 r m, .mov32u d m, .mov32s d m, 4),
        (.mov64 r m, .mov64u d m, .mov64s d m, 8)],
      InDomain s (s.ea m) p.2.2.2 →
      ∃ t u v, exec p.1 s = .next t ∧ exec p.2.1 t = .next u ∧ exec p.2.2.1 t = .next v ∧
        uval (u.getX d) = uval (s.getX r) % 2 ^ (8 * p.2.2.2) ∧
        sval (v.getX d) = Int.bmod (uval (s.getX r)) (2 ^ (8 * p.2.2.2))

/-- Every load and store, integer and floating-point, faults with its address and width when a byte of the cell is outside
MEM_DOMAIN; no register and no byte has then been written (20 R44, R45, 60 R312). Rests on the spec's own decisions D6 and
D28. -/
def Obligations.UnmappedCellsFault : Prop :=
  ∀ (r : Reg) (f : FReg) (m : MemOperand) (s : State),
    ∀ p ∈ [(Instr.movLoad r m, 16), (.mov8u r m, 1), (.mov16u r m, 2), (.mov32u r m, 4), (.mov64u r m, 8),
        (.mov8s r m, 1), (.mov16s r m, 2), (.mov32s r m, 4), (.mov64s r m, 8), (.movStore r m, 16), (.mov8 r m, 1),
        (.mov16 r m, 2), (.mov32 r m, 4), (.mov64 r m, 8), (.movFLoad f m, 16), (.mov32fLoad f m, 4),
        (.mov64fLoad f m, 8), (.mov80fLoad f m, 10), (.mov32fStore f m, 4), (.mov64fStore f m, 8),
        (.mov80fStore f m, 10)],
      ¬ InDomain s (s.ea m) p.2 → ∃ u, exec p.1 s = .fault (.unmappedAccess (s.ea m) p.2 u) ∧ OnlyX [] s u

/-! ### Push and pop -/

/-- `push ri-rj`: `rn` in the slot n - i + 1 below the old `sp`, the slot of `r31` holding its own address; `sp` at
the last slot; nothing else changes (40 R137, 20 R49). Rests on the spec's own decisions D3, D7 and D16. -/
def Obligations.PushStoresTheRange : Prop :=
  ∀ (i j : Reg) (s : State), i ≤ j →
    InDomain s (s.slotBelow (j.val + 1 - i.val)) (16 * (j.val + 1 - i.val)) →
    ∃ t, exec (.push i j) s = .next t ∧ t.sp = s.slotBelow (j.val + 1 - i.val) ∧
      (∀ n : Reg, i ≤ n → n ≤ j →
        HoldsCell t (s.slotBelow (n.val + 1 - i.val)) 16 (s.pushed i n)) ∧
      SameXBut [spReg] s t ∧ SameFBut [] s t ∧
      SameBytesOutside (s.slotBelow (j.val + 1 - i.val)) (16 * (j.val + 1 - i.val)) s t ∧
      t.ip = s.ip ∧ t.cfg = s.cfg

/-- `pop ri-rj` without `r31`: under the source's order `ri` comes from the top of the stack, under the other `rj`
does (40 R138). Rests on the spec's own decisions D3, D7 and D18. -/
def Obligations.PopLoadsTheRange : Prop :=
  ∀ (i j : Reg) (s : State) (v : Reg → Word), i ≤ j → j ≠ spReg →
    InDomain s s.sp (16 * (j.val + 1 - i.val)) →
    (∀ n : Reg, i ≤ n → n ≤ j →
      HoldsCell s (s.slotAbove (popPlace s.cfg.popOrder i j n)) 16 (v n)) →
    ∃ t, exec (.pop i j) s = .next t ∧ t.sp = s.slotAbove (j.val + 1 - i.val) ∧
      (∀ n : Reg, i ≤ n → n ≤ j → t.getX n = v n) ∧ (∀ n : Reg, n ≠ spReg → (n < i ∨ j < n) → t.getX n = s.getX n) ∧
      SameFBut [] s t ∧ SameBytes s t ∧ t.ip = s.ip ∧ t.cfg = s.cfg

/-- `pop ri-r31`: `sp` ends as the loaded value plus 16 under the source's order; under the other it is loaded first
and the rest is popped from the new stack (40 R138). Rests on the spec's own decisions D3, D7, D16 and D18. -/
def Obligations.PopOfTheStackPointer : Prop :=
  ∀ (i : Reg) (s : State) (v : Reg → Word),
    (s.cfg.popOrder = .sourceAscending → InDomain s s.sp (16 * (32 - i.val)) →
      (∀ n : Reg, i ≤ n → HoldsCell s (s.slotAbove (n.val - i.val)) 16 (v n)) →
      ∃ t, exec (.pop i spReg) s = .next t ∧ t.sp = v spReg + 16 ∧
        (∀ n : Reg, i ≤ n → n ≠ spReg → t.getX n = v n) ∧ (∀ n : Reg, n < i → t.getX n = s.getX n) ∧
        SameFBut [] s t ∧ SameBytes s t ∧ t.ip = s.ip ∧ t.cfg = s.cfg) ∧
    (s.cfg.popOrder = .descending → InDomain s s.sp 16 → HoldsCell s s.sp 16 (v spReg) →
      (i = spReg → ∃ t, exec (.pop i spReg) s = .next t ∧ t.sp = v spReg + 16 ∧ OnlyX [spReg] s t) ∧
      (i ≠ spReg → exec (.pop i spReg) s = exec (.pop i 30) (s.setSp (v spReg + 16))))

/-- A push followed by a pop of the same range without `r31` gives every register back under `descending`, and
reverses the range under `source_ascending`; either way `sp` is back (40 R138). Rests on the spec's own decisions D7
and D18. -/
def Obligations.PopAfterPush : Prop :=
  ∀ (i j : Reg) (s : State), i ≤ j → j ≠ spReg →
    InDomain s (s.slotBelow (j.val + 1 - i.val)) (16 * (j.val + 1 - i.val)) →
    ∃ t u, exec (.push i j) s = .next t ∧ exec (.pop i j) t = .next u ∧ u.sp = s.sp ∧
      (s.cfg.popOrder = .descending → SameXBut [] s u) ∧
      (s.cfg.popOrder = .sourceAscending →
        (∀ n : Reg, i ≤ n → n ≤ j → u.getX n = s.getX (i + j - n)) ∧
        (∀ n : Reg, (n < i ∨ j < n) → u.getX n = s.getX n)) ∧
      SameFBut [] s u ∧
      SameBytesOutside (s.slotBelow (j.val + 1 - i.val)) (16 * (j.val + 1 - i.val)) s u ∧
      u.ip = s.ip ∧ u.cfg = s.cfg

/-- `push fi-fj` and `pop fi-fj`: as the integer forms, the 128 bits unchanged, the stack pointer in the integer file
(43 R230, R231). Rests on the spec's own decisions D3, D7, D18 and D19. -/
def Obligations.FloatPushAndPop : Prop :=
  ∀ (i j : FReg) (s : State), i ≤ j →
    (InDomain s (s.slotBelow (j.val + 1 - i.val)) (16 * (j.val + 1 - i.val)) →
      ∃ t, exec (.pushF i j) s = .next t ∧ t.sp = s.slotBelow (j.val + 1 - i.val) ∧
        (∀ n : FReg, i ≤ n → n ≤ j → HoldsCell t (s.slotBelow (n.val + 1 - i.val)) 16 (s.getF n)) ∧
        SameXBut [spReg] s t ∧ SameFBut [] s t ∧
        SameBytesOutside (s.slotBelow (j.val + 1 - i.val)) (16 * (j.val + 1 - i.val)) s t ∧
        t.ip = s.ip ∧ t.cfg = s.cfg) ∧
    ∀ v : FReg → Word, InDomain s s.sp (16 * (j.val + 1 - i.val)) →
      (∀ n : FReg, i ≤ n → n ≤ j →
        HoldsCell s (s.slotAbove (popPlace s.cfg.popOrder i j n)) 16 (v n)) →
      ∃ t, exec (.popF i j) s = .next t ∧ t.sp = s.slotAbove (j.val + 1 - i.val) ∧
        (∀ n : FReg, i ≤ n → n ≤ j → t.getF n = v n) ∧ (∀ n : FReg, (n < i ∨ j < n) → t.getF n = s.getF n) ∧
        SameXBut [spReg] s t ∧ SameBytes s t ∧ t.ip = s.ip ∧ t.cfg = s.cfg

/-- A range faults at the first slot that is not mapped, in the order of the loop, and what the loop did before stays: the
slots written, the registers loaded, `sp` (40 R137, R138, 43 R230, R231, 60 R312). An integer pop that loads `r31` first is
the pop of the rest from the new stack (PopOfTheStackPointer). Rests on the spec's own decisions D6, D18 and D28. -/
def Obligations.RangesFaultAtTheFirstUnmappedSlot : Prop :=
  ∀ (i j : Fin 32) (k : Nat) (s : State), i.val + k ≤ j.val →
    (InDomain s (s.slotBelow k) (16 * k) → ¬ InDomain s (s.slotBelow (k + 1)) 16 →
      (∃ u, exec (.push i j) s = .fault (.unmappedAccess (s.slotBelow (k + 1)) 16 u) ∧
        StoppedPushing s u i k (s.pushed i)) ∧
      ∃ u, exec (.pushF i j) s = .fault (.unmappedAccess (s.slotBelow (k + 1)) 16 u) ∧ StoppedPushing s u i k s.getF) ∧
    ∀ v : Fin 32 → Word, InDomain s s.sp (16 * k) → ¬ InDomain s (s.slotAbove k) 16 →
      (∀ n, i ≤ n → n ≤ j → popPlace s.cfg.popOrder i j n < k →
        HoldsCell s (s.slotAbove (popPlace s.cfg.popOrder i j n)) 16 (v n)) →
      (∃ u, exec (.popF i j) s = .fault (.unmappedAccess (s.slotAbove k) 16 u) ∧ u.sp = s.slotAbove k ∧
        (∀ n, i ≤ n → n ≤ j → popPlace s.cfg.popOrder i j n < k → u.getF n = v n) ∧
        (∀ n, (n < i ∨ j < n ∨ k ≤ popPlace s.cfg.popOrder i j n) → u.getF n = s.getF n) ∧
        SameXBut [spReg] s u ∧ SameBytes s u ∧ u.ip = s.ip ∧ u.cfg = s.cfg) ∧
      ((s.cfg.popOrder = .sourceAscending ∨ j ≠ spReg ∨ k = 0) →
        ∃ u, exec (.pop i j) s = .fault (.unmappedAccess (s.slotAbove k) 16 u) ∧
          StoppedPopping s u (s.slotAbove k) s.ip
            (fun n => i ≤ n ∧ n ≤ j ∧ popPlace s.cfg.popOrder i j n < k) v)

/-! ### Integer arithmetic -/

/-- `addi` and `subi` in both forms and `muliu` of registers: encoding, sum, difference or product modulo 2^128, frame
(41 R150 to R154). That they wrap is the spec's own decision D1 (notes/assumptions/20.md). -/
def Obligations.SumsDifferencesAndUnsignedProducts : Prop :=
  ∀ (d a b : Reg) (imm : BitVec 10) (s : State),
    (encode (.addiR d a b) =
        0#2 ++ 0#10 ++ BitVec.ofNat 5 d ++ BitVec.ofNat 5 a ++ BitVec.ofNat 5 b ++ 0#5 ∧
      ∃ t, exec (.addiR d a b) s = .next t ∧ OnlyX [d] s t ∧
        uval (t.getX d) = (uval (s.getX a) + uval (s.getX b)) % 2 ^ 128) ∧
    (encode (.addiI d a imm) = 0#2 ++ 1#10 ++ BitVec.ofNat 5 d ++ BitVec.ofNat 5 a ++ imm ∧
      ∃ t, exec (.addiI d a imm) s = .next t ∧ OnlyX [d] s t ∧
        uval (t.getX d) = (uval (s.getX a) + uval (imm.signExtend 128)) % 2 ^ 128) ∧
    (encode (.subiR d a b) =
        0#2 ++ 2#10 ++ BitVec.ofNat 5 d ++ BitVec.ofNat 5 a ++ BitVec.ofNat 5 b ++ 0#5 ∧
      ∃ t, exec (.subiR d a b) s = .next t ∧ OnlyX [d] s t ∧
        (uval (t.getX d) : Int) = ((uval (s.getX a) : Int) - uval (s.getX b)) % 2 ^ 128) ∧
    (encode (.subiI d a imm) = 0#2 ++ 3#10 ++ BitVec.ofNat 5 d ++ BitVec.ofNat 5 a ++ imm ∧
      ∃ t, exec (.subiI d a imm) s = .next t ∧ OnlyX [d] s t ∧
        (uval (t.getX d) : Int) = ((uval (s.getX a) : Int) - uval (imm.signExtend 128)) % 2 ^ 128) ∧
    (encode (.muliuR d a b) =
        0#2 ++ 4#10 ++ BitVec.ofNat 5 d ++ BitVec.ofNat 5 a ++ BitVec.ofNat 5 b ++ 0#5 ∧
      ∃ t, exec (.muliuR d a b) s = .next t ∧ OnlyX [d] s t ∧
        uval (t.getX d) = (uval (s.getX a) * uval (s.getX b)) % 2 ^ 128)

/-- Signed and unsigned multiplication give the same state, the low 128 bits of either product, in both forms; the
immediate is sign-extended in both (41 R155, R156, R157, R174). Rests on the spec's own decisions D1 and D11. -/
def Obligations.ProductsAgree : Prop :=
  ∀ (d a b : Reg) (imm : BitVec 10) (s : State),
    (∃ t, exec (.mulisR d a b) s = .next t ∧ exec (.muliuR d a b) s = .next t ∧ OnlyX [d] s t ∧
      sval (t.getX d) = Int.bmod (sval (s.getX a) * sval (s.getX b)) (2 ^ 128)) ∧
    (∃ t, exec (.mulisI d a imm) s = .next t ∧ exec (.muliuI d a imm) s = .next t ∧ OnlyX [d] s t ∧
      sval (t.getX d) = Int.bmod (sval (s.getX a) * imm.toInt) (2 ^ 128))

/-- Unsigned quotients and remainders, characterised by a = q * b + r with r < b; the immediate is sign-extended, so a
negative one is a large divisor (41 R158, R159, R162, R163, R168). Rests on the spec's own decision D11. -/
def Obligations.UnsignedDivision : Prop :=
  ∀ (d a b : Reg) (imm : BitVec 10) (s : State),
    (∀ p ∈ [(Instr.diviuR d a b, uval (s.getX b)), (.diviuI d a imm, uval (imm.signExtend 128))], p.2 ≠ 0 →
      ∃ t, exec p.1 s = .next t ∧ OnlyX [d] s t ∧
        uval (t.getX d) * p.2 ≤ uval (s.getX a) ∧ uval (s.getX a) < (uval (t.getX d) + 1) * p.2) ∧
    (∀ p ∈ [(Instr.modiuR d a b, uval (s.getX b)), (.modiuI d a imm, uval (imm.signExtend 128))], p.2 ≠ 0 →
      ∃ t, exec p.1 s = .next t ∧ OnlyX [d] s t ∧
        uval (t.getX d) < p.2 ∧ ∃ k, uval (s.getX a) = k * p.2 + uval (t.getX d))

/-- Signed quotients and remainders under either SDIV_ROUNDING, characterised by a = q * b + r and the sign of r;
`modis` of -2^127 by -1 gives 0 (41 R160, R161, R164, R165, R168, R169). Rests on the spec's own decisions D1, D13 and
D14. -/
def Obligations.SignedDivision : Prop :=
  ∀ (d a b : Reg) (imm : BitVec 10) (s : State),
    (∀ p ∈ [(Instr.divisR d a b, sval (s.getX b)), (.divisI d a imm, imm.toInt)], p.2 ≠ 0 →
      ¬ (sval (s.getX a) = -2 ^ 127 ∧ p.2 = -1) →
      ∃ t m, exec p.1 s = .next t ∧ OnlyX [d] s t ∧
        QuotRem s.cfg.sdivRounding (sval (s.getX a)) p.2 (sval (t.getX d)) m) ∧
    (∀ p ∈ [(Instr.modisR d a b, sval (s.getX b)), (.modisI d a imm, imm.toInt)], p.2 ≠ 0 →
      ∃ t k, exec p.1 s = .next t ∧ OnlyX [d] s t ∧
        QuotRem s.cfg.sdivRounding (sval (s.getX a)) p.2 k (sval (t.getX d)))

/-- `divmodiu` and `divmodis`: both results from the old sources; equal destinations end with the remainder (41 R166,
R167). Rests on the spec's own decisions D13, D14 and D15. -/
def Obligations.DivisionWithRemainder : Prop :=
  ∀ (q r a b : Reg) (s : State), uval (s.getX b) ≠ 0 →
    (∃ t k, exec (.divmodiu q r a b) s = .next t ∧ OnlyX [q, r] s t ∧ (q ≠ r → uval (t.getX q) = k) ∧
      uval (s.getX a) = k * uval (s.getX b) + uval (t.getX r) ∧ uval (t.getX r) < uval (s.getX b)) ∧
    (¬ (sval (s.getX a) = -2 ^ 127 ∧ sval (s.getX b) = -1) →
      ∃ t k, exec (.divmodis q r a b) s = .next t ∧ OnlyX [q, r] s t ∧ (q ≠ r → sval (t.getX q) = k) ∧
        QuotRem s.cfg.sdivRounding (sval (s.getX a)) (sval (s.getX b)) k (sval (t.getX r)))

/-- The faults of division: a zero divisor in every form, and -2^127 by -1 where a signed quotient is written, both before
anything is written (41 R169). Rests on the spec's own decisions D13 and D28. -/
def Obligations.DivisionFaults : Prop :=
  ∀ (d e a b : Reg) (s : State),
    (∀ i ∈ [Instr.diviuI d a 0, .divisI d a 0, .modiuI d a 0, .modisI d a 0], exec i s = .fault (.divideByZero s)) ∧
    (uval (s.getX b) = 0 →
      ∀ i ∈ [Instr.diviuR d a b, .divisR d a b, .modiuR d a b, .modisR d a b, .divmodiu d e a b,
          .divmodis d e a b], exec i s = .fault (.divideByZero s)) ∧
    (sval (s.getX a) = -2 ^ 127 →
      exec (.divisI d a (BitVec.ofInt 10 (-1))) s = .fault (.divideOverflow s) ∧
      (sval (s.getX b) = -1 →
        ∀ i ∈ [Instr.divisR d a b, .divmodis d e a b], exec i s = .fault (.divideOverflow s)))

/-- `cmpiu reg1, reg2, reg3`: encoding, the three results, frame (41 R170). -/
def Obligations.UnsignedCompare : Prop :=
  ∀ (d a b : Reg) (s : State),
    encode (.cmpiuR d a b) =
        0#2 ++ 18#10 ++ BitVec.ofNat 5 d ++ BitVec.ofNat 5 a ++ BitVec.ofNat 5 b ++ 0#5 ∧
    ∃ t, exec (.cmpiuR d a b) s = .next t ∧ OnlyX [d] s t ∧
      (uval (s.getX a) < uval (s.getX b) → uval (t.getX d) = 2 ^ 128 - 1) ∧
      (uval (s.getX a) = uval (s.getX b) → uval (t.getX d) = 0) ∧
      (uval (s.getX b) < uval (s.getX a) → uval (t.getX d) = 1)

/-- A compare writes the sign of the difference, which the conditions of transfers then test: unsigned with a sign-
extended immediate, signed in both forms (41 R171, R172, R173, R175). Rests on the spec's own decisions D1, D11 and
D27. -/
def Obligations.CompareResultsFeedConditions : Prop :=
  ∀ (d a b : Reg) (imm : BitVec 10) (s : State),
    ∀ p ∈ [(Instr.cmpiuI d a imm, (uval (s.getX a) : Int), (uval (imm.signExtend 128) : Int)),
        (.cmpisR d a b, sval (s.getX a), sval (s.getX b)), (.cmpisI d a imm, sval (s.getX a), imm.toInt)],
      ∃ t, exec p.1 s = .next t ∧ OnlyX [d] s t ∧ sval (t.getX d) = (p.2.1 - p.2.2).sign ∧
        (CondTrue .s (t.getX d) ↔ p.2.1 < p.2.2) ∧ (CondTrue .z (t.getX d) ↔ p.2.1 = p.2.2) ∧
        (CondTrue .p (t.getX d) ↔ p.2.2 < p.2.1) ∧ (CondTrue .nz (t.getX d) ↔ p.2.1 ≠ p.2.2) ∧
        (CondTrue .ge (t.getX d) ↔ p.2.2 ≤ p.2.1) ∧ (CondTrue .le (t.getX d) ↔ p.2.1 ≤ p.2.2)

/-! ### Bitwise operations and shifts -/

/-- `and`, `or`, `xor` of two registers: encoding, bit by bit, frame (42 R190, R192, R194). -/
def Obligations.RegisterBitwise : Prop :=
  ∀ (d a b : Reg) (s : State),
    ∀ p ∈ [(Instr.andR d a b, 22#10, fun x y : Bool => x && y), (.orR d a b, 24#10, fun x y => x || y),
        (.xorR d a b, 26#10, fun x y => x ^^ y)],
      encode p.1 = 0#2 ++ p.2.1 ++ BitVec.ofNat 5 d ++ BitVec.ofNat 5 a ++ BitVec.ofNat 5 b ++ 0#5 ∧
      ∃ t, exec p.1 s = .next t ∧ OnlyX [d] s t ∧
        ∀ k < 128, (t.getX d).getLsbD k = p.2.2 ((s.getX a).getLsbD k) ((s.getX b).getLsbD k)

/-- The immediate and the complemented forms, bit by bit: bit 9 of the immediate fills the bits above it before any
complement (42 R189, R191, R193, R195 to R201, 30 R77). Rests on the spec's own decision D11. -/
def Obligations.ComplementedAndImmediateBitwise : Prop :=
  ∀ (d a b : Reg) (imm : BitVec 10) (s : State),
    (∀ p ∈ [(Instr.andI d a imm, fun x y : Bool => x && y), (.orI d a imm, fun x y => x || y),
        (.xorI d a imm, fun x y => x ^^ y), (.andnI d a imm, fun x y => x && !y),
        (.ornI d a imm, fun x y => x || !y), (.xornI d a imm, fun x y => x == y)],
      ∃ t, exec p.1 s = .next t ∧ OnlyX [d] s t ∧
        ∀ k < 128, (t.getX d).getLsbD k =
          p.2 ((s.getX a).getLsbD k) (if k < 10 then imm.getLsbD k else imm.getLsbD 9)) ∧
    (∀ p ∈ [(Instr.andnR d a b, fun x y : Bool => x && !y), (.ornR d a b, fun x y => x || !y),
        (.xornR d a b, fun x y => x == y)],
      ∃ t, exec p.1 s = .next t ∧ OnlyX [d] s t ∧
        ∀ k < 128, (t.getX d).getLsbD k = p.2 ((s.getX a).getLsbD k) ((s.getX b).getLsbD k))

/-- `not` of a register and of an immediate: encoding, value, frame (42 R208, R209). -/
def Obligations.Complement : Prop :=
  ∀ (d a : Reg) (imm : BitVec 15) (s : State),
    (encode (.notR d a) = 0#2 ++ 40#10 ++ BitVec.ofNat 5 d ++ BitVec.ofNat 5 a ++ 0#10 ∧
      ∃ t, exec (.notR d a) s = .next t ∧ OnlyX [d] s t ∧ uval (t.getX d) = 2 ^ 128 - 1 - uval (s.getX a)) ∧
    (encode (.notI d imm) = 0#2 ++ 41#10 ++ BitVec.ofNat 5 d ++ imm ∧
      ∃ t, exec (.notI d imm) s = .next t ∧ OnlyX [d] s t ∧
        ∀ k < 128, (t.getX d).getLsbD k = !(if k < 15 then imm.getLsbD k else imm.getLsbD 14))

/-- Shifts by 0 to 127, in both forms: left modulo 2^128, right with zeros, right with the sign (42 R202 to R207,
R210). Rests on the spec's own decisions D1 and D12. -/
def Obligations.ShiftsInRange : Prop :=
  ∀ (d a b : Reg) (imm : BitVec 10) (s : State),
    ∀ p ∈ [(Instr.lshiftR d a b, Instr.rshiftR d a b, Instr.rshiftsR d a b, uval (s.getX b)),
        (.lshiftI d a imm, .rshiftI d a imm, .rshiftsI d a imm, imm.toNat)],
      p.2.2.2 < 128 →
      ∃ t u v, exec p.1 s = .next t ∧ exec p.2.1 s = .next u ∧ exec p.2.2.1 s = .next v ∧
        OnlyX [d] s t ∧ OnlyX [d] s u ∧ OnlyX [d] s v ∧
        uval (t.getX d) = uval (s.getX a) * 2 ^ p.2.2.2 % 2 ^ 128 ∧
        uval (u.getX d) = uval (s.getX a) / 2 ^ p.2.2.2 ∧
        sval (v.getX d) = sval (s.getX a) / 2 ^ p.2.2.2

/-- A shift by 128 or more, an immediate from 128 on or negative among them, completes with a free value in the
destination and takes one draw (42 R210, 00 R14; the form of the draw is the model's, notes/assumptions/7.md). Rests
on the spec's own decision D12. -/
def Obligations.ShiftsOutOfRangeAreFree : Prop :=
  ∀ (d a b : Reg) (imm : BitVec 10) (s : State),
    (128 ≤ uval (s.getX b) → ∀ i ∈ [Instr.lshiftR d a b, .rshiftR d a b, .rshiftsR d a b],
      ∃ t, exec i s = .next t ∧ OnlyX [d] s t ∧ t.getX d = Config.anyWord s.draws ∧ t.draws = s.draws + 1) ∧
    (128 ≤ imm.toNat → ∀ i ∈ [Instr.lshiftI d a imm, .rshiftI d a imm, .rshiftsI d a imm],
      ∃ t, exec i s = .next t ∧ OnlyX [d] s t ∧ t.getX d = Config.anyWord s.draws ∧ t.draws = s.draws + 1)

/-! ### Floating point -/

/-- The floating-point move and loads: a copy of the 128 bits, or what the record's conversion admits; only the
destination changes (43 R222 to R226). Rests on the spec's own decisions D3, D6, D19 and D20. How many draws an answer
takes is the model's form (notes/assumptions/7.md and 8.md). -/
def Obligations.FloatMoveAndLoads : Prop :=
  ∀ (d a : FReg) (m : MemOperand) (s : State) (v : Word),
    (∃ t, exec (.movF d a) s = .next t ∧ t.getF d = s.getF a ∧ OnlyF [d] s t) ∧
    ∀ p ∈ [(Instr.movFLoad d m, 16, FpVal.bits v), (.mov32fLoad d m, 4, (fpOf s.cfg).from32 (v.setWidth 32)),
        (.mov64fLoad d m, 8, (fpOf s.cfg).from64 (v.setWidth 64)),
        (.mov80fLoad d m, 10, (fpOf s.cfg).from80 (v.setWidth 80))],
      InDomain s (s.ea m) p.2.1 → HoldsCell s (s.ea m) p.2.1 v →
      ∃ t, exec p.1 s = .next t ∧ FpAdmits quad p.2.2 (t.getF d) ∧ t.draws = s.draws + fpDraws p.2.2 ∧
        OnlyF [d] s t

/-- The floating-point stores: bits that the record's narrowing admits, in BYTE_ORDER, and no other byte (43 R227 to
R229). Rests on the spec's own decisions D3, D6 and D20. -/
def Obligations.FloatStores : Prop :=
  ∀ (r : FReg) (m : MemOperand) (s : State),
    (InDomain s (s.ea m) 4 → ∃ t c, exec (.mov32fStore r m) s = .next t ∧
      FpAdmits single ((fpOf s.cfg).to32 (s.getF r)) c ∧ HoldsCell t (s.ea m) 4 (c.setWidth 128) ∧
      OnlyBytes (s.ea m) 4 s t) ∧
    (InDomain s (s.ea m) 8 → ∃ t c, exec (.mov64fStore r m) s = .next t ∧
      FpAdmits double ((fpOf s.cfg).to64 (s.getF r)) c ∧ HoldsCell t (s.ea m) 8 (c.setWidth 128) ∧
      OnlyBytes (s.ea m) 8 s t) ∧
    (InDomain s (s.ea m) 10 → ∃ t c, exec (.mov80fStore r m) s = .next t ∧
      FpAdmits extended ((fpOf s.cfg).to80 (s.getF r)) c ∧ HoldsCell t (s.ea m) 10 (c.setWidth 128) ∧
      OnlyBytes (s.ea m) 10 s t)

/-- `addf`, `subf`, `mulf`, `divf`, `frac`: the destination holds what the record's function admits of the old
sources; no operand faults (44 R242 to R244, R246, R251, R253). Rests on the spec's own decisions D19 and D22. How
many draws an answer takes is the model's form (notes/assumptions/7.md and 8.md). -/
def Obligations.FloatArithmetic : Prop :=
  ∀ (d a b : FReg) (s : State),
    ∀ p ∈ [(Instr.addf d a b, (fpOf s.cfg).add (s.getF a) (s.getF b)),
        (.subf d a b, (fpOf s.cfg).sub (s.getF a) (s.getF b)),
        (.mulf d a b, (fpOf s.cfg).mul (s.getF a) (s.getF b)),
        (.divf d a b, (fpOf s.cfg).div (s.getF a) (s.getF b)), (.frac d a, (fpOf s.cfg).frac (s.getF a))],
      ∃ t, exec p.1 s = .next t ∧ FpAdmits quad p.2 (t.getF d) ∧ t.draws = s.draws + fpDraws p.2 ∧ OnlyF [d] s t

/-- `cmpf` writes -1, 0, +1 or +2, and the four roundings write the integer the record chooses, or a free value where
it chooses none (44 R245, R247 to R250, R254; the form of the draw is the model's, notes/assumptions/7.md). Rests on
the spec's own decisions D19, D21 and D23. -/
def Obligations.FloatToIntegerResults : Prop :=
  ∀ (d : Reg) (a b : FReg) (s : State),
    (∃ t, exec (.cmpf d a b) s = .next t ∧ OnlyX [d] s t ∧
      sval (t.getX d) = match (fpOf s.cfg).cmp (s.getF a) (s.getF b) with
        | .lt => -1
        | .eq => 0
        | .gt => 1
        | .un => 2) ∧
    ∀ p ∈ [(Instr.roundn d a, RoundMode.nearest), (.roundl d a, .floor), (.roundg d a, .ceiling),
        (.roundt d a, .trunc)],
      ∃ t, exec p.1 s = .next t ∧ OnlyX [d] s t ∧
        match (fpOf s.cfg).toInt p.2 (s.getF a) with
        | some z => t.getX d = BitVec.ofInt 128 z ∧ t.draws = s.draws
        | none => t.getX d = Config.anyWord s.draws ∧ t.draws = s.draws + 1

/-- Under the IEEE defaults a widening load of a number is exact and keeps the sign, of an infinity is that infinity,
of a NaN is some NaN (43 R221, marked there as a decision). Rests on the spec's own decision D20. -/
def Obligations.WideningLoadsAreExact : Prop :=
  ∀ (d : FReg) (m : MemOperand) (s : State) (v : Word), s.cfg.fp = .ieee754 →
    ∀ p ∈ [(Instr.mov32fLoad d m, 4, single), (.mov64fLoad d m, 8, double), (.mov80fLoad d m, 10, extended)],
      InDomain s (s.ea m) p.2.1 → HoldsCell s (s.ea m) p.2.1 v →
      ∃ t, exec p.1 s = .next t ∧ OnlyF [d] s t ∧
        (p.2.2.Finite v → quad.Finite (t.getF d) ∧ quad.value (t.getF d) = p.2.2.value v ∧
          quad.sign (t.getF d) = p.2.2.sign v) ∧
        (p.2.2.Infinite v → quad.Infinite (t.getF d) ∧ quad.sign (t.getF d) = p.2.2.sign v) ∧
        (p.2.2.NaN v → quad.NaN (t.getF d))

/-- Under the IEEE defaults a narrowing store of a number rounds it to nearest, ties to even, keeping the sign of a
zero; of an infinity stores that infinity, of a NaN some NaN (43 R221, marked there as a decision). Rests on the
spec's own decision D20. -/
def Obligations.NarrowingStoresRoundToNearest : Prop :=
  ∀ (r : FReg) (m : MemOperand) (s : State), s.cfg.fp = .ieee754 →
    ∀ p ∈ [(Instr.mov32fStore r m, 4, single), (.mov64fStore r m, 8, double), (.mov80fStore r m, 10, extended)],
      InDomain s (s.ea m) p.2.1 →
      ∃ t c, exec p.1 s = .next t ∧ HoldsCell t (s.ea m) p.2.1 c ∧ OnlyBytes (s.ea m) p.2.1 s t ∧
        (quad.Finite (s.getF r) → p.2.2.sign c = quad.sign (s.getF r) ∧
          p.2.2.Rounds (quad.value (s.getF r)) c) ∧
        (quad.Infinite (s.getF r) → p.2.2.Infinite c ∧ p.2.2.sign c = quad.sign (s.getF r)) ∧
        (quad.NaN (s.getF r) → p.2.2.NaN c)

/-- Under the IEEE defaults sums, differences, products and quotients of numbers are correctly rounded: nearest, ties
to even, overflow to infinity (44 R241, marked there as a decision). Rests on the spec's own decision D19. -/
def Obligations.ArithmeticIsCorrectlyRounded : Prop :=
  ∀ (d a b : FReg) (s : State), s.cfg.fp = .ieee754 → quad.Finite (s.getF a) → quad.Finite (s.getF b) →
    ∀ p ∈ [(Instr.addf d a b, quad.value (s.getF a) + quad.value (s.getF b)),
        (.subf d a b, quad.value (s.getF a) - quad.value (s.getF b)),
        (.mulf d a b, quad.value (s.getF a) * quad.value (s.getF b)),
        (.divf d a b, quad.value (s.getF a) / quad.value (s.getF b))],
      (p.1 = .divf d a b → quad.value (s.getF b) ≠ 0) →
      ∃ t, exec p.1 s = .next t ∧ OnlyF [d] s t ∧ quad.Rounds p.2 (t.getF d)

/-- Under the IEEE defaults the invalid operations give a NaN: a NaN operand, inf - inf, 0 * inf, 0 / 0, inf / inf (44
R241, marked there as a decision). Rests on the spec's own decision D19. -/
def Obligations.InvalidOperationsGiveNaN : Prop :=
  ∀ (d a b : FReg) (s : State), s.cfg.fp = .ieee754 →
    (quad.NaN (s.getF a) ∨ quad.NaN (s.getF b) →
      ∀ i ∈ [Instr.addf d a b, .subf d a b, .mulf d a b, .divf d a b],
        ∃ t, exec i s = .next t ∧ OnlyF [d] s t ∧ quad.NaN (t.getF d)) ∧
    (quad.Infinite (s.getF a) ∧ quad.Infinite (s.getF b) →
      (∃ t, exec (.divf d a b) s = .next t ∧ OnlyF [d] s t ∧ quad.NaN (t.getF d)) ∧
      (quad.sign (s.getF a) ≠ quad.sign (s.getF b) →
        ∃ t, exec (.addf d a b) s = .next t ∧ OnlyF [d] s t ∧ quad.NaN (t.getF d)) ∧
      (quad.sign (s.getF a) = quad.sign (s.getF b) →
        ∃ t, exec (.subf d a b) s = .next t ∧ OnlyF [d] s t ∧ quad.NaN (t.getF d))) ∧
    (quad.Finite (s.getF a) ∧ quad.value (s.getF a) = 0 →
      (quad.Infinite (s.getF b) →
        (∃ t, exec (.mulf d a b) s = .next t ∧ OnlyF [d] s t ∧ quad.NaN (t.getF d)) ∧
        (∃ t, exec (.mulf d b a) s = .next t ∧ OnlyF [d] s t ∧ quad.NaN (t.getF d))) ∧
      (quad.Finite (s.getF b) ∧ quad.value (s.getF b) = 0 →
        ∃ t, exec (.divf d a b) s = .next t ∧ OnlyF [d] s t ∧ quad.NaN (t.getF d)))

/-- Under the IEEE defaults infinities absorb numbers, x / 0 is infinity, x / inf is zero, and signs follow the
operands: the exclusive or for products and quotients, and +0 for an exact zero sum unless both terms are negative (44
R241, marked there as a decision). Rests on the spec's own decision D19. -/
def Obligations.InfinitiesAndSignedZeros : Prop :=
  ∀ (d a b : FReg) (s : State), s.cfg.fp = .ieee754 →
    (quad.Infinite (s.getF a) → quad.Finite (s.getF b) →
      (∀ p ∈ [(Instr.addf d a b, quad.sign (s.getF a)), (.addf d b a, quad.sign (s.getF a)),
          (.subf d a b, quad.sign (s.getF a)), (.subf d b a, !quad.sign (s.getF a)),
          (.divf d a b, quad.sign (s.getF a) ^^ quad.sign (s.getF b))],
        ∃ t, exec p.1 s = .next t ∧ OnlyF [d] s t ∧ quad.Infinite (t.getF d) ∧ quad.sign (t.getF d) = p.2) ∧
      (quad.value (s.getF b) ≠ 0 → ∀ i ∈ [Instr.mulf d a b, .mulf d b a],
        ∃ t, exec i s = .next t ∧ OnlyF [d] s t ∧ quad.Infinite (t.getF d) ∧
          quad.sign (t.getF d) = (quad.sign (s.getF a) ^^ quad.sign (s.getF b))) ∧
      ∃ t, exec (.divf d b a) s = .next t ∧ OnlyF [d] s t ∧ quad.Finite (t.getF d) ∧
        quad.value (t.getF d) = 0 ∧ quad.sign (t.getF d) = (quad.sign (s.getF a) ^^ quad.sign (s.getF b))) ∧
    (quad.Infinite (s.getF a) → quad.Infinite (s.getF b) →
      (∃ t, exec (.mulf d a b) s = .next t ∧ OnlyF [d] s t ∧ quad.Infinite (t.getF d) ∧
        quad.sign (t.getF d) = (quad.sign (s.getF a) ^^ quad.sign (s.getF b))) ∧
      ∀ p ∈ [(Instr.addf d a b, quad.sign (s.getF b)), (.subf d a b, !quad.sign (s.getF b))],
        quad.sign (s.getF a) = p.2 →
        ∃ t, exec p.1 s = .next t ∧ OnlyF [d] s t ∧ quad.Infinite (t.getF d) ∧ quad.sign (t.getF d) = p.2) ∧
    (quad.Finite (s.getF a) → quad.Finite (s.getF b) →
      (quad.value (s.getF a) ≠ 0 → quad.value (s.getF b) = 0 →
        ∃ t, exec (.divf d a b) s = .next t ∧ OnlyF [d] s t ∧ quad.Infinite (t.getF d) ∧
          quad.sign (t.getF d) = (quad.sign (s.getF a) ^^ quad.sign (s.getF b))) ∧
      (quad.value (s.getF b) ≠ 0 →
        ∃ t, exec (.divf d a b) s = .next t ∧ OnlyF [d] s t ∧
          quad.sign (t.getF d) = (quad.sign (s.getF a) ^^ quad.sign (s.getF b)) ∧
          (quad.value (s.getF a) = 0 → quad.Finite (t.getF d) ∧ quad.value (t.getF d) = 0)) ∧
      (∃ t, exec (.mulf d a b) s = .next t ∧ OnlyF [d] s t ∧
        quad.sign (t.getF d) = (quad.sign (s.getF a) ^^ quad.sign (s.getF b))) ∧
      (quad.value (s.getF a) + quad.value (s.getF b) = 0 →
        ∃ t, exec (.addf d a b) s = .next t ∧ OnlyF [d] s t ∧
          quad.sign (t.getF d) = (quad.sign (s.getF a) && quad.sign (s.getF b))) ∧
      (quad.value (s.getF a) - quad.value (s.getF b) = 0 →
        ∃ t, exec (.subf d a b) s = .next t ∧ OnlyF [d] s t ∧
          quad.sign (t.getF d) = (quad.sign (s.getF a) && !quad.sign (s.getF b))))

/-- Under the IEEE defaults `cmpf` orders values: numbers by their value, infinities at the ends, unordered exactly
with a NaN (44 R245, marked there as a decision). Rests on the spec's own decisions D19 and D23. -/
def Obligations.CompareOrdersValues : Prop :=
  ∀ (d : Reg) (a b : FReg) (s : State), s.cfg.fp = .ieee754 →
    ∃ t, exec (.cmpf d a b) s = .next t ∧ OnlyX [d] s t ∧
      (sval (t.getX d) = 2 ↔ quad.NaN (s.getF a) ∨ quad.NaN (s.getF b)) ∧
      (quad.Finite (s.getF a) → quad.Finite (s.getF b) →
        (sval (t.getX d) = -1 ↔ quad.value (s.getF a) < quad.value (s.getF b)) ∧
        (sval (t.getX d) = 0 ↔ quad.value (s.getF a) = quad.value (s.getF b)) ∧
        (sval (t.getX d) = 1 ↔ quad.value (s.getF b) < quad.value (s.getF a))) ∧
      (quad.Infinite (s.getF a) → quad.Finite (s.getF b) →
        sval (t.getX d) = if quad.sign (s.getF a) then -1 else 1) ∧
      (quad.Finite (s.getF a) → quad.Infinite (s.getF b) →
        sval (t.getX d) = if quad.sign (s.getF b) then 1 else -1) ∧
      (quad.Infinite (s.getF a) → quad.Infinite (s.getF b) →
        sval (t.getX d) = if quad.sign (s.getF a) = quad.sign (s.getF b) then 0
          else if quad.sign (s.getF a) then -1 else 1)

/-- Under the IEEE defaults the four roundings write the integer their mode chooses from the number, if it fits 128
bits as a signed integer; a larger one, an infinity or a NaN gives a free value (44 R254, marked there as a decision).
Rests on the spec's own decision D21. The form of the free value is the model's (notes/assumptions/7.md). -/
def Obligations.RoundingsChooseTheInteger : Prop :=
  ∀ (d : Reg) (a : FReg) (s : State) (z : ℤ), s.cfg.fp = .ieee754 →
    ∀ p ∈ [(Instr.roundn d a, RoundMode.nearest), (.roundl d a, .floor), (.roundg d a, .ceiling),
        (.roundt d a, .trunc)],
      (quad.Finite (s.getF a) → ChoosesInt s.cfg.roundnTie p.2 (quad.value (s.getF a)) z →
        -2 ^ 127 ≤ z → z ≤ 2 ^ 127 - 1 →
        ∃ t, exec p.1 s = .next t ∧ OnlyX [d] s t ∧ sval (t.getX d) = z) ∧
      (¬ quad.Finite (s.getF a) ∨
        ChoosesInt s.cfg.roundnTie p.2 (quad.value (s.getF a)) z ∧ (z < -2 ^ 127 ∨ 2 ^ 127 - 1 < z) →
        ∃ t, exec p.1 s = .next t ∧ OnlyX [d] s t ∧ t.getX d = Config.anyWord s.draws)

/-- Under the IEEE defaults `frac` gives the number less its integer part toward zero, exactly; +0 for an integer;
otherwise the sign of the operand (44 R251, marked there as a decision). Rests on the spec's own decision D22. -/
def Obligations.FractionIsExact : Prop :=
  ∀ (d a : FReg) (s : State) (z : ℤ), s.cfg.fp = .ieee754 → quad.Finite (s.getF a) →
    ChoosesInt s.cfg.roundnTie .trunc (quad.value (s.getF a)) z →
    ∃ t, exec (.frac d a) s = .next t ∧ OnlyF [d] s t ∧ quad.Finite (t.getF d) ∧
      quad.value (t.getF d) = quad.value (s.getF a) - z ∧
      quad.sign (t.getF d) = (quad.sign (s.getF a) && decide (quad.value (s.getF a) ≠ z))

/-! ### Control transfer -/

/-- Unconditional jumps change `ip` alone: to the register as it is, or to a multiple of 4 from the next instruction
modulo 2^128 (45 R270, R272, R273, R274). Rests on the spec's own decisions D4, D5 and D7. -/
def Obligations.Jumps : Prop :=
  ∀ (a : Reg) (imm : BitVec 20) (s : State),
    (∃ t, exec (.jmp a) s = .next t ∧ Moved s t (s.getX a)) ∧
    (∃ t, exec (.jmprR a) s = .next t ∧ Moved s t (s.target (sval (s.getX a)))) ∧
    (∃ t, exec (.jmprI imm) s = .next t ∧ Moved s t (s.target imm.toInt))

/-- Conditional jumps `jmp<cc>`, `jmp<cc>r` in both forms, for all six conditions: taken exactly when the condition
holds of the signed reading; else nothing changes (45 R271, R275, R276, R277). Rests on the spec's own decisions D4,
D5, D7 and D27. -/
def Obligations.ConditionalJumps : Prop :=
  ∀ (c : Cond) (x a : Reg) (imm : BitVec 15) (s : State),
    ∀ p ∈ [(jmpCc c x a, s.getX a), (jmpCcrR c x a, s.target (sval (s.getX a))),
        (jmpCcrI c x imm, s.target imm.toInt)],
      ∃ t, exec p.1 s = .next t ∧ (CondTrue c (s.getX x) → Moved s t p.2) ∧ (¬ CondTrue c (s.getX x) → t = s)

/-- Calls push the address of the next instruction and go to the target; a register target is read after the push (45
R278, R279, R280). Rests on the spec's own decisions D4, D7 and D16. -/
def Obligations.Calls : Prop :=
  ∀ (a : Reg) (imm : BitVec 20) (s : State), InDomain s (s.slotBelow 1) 16 →
    (∃ t, exec (.call a) s = .next t ∧ Called s t (s.getXPushed a)) ∧
    (∃ t, exec (.callrR a) s = .next t ∧ Called s t (s.target (sval (s.getXPushed a)))) ∧
    (∃ t, exec (.callrI imm) s = .next t ∧ Called s t (s.target imm.toInt))

/-- Conditional calls `call<cc>`, `call<cc>r` in both forms, for all six conditions: the condition is tested on the
old register; when it fails nothing changes and memory is not accessed (45 R281, R282, R283). Rests on the spec's own
decisions D4, D7, D16 and D27. -/
def Obligations.ConditionalCalls : Prop :=
  ∀ (c : Cond) (x a : Reg) (imm : BitVec 15) (s : State),
    ∀ p ∈ [(callCc c x a, s.getXPushed a), (callCcrR c x a, s.target (sval (s.getXPushed a))),
        (callCcrI c x imm, s.target imm.toInt)],
      (¬ CondTrue c (s.getX x) → exec p.1 s = .next s) ∧
      (CondTrue c (s.getX x) → InDomain s (s.slotBelow 1) 16 →
        ∃ t, exec p.1 s = .next t ∧ Called s t p.2)

/-- Returns load `ip` from the top slot and remove it, `reta` with an unsigned number of bytes more; a size register
is read after the pop (45 R284, R286, R287). Rests on the spec's own decisions D5, D7 and D16. -/
def Obligations.Returns : Prop :=
  ∀ (a : Reg) (imm : BitVec 20) (s : State) (v : Word), InDomain s s.sp 16 → HoldsCell s s.sp 16 v →
    (∃ t, exec .ret s = .next t ∧ Returned s t v 0) ∧
    (∃ t, exec (.retaR a) s = .next t ∧ Returned s t v (s.getXPopped a)) ∧
    (∃ t, exec (.retaI imm) s = .next t ∧ Returned s t v (BitVec.ofNat 128 imm.toNat))

/-- Conditional returns `ret<cc>` and `reta<cc>` in both forms, for all six conditions (45 R285, R288, R289). Rests on
the spec's own decisions D5, D7, D16 and D27. -/
def Obligations.ConditionalReturns : Prop :=
  ∀ (c : Cond) (x a : Reg) (imm : BitVec 15) (s : State),
    ∀ p ∈ [(retCc c x, (0 : Word)), (retaCcR c x a, s.getXPopped a),
        (retaCcI c x imm, BitVec.ofNat 128 imm.toNat)],
      (¬ CondTrue c (s.getX x) → exec p.1 s = .next s) ∧
      ∀ v, CondTrue c (s.getX x) → InDomain s s.sp 16 → HoldsCell s s.sp 16 v →
        ∃ t, exec p.1 s = .next t ∧ Returned s t v p.2

/-- A call followed by a return comes back to the next instruction with every register as it was (45 R278, R284).
Rests on the spec's own decisions D4 and D7. -/
def Obligations.ReturnAfterCall : Prop :=
  ∀ (a : Reg) (s : State), InDomain s (s.slotBelow 1) 16 →
    ∃ t u, exec (.call a) s = .next t ∧ exec .ret t = .next u ∧ u.ip = s.ip ∧ SameXBut [] s u ∧ SameFBut [] s u ∧
      SameBytesOutside (s.slotBelow 1) 16 s u ∧ u.cfg = s.cfg

/-- A transfer whose stack slot is not mapped faults there, and what it did before stays: calls below `sp`, with `sp` already
decremented; returns at `sp`, with nothing written; a conditional form only when its condition holds; `trap` at the first
unmapped of its 33 slots, the registers before it stored; `reti` at the first unmapped of its 33 slots, with `ip` and the
registers before it loaded, under `descending` from the stack that the loaded `sp` gives (45 R278 to R302, 60 R312). Rests on
the spec's own decisions D6, D16, D18 and D28. -/
def Obligations.UnmappedStackSlotsFault : Prop :=
  ∀ (c : Cond) (x a : Reg) (i20 : BitVec 20) (i15 : BitVec 15) (i10 : BitVec 10) (s : State) (p : Word) (v : Reg → Word),
    (¬ InDomain s (s.slotBelow 1) 16 → ∃ u, StoppedPushing s u 0 0 s.getX ∧
      (∀ i ∈ [Instr.call a, .callrR a, .callrI i20], exec i s = .fault (.unmappedAccess (s.slotBelow 1) 16 u)) ∧
      (CondTrue c (s.getX x) → ∀ i ∈ [callCc c x a, callCcrR c x a, callCcrI c x i15],
        exec i s = .fault (.unmappedAccess (s.slotBelow 1) 16 u))) ∧
    (¬ InDomain s s.sp 16 →
      (∀ i ∈ [Instr.ret, .retaR a, .retaI i20, .reti], exec i s = .fault (.unmappedAccess s.sp 16 s)) ∧
      (CondTrue c (s.getX x) → ∀ i ∈ [retCc c x, retaCcR c x a, retaCcI c x i15],
        exec i s = .fault (.unmappedAccess s.sp 16 s))) ∧
    (∀ k ≤ 32, InDomain s (s.slotBelow k) (16 * k) → ¬ InDomain s (s.slotBelow (k + 1)) 16 →
      ∃ u, StoppedPushing s u 0 k (s.pushed 0) ∧
        ∀ i ∈ [Instr.trapR a, .trapI i10], exec i s = .fault (.unmappedAccess (s.slotBelow (k + 1)) 16 u)) ∧
    (HoldsCell s s.sp 16 p →
      (∀ k ≤ 31, (s.cfg.popOrder = .sourceAscending ∨ k = 0) →
        InDomain s s.sp (16 * (k + 1)) → ¬ InDomain s (s.slotAbove (k + 1)) 16 →
        (∀ n : Reg, n.val < k → HoldsCell s (s.slotAbove (n.val + 1)) 16 (v n)) →
        ∃ u, exec .reti s = .fault (.unmappedAccess (s.slotAbove (k + 1)) 16 u) ∧
          StoppedPopping s u (s.slotAbove (k + 1)) p (fun n => n.val < k) v) ∧
      (∀ k ≤ 30, s.cfg.popOrder = .descending → InDomain s s.sp 32 → HoldsCell s (s.slotAbove 1) 16 (v spReg) →
        InDomain s (v spReg + 16) (16 * k) → ¬ InDomain s (v spReg + 16 + BitVec.ofNat 128 (16 * k)) 16 →
        (∀ n : Reg, n ≠ spReg → 30 - n.val < k →
          HoldsCell s (v spReg + 16 + BitVec.ofNat 128 (16 * (30 - n.val))) 16 (v n)) →
        ∃ u, exec .reti s = .fault (.unmappedAccess (v spReg + 16 + BitVec.ofNat 128 (16 * k)) 16 u) ∧
          StoppedPopping s u (v spReg + 16 + BitVec.ofNat 128 (16 * k)) p (fun n => 30 - n.val < k) v))

/-! ### The software interrupt -/

/-- `trap`: `r0` to `r31` and the return address in 33 slots below `sp`, the slot of `r31` holding its own address;
`ip` at 16 times the number, the low 10 bits of a register read after the pushes or the immediate; nothing else
changes (45 R300, R301, 60 R315). Rests on the spec's own decisions D4, D7, D16 and D36. -/
def Obligations.TrapSavesTheFrame : Prop :=
  ∀ (a : Reg) (imm : BitVec 10) (s : State), InDomain s (s.slotBelow 33) 528 →
    ∀ p ∈ [(Instr.trapR a, uval (if a = spReg then s.slotBelow 33 else s.getX a) % 1024),
        (.trapI imm, imm.toNat)],
      ∃ t, exec p.1 s = .next t ∧ uval t.ip = 16 * p.2 ∧ t.sp = s.slotBelow 33 ∧
        (∀ n : Reg, n ≠ spReg → HoldsCell t (s.slotBelow (n.val + 1)) 16 (s.getX n)) ∧
        HoldsCell t (s.slotBelow 32) 16 (s.slotBelow 32) ∧ HoldsCell t (s.slotBelow 33) 16 s.ip ∧
        SameXBut [spReg] s t ∧ SameFBut [] s t ∧ SameBytesOutside (s.slotBelow 33) 528 s t ∧ t.cfg = s.cfg

/-- `reti`: `ip` from the top slot, then the registers in the order of POP_ORDER; `sp` is loaded last under
`source_ascending`, first under `descending`, where the rest comes from the new stack (45 R302, 60 R317). Rests on the
spec's own decisions D7, D16 and D18. -/
def Obligations.RetiLoadsTheFrame : Prop :=
  ∀ (s : State) (p : Word) (v : Reg → Word), HoldsCell s s.sp 16 p →
    (s.cfg.popOrder = .sourceAscending → InDomain s s.sp 528 →
      (∀ n : Reg, HoldsCell s (s.slotAbove (n.val + 1)) 16 (v n)) →
      ∃ t, exec .reti s = .next t ∧ t.ip = p ∧ t.sp = v spReg + 16 ∧ (∀ n : Reg, n ≠ spReg → t.getX n = v n) ∧
        SameFBut [] s t ∧ SameBytes s t ∧ t.cfg = s.cfg) ∧
    (s.cfg.popOrder = .descending → InDomain s s.sp 32 → HoldsCell s (s.slotAbove 1) 16 (v spReg) →
      InDomain s (v spReg + 16) 496 →
      (∀ n : Reg, n ≠ spReg → HoldsCell s (v spReg + 16 + BitVec.ofNat 128 (16 * (30 - n.val))) 16 (v n)) →
      ∃ t, exec .reti s = .next t ∧ t.ip = p ∧ t.sp = v spReg + 512 ∧ (∀ n : Reg, n ≠ spReg → t.getX n = v n) ∧
        SameFBut [] s t ∧ SameBytes s t ∧ t.cfg = s.cfg)

/-- `reti` after `trap`: under `descending` the exact inverse, every register and `ip` back; under the source's order
`r1` to `r30` come back reversed, `r0` holds the frame's own address and `sp` the old `r0` plus 16 (45 R302, 60 R317).
Rests on the spec's own decisions D4, D7, D16, D18 and D36. -/
def Obligations.RetiAfterTrap : Prop :=
  ∀ (imm : BitVec 10) (a : Reg) (s : State), InDomain s (s.slotBelow 33) 528 →
    ∀ i ∈ [Instr.trapI imm, .trapR a],
      ∃ t u, exec i s = .next t ∧ exec .reti t = .next u ∧ u.ip = s.ip ∧ SameFBut [] s u ∧
        SameBytesOutside (s.slotBelow 33) 528 s u ∧ u.cfg = s.cfg ∧
        (s.cfg.popOrder = .descending → SameXBut [] s u) ∧
        (s.cfg.popOrder = .sourceAscending →
          u.getX 0 = s.slotBelow 32 ∧ (∀ n : Reg, n ≠ 0 → n ≠ spReg → u.getX n = s.getX (31 - n)) ∧
          u.sp = s.getX 0 + 16)

end Statements
end

