-- ==== Sys2Proof/Laws/Memory.lean ====
section
/-! SUPPORT. The laws of the memory: what a byte reads after a write, and that every operation keeps the canonical form. -/

namespace Sys2Proof.Machine

/-! ### Reading one byte after a write -/

theorem Memory.byteAt_dropCell (m : Memory) (a b : Nat) :
    (Memory.dropCell a m).byteAt b = if b = a then unlistedByte else m.byteAt b := by
  induction m with
  | nil => simp [Memory.dropCell, Memory.byteAt]
  | cons c m ih =>
    unfold Memory.dropCell
    split
    · next h =>
      rw [ih]; split
      · rfl
      · next hb => simp [Memory.byteAt, h, Ne.symm hb]
    · next h =>
      unfold Memory.byteAt
      split
      · next hc => rw [if_neg]; rintro rfl; exact h hc
      · exact ih

theorem Memory.not_mem_dropCell (m : Memory) (a : Nat) : ∀ c ∈ Memory.dropCell a m, c.1 ≠ a := by
  induction m with
  | nil => simp [Memory.dropCell]
  | cons c m ih =>
    unfold Memory.dropCell
    split
    · exact ih
    · next h => simpa [h] using ih

theorem Memory.byteAt_insertCell (m : Memory) (a b : Nat) (v : Byte) (h : ∀ c ∈ m, c.1 ≠ a) :
    (Memory.insertCell (a, v) m).byteAt b = if b = a then v else m.byteAt b := by
  induction m with
  | nil => simp [Memory.insertCell, Memory.byteAt, eq_comm]
  | cons c m ih =>
    have hc : c.1 ≠ a := h c (by simp)
    unfold Memory.insertCell
    split
    · simp [Memory.byteAt, eq_comm]
    · by_cases hb : b = a
      · subst hb
        have h' : ∀ c ∈ m, c.1 ≠ b := fun c' hm => h c' (by simp [hm])
        simpa [Memory.byteAt, hc] using ih h'
      · have h' : ∀ c ∈ m, c.1 ≠ a := fun c' hm => h c' (by simp [hm])
        simp [Memory.byteAt, ih h', hb]

/-- Read after write, at any address: the byte written there, the old byte elsewhere. -/
theorem Memory.byteAt_setByte (m : Memory) (a b : Nat) (v : Byte) :
    (m.setByte a v).byteAt b = if b = a then v else m.byteAt b := by
  unfold Memory.setByte
  split
  · next h => rw [Memory.byteAt_dropCell, h]
  · rw [Memory.byteAt_insertCell _ _ _ _ (Memory.not_mem_dropCell m a), Memory.byteAt_dropCell]
    split <;> rfl

/-! ### The canonical form -/

theorem Memory.wf_nil : Memory.wf [] := by simp [Memory.wf]

theorem Memory.mem_of_mem_dropCell {m : Memory} {a : Nat} {c : Host.Cell} (h : c ∈ Memory.dropCell a m) :
    c ∈ m := by
  induction m with
  | nil => exact h
  | cons d m ih =>
    unfold Memory.dropCell at h
    split at h
    · exact .tail _ (ih h)
    · rcases List.mem_cons.1 h with rfl | h
      · simp
      · exact .tail _ (ih h)

theorem Memory.wf_dropCell {m : Memory} (h : Memory.wf m) (a : Nat) : Memory.wf (Memory.dropCell a m) := by
  refine ⟨?_, fun c hc => h.2 c (Memory.mem_of_mem_dropCell hc)⟩
  have h1 := h.1
  clear h
  induction m with
  | nil => exact h1
  | cons d m ih =>
    unfold Memory.dropCell
    rw [List.pairwise_cons] at h1
    split
    · exact ih h1.2
    · exact List.pairwise_cons.2 ⟨fun c hc => h1.1 c (Memory.mem_of_mem_dropCell hc), ih h1.2⟩

theorem Memory.mem_insertCell {m : Memory} {d c : Host.Cell} :
    c ∈ Memory.insertCell d m ↔ c = d ∨ c ∈ m := by
  induction m with
  | nil => simp [Memory.insertCell]
  | cons e m ih =>
    unfold Memory.insertCell
    split
    · simp
    · simp only [List.mem_cons, ih]; tauto

theorem Memory.wf_insertCell {m : Memory} (h : Memory.wf m) {d : Host.Cell} (ha : d.1 < 2 ^ 128)
    (hv : d.2 ≠ unlistedByte) (hn : ∀ c ∈ m, c.1 ≠ d.1) : Memory.wf (Memory.insertCell d m) := by
  refine ⟨?_, ?_⟩
  · have h1 := h.1
    clear h
    induction m with
    | nil => simp [Memory.insertCell]
    | cons e m ih =>
      unfold Memory.insertCell
      have h2 := List.pairwise_cons.1 h1
      split
      · next hlt =>
        refine List.pairwise_cons.2 ⟨fun c hc => ?_, h1⟩
        rcases List.mem_cons.1 hc with rfl | hc
        · exact hlt
        · exact hlt.trans (h2.1 c hc)
      · next hlt =>
        refine List.pairwise_cons.2 ⟨fun c hc => ?_, ih (fun c hc => hn c (by simp [hc])) h2.2⟩
        rcases Memory.mem_insertCell.1 hc with rfl | hc
        · have := hn e (by simp)
          omega
        · exact h2.1 c hc
  · intro c hc
    rcases Memory.mem_insertCell.1 hc with rfl | hc
    · exact ⟨ha, hv⟩
    · exact h.2 c hc

/-- Writing one byte of the address space keeps the canonical form. -/
theorem Memory.wf_setByte {m : Memory} (h : Memory.wf m) {a : Nat} (ha : a < 2 ^ 128) (v : Byte) :
    Memory.wf (m.setByte a v) := by
  unfold Memory.setByte
  split
  · exact Memory.wf_dropCell h a
  · next hv => exact Memory.wf_insertCell (Memory.wf_dropCell h a) ha hv (Memory.not_mem_dropCell m a)

/-- Writing a run of bytes keeps the canonical form. -/
theorem Memory.wf_writeBytes {m : Memory} (h : Memory.wf m) (as : List Word) (bs : List Byte) :
    Memory.wf (writeBytes m as bs) := by
  induction as generalizing m bs with
  | nil => simpa [writeBytes] using h
  | cons a as ih =>
    cases bs with
    | nil => simpa [writeBytes] using h
    | cons b bs => exact ih (Memory.wf_setByte h a.isLt b) bs

/-- Every contents of the first `n` addresses is that of a canonical memory. -/
theorem Memory.exists_byteAt (g : Nat → Byte) {n : Nat} (hn : n ≤ 2 ^ 128) :
    ∃ m : Memory, m.wf ∧ ∀ a < n, m.byteAt a = g a := by
  induction n with
  | zero => exact ⟨[], Memory.wf_nil, fun a ha => absurd ha (by omega)⟩
  | succ n ih =>
    obtain ⟨m, hm, hg⟩ := ih (by omega)
    refine ⟨m.setByte n (g n), Memory.wf_setByte hm (by omega) _, fun a ha => ?_⟩
    rw [Memory.byteAt_setByte]
    split
    · next h => rw [h]
    · exact hg a (by omega)

theorem Memory.byteAt_of_lt {m : Memory} {a : Nat} (h : ∀ c ∈ m, a < c.1) : m.byteAt a = unlistedByte := by
  induction m with
  | nil => rfl
  | cons c m ih =>
    have := h c (by simp)
    have hc : c.1 ≠ a := by omega
    simpa [Memory.byteAt, hc] using ih fun c' hc' => h c' (by simp [hc'])

/-- Canonical memories that read alike at every address are equal. -/
theorem Memory.wf_ext {m m' : Memory} (h : Memory.wf m) (h' : Memory.wf m')
    (hb : ∀ a < 2 ^ 128, m.byteAt a = m'.byteAt a) : m = m' := by
  induction m generalizing m' with
  | nil =>
    cases m' with
    | nil => rfl
    | cons d m' =>
      have hd := h'.2 d (by simp)
      have := hb d.1 hd.1
      simp [Memory.byteAt] at this
      exact absurd this.symm hd.2
  | cons c m ih =>
    have hc := h.2 c (by simp)
    have h1 := List.pairwise_cons.1 h.1
    cases m' with
    | nil =>
      have := hb c.1 hc.1
      simp [Memory.byteAt] at this
      exact absurd this hc.2
    | cons d m' =>
      have hd := h'.2 d (by simp)
      have h1' := List.pairwise_cons.1 h'.1
      have hcd : c.1 = d.1 := by
        rcases Nat.lt_trichotomy c.1 d.1 with hlt | heq | hlt
        · exfalso
          have := hb c.1 hc.1
          rw [Memory.byteAt_of_lt (m := d :: m')] at this
          · simp [Memory.byteAt] at this
            exact hc.2 this
          · intro e he
            rcases List.mem_cons.1 he with rfl | he
            · exact hlt
            · exact hlt.trans (h1'.1 e he)
        · exact heq
        · exfalso
          have := hb d.1 hd.1
          rw [Memory.byteAt_of_lt (m := c :: m)] at this
          · simp [Memory.byteAt] at this
            exact hd.2 this.symm
          · intro e he
            rcases List.mem_cons.1 he with rfl | he
            · exact hlt
            · exact hlt.trans (h1.1 e he)
      have hv : c.2 = d.2 := by
        have := hb c.1 hc.1
        simpa [Memory.byteAt, hcd] using this
      have hcd' : c = d := Prod.ext hcd hv
      subst hcd'
      congr 1
      refine ih ⟨h1.2, fun e he => h.2 e (by simp [he])⟩ ⟨h1'.2, fun e he => h'.2 e (by simp [he])⟩ ?_
      intro a ha
      by_cases hca : c.1 = a
      · rw [Memory.byteAt_of_lt (m := m), Memory.byteAt_of_lt (m := m')]
        · exact fun e he => hca ▸ h1'.1 e he
        · exact fun e he => hca ▸ h1.1 e he
      · have := hb a ha
        simpa [Memory.byteAt, hca] using this

/-! ### The bytes of a cell -/

@[simp] theorem byteAddrs_length (a : Word) (n : Nat) : (byteAddrs a n).length = n := by simp [byteAddrs]

@[simp] theorem cellBytes_length (o : ByteOrder) (n : Nat) (v : Word) : (cellBytes o n v).length = n := by
  cases o <;> simp [cellBytes]

theorem byteAt_writeBytes_of_notMem (m : Memory) (as : List Word) (bs : List Byte) (b : Nat)
    (h : ∀ a ∈ as, a.toNat ≠ b) : (writeBytes m as bs).byteAt b = m.byteAt b := by
  induction as generalizing m bs with
  | nil => simp [writeBytes]
  | cons a as ih =>
    cases bs with
    | nil => simp [writeBytes]
    | cons v bs =>
      have ha : b ≠ a.toNat := fun e => h a (by simp) e.symm
      rw [writeBytes, ih _ _ fun a' ha' => h a' (by simp [ha']), Memory.byteAt_setByte, if_neg ha]

theorem byteAt_writeBytes (m : Memory) (as : List Word) (bs : List Byte) (hn : as.Nodup)
    (hl : as.length = bs.length) (k : Nat) (hk : k < as.length) :
    (writeBytes m as bs).byteAt as[k].toNat = bs[k]'(hl ▸ hk) := by
  induction as generalizing m bs k with
  | nil => simp at hk
  | cons a as ih =>
    cases bs with
    | nil => simp at hl
    | cons v bs =>
      rw [List.nodup_cons] at hn
      cases k with
      | zero =>
        rw [writeBytes, byteAt_writeBytes_of_notMem]
        · simp [Memory.byteAt_setByte]
        · intro a' ha' e
          have e' := BitVec.eq_of_toNat_eq e
          simp only [List.getElem_cons_zero] at e'
          exact hn.1 (e' ▸ ha')
      | succ k => simpa [writeBytes] using ih (m.setByte a.toNat v) bs hn.2 (by simpa using hl) k (by simpa using hk)

theorem add_ofNat_inj {a : Word} {j k : Nat} (hj : j < 2 ^ 128) (hk : k < 2 ^ 128)
    (h : a + BitVec.ofNat 128 j = a + BitVec.ofNat 128 k) : j = k := by
  have h1 : BitVec.ofNat 128 j = BitVec.ofNat 128 k := by
    have := congrArg (fun w => w - a) h
    simpa [BitVec.add_comm a, BitVec.add_sub_cancel] using this
  have h2 := congrArg BitVec.toNat h1
  rwa [BitVec.toNat_ofNat, BitVec.toNat_ofNat, Nat.mod_eq_of_lt hj, Nat.mod_eq_of_lt hk] at h2

theorem byteAddrs_nodup (a : Word) (n : Nat) (h : n ≤ 2 ^ 128) : (byteAddrs a n).Nodup := by
  unfold byteAddrs
  rw [List.nodup_map_iff_inj_on List.nodup_range]
  intro j hj k hk e
  rw [List.mem_range] at hj hk
  exact add_ofNat_inj (by omega) (by omega) e

theorem mem_byteAddrs {a b : Word} {n : Nat} : b ∈ byteAddrs a n ↔ ∃ k < n, b = a + BitVec.ofNat 128 k := by
  simp [byteAddrs, eq_comm]

/-! ### The value of a cell -/

theorem wordOfLittle_toNat_lt (bs : List Byte) (h : bs.length ≤ 16) :
    (wordOfLittle bs).toNat < 2 ^ (8 * bs.length) ∧
      ∀ b rest, bs = b :: rest → (wordOfLittle bs).toNat = b.toNat + 256 * (wordOfLittle rest).toNat := by
  induction bs with
  | nil => simp [wordOfLittle]
  | cons b bs ih =>
    have ih := (ih (by simp at h; omega)).1
    simp only [List.length_cons] at h
    have hp : 2 ^ (8 * bs.length) ≤ 2 ^ 120 := Nat.pow_le_pow_right (by omega) (by omega)
    have hs : (wordOfLittle bs <<< 8).toNat = 256 * (wordOfLittle bs).toNat := by
      rw [BitVec.toNat_shiftLeft, Nat.shiftLeft_eq, Nat.mod_eq_of_lt]
      · omega
      · have : (2 : Nat) ^ 120 * 2 ^ 8 = 2 ^ 128 := by norm_num
        omega
    have key : (wordOfLittle (b :: bs)).toNat = b.toNat + 256 * (wordOfLittle bs).toNat := by
      rw [wordOfLittle, BitVec.toNat_or, hs, BitVec.toNat_setWidth, Nat.mod_eq_of_lt (by omega)]
      have := Nat.two_pow_add_eq_or_of_lt (i := 8) b.isLt (wordOfLittle bs).toNat
      rw [show 256 = 2 ^ 8 by rfl]
      omega
    refine ⟨?_, ?_⟩
    · rw [key, List.length_cons, Nat.mul_add, Nat.pow_add]
      have := b.isLt
      omega
    · rintro b' rest ⟨⟩
      exact key

theorem wordOfLittle_cons {b : Byte} {bs : List Byte} (h : bs.length ≤ 15) :
    (wordOfLittle (b :: bs)).toNat = b.toNat + 256 * (wordOfLittle bs).toNat :=
  (wordOfLittle_toNat_lt (b :: bs) (by simp; omega)).2 b bs rfl

theorem byteOf_toNat (v : Word) (k : Nat) : (byteOf v k).toNat = v.toNat / 2 ^ (8 * k) % 256 := by
  simp [byteOf, BitVec.extractLsb'_toNat, Nat.shiftRight_eq_div_pow]

/-- Bytes `j`, `j + 1`, .. of a value, least significant first, give that part of the value. -/
theorem wordOfLittle_toNat (bs : List Byte) (v : Word) (j : Nat) (hl : bs.length ≤ 16)
    (h : ∀ k (hk : k < bs.length), bs[k] = byteOf v (j + k)) :
    (wordOfLittle bs).toNat = v.toNat / 2 ^ (8 * j) % 2 ^ (8 * bs.length) := by
  induction bs generalizing j with
  | nil => simp [wordOfLittle, Nat.mod_one]
  | cons b bs ih =>
    simp only [List.length_cons] at hl
    have ih := ih (j + 1) (by omega) fun k hk => by
      have := h (k + 1) (by simpa using hk)
      rw [show j + 1 + k = j + (k + 1) by omega, ← this]
      simp
    have hb : b = byteOf v j := h 0 (by simp)
    rw [wordOfLittle_cons (by omega), ih, hb, byteOf_toNat, List.length_cons,
      show 8 * (bs.length + 1) = 8 + 8 * bs.length by omega, Nat.pow_add (m := 8), Nat.mod_mul,
      show 8 * (j + 1) = 8 * j + 8 by omega, Nat.pow_add, ← Nat.div_div_eq_div_mul]

end Sys2Proof.Machine
end

