-- ==== Sys2Proof/Laws/State.lean ====
section
/-! SUPPORT. What each update of the state does to each field, and what the accessors read after it. -/

namespace Sys2Proof.Machine

variable (s : State)

/-! ### `setX` -/

@[simp] theorem State.setX_x (r : Reg) (v : Word) : (s.setX r v).x = s.x.set r.val v r.isLt := rfl
@[simp] theorem State.setX_f (r : Reg) (v : Word) : (s.setX r v).f = s.f := rfl
@[simp] theorem State.setX_ip (r : Reg) (v : Word) : (s.setX r v).ip = s.ip := rfl
@[simp] theorem State.setX_mem (r : Reg) (v : Word) : (s.setX r v).mem = s.mem := rfl
@[simp] theorem State.setX_cfg (r : Reg) (v : Word) : (s.setX r v).cfg = s.cfg := rfl
@[simp] theorem State.setX_draws (r : Reg) (v : Word) : (s.setX r v).draws = s.draws := rfl

/-! ### `setF` -/

@[simp] theorem State.setF_x (r : FReg) (v : Word) : (s.setF r v).x = s.x := rfl
@[simp] theorem State.setF_f (r : FReg) (v : Word) : (s.setF r v).f = s.f.set r.val v r.isLt := rfl
@[simp] theorem State.setF_ip (r : FReg) (v : Word) : (s.setF r v).ip = s.ip := rfl
@[simp] theorem State.setF_mem (r : FReg) (v : Word) : (s.setF r v).mem = s.mem := rfl
@[simp] theorem State.setF_cfg (r : FReg) (v : Word) : (s.setF r v).cfg = s.cfg := rfl
@[simp] theorem State.setF_draws (r : FReg) (v : Word) : (s.setF r v).draws = s.draws := rfl

/-! ### `setIp` -/

@[simp] theorem State.setIp_x (v : Word) : (s.setIp v).x = s.x := rfl
@[simp] theorem State.setIp_f (v : Word) : (s.setIp v).f = s.f := rfl
@[simp] theorem State.setIp_ip (v : Word) : (s.setIp v).ip = v := rfl
@[simp] theorem State.setIp_mem (v : Word) : (s.setIp v).mem = s.mem := rfl
@[simp] theorem State.setIp_cfg (v : Word) : (s.setIp v).cfg = s.cfg := rfl
@[simp] theorem State.setIp_draws (v : Word) : (s.setIp v).draws = s.draws := rfl

/-! ### `setSp` -/

@[simp] theorem State.setSp_x (v : Word) : (s.setSp v).x = s.x.set spReg.val v spReg.isLt := rfl
@[simp] theorem State.setSp_f (v : Word) : (s.setSp v).f = s.f := rfl
@[simp] theorem State.setSp_ip (v : Word) : (s.setSp v).ip = s.ip := rfl
@[simp] theorem State.setSp_mem (v : Word) : (s.setSp v).mem = s.mem := rfl
@[simp] theorem State.setSp_cfg (v : Word) : (s.setSp v).cfg = s.cfg := rfl
@[simp] theorem State.setSp_draws (v : Word) : (s.setSp v).draws = s.draws := rfl

/-! ### `advance` -/

@[simp] theorem State.advance_x : (s.advance).x = s.x := rfl
@[simp] theorem State.advance_f : (s.advance).f = s.f := rfl
@[simp] theorem State.advance_ip : (s.advance).ip = s.ip + 4 := rfl
@[simp] theorem State.advance_mem : (s.advance).mem = s.mem := rfl
@[simp] theorem State.advance_cfg : (s.advance).cfg = s.cfg := rfl
@[simp] theorem State.advance_draws : (s.advance).draws = s.draws := rfl

/-! ### `drawn` -/

@[simp] theorem State.drawn_x : (s.drawn).x = s.x := rfl
@[simp] theorem State.drawn_f : (s.drawn).f = s.f := rfl
@[simp] theorem State.drawn_ip : (s.drawn).ip = s.ip := rfl
@[simp] theorem State.drawn_mem : (s.drawn).mem = s.mem := rfl
@[simp] theorem State.drawn_cfg : (s.drawn).cfg = s.cfg := rfl
@[simp] theorem State.drawn_draws : (s.drawn).draws = s.draws + 1 := rfl

/-! ### `store` -/

@[simp] theorem State.store_x (a : Word) (n : Nat) (v : Word) : (s.store a n v).x = s.x := rfl
@[simp] theorem State.store_f (a : Word) (n : Nat) (v : Word) : (s.store a n v).f = s.f := rfl
@[simp] theorem State.store_ip (a : Word) (n : Nat) (v : Word) : (s.store a n v).ip = s.ip := rfl
@[simp] theorem State.store_mem (a : Word) (n : Nat) (v : Word) : (s.store a n v).mem = writeBytes s.mem (byteAddrs a n) (cellBytes s.cfg.byteOrder n v) := rfl
@[simp] theorem State.store_cfg (a : Word) (n : Nat) (v : Word) : (s.store a n v).cfg = s.cfg := rfl
@[simp] theorem State.store_draws (a : Word) (n : Nat) (v : Word) : (s.store a n v).draws = s.draws := rfl

/-! ### The names of `sp` -/

@[simp] theorem State.sp_eq_getX : s.sp = s.getX spReg := rfl
@[simp] theorem State.setSp_eq_setX (v : Word) : s.setSp v = s.setX spReg v := rfl

/-! ### Reading a register after an update -/

@[simp] theorem State.getX_setX_self (r : Reg) (v : Word) : (s.setX r v).getX r = v := by
  simp [State.getX, State.setX]

theorem State.getX_setX_of_ne {r q : Reg} (v : Word) (h : q ≠ r) : (s.setX r v).getX q = s.getX q := by
  have h' : r.val ≠ q.val := fun e => h (Fin.ext e.symm)
  simp [State.getX, State.setX, Vector.getElem_set_ne, h']

theorem State.getX_setX (r q : Reg) (v : Word) :
    (s.setX r v).getX q = if q = r then v else s.getX q := by
  split
  · next h => subst h; exact s.getX_setX_self _ v
  · next h => exact s.getX_setX_of_ne v h

@[simp] theorem State.getF_setF_self (r : FReg) (v : Word) : (s.setF r v).getF r = v := by
  simp [State.getF, State.setF]

theorem State.getF_setF_of_ne {r q : FReg} (v : Word) (h : q ≠ r) : (s.setF r v).getF q = s.getF q := by
  have h' : r.val ≠ q.val := fun e => h (Fin.ext e.symm)
  simp [State.getF, State.setF, Vector.getElem_set_ne, h']

theorem State.getF_setF (r q : FReg) (v : Word) :
    (s.setF r v).getF q = if q = r then v else s.getF q := by
  split
  · next h => subst h; exact s.getF_setF_self _ v
  · next h => exact s.getF_setF_of_ne v h

/-- A register written with what it holds leaves the state as it is. -/
@[simp] theorem State.setX_getX (r : Reg) : s.setX r (s.getX r) = s := by
  simp [State.getX, State.setX]

/-- The last of two writes to one register stays. -/
@[simp] theorem State.setX_setX_self (r : Reg) (v w : Word) : (s.setX r v).setX r w = s.setX r w := by
  simp [State.setX]

@[simp] theorem State.getX_setF (r : FReg) (v : Word) (q : Reg) : (s.setF r v).getX q = s.getX q := rfl
@[simp] theorem State.getX_setIp (v : Word) (q : Reg) : (s.setIp v).getX q = s.getX q := rfl
@[simp] theorem State.getX_advance (q : Reg) : (s.advance).getX q = s.getX q := rfl
@[simp] theorem State.getX_drawn (q : Reg) : (s.drawn).getX q = s.getX q := rfl
@[simp] theorem State.getX_store (a : Word) (n : Nat) (v : Word) (q : Reg) : (s.store a n v).getX q = s.getX q := rfl
@[simp] theorem State.getF_setX (r : Reg) (v : Word) (q : FReg) : (s.setX r v).getF q = s.getF q := rfl
@[simp] theorem State.getF_setIp (v : Word) (q : FReg) : (s.setIp v).getF q = s.getF q := rfl
@[simp] theorem State.getF_setSp (v : Word) (q : FReg) : (s.setSp v).getF q = s.getF q := rfl
@[simp] theorem State.getF_advance (q : FReg) : (s.advance).getF q = s.getF q := rfl
@[simp] theorem State.getF_drawn (q : FReg) : (s.drawn).getF q = s.getF q := rfl
@[simp] theorem State.getF_store (a : Word) (n : Nat) (v : Word) (q : FReg) : (s.store a n v).getF q = s.getF q := rfl

/-! ### Memory and its domain under the updates -/

@[simp] theorem State.readByte_setX (r : Reg) (v : Word) (b : Word) : (s.setX r v).readByte b = s.readByte b := rfl
@[simp] theorem State.readByte_setF (r : FReg) (v : Word) (b : Word) : (s.setF r v).readByte b = s.readByte b := rfl
@[simp] theorem State.readByte_setIp (v : Word) (b : Word) : (s.setIp v).readByte b = s.readByte b := rfl
@[simp] theorem State.readByte_setSp (v : Word) (b : Word) : (s.setSp v).readByte b = s.readByte b := rfl
@[simp] theorem State.readByte_advance (b : Word) : (s.advance).readByte b = s.readByte b := rfl
@[simp] theorem State.readByte_drawn (b : Word) : (s.drawn).readByte b = s.readByte b := rfl
@[simp] theorem State.inDomain_setX (r : Reg) (v : Word) (b : Word) : (s.setX r v).inDomain b = s.inDomain b := rfl
@[simp] theorem State.inDomain_setF (r : FReg) (v : Word) (b : Word) : (s.setF r v).inDomain b = s.inDomain b := rfl
@[simp] theorem State.inDomain_setIp (v : Word) (b : Word) : (s.setIp v).inDomain b = s.inDomain b := rfl
@[simp] theorem State.inDomain_setSp (v : Word) (b : Word) : (s.setSp v).inDomain b = s.inDomain b := rfl
@[simp] theorem State.inDomain_advance (b : Word) : (s.advance).inDomain b = s.inDomain b := rfl
@[simp] theorem State.inDomain_drawn (b : Word) : (s.drawn).inDomain b = s.inDomain b := rfl
@[simp] theorem State.inDomain_store (a : Word) (n : Nat) (v : Word) (b : Word) : (s.store a n v).inDomain b = s.inDomain b := rfl
@[simp] theorem State.mapped_setX (r : Reg) (v : Word) (b : Word) (k : Nat) : (s.setX r v).mapped b k = s.mapped b k := rfl
@[simp] theorem State.mapped_setF (r : FReg) (v : Word) (b : Word) (k : Nat) : (s.setF r v).mapped b k = s.mapped b k := rfl
@[simp] theorem State.mapped_setIp (v : Word) (b : Word) (k : Nat) : (s.setIp v).mapped b k = s.mapped b k := rfl
@[simp] theorem State.mapped_setSp (v : Word) (b : Word) (k : Nat) : (s.setSp v).mapped b k = s.mapped b k := rfl
@[simp] theorem State.mapped_advance (b : Word) (k : Nat) : (s.advance).mapped b k = s.mapped b k := rfl
@[simp] theorem State.mapped_drawn (b : Word) (k : Nat) : (s.drawn).mapped b k = s.mapped b k := rfl
@[simp] theorem State.mapped_store (a : Word) (n : Nat) (v : Word) (b : Word) (k : Nat) : (s.store a n v).mapped b k = s.mapped b k := rfl
@[simp] theorem State.cell_setX (r : Reg) (v : Word) (b : Word) (k : Nat) : (s.setX r v).cell b k = s.cell b k := rfl
@[simp] theorem State.cell_setF (r : FReg) (v : Word) (b : Word) (k : Nat) : (s.setF r v).cell b k = s.cell b k := rfl
@[simp] theorem State.cell_setIp (v : Word) (b : Word) (k : Nat) : (s.setIp v).cell b k = s.cell b k := rfl
@[simp] theorem State.cell_setSp (v : Word) (b : Word) (k : Nat) : (s.setSp v).cell b k = s.cell b k := rfl
@[simp] theorem State.cell_advance (b : Word) (k : Nat) : (s.advance).cell b k = s.cell b k := rfl
@[simp] theorem State.cell_drawn (b : Word) (k : Nat) : (s.drawn).cell b k = s.cell b k := rfl

/-! ### Frames -/

/-- Two states with equal registers, byte by byte equal files, are equal in the integer file. -/
theorem State.x_ext {s t : State} (h : ∀ r, t.getX r = s.getX r) : t.x = s.x := by
  apply Vector.ext
  intro k hk
  exact h ⟨k, hk⟩

/-- Two states with equal floating-point registers are equal in the floating-point file. -/
theorem State.f_ext {s t : State} (h : ∀ r, t.getF r = s.getF r) : t.f = s.f := by
  apply Vector.ext
  intro k hk
  exact h ⟨k, hk⟩

end Sys2Proof.Machine
end

