-- ==== Sys2Proof/Laws/Cells.lean ====
section
/-! SUPPORT. What reading and writing a multi-byte cell of the state does (spec/20_memory.md R44 to R46). -/

namespace Sys2Proof.Machine

/-- The low `8n` bits of a word, zero above. -/
def lowBytes (n : Nat) (v : Word) : Word := BitVec.ofNat 128 (v.toNat % 2 ^ (8 * n))

@[simp] theorem lowBytes_sixteen (v : Word) : lowBytes 16 v = v := by
  apply BitVec.eq_of_toNat_eq
  have := v.isLt
  simp only [lowBytes, BitVec.toNat_ofNat]
  omega

theorem lowBytes_toNat {n : Nat} (h : n ≤ 16) (v : Word) : (lowBytes n v).toNat = v.toNat % 2 ^ (8 * n) := by
  have h1 : (2 : Nat) ^ (8 * n) ≤ 2 ^ 128 := Nat.pow_le_pow_right (by omega) (by omega)
  have h2 : v.toNat % 2 ^ (8 * n) < 2 ^ (8 * n) := Nat.mod_lt _ (by positivity)
  rw [lowBytes, BitVec.toNat_ofNat, Nat.mod_eq_of_lt (by omega)]

/-! ### The domain -/

theorem inDomain_iff (s : State) (a : Word) :
    s.inDomain a = true ↔ ∃ r ∈ s.cfg.memDomain, r.base ≤ a.toNat ∧ a.toNat < r.base + r.size := by
  simp [State.inDomain]

/-- An access is mapped exactly if each of its bytes is in MEM_DOMAIN. -/
theorem mapped_iff (s : State) (a : Word) (n : Nat) : s.mapped a n = true ↔ InDomain s a n := by
  simp [State.mapped, byteAddrs, inDomain_iff, InDomain]

/-- With the default MEM_DOMAIN every access is mapped (20 R46). -/
theorem inDomain_whole {s : State} (h : s.cfg.memDomain = wholeSpace) (a : Word) (n : Nat) : InDomain s a n := by
  intro k _
  rw [h]
  exact ⟨_, List.mem_singleton.2 rfl, Nat.zero_le _, by simpa using (a + BitVec.ofNat 128 k).isLt⟩

/-- A part of a mapped access is mapped. -/
theorem InDomain.mono {s : State} {a : Word} {n : Nat} (h : InDomain s a n) {b : Word} {k : Nat} (d : Nat)
    (hb : b = a + BitVec.ofNat 128 d) (hk : d + k ≤ n) : InDomain s b k := by
  intro j hj
  have := h (d + j) (by omega)
  rwa [show a + BitVec.ofNat 128 (d + j) = b + BitVec.ofNat 128 j by
    rw [hb, BitVec.add_assoc, BitVec.ofNat_add]] at this

/-- The domain depends on the parameters alone. -/
theorem InDomain.of_cfg {s t : State} {a : Word} {n : Nat} (h : InDomain s a n) (hc : t.cfg = s.cfg) :
    InDomain t a n := by
  unfold InDomain at *
  rwa [hc]

/-! ### Reading -/

/-- The bytes of a cell depend on the bytes read and the byte order alone. -/
theorem HoldsCell.congr {s t : State} {a : Word} {n : Nat} {v : Word} (h : HoldsCell s a n v)
    (hc : t.cfg = s.cfg) (hb : ∀ k < n, t.readByte (a + BitVec.ofNat 128 k) = s.readByte (a + BitVec.ofNat 128 k)) :
    HoldsCell t a n v := by
  intro k hk
  rw [hc, hb, h k hk]
  unfold bytePlace
  cases s.cfg.byteOrder <;> simp <;> omega

/-- What a read of a cell answers, from the bytes that lie in memory. -/
theorem cell_eq {s : State} {a : Word} {n : Nat} {v : Word} (h : HoldsCell s a n v) (hn : n ≤ 16) :
    s.cell a n = lowBytes n v := by
  apply BitVec.eq_of_toNat_eq
  rw [lowBytes_toNat hn]
  unfold State.cell cellWord
  unfold HoldsCell bytePlace at h
  cases ho : s.cfg.byteOrder with
  | little =>
    simp only [ho] at h
    have := wordOfLittle_toNat ((byteAddrs a n).map s.readByte) v 0 (by simpa using hn) fun k hk => by
      have hk' : k < n := by simpa using hk
      simpa [byteAddrs, byteOf] using h k hk'
    simpa using this
  | big =>
    simp only [ho] at h
    have := wordOfLittle_toNat ((byteAddrs a n).map s.readByte).reverse v 0 (by simpa using hn) fun k hk => by
      have hk' : k < n := by simpa using hk
      have e := h k hk'
      simpa [byteAddrs, byteOf, List.getElem_reverse] using e
    simpa using this

/-- A read of mapped bytes answers the value that lies there. -/
theorem memRead_eq {s : State} {a : Word} {n : Nat} {v : Word} (hd : InDomain s a n) (h : HoldsCell s a n v)
    (hn : n ≤ 16) : memRead s a n = .ok (lowBytes n v) := by
  rw [memRead, if_pos ((mapped_iff s a n).2 hd), cell_eq h hn]

/-- A read outside the domain faults. -/
theorem memRead_unmapped {s : State} {a : Word} {n : Nat} (h : ¬ InDomain s a n) :
    memRead s a n = .error (.unmappedAccess a n s) := by
  rw [memRead, if_neg (mt (mapped_iff s a n).1 h)]

theorem extractLsb'_byte_eq {v w : Word} {k : Nat} (h : v.toNat / 2 ^ (8 * k) % 256 = w.toNat / 2 ^ (8 * k) % 256) :
    v.extractLsb' (8 * k) 8 = w.extractLsb' (8 * k) 8 := by
  apply BitVec.eq_of_toNat_eq
  simpa [BitVec.extractLsb'_toNat, Nat.shiftRight_eq_div_pow] using h

theorem byteOf_lowBytes {n : Nat} (v : Word) {k : Nat} (hn : n ≤ 16) (hk : k < n) :
    byteOf (lowBytes n v) k = byteOf v k := by
  apply extractLsb'_byte_eq
  rw [lowBytes_toNat hn, show 8 * n = 8 * k + (8 + 8 * (n - k - 1)) by omega, Nat.pow_add, Nat.pow_add,
    Nat.mod_mul_right_div_self, Nat.mod_mul_right_mod]

/-- Every cell holds the value a read of it answers. -/
theorem holdsCell_cell (s : State) (a : Word) {n : Nat} (hn : n ≤ 16) : HoldsCell s a n (s.cell a n) := by
  have key : ∀ (bs : List Byte), bs.length ≤ 16 → ∀ k (hk : k < bs.length),
      byteOf (wordOfLittle bs) k = bs[k] := by
    intro bs
    induction bs with
    | nil => intro _ k hk; simp at hk
    | cons b bs ih =>
      intro hl k hk
      simp only [List.length_cons] at hl hk
      have e := wordOfLittle_cons (b := b) (bs := bs) (by omega)
      apply BitVec.eq_of_toNat_eq
      rw [byteOf_toNat, e]
      have := b.isLt
      cases k with
      | zero => simp; omega
      | succ k =>
        have ih := congrArg BitVec.toNat (ih (by omega) k (by omega))
        rw [byteOf_toNat] at ih
        rw [show 8 * (k + 1) = 8 + 8 * k by omega, Nat.pow_add, ← Nat.div_div_eq_div_mul,
          show (b.toNat + 256 * (wordOfLittle bs).toNat) / 2 ^ 8 = (wordOfLittle bs).toNat by omega]
        simpa using ih
  intro k hk
  unfold State.cell cellWord bytePlace
  cases ho : s.cfg.byteOrder with
  | little =>
    have := key ((byteAddrs a n).map s.readByte) (by simpa using hn) k (by simpa using hk)
    simpa [byteAddrs, byteOf] using this.symm
  | big =>
    have := key ((byteAddrs a n).map s.readByte).reverse (by simpa using hn) k (by simpa using hk)
    simpa [byteAddrs, byteOf, List.getElem_reverse] using this.symm

/-! ### Writing -/

/-- A store leaves every byte outside the cell. -/
theorem readByte_store_outside (s : State) (a : Word) (n : Nat) (v b : Word)
    (h : ∀ k < n, b ≠ a + BitVec.ofNat 128 k) : (s.store a n v).readByte b = s.readByte b := by
  refine byteAt_writeBytes_of_notMem _ _ _ _ fun c hc e => ?_
  obtain ⟨k, hk, rfl⟩ := mem_byteAddrs.1 hc
  exact h k hk (BitVec.eq_of_toNat_eq e.symm)

theorem sameBytesOutside_store (s : State) (a : Word) (n : Nat) (v : Word) :
    SameBytesOutside a n s (s.store a n v) :=
  fun b hb => readByte_store_outside s a n v b hb

/-- A byte of the cell stored. -/
theorem readByte_store (s : State) (a : Word) (n : Nat) (v : Word) (hn : n ≤ 16) (k : Nat) (hk : k < n) :
    (s.store a n v).readByte (a + BitVec.ofNat 128 k) =
      byteOf v (match s.cfg.byteOrder with | .little => k | .big => n - 1 - k) := by
  have hk' : k < (byteAddrs a n).length := by simpa using hk
  unfold State.readByte State.store
  generalize s.cfg.byteOrder = o
  have := byteAt_writeBytes s.mem (byteAddrs a n) (cellBytes o n v) (byteAddrs_nodup a n (by omega)) (by simp) k hk'
  cases o <;> simpa [byteAddrs, cellBytes] using this

/-- After a store the cell holds the low bytes of the value. -/
theorem holdsCell_store (s : State) (a : Word) (n : Nat) (v : Word) (hn : n ≤ 16) :
    HoldsCell (s.store a n v) a n v := by
  intro k hk
  unfold bytePlace
  have hc : (s.store a n v).cfg = s.cfg := rfl
  rw [hc]
  cases ho : s.cfg.byteOrder with
  | little => simpa [ho, byteOf] using readByte_store s a n v hn k hk
  | big =>
    have := readByte_store s a n v hn (n - 1 - k) (by omega)
    simp only [ho] at this
    rw [this, show n - 1 - (n - 1 - k) = k by omega]
    rfl

theorem memWrite_eq {s : State} {a : Word} {n : Nat} (v : Word) (hd : InDomain s a n) :
    memWrite s a n v = .ok (s.store a n v) := by
  rw [memWrite, if_pos ((mapped_iff s a n).2 hd)]

theorem memWrite_unmapped {s : State} {a : Word} {n : Nat} (v : Word) (h : ¬ InDomain s a n) :
    memWrite s a n v = .error (.unmappedAccess a n s) := by
  rw [memWrite, if_neg (mt (mapped_iff s a n).1 h)]

/-- Everything a write can do. -/
theorem memWrite_cases {s t : State} {a : Word} {n : Nat} {v : Word} (h : memWrite s a n v = .ok t) :
    InDomain s a n ∧ t = s.store a n v := by
  unfold memWrite at h
  split at h
  · next hm => exact ⟨(mapped_iff s a n).1 hm, by simpa using h.symm⟩
  · cases h

/-- Everything a read can do. -/
theorem memRead_cases {s : State} {a : Word} {n : Nat} {v : Word} (h : memRead s a n = .ok v) :
    InDomain s a n ∧ v = s.cell a n := by
  unfold memRead at h
  split at h
  · next hm => exact ⟨(mapped_iff s a n).1 hm, by simpa using h.symm⟩
  · cases h

/-- The faults of a read. -/
theorem memRead_fault {s : State} {a : Word} {n : Nat} {r : Fault} (h : memRead s a n = .error r) :
    ¬ InDomain s a n ∧ r = .unmappedAccess a n s := by
  unfold memRead at h
  split at h
  · cases h
  · next hm => exact ⟨mt (mapped_iff s a n).2 hm, by simpa using h.symm⟩

/-- The faults of a write. -/
theorem memWrite_fault {s : State} {a : Word} {n : Nat} {v : Word} {r : Fault} (h : memWrite s a n v = .error r) :
    ¬ InDomain s a n ∧ r = .unmappedAccess a n s := by
  unfold memWrite at h
  split at h
  · cases h
  · next hm => exact ⟨mt (mapped_iff s a n).2 hm, by simpa using h.symm⟩

/-- A store keeps the canonical form. -/
theorem wf_store {s : State} (h : s.mem.wf) (a : Word) (n : Nat) (v : Word) : (s.store a n v).mem.wf :=
  Memory.wf_writeBytes h _ _

end Sys2Proof.Machine
end

