-- ==== Sys2Proof/Laws/Decode.lean ====
section
/-! SUPPORT. The fields of the words `encode` lays out, template by template (spec/30_encoding.md R72), and what the template
readers make of them. -/

namespace Sys2Proof

/-! ### Words as numbers -/

theorem append_toNat {m n : Nat} (x : BitVec m) (y : BitVec n) : (x ++ y).toNat = x.toNat * 2 ^ n + y.toNat := by
  rw [BitVec.toNat_append, ← Nat.shiftLeft_add_eq_or_of_lt y.isLt, Nat.shiftLeft_eq]

theorem field_toNat (lo n : Nat) (w : InstrWord) : (field lo n w).toNat = w.toNat / 2 ^ lo % 2 ^ n := by
  rw [field, BitVec.extractLsb'_toNat, Nat.shiftRight_eq_div_pow]

theorem regCode_toNat (r : Fin 32) : (regCode r).toNat = r.val := by
  rw [regCode, BitVec.toNat_ofNat, Nat.mod_eq_of_lt (by have := r.isLt; omega)]

theorem regField_val (lo : Nat) (w : InstrWord) : (regField lo w).val = w.toNat / 2 ^ lo % 32 := field_toNat lo 5 w

theorem regField_eq {lo : Nat} {w : InstrWord} {r : Fin 32} (h : w.toNat / 2 ^ lo % 32 = r.val) : regField lo w = r :=
  Fin.ext ((regField_val lo w).trans h)

theorem field_eq {lo n : Nat} {w : InstrWord} {v : BitVec n} (h : w.toNat / 2 ^ lo % 2 ^ n = v.toNat) :
    field lo n w = v := BitVec.eq_of_toNat_eq ((field_toNat lo n w).trans h)

variable (k : BitVec 12) (a b c d : Fin 32)

theorem wordA_toNat (imm : BitVec 20) : (wordA k imm).toNat = k.toNat * 2 ^ 20 + imm.toNat := append_toNat k imm

theorem wordB_toNat : (wordB k a).toNat = k.toNat * 2 ^ 20 + a.val * 2 ^ 15 := by
  simp only [wordB, append_toNat, regCode_toNat]; simp; omega

theorem wordC_toNat (imm : BitVec 15) : (wordC k a imm).toNat = k.toNat * 2 ^ 20 + a.val * 2 ^ 15 + imm.toNat := by
  simp only [wordC, append_toNat, regCode_toNat]; omega

theorem wordD_toNat : (wordD k a b).toNat = k.toNat * 2 ^ 20 + a.val * 2 ^ 15 + b.val * 2 ^ 10 := by
  simp only [wordD, append_toNat, regCode_toNat]; simp; omega

theorem wordE_toNat (imm : BitVec 10) :
    (wordE k a b imm).toNat = k.toNat * 2 ^ 20 + a.val * 2 ^ 15 + b.val * 2 ^ 10 + imm.toNat := by
  simp only [wordE, append_toNat, regCode_toNat]; omega

theorem wordF_toNat :
    (wordF k a b c).toNat = k.toNat * 2 ^ 20 + a.val * 2 ^ 15 + b.val * 2 ^ 10 + c.val * 2 ^ 5 := by
  simp only [wordF, append_toNat, regCode_toNat]; simp; omega

theorem wordG_toNat :
    (wordG k a b c d).toNat = k.toNat * 2 ^ 20 + a.val * 2 ^ 15 + b.val * 2 ^ 10 + c.val * 2 ^ 5 + d.val := by
  simp only [wordG, append_toNat, regCode_toNat]; omega

theorem wordM_toNat (m : MemOperand) :
    (wordM k a m).toNat = k.toNat * 2 ^ 20 + a.val * 2 ^ 15 + m.base.val * 2 ^ 10 + m.index.val * 2 ^ 5 +
      (scaleCode m.scale).toNat * 2 ^ 2 := by
  simp only [wordM, append_toNat, regCode_toNat]; simp; omega

theorem wordZ_toNat : (wordZ k).toNat = k.toNat * 2 ^ 20 := by
  simp only [wordZ, append_toNat]; simp

/-! ### The leading 12 bits -/

/-- The leading 12 bits T:OP of a word, as a number (R71). -/
def keyNumber (w : InstrWord) : Nat := w.toNat / 2 ^ 20

@[simp] theorem keyNumber_wordA (imm : BitVec 20) : keyNumber (wordA k imm) = k.toNat := by
  rw [keyNumber, wordA_toNat]; have := imm.isLt; omega
@[simp] theorem keyNumber_wordB : keyNumber (wordB k a) = k.toNat := by
  rw [keyNumber, wordB_toNat]; have := a.isLt; omega
@[simp] theorem keyNumber_wordC (imm : BitVec 15) : keyNumber (wordC k a imm) = k.toNat := by
  rw [keyNumber, wordC_toNat]; have := a.isLt; have := imm.isLt; omega
@[simp] theorem keyNumber_wordD : keyNumber (wordD k a b) = k.toNat := by
  rw [keyNumber, wordD_toNat]; have := a.isLt; have := b.isLt; omega
@[simp] theorem keyNumber_wordE (imm : BitVec 10) : keyNumber (wordE k a b imm) = k.toNat := by
  rw [keyNumber, wordE_toNat]; have := a.isLt; have := b.isLt; have := imm.isLt; omega
@[simp] theorem keyNumber_wordF : keyNumber (wordF k a b c) = k.toNat := by
  rw [keyNumber, wordF_toNat]; have := a.isLt; have := b.isLt; have := c.isLt; omega
@[simp] theorem keyNumber_wordG : keyNumber (wordG k a b c d) = k.toNat := by
  rw [keyNumber, wordG_toNat]; have := a.isLt; have := b.isLt; have := c.isLt; have := d.isLt; omega
@[simp] theorem keyNumber_wordM (m : MemOperand) : keyNumber (wordM k a m) = k.toNat := by
  rw [keyNumber, wordM_toNat]
  have := a.isLt; have := m.base.isLt; have := m.index.isLt; have := (scaleCode m.scale).isLt; omega
@[simp] theorem keyNumber_wordZ : keyNumber (wordZ k) = k.toNat := by
  rw [keyNumber, wordZ_toNat]; omega

theorem typeField_toNat (w : InstrWord) : (typeField w).toNat = keyNumber w / 1024 := by
  rw [typeField, field_toNat, keyNumber]; have := w.isLt; omega

theorem opField_toNat (w : InstrWord) : (opField w).toNat = keyNumber w % 1024 := by
  rw [opField, field_toNat, keyNumber]; rfl

theorem rowField_toNat (w : InstrWord) : (field 23 7 w).toNat = keyNumber w % 1024 / 8 := by
  rw [field_toNat, keyNumber]; omega

theorem condField_toNat (w : InstrWord) : (field 20 3 w).toNat = keyNumber w % 8 := by
  rw [field_toNat, keyNumber]; rfl

/-- The leading 12 bits of a word, as bits. -/
def keyBits (w : InstrWord) : BitVec 12 := BitVec.ofNat 12 (keyNumber w)

theorem keyBits_toNat (w : InstrWord) : (keyBits w).toNat = keyNumber w := by
  rw [keyBits, BitVec.toNat_ofNat, keyNumber, Nat.mod_eq_of_lt]; have := w.isLt; omega

/-- The table a word is looked up in, by its leading 12 bits (R96). -/
theorem decode_eq {w : InstrWord} {n : Nat} (h : keyNumber w = n) :
    decode w = match n / 1024 with
      | 0 => decodeInt (n % 1024) w
      | 1 => decodeFloat (n % 1024) w
      | 2 => decodeControl (n % 1024 / 8) (BitVec.ofNat 3 (n % 8)) w
      | _ => decodeMove (n % 1024) w := by
  have hc : field 20 3 w = BitVec.ofNat 3 (n % 8) := by
    apply BitVec.eq_of_toNat_eq
    rw [condField_toNat, h, BitVec.toNat_ofNat]; omega
  rw [decode, typeField_toNat, opField_toNat, rowField_toNat, hc, h] <;> rfl

/-! ### What the template readers make of a template's word -/

theorem readA_wordA (mk : BitVec 20 → Instr) (imm : BitVec 20) : readA mk (wordA k imm) = .ok (mk imm) := by
  rw [readA, field_eq (v := imm)]; rw [wordA_toNat]; have := imm.isLt; omega

theorem readA10_wordA (mk : BitVec 10 → Instr) (imm : BitVec 10) :
    readA10 mk (wordA k (0#10 ++ imm)) = .ok (mk imm) := by
  have h : (0#10 ++ imm).toNat = imm.toNat := by rw [append_toNat]; simp
  rw [readA10, if_pos, field_eq (v := imm)]
  · rw [wordA_toNat, h]; have := imm.isLt; omega
  · apply field_eq; rw [wordA_toNat, h]; have := imm.isLt; simp; omega

theorem readB_wordB (mk : Fin 32 → Instr) : readB mk (wordB k a) = .ok (mk a) := by
  rw [readB, needZero, if_pos, regField_eq (r := a)]
  · rw [wordB_toNat]; have := a.isLt; omega
  · apply field_eq; rw [wordB_toNat]; simp; omega

theorem readC_wordC (mk : Fin 32 → BitVec 15 → Instr) (imm : BitVec 15) :
    readC mk (wordC k a imm) = .ok (mk a imm) := by
  have := a.isLt; have := imm.isLt
  rw [readC, regField_eq (r := a), field_eq (v := imm)] <;> rw [wordC_toNat] <;> omega

theorem readD_wordD (mk : Fin 32 → Fin 32 → Instr) : readD mk (wordD k a b) = .ok (mk a b) := by
  have := a.isLt; have := b.isLt
  rw [readD, needZero, if_pos, regField_eq (r := a), regField_eq (r := b)]
  · rw [wordD_toNat]; omega
  · rw [wordD_toNat]; omega
  · apply field_eq; rw [wordD_toNat]; simp; omega

theorem readRange_wordD (mk : Fin 32 → Fin 32 → Instr) (h : a ≤ b) : readRange mk (wordD k a b) = .ok (mk a b) := by
  have := a.isLt; have := b.isLt
  rw [readRange, needZero, if_pos, regField_eq (r := a), regField_eq (r := b), if_pos h]
  · rw [wordD_toNat]; omega
  · rw [wordD_toNat]; omega
  · apply field_eq; rw [wordD_toNat]; simp; omega

theorem readE_wordE (mk : Fin 32 → Fin 32 → BitVec 10 → Instr) (imm : BitVec 10) :
    readE mk (wordE k a b imm) = .ok (mk a b imm) := by
  have := a.isLt; have := b.isLt; have := imm.isLt
  rw [readE, regField_eq (r := a), regField_eq (r := b), field_eq (v := imm)] <;> rw [wordE_toNat] <;> omega

theorem readF_wordF (mk : Fin 32 → Fin 32 → Fin 32 → Instr) : readF mk (wordF k a b c) = .ok (mk a b c) := by
  have := a.isLt; have := b.isLt; have := c.isLt
  rw [readF, needZero, if_pos, regField_eq (r := a), regField_eq (r := b), regField_eq (r := c)]
  · rw [wordF_toNat]; omega
  · rw [wordF_toNat]; omega
  · rw [wordF_toNat]; omega
  · apply field_eq; rw [wordF_toNat]; simp; omega

theorem readG_wordG (mk : Fin 32 → Fin 32 → Fin 32 → Fin 32 → Instr) :
    readG mk (wordG k a b c d) = .ok (mk a b c d) := by
  have := a.isLt; have := b.isLt; have := c.isLt; have := d.isLt
  rw [readG, regField_eq (r := a), regField_eq (r := b), regField_eq (r := c), regField_eq (r := d)] <;>
    rw [wordG_toNat] <;> omega

theorem scaleOf_scaleCode (f : Scale) : scaleOf (scaleCode f) = .ok f := by cases f <;> rfl

theorem readM_wordM (mk : Fin 32 → MemOperand → Instr) (m : MemOperand) (h : m.wf = true) :
    readM mk (wordM k a m) = .ok (mk a m) := by
  have := a.isLt; have := m.base.isLt; have := m.index.isLt; have := (scaleCode m.scale).isLt
  have hi : m.index ≠ spReg := by simpa [MemOperand.wf] using h
  rw [readM, needZero, if_pos, regField_eq (lo := 5) (r := m.index), if_neg hi, field_eq (v := scaleCode m.scale),
    scaleOf_scaleCode, regField_eq (r := a), regField_eq (r := m.base)]
  · rfl
  · rw [wordM_toNat]; omega
  · rw [wordM_toNat]; omega
  · rw [wordM_toNat]; omega
  · rw [wordM_toNat]; omega
  · apply field_eq; rw [wordM_toNat]; simp; omega

theorem readZ_wordZ (i : Instr) : readZ i (wordZ k) = .ok i := by
  rw [readZ, needZero, if_pos]
  apply field_eq; rw [wordZ_toNat]; simp

/-! ### What a template reader accepts is the template's word -/

theorem field_zero {lo n : Nat} {w : InstrWord} (h : field lo n w = 0) : w.toNat / 2 ^ lo % 2 ^ n = 0 := by
  rw [← field_toNat, h]; rfl

theorem needZero_ok {n : Nat} {w : InstrWord} {e : Except DecodeReject Instr} {i : Instr}
    (h : needZero n w e = .ok i) : w.toNat % 2 ^ n = 0 ∧ e = .ok i := by
  unfold needZero at h
  split at h
  · next hz => exact ⟨by simpa using field_zero hz, h⟩
  · cases h

theorem readA_ok {mk : BitVec 20 → Instr} {w : InstrWord} {i : Instr} (h : readA mk w = .ok i) :
    ∃ imm, i = mk imm ∧ w = wordA (keyBits w) imm := by
  cases h
  refine ⟨_, rfl, BitVec.eq_of_toNat_eq ?_⟩
  rw [wordA_toNat, keyBits_toNat, keyNumber, field_toNat]; omega

theorem readA10_ok {mk : BitVec 10 → Instr} {w : InstrWord} {i : Instr} (h : readA10 mk w = .ok i) :
    ∃ imm, i = mk imm ∧ w = wordA (keyBits w) (0#10 ++ imm) := by
  unfold readA10 at h
  split at h
  · next hz =>
    cases h
    refine ⟨_, rfl, BitVec.eq_of_toNat_eq ?_⟩
    have := field_zero hz
    rw [wordA_toNat, append_toNat, keyBits_toNat, keyNumber, field_toNat, BitVec.toNat_ofNat]; omega
  · cases h

theorem readB_ok {mk : Fin 32 → Instr} {w : InstrWord} {i : Instr} (h : readB mk w = .ok i) :
    ∃ a, i = mk a ∧ w = wordB (keyBits w) a := by
  obtain ⟨hz, h⟩ := needZero_ok h
  cases h
  refine ⟨_, rfl, BitVec.eq_of_toNat_eq ?_⟩
  rw [wordB_toNat, keyBits_toNat, keyNumber, regField_val]; omega

theorem readC_ok {mk : Fin 32 → BitVec 15 → Instr} {w : InstrWord} {i : Instr} (h : readC mk w = .ok i) :
    ∃ a imm, i = mk a imm ∧ w = wordC (keyBits w) a imm := by
  cases h
  refine ⟨_, _, rfl, BitVec.eq_of_toNat_eq ?_⟩
  rw [wordC_toNat, keyBits_toNat, keyNumber, regField_val, field_toNat]; omega

theorem readD_ok {mk : Fin 32 → Fin 32 → Instr} {w : InstrWord} {i : Instr} (h : readD mk w = .ok i) :
    ∃ a b, i = mk a b ∧ w = wordD (keyBits w) a b := by
  obtain ⟨hz, h⟩ := needZero_ok h
  cases h
  refine ⟨_, _, rfl, BitVec.eq_of_toNat_eq ?_⟩
  rw [wordD_toNat, keyBits_toNat, keyNumber, regField_val, regField_val]; omega

theorem readRange_ok {mk : Fin 32 → Fin 32 → Instr} {w : InstrWord} {i : Instr} (h : readRange mk w = .ok i) :
    ∃ a b, i = mk a b ∧ a ≤ b ∧ w = wordD (keyBits w) a b := by
  obtain ⟨hz, h⟩ := needZero_ok h
  split at h
  · next hab =>
    cases h
    refine ⟨_, _, rfl, hab, BitVec.eq_of_toNat_eq ?_⟩
    rw [wordD_toNat, keyBits_toNat, keyNumber, regField_val, regField_val]; omega
  · cases h

theorem readE_ok {mk : Fin 32 → Fin 32 → BitVec 10 → Instr} {w : InstrWord} {i : Instr} (h : readE mk w = .ok i) :
    ∃ a b imm, i = mk a b imm ∧ w = wordE (keyBits w) a b imm := by
  cases h
  refine ⟨_, _, _, rfl, BitVec.eq_of_toNat_eq ?_⟩
  rw [wordE_toNat, keyBits_toNat, keyNumber, regField_val, regField_val, field_toNat]; omega

theorem readF_ok {mk : Fin 32 → Fin 32 → Fin 32 → Instr} {w : InstrWord} {i : Instr} (h : readF mk w = .ok i) :
    ∃ a b c, i = mk a b c ∧ w = wordF (keyBits w) a b c := by
  obtain ⟨hz, h⟩ := needZero_ok h
  cases h
  refine ⟨_, _, _, rfl, BitVec.eq_of_toNat_eq ?_⟩
  rw [wordF_toNat, keyBits_toNat, keyNumber, regField_val, regField_val, regField_val]; omega

theorem readG_ok {mk : Fin 32 → Fin 32 → Fin 32 → Fin 32 → Instr} {w : InstrWord} {i : Instr}
    (h : readG mk w = .ok i) : ∃ a b c d, i = mk a b c d ∧ w = wordG (keyBits w) a b c d := by
  cases h
  refine ⟨_, _, _, _, rfl, BitVec.eq_of_toNat_eq ?_⟩
  rw [wordG_toNat, keyBits_toNat, keyNumber, regField_val, regField_val, regField_val, regField_val]; omega

theorem scaleOf_ok {c : BitVec 3} {f : Scale} (h : scaleOf c = .ok f) : scaleCode f = c := by
  unfold scaleOf at h
  split at h <;> cases h <;> (rename_i hc; exact BitVec.eq_of_toNat_eq hc.symm)

theorem readM_ok {mk : Fin 32 → MemOperand → Instr} {w : InstrWord} {i : Instr} (h : readM mk w = .ok i) :
    ∃ a m, i = mk a m ∧ m.wf = true ∧ w = wordM (keyBits w) a m := by
  obtain ⟨hz, h⟩ := needZero_ok h
  split at h
  · cases h
  · next hi =>
    cases hs : scaleOf (field 2 3 w) with
    | error e => rw [hs] at h; cases h
    | ok f =>
      rw [hs] at h
      cases h
      refine ⟨_, _, rfl, by simpa [MemOperand.wf] using hi, BitVec.eq_of_toNat_eq ?_⟩
      rw [wordM_toNat, keyBits_toNat, keyNumber, scaleOf_ok hs, field_toNat]
      simp only [regField_val]; omega

theorem readZ_ok {i j : Instr} {w : InstrWord} (h : readZ i w = .ok j) : j = i ∧ w = wordZ (keyBits w) := by
  obtain ⟨hz, h⟩ := needZero_ok h
  cases h
  refine ⟨rfl, BitVec.eq_of_toNat_eq ?_⟩
  rw [wordZ_toNat, keyBits_toNat, keyNumber]; omega

theorem keyOf_toNat (t : BitVec 2) (op : BitVec 10) : (keyOf t op).toNat = t.toNat * 1024 + op.toNat :=
  append_toNat t op

end Sys2Proof
end

