-- ==== Sys2Proof/Laws/Rounding.lean ====
section
/-! SUPPORT. What `roundMagnitude` and `roundShift` compute, as facts about rational numbers: the place, the significand, nearest with
ties to even, overflow (spec/43_float_move.md R221, spec/44_float_arith.md R241). -/

namespace Sys2Proof.Machine

/-- The significand that the magnitude bits `c` (exponent and fraction fields together) stand for. -/
def FpFormat.sigOf (f : FpFormat) (c : Nat) : Nat :=
  c % 2 ^ f.fracBits + if c / 2 ^ f.fracBits = 0 then 0 else 2 ^ f.fracBits

/-- The power of two of the last place of the magnitude bits `c`. -/
def FpFormat.placeOf (f : FpFormat) (c : Nat) : Int := f.minLsb + (c / 2 ^ f.fracBits - 1 : Nat)

/-- The number that the magnitude bits `c` stand for, the exponent unbounded above. -/
def FpFormat.magOf (f : FpFormat) (c : Nat) : ℚ := f.sigOf c * 2 ^ f.placeOf c

/-- The magnitude bits of infinity. -/
def FpFormat.top (f : FpFormat) : Nat := f.maxExp * 2 ^ f.fracBits

theorem two_pow_pos (k : Int) : (0 : ℚ) < 2 ^ k := zpow_pos (by norm_num) k

theorem two_pow_split (a b : Int) : (2 : ℚ) ^ (a + b) = 2 ^ a * 2 ^ b := zpow_add₀ (by norm_num) a b

theorem two_pow_nat (n : Nat) : (2 : ℚ) ^ (n : Int) = ((2 ^ n : Nat) : ℚ) := by push_cast; exact zpow_natCast 2 n

variable (f : FpFormat)

theorem FpFormat.magOf_nonneg (c : Nat) : 0 ≤ f.magOf c :=
  mul_nonneg (Nat.cast_nonneg _) (two_pow_pos _).le

@[simp] theorem FpFormat.magOf_zero : f.magOf 0 = 0 := by simp [FpFormat.magOf, FpFormat.sigOf]

/-- Magnitude bits put together from a number of binades and a significand. -/
theorem FpFormat.magOf_compose {k sig : Nat} (hs : sig ≤ 2 ^ (f.fracBits + 1)) (hk : k = 0 ∨ 2 ^ f.fracBits ≤ sig) :
    f.magOf (k * 2 ^ f.fracBits + sig) = sig * 2 ^ (f.minLsb + k) := by
  have hp : 0 < 2 ^ f.fracBits := Nat.two_pow_pos _
  have hp1 : (2 : Nat) ^ (f.fracBits + 1) = 2 * 2 ^ f.fracBits := by rw [pow_succ, mul_comm]
  have hd : (k * 2 ^ f.fracBits + sig) / 2 ^ f.fracBits = k + sig / 2 ^ f.fracBits := by
    rw [Nat.add_comm, Nat.add_mul_div_right _ _ hp, Nat.add_comm]
  have hm : (k * 2 ^ f.fracBits + sig) % 2 ^ f.fracBits = sig % 2 ^ f.fracBits := by
    rw [Nat.add_comm, Nat.add_mul_mod_self_right]
  unfold FpFormat.magOf FpFormat.sigOf FpFormat.placeOf
  rw [hd, hm]
  generalize 2 ^ f.fracBits = B at *
  rcases lt_or_ge sig B with h | h
  · have hk0 : k = 0 := by omega
    subst hk0
    rw [Nat.div_eq_of_lt h, Nat.mod_eq_of_lt h]
    simp
  · rcases lt_or_ge sig (2 * B) with h2 | h2
    · have : sig / B = 1 := by
        apply Nat.div_eq_of_lt_le <;> omega
      have hmod : sig % B = sig - B := by
        rw [Nat.mod_eq_sub_mod h, Nat.mod_eq_of_lt (by omega)]
      rw [this, hmod]
      simp only [Nat.add_sub_cancel]
      rw [if_neg (by omega), Nat.sub_add_cancel h]
    · have : sig = B * 2 := by omega
      subst this
      rw [Nat.mul_div_cancel_left _ hp, Nat.mul_mod_right, if_neg (by omega)]
      rw [show k + 2 - 1 = k + 1 from rfl, show f.minLsb + ((k + 1 : Nat) : Int) = (f.minLsb + k) + 1 by push_cast; ring,
        two_pow_split]
      push_cast; ring

theorem FpFormat.sigOf_compose_even (hb : 1 ≤ f.fracBits) {k sig : Nat} (he : sig % 2 = 0) : f.sigOf (k * 2 ^ f.fracBits + sig) % 2 = 0 := by
  have hp : 0 < 2 ^ f.fracBits := Nat.two_pow_pos _
  have hm : (k * 2 ^ f.fracBits + sig) % 2 ^ f.fracBits = sig % 2 ^ f.fracBits := by
    rw [Nat.add_comm, Nat.add_mul_mod_self_right]
  obtain ⟨b, hb'⟩ : ∃ b, 2 ^ f.fracBits = 2 * b := ⟨2 ^ (f.fracBits - 1), by
    rw [← pow_succ', Nat.sub_add_cancel hb]⟩
  have h1 : sig % 2 ^ f.fracBits % 2 = 0 := by
    rw [hb', Nat.mod_mul_right_mod, he]
  unfold FpFormat.sigOf
  rw [hm]
  split <;> omega

/-- `sig` places of size `2^(minLsb + k)` are the number `x` rounded to nearest, ties to even: either the format's least
place, or `x` is normal there. -/
structure RoundsAt (x : ℚ) (k sig : Nat) : Prop where
  low : (2 * sig - 1) * 2 ^ (f.minLsb + k) ≤ 2 * x
  high : 2 * x ≤ (2 * sig + 1) * 2 ^ (f.minLsb + k)
  even : 2 * x = (2 * sig - 1) * 2 ^ (f.minLsb + k) ∨ 2 * x = (2 * sig + 1) * 2 ^ (f.minLsb + k) → sig % 2 = 0
  below : x < 2 ^ (f.fracBits + 1) * 2 ^ (f.minLsb + k)
  above : k = 0 ∨ 2 ^ f.fracBits * 2 ^ (f.minLsb + k) ≤ x

variable {f}

theorem RoundsAt.sig_le {x : ℚ} {k sig : Nat} (h : RoundsAt f x k sig) : sig ≤ 2 ^ (f.fracBits + 1) := by
  have h1 := h.low; have h2 := h.below
  have hp := two_pow_pos (f.minLsb + k)
  by_contra hc
  have : (2 ^ (f.fracBits + 1) : ℚ) + 1 ≤ sig := by exact_mod_cast Nat.lt_of_not_le hc
  nlinarith

theorem RoundsAt.sig_ge {x : ℚ} {k sig : Nat} (h : RoundsAt f x k sig) : k = 0 ∨ 2 ^ f.fracBits ≤ sig := by
  rcases h.above with h0 | h2
  · exact .inl h0
  · right
    have h1 := h.high
    have hp := two_pow_pos (f.minLsb + k)
    by_contra hc
    have : (sig : ℚ) + 1 ≤ 2 ^ f.fracBits := by exact_mod_cast Nat.lt_of_not_le hc
    nlinarith

theorem RoundsAt.magOf {x : ℚ} {k sig : Nat} (h : RoundsAt f x k sig) :
    f.magOf (k * 2 ^ f.fracBits + sig) = sig * 2 ^ (f.minLsb + k) := f.magOf_compose h.sig_le h.sig_ge

/-- Two integers around `y`: the one within a half is at least as near as any other. -/
theorem near_int {y : ℚ} {s n : Int} (h1 : 2 * (s : ℚ) - 1 ≤ 2 * y) (h2 : 2 * y ≤ 2 * s + 1) :
    |(s : ℚ) - y| ≤ |(n : ℚ) - y| ∧ (|(s : ℚ) - y| = |(n : ℚ) - y| → n ≠ s → 2 * y = 2 * s - 1 ∨ 2 * y = 2 * s + 1) := by
  rcases lt_trichotomy n s with h | h | h
  · have h3 : (n : ℚ) + 1 ≤ s := by exact_mod_cast h
    rw [abs_of_nonpos (show (n : ℚ) - y ≤ 0 by linarith)]
    constructor
    · rw [abs_le]; constructor <;> linarith
    · intro he _
      rcases abs_cases ((s : ℚ) - y) with ⟨h4, _⟩ | ⟨h4, _⟩ <;> rw [h4] at he
      · left; linarith
      · exfalso; linarith
  · subst h; exact ⟨le_refl _, fun _ h => absurd rfl h⟩
  · have h3 : (s : ℚ) + 1 ≤ n := by exact_mod_cast h
    rw [abs_of_nonneg (show 0 ≤ (n : ℚ) - y by linarith)]
    constructor
    · rw [abs_le]; constructor <;> linarith
    · intro he _
      rcases abs_cases ((s : ℚ) - y) with ⟨h4, _⟩ | ⟨h4, _⟩ <;> rw [h4] at he
      · exfalso; linarith
      · right; linarith

theorem RoundsAt.near {x : ℚ} {k sig : Nat} (h : RoundsAt f x k sig) (n : Nat) :
    |sig * 2 ^ (f.minLsb + k) - x| ≤ |n * 2 ^ (f.minLsb + k) - x| ∧
      (|sig * 2 ^ (f.minLsb + k) - x| = |n * 2 ^ (f.minLsb + k) - x| → n ≠ sig → sig % 2 = 0) := by
  have h1 := h.low; have h2 := h.high; have h3 := h.even
  have hp := two_pow_pos (f.minLsb + k)
  generalize (2 : ℚ) ^ (f.minLsb + k) = U at *
  obtain ⟨y, rfl⟩ : ∃ y, x = y * U := ⟨x / U, by field_simp⟩
  have e : ∀ z : ℚ, |z * U - y * U| = |z - y| * U := fun z => by rw [← sub_mul, abs_mul, abs_of_pos hp]
  rw [e, e]
  have hy1 : 2 * ((sig : Int) : ℚ) - 1 ≤ 2 * y := by
    have : (2 * (sig : ℚ) - 1) * U ≤ (2 * y) * U := by linarith
    exact_mod_cast le_of_mul_le_mul_right this hp
  have hy2 : 2 * y ≤ 2 * ((sig : Int) : ℚ) + 1 := by
    have : (2 * y) * U ≤ (2 * (sig : ℚ) + 1) * U := by linarith
    exact_mod_cast le_of_mul_le_mul_right this hp
  obtain ⟨a, b⟩ := near_int (n := n) hy1 hy2
  push_cast at a b
  refine ⟨mul_le_mul_of_nonneg_right a hp.le, fun he hn => ?_⟩
  rcases b (mul_right_cancel₀ hp.ne' he) (by exact_mod_cast hn) with b | b
  · exact h3 (.inl (by rw [← b]; ring))
  · exact h3 (.inr (by rw [← b]; ring))

/-- Any magnitude bits are a whole number of places of size `2^(minLsb + k)`, or lie below the binade. -/
theorem FpFormat.magOf_multiple_or_below (f : FpFormat) (c k : Nat) :
    (∃ n : Nat, f.magOf c = n * 2 ^ (f.minLsb + k)) ∨ f.magOf c < 2 ^ f.fracBits * 2 ^ (f.minLsb + k) ∧ k ≠ 0 := by
  unfold FpFormat.magOf
  rcases le_or_gt k (c / 2 ^ f.fracBits - 1) with h | h
  · left
    refine ⟨f.sigOf c * 2 ^ (c / 2 ^ f.fracBits - 1 - k), ?_⟩
    rw [FpFormat.placeOf, show f.minLsb + ((c / 2 ^ f.fracBits - 1 : Nat) : Int) =
      ((c / 2 ^ f.fracBits - 1 - k : Nat) : Int) + (f.minLsb + k) by omega, two_pow_split, two_pow_nat]
    push_cast; ring
  · right
    refine ⟨?_, by omega⟩
    have hs : f.sigOf c < 2 ^ (f.fracBits + 1) := by
      have := Nat.mod_lt c (Nat.two_pow_pos f.fracBits)
      unfold FpFormat.sigOf
      rw [pow_succ]
      split <;> omega
    have hs' : (f.sigOf c : ℚ) < 2 ^ f.fracBits * 2 := by rw [← pow_succ]; exact_mod_cast hs
    have he : f.minLsb + (k : Int) = (f.minLsb + (k - 1 : Nat)) + 1 := by omega
    rw [he, two_pow_split]
    have h1 : (2 : ℚ) ^ f.placeOf c ≤ 2 ^ (f.minLsb + (k - 1 : Nat)) :=
      zpow_le_zpow_right₀ (by norm_num) (by unfold FpFormat.placeOf; omega)
    have hp := two_pow_pos (f.placeOf c)
    have hp' := two_pow_pos (f.minLsb + (k - 1 : Nat))
    calc (f.sigOf c : ℚ) * 2 ^ f.placeOf c < 2 ^ f.fracBits * 2 * 2 ^ f.placeOf c := by
          exact mul_lt_mul_of_pos_right hs' hp
      _ ≤ 2 ^ f.fracBits * 2 * 2 ^ (f.minLsb + (k - 1 : Nat)) := by
          exact mul_le_mul_of_nonneg_left h1 (by positivity)
      _ = _ := by norm_num; ring

/-- The magnitude bits that round `x` are nearest to `x` among all magnitude bits, ties to the even significand. -/
theorem RoundsAt.nearest (hb : 1 ≤ f.fracBits) {x : ℚ} {k sig : Nat} (h : RoundsAt f x k sig) (c : Nat) :
    |f.magOf (k * 2 ^ f.fracBits + sig) - x| ≤ |f.magOf c - x| ∧
      (|f.magOf (k * 2 ^ f.fracBits + sig) - x| = |f.magOf c - x| → f.magOf c ≠ f.magOf (k * 2 ^ f.fracBits + sig) →
        f.sigOf (k * 2 ^ f.fracBits + sig) % 2 = 0) := by
  rw [h.magOf]
  rcases f.magOf_multiple_or_below c k with ⟨n, hn⟩ | ⟨hlt, hk⟩
  · rw [hn]
    obtain ⟨a, b⟩ := h.near n
    refine ⟨a, fun he hne => f.sigOf_compose_even hb (b he ?_)⟩
    rintro rfl
    exact hne rfl
  · obtain ⟨a, -⟩ := h.near (2 ^ f.fracBits)
    have h1 := h.above.resolve_left hk
    push_cast at a
    have : |(2 : ℚ) ^ f.fracBits * 2 ^ (f.minLsb + k) - x| < |f.magOf c - x| := by
      rw [abs_of_nonpos (by linarith), abs_of_nonpos (by linarith)]; linarith
    exact ⟨a.trans this.le, fun he => absurd he (by linarith)⟩


theorem roundShift_spec (m k : Nat) :
    2 * roundShift m k * 2 ^ k ≤ 2 * m + 2 ^ k ∧ 2 * m ≤ 2 * roundShift m k * 2 ^ k + 2 ^ k ∧
      (2 * m + 2 ^ k = 2 * roundShift m k * 2 ^ k ∨ 2 * m = 2 * roundShift m k * 2 ^ k + 2 ^ k →
        roundShift m k % 2 = 0) := by
  have hp : 0 < 2 ^ k := Nat.two_pow_pos k
  have hd := Nat.div_add_mod m (2 ^ k)
  have hl := Nat.mod_lt m hp
  unfold roundShift
  generalize m / 2 ^ k = q at *
  generalize m % 2 ^ k = r at *
  generalize 2 ^ k = p at *
  subst hd
  dsimp only
  split_ifs with h1 h2
  · refine ⟨by nlinarith, by nlinarith, ?_⟩
    rintro (h | h) <;> nlinarith
  · refine ⟨by nlinarith, by nlinarith, ?_⟩
    rintro (h | h) <;> nlinarith
  · have hr : 2 * r = p := by omega
    rcases Nat.mod_two_eq_zero_or_one q with h | h <;> rw [h]
    · refine ⟨by nlinarith, by nlinarith, fun _ => by omega⟩
    · refine ⟨by nlinarith, by nlinarith, fun _ => by omega⟩

/-- What `roundMagnitude` computes before it clamps to infinity: `m * 2^e` rounded at its place. If `m * 2^e` is a whole number
of places, it is kept. -/
theorem roundMagnitude_spec (f : FpFormat) {m : Nat} (hm : m ≠ 0) (e : Int) :
    ∃ k sig : Nat, roundMagnitude f m e = min (k * 2 ^ f.fracBits + sig) f.top ∧
      RoundsAt f (m * 2 ^ e) k sig ∧
      (f.minLsb + k ≤ e → (m : ℚ) * 2 ^ e = sig * 2 ^ (f.minLsb + k)) ∧
      f.minLsb + (k : Int) = max (e + (m.log2 : Int) - f.fracBits) f.minLsb := by
  have hlog1 : 2 ^ m.log2 ≤ m := Nat.log2_self_le hm
  have hlog2 : m < 2 ^ (m.log2 + 1) := Nat.lt_log2_self
  generalize hlsb : max (e + (m.log2 : Int) - f.fracBits) f.minLsb = lsb
  obtain ⟨k, hk⟩ : ∃ k : Nat, lsb = f.minLsb + k := ⟨(lsb - f.minLsb).toNat, by omega⟩
  refine ⟨k, if lsb ≤ e then m * 2 ^ (e - lsb).toNat else roundShift m (lsb - e).toNat, ?_, ?_, ?_, hk.symm⟩
  · unfold roundMagnitude FpFormat.top
    rw [if_neg hm, hlsb]
    dsimp only
    rw [show (lsb - f.minLsb).toNat = k by omega]
  · have hbelow : (m : ℚ) * 2 ^ e < 2 ^ (f.fracBits + 1) * 2 ^ (f.minLsb + (k : Int)) := by
      have h1 : (m : ℚ) < 2 ^ ((m.log2 + 1 : Nat) : Int) := by rw [two_pow_nat]; exact_mod_cast hlog2
      calc (m : ℚ) * 2 ^ e < 2 ^ ((m.log2 + 1 : Nat) : Int) * 2 ^ e := mul_lt_mul_of_pos_right h1 (two_pow_pos e)
        _ = 2 ^ (((m.log2 + 1 : Nat) : Int) + e) := (two_pow_split _ _).symm
        _ ≤ 2 ^ (((f.fracBits + 1 : Nat) : Int) + (f.minLsb + k)) := zpow_le_zpow_right₀ (by norm_num) (by push_cast; omega)
        _ = _ := by rw [two_pow_split, two_pow_nat]; push_cast; rfl
    have habove : k = 0 ∨ (2 : ℚ) ^ f.fracBits * 2 ^ (f.minLsb + (k : Int)) ≤ m * 2 ^ e := by
      rcases Nat.eq_zero_or_pos k with h0 | h0
      · exact .inl h0
      · right
        have h1 : (2 : ℚ) ^ (m.log2 : Int) ≤ m := by rw [two_pow_nat]; exact_mod_cast hlog1
        calc (2 : ℚ) ^ f.fracBits * 2 ^ (f.minLsb + (k : Int)) = 2 ^ ((f.fracBits : Int) + (f.minLsb + k)) := by
              rw [two_pow_split (f.fracBits : Int), two_pow_nat f.fracBits, Nat.cast_pow, Nat.cast_ofNat]
          _ = 2 ^ ((m.log2 : Int) + e) := by congr 1; omega
          _ = 2 ^ (m.log2 : Int) * 2 ^ e := two_pow_split _ _
          _ ≤ m * 2 ^ e := mul_le_mul_of_nonneg_right h1 (two_pow_pos e).le
    split
    · next h =>
      have hx : (m : ℚ) * 2 ^ e = ((m * 2 ^ (e - lsb).toNat : Nat) : ℚ) * 2 ^ (f.minLsb + (k : Int)) := by
        rw [← hk]
        conv_lhs => rw [show e = ((e - lsb).toNat : Int) + lsb by omega, two_pow_split, two_pow_nat]
        push_cast; ring
      have hp := two_pow_pos (f.minLsb + (k : Int))
      refine ⟨by rw [hx]; nlinarith, by rw [hx]; nlinarith, ?_, hbelow, habove⟩
      intro h
      rw [hx] at h
      rcases h with h | h <;> nlinarith
    · next h =>
      obtain ⟨a, b, c⟩ := roundShift_spec m (lsb - e).toNat
      have hU : (2 : ℚ) ^ (f.minLsb + (k : Int)) = ((2 ^ (lsb - e).toNat : Nat) : ℚ) * 2 ^ e := by
        rw [← hk, ← two_pow_nat, ← two_pow_split]; congr 1; omega
      have hp := two_pow_pos e
      generalize roundShift m (lsb - e).toNat = s at *
      generalize 2 ^ (lsb - e).toNat = P at *
      have a' : 2 * (s : ℚ) * P ≤ 2 * m + P := by exact_mod_cast a
      have b' : 2 * (m : ℚ) ≤ 2 * s * P + P := by exact_mod_cast b
      refine ⟨?_, ?_, ?_, hbelow, habove⟩
      · rw [hU]; nlinarith
      · rw [hU]; nlinarith
      · rw [hU]
        intro h
        apply c
        rcases h with h | h
        · left
          have : (2 * (m : ℚ) + P) * 2 ^ e = (2 * s * P) * 2 ^ e := by linarith
          exact_mod_cast mul_right_cancel₀ hp.ne' this
        · right
          have : (2 * (m : ℚ)) * 2 ^ e = (2 * s * P + P) * 2 ^ e := by linarith
          exact_mod_cast mul_right_cancel₀ hp.ne' this
  · intro h
    rw [if_pos (by omega)]
    rw [← hk]
    conv_lhs => rw [show e = ((e - lsb).toNat : Int) + lsb by omega, two_pow_split, two_pow_nat]
    push_cast; ring

/-- Rounding sees a number only through its order against even multiples of `2^e`, if its place is at least four of them. -/
theorem RoundsAt.congr {x y : ℚ} {k sig : Nat} {e : Int} (he : e + 2 ≤ f.minLsb + k)
    (hxy : ∀ n : Int, (x < 2 * n * 2 ^ e ↔ y < 2 * n * 2 ^ e) ∧ (2 * n * 2 ^ e < x ↔ 2 * n * 2 ^ e < y))
    (h : RoundsAt f x k sig) : RoundsAt f y k sig := by
  obtain ⟨j, hj⟩ : ∃ j : Nat, f.minLsb + (k : Int) = (j : Int) + (e + 2) := ⟨(f.minLsb + k - (e + 2)).toNat, by omega⟩
  have hU : (2 : ℚ) ^ (f.minLsb + (k : Int)) = 4 * (2 ^ j : Nat) * 2 ^ e := by
    rw [hj, two_pow_split, two_pow_split, two_pow_nat]; norm_num; ring
  have cmp : ∀ n : Int, (2 * x < n * 2 ^ (f.minLsb + (k : Int)) ↔ 2 * y < n * 2 ^ (f.minLsb + (k : Int))) ∧
      (n * 2 ^ (f.minLsb + (k : Int)) < 2 * x ↔ n * 2 ^ (f.minLsb + (k : Int)) < 2 * y) := by
    intro n
    have := hxy (n * (2 ^ j : Nat))
    rw [hU]
    push_cast at this ⊢
    constructor
    · constructor <;> intro h
      · have := this.1.1 (by linarith); linarith
      · have := this.1.2 (by linarith); linarith
    · constructor <;> intro h
      · have := this.2.1 (by linarith); linarith
      · have := this.2.2 (by linarith); linarith
  have le1 : ∀ n : Int, n * 2 ^ (f.minLsb + (k : Int)) ≤ 2 * x → n * 2 ^ (f.minLsb + (k : Int)) ≤ 2 * y := fun n h =>
    le_of_not_gt fun hc => absurd ((cmp n).1.2 hc) (not_lt.2 h)
  have le2 : ∀ n : Int, 2 * x ≤ n * 2 ^ (f.minLsb + (k : Int)) → 2 * y ≤ n * 2 ^ (f.minLsb + (k : Int)) := fun n h =>
    le_of_not_gt fun hc => absurd ((cmp n).2.2 hc) (not_lt.2 h)
  have le3 : ∀ n : Int, n * 2 ^ (f.minLsb + (k : Int)) ≤ 2 * y → n * 2 ^ (f.minLsb + (k : Int)) ≤ 2 * x := fun n h =>
    le_of_not_gt fun hc => absurd ((cmp n).1.1 hc) (not_lt.2 h)
  have le4 : ∀ n : Int, 2 * y ≤ n * 2 ^ (f.minLsb + (k : Int)) → 2 * x ≤ n * 2 ^ (f.minLsb + (k : Int)) := fun n h =>
    le_of_not_gt fun hc => absurd ((cmp n).2.1 hc) (not_lt.2 h)
  constructor
  · have := le1 (2 * sig - 1) (by push_cast; exact h.low)
    push_cast at this; exact this
  · have := le2 (2 * sig + 1) (by push_cast; exact h.high)
    push_cast at this; exact this
  · rintro (h' | h')
    · refine h.even (.inl (le_antisymm ?_ ?_))
      · have := le4 (2 * sig - 1) (by push_cast; exact h'.le); push_cast at this; exact this
      · have := le3 (2 * sig - 1) (by push_cast; exact h'.ge); push_cast at this; exact this
    · refine h.even (.inr (le_antisymm ?_ ?_))
      · have := le4 (2 * sig + 1) (by push_cast; exact h'.le); push_cast at this; exact this
      · have := le3 (2 * sig + 1) (by push_cast; exact h'.ge); push_cast at this; exact this
  · have := (cmp (2 * 2 ^ (f.fracBits + 1))).1.1 (by push_cast; linarith [h.below])
    push_cast at this; linarith
  · rcases h.above with h0 | h0
    · exact .inl h0
    · right
      have := le1 (2 * 2 ^ f.fracBits) (by push_cast; linarith)
      push_cast at this; linarith

theorem roundsAt_zero (f : FpFormat) : RoundsAt f 0 0 0 := by
  have hp := two_pow_pos f.minLsb
  refine ⟨?_, ?_, fun _ => rfl, by positivity, .inl rfl⟩ <;> simp only [Nat.cast_zero, add_zero, mul_zero] <;> linarith

/-- What `roundMagnitude` answers: the place and the significand of `m * 2^e`, clamped to infinity. -/
theorem roundMagnitude_rounds (f : FpFormat) (m : Nat) (e : Int) :
    ∃ k sig : Nat, roundMagnitude f m e = min (k * 2 ^ f.fracBits + sig) f.top ∧ RoundsAt f (m * 2 ^ e) k sig := by
  rcases Nat.eq_zero_or_pos m with rfl | hm
  · exact ⟨0, 0, by simp [roundMagnitude], by simpa using roundsAt_zero f⟩
  · obtain ⟨k, sig, h1, h2, _⟩ := roundMagnitude_spec f (Nat.pos_iff_ne_zero.1 hm) e
    exact ⟨k, sig, h1, h2⟩

/-! ### Infinity -/

/-- Half a place above the largest finite number. -/
def FpFormat.limitOf (f : FpFormat) : ℚ := (2 - 2 ^ (-(f.fracBits : Int) - 1)) * 2 ^ (f.bias : Int)

/-- The formats have at least two bits of exponent and one of fraction. -/
structure FpFormat.Wide (f : FpFormat) : Prop where
  exp : 2 ≤ f.expBits
  frac : 1 ≤ f.fracBits

theorem FpFormat.Wide.maxExp_eq {f : FpFormat} (h : f.Wide) : f.maxExp = 2 * f.bias + 1 ∧ 1 ≤ f.bias := by
  have h1 := h.exp
  obtain ⟨n, hn⟩ : ∃ n, f.expBits = n + 2 := ⟨f.expBits - 2, by omega⟩
  unfold FpFormat.maxExp FpFormat.bias
  rw [hn, show n + 2 - 1 = n + 1 from rfl]
  have := Nat.two_pow_pos n
  rw [pow_succ, pow_succ]; omega

theorem RoundsAt.overflow_iff {x : ℚ} {k sig : Nat} (hw : f.Wide) (h : RoundsAt f x k sig) :
    f.top ≤ k * 2 ^ f.fracBits + sig ↔ f.limitOf ≤ x := by
  obtain ⟨hm, hbias⟩ := hw.maxExp_eq
  obtain ⟨K, hK⟩ : ∃ K, f.maxExp = K + 2 := ⟨f.maxExp - 2, by omega⟩
  have hB : 0 < 2 ^ f.fracBits := Nat.two_pow_pos _
  have htop : f.top = K * 2 ^ f.fracBits + 2 * 2 ^ f.fracBits := by unfold FpFormat.top; rw [hK]; ring
  have hU : f.limitOf * 2 = (4 * 2 ^ f.fracBits - 1) * 2 ^ (f.minLsb + (K : Int)) := by
    have e1 : f.minLsb + (K : Int) = f.bias + -(f.fracBits : Int) := by unfold FpFormat.minLsb; omega
    unfold FpFormat.limitOf
    rw [e1, two_pow_split, show -(f.fracBits : Int) - 1 = -(f.fracBits : Int) + (-1) by ring, two_pow_split,
      zpow_neg, zpow_natCast]
    have : (2 : ℚ) ^ f.fracBits ≠ 0 := by positivity
    field_simp
    norm_num
    ring
  have hle := h.sig_le
  rw [pow_succ] at hle
  have hp := two_pow_pos (f.minLsb + (K : Int))
  have hBq : (1 : ℚ) ≤ 2 ^ f.fracBits := by exact_mod_cast hB
  rcases lt_trichotomy k K with hk | hk | hk
  · constructor
    · intro ht
      exfalso
      rw [htop] at ht
      have : (k + 1) * 2 ^ f.fracBits ≤ K * 2 ^ f.fracBits := Nat.mul_le_mul_right _ hk
      have e : (k + 1) * 2 ^ f.fracBits = k * 2 ^ f.fracBits + 2 ^ f.fracBits := by ring
      have : 2 ^ f.fracBits = sig - 2 ^ f.fracBits ∨ sig < 2 * 2 ^ f.fracBits := by omega
      omega
    · intro hx
      exfalso
      have h1 := h.below
      have h2 : (2 : ℚ) ^ (f.minLsb + (k : Int)) * 2 ≤ 2 ^ (f.minLsb + (K : Int)) := by
        have : (2 : ℚ) ^ (f.minLsb + (k : Int)) * 2 = 2 ^ (f.minLsb + (k : Int) + 1) := by
            rw [two_pow_split _ 1, zpow_one]
        rw [this]
        exact zpow_le_zpow_right₀ (by norm_num) (by omega)
      rw [pow_succ] at h1
      generalize (2 : ℚ) ^ (f.minLsb + (k : Int)) = U at *
      generalize (2 : ℚ) ^ (f.minLsb + (K : Int)) = V at *
      generalize (2 : ℚ) ^ f.fracBits = B at *
      nlinarith
  · subst hk
    rw [htop]
    constructor
    · intro ht
      have hs : sig = 2 * 2 ^ f.fracBits := by omega
      have h1 := h.low
      have hs' : (sig : ℚ) = 2 * 2 ^ f.fracBits := by rw [hs]; push_cast; rfl
      rw [hs'] at h1
      linarith
    · intro hx
      have h1 := h.high
      have h2 : (4 * 2 ^ f.fracBits - 1) * (2 : ℚ) ^ (f.minLsb + (k : Int)) ≤ (2 * sig + 1) * 2 ^ (f.minLsb + (k : Int)) := by
        linarith
      have h3 := le_of_mul_le_mul_right h2 hp
      have h4 : 2 * 2 ^ f.fracBits ≤ sig + 1 := by
        have : (2 * 2 ^ f.fracBits : ℚ) ≤ sig + 1 := by linarith
        exact_mod_cast this
      by_contra hc
      have h5 : sig + 1 = 2 * 2 ^ f.fracBits := by omega
      have h6 : (sig : ℚ) = 2 * 2 ^ f.fracBits - 1 := by
        have : (sig : ℚ) + 1 = 2 * 2 ^ f.fracBits := by exact_mod_cast h5
        linarith
      have := h.even (.inr (le_antisymm h1 (by rw [h6]; linarith)))
      omega
  · constructor
    · intro _
      rcases h.above with h0 | h0
      · omega
      · have h2 : (2 : ℚ) ^ (f.minLsb + (K : Int)) * 2 ≤ 2 ^ (f.minLsb + (k : Int)) := by
          have : (2 : ℚ) ^ (f.minLsb + (K : Int)) * 2 = 2 ^ (f.minLsb + (K : Int) + 1) := by
            rw [two_pow_split _ 1, zpow_one]
          rw [this]
          exact zpow_le_zpow_right₀ (by norm_num) (by omega)
        generalize (2 : ℚ) ^ (f.minLsb + (k : Int)) = U at *
        generalize (2 : ℚ) ^ (f.minLsb + (K : Int)) = V at *
        generalize (2 : ℚ) ^ f.fracBits = B at *
        nlinarith
    · intro _
      rw [htop]
      have h1 := h.sig_ge.resolve_left (by omega)
      have : (K + 1) * 2 ^ f.fracBits ≤ k * 2 ^ f.fracBits := Nat.mul_le_mul_right _ hk
      have e : (K + 1) * 2 ^ f.fracBits = K * 2 ^ f.fracBits + 2 ^ f.fracBits := by ring
      omega

/-! ### Rounding, seen from a format's bits -/

/-- The sign of a number as a factor. -/
def sgn (neg : Bool) : ℚ := if neg then -1 else 1

theorem sgn_abs (neg : Bool) : |sgn neg| = 1 := by cases neg <;> simp [sgn]

theorem sgn_mul_sgn (neg : Bool) : sgn neg * sgn neg = 1 := by cases neg <;> norm_num [sgn]

theorem sgn_xor (a b : Bool) : sgn (a ^^ b) = sgn a * sgn b := by cases a <;> cases b <;> norm_num [sgn]

theorem sgn_not (a : Bool) : sgn (!a) = -sgn a := by cases a <;> norm_num [sgn]

/-- The bits `r` of the format `F` have the sign `neg` and the magnitude bits `c` of `f`. -/
structure Codes (F : NumberFormat) (f : FpFormat) {w : Nat} (r : BitVec w) (neg : Bool) (c : Nat) : Prop where
  sign : F.sign r = neg
  infinite : c = f.top → F.Infinite r
  finite : c < f.top → F.Finite r
  value : c < f.top → F.value r = sgn neg * f.magOf c
  significand : c < f.top → F.significand r = f.sigOf c

/-- Every finite pattern of `F` has magnitude bits of `f`. -/
structure Reads (F : NumberFormat) (f : FpFormat) (w : Nat) : Prop where
  wide : f.Wide
  limit : F.limit = f.limitOf
  finite : ∀ v : BitVec w, F.Finite v → ∃ c, c < f.top ∧ Codes F f v (F.sign v) c

/-- Bits with the magnitude that `RoundsAt` names are correctly rounded. -/
theorem rounds_of_roundsAt {F : NumberFormat} {w : Nat} (hF : Reads F f w) {r : BitVec w} {neg : Bool} {x : ℚ}
    {k sig : Nat} (hx : 0 ≤ x) (h : RoundsAt f x k sig) (hr : Codes F f r neg (min (k * 2 ^ f.fracBits + sig) f.top)) :
    F.Rounds (sgn neg * x) r := by
  have habs : |sgn neg * x| = x := by rw [abs_mul, sgn_abs, one_mul, abs_of_nonneg hx]
  have hov := h.overflow_iff hF.wide
  refine ⟨fun hne => ?_, fun hl => ?_, fun hl => ?_⟩
  · rw [hr.sign]
    have : 0 < x := lt_of_le_of_ne hx (fun h0 => hne (by rw [← h0, mul_zero]))
    cases neg <;> simp [sgn, this, hx]
  · rw [habs, hF.limit] at hl
    exact hr.infinite (min_eq_right (hov.2 hl))
  · rw [habs, hF.limit] at hl
    have hc : k * 2 ^ f.fracBits + sig < f.top := not_le.1 fun hc => absurd (hov.1 hc) (not_le.2 hl)
    rw [min_eq_left hc.le] at hr
    refine ⟨hr.finite hc, fun c hcF => ?_⟩
    rw [hr.value hc, hr.significand hc]
    obtain ⟨d, hd, hcd⟩ := hF.finite c hcF
    rw [hcd.value hd]
    have hpos := f.magOf_nonneg d
    have e1 : |sgn neg * f.magOf (k * 2 ^ f.fracBits + sig) - sgn neg * x| = |f.magOf (k * 2 ^ f.fracBits + sig) - x| := by
      rw [← mul_sub, abs_mul, sgn_abs, one_mul]
    rw [e1]
    by_cases hs : F.sign c = neg
    · rw [hs, ← mul_sub, abs_mul, sgn_abs, one_mul]
      obtain ⟨a, b⟩ := h.nearest hF.wide.frac d
      exact ⟨a, fun he hne => b he fun h0 => hne (by rw [h0])⟩
    · have hs' : F.sign c = !neg := by revert hs; cases F.sign c <;> cases neg <;> simp
      obtain ⟨a, b⟩ := h.nearest hF.wide.frac 0
      rw [f.magOf_zero, zero_sub, abs_neg, abs_of_nonneg hx] at a b
      have e2 : |sgn (!neg) * f.magOf d - sgn neg * x| = f.magOf d + x := by
        rw [sgn_not, show -sgn neg * f.magOf d - sgn neg * x = -(sgn neg * (f.magOf d + x)) by ring, abs_neg, abs_mul,
          sgn_abs, one_mul, abs_of_nonneg (by linarith)]
      rw [hs', e2]
      refine ⟨by linarith, fun he hne => b (by linarith) fun h0 => hne ?_⟩
      have : f.magOf d = 0 := by linarith
      rw [this, ← h0]; simp

end Sys2Proof.Machine
end

