-- ==== Sys2Proof/Laws/Float.lean ====
section
/-! SUPPORT. The bits of the floating-point formats as numbers: what `unpack` reads, what `pack` writes, and the exact sums, products,
quotients, orders and integers of the default record FP (spec/43_float_move.md R221, spec/44_float_arith.md R240, R241, R251, R254). -/

namespace Sys2Proof.Machine

variable {f : FpFormat}

/-! ### The bits of the four formats -/

/-- The format with an implicit leading bit. -/
def FpFormat.shape (f : FpFormat) : NumberFormat := ⟨f.expBits, f.fracBits, false⟩

theorem FpFormat.shape_topExp (f : FpFormat) : f.shape.topExp = f.maxExp := rfl

theorem FpFormat.shape_excess (f : FpFormat) : f.shape.excess = (f.bias : Int) := by
  have := Nat.two_pow_pos (f.expBits - 1)
  show ((2 : Int) ^ (f.expBits - 1) - 1) = ((2 ^ (f.expBits - 1) - 1 : Nat) : Int)
  push_cast [Nat.cast_sub this]
  rfl

theorem FpFormat.shape_limit (f : FpFormat) : f.shape.limit = f.limitOf := by
  unfold NumberFormat.limit FpFormat.limitOf
  rw [f.shape_excess]
  rfl

theorem FpFormat.top_lt (f : FpFormat) : f.top < 2 ^ (f.expBits + f.fracBits) := by
  unfold FpFormat.top FpFormat.maxExp
  rw [pow_add]
  have := Nat.two_pow_pos f.expBits
  exact Nat.mul_lt_mul_of_pos_right (by omega) (Nat.two_pow_pos _)

theorem div_lt_top {c : Nat} (h : c < f.top) : c / 2 ^ f.fracBits < f.maxExp :=
  Nat.div_lt_of_lt_mul (by rw [Nat.mul_comm]; exact h)

theorem top_div (f : FpFormat) : f.top / 2 ^ f.fracBits = f.maxExp ∧ f.top % 2 ^ f.fracBits = 0 := by
  unfold FpFormat.top
  exact ⟨Nat.mul_div_cancel _ (Nat.two_pow_pos _), Nat.mul_mod_left _ _⟩

/-- The exponent of a finite pattern, from the exponent field. -/
theorem place_eq (f : FpFormat) (q : Nat) :
    ((max q 1 : Nat) : Int) - (f.bias : Int) - (f.fracBits : Int) = f.minLsb + ((q - 1 : Nat) : Int) := by
  unfold FpFormat.minLsb
  omega

theorem codes_of_fields {w : Nat} {v : BitVec w} {s : Bool} {c : Nat} (hs : f.shape.sign v = s)
    (he : f.shape.expField v = c / 2 ^ f.fracBits) (hm : f.shape.sigField v = c % 2 ^ f.fracBits) :
    Codes f.shape f v s c := by
  have hsig : f.shape.significand v = f.sigOf c := by
    unfold NumberFormat.significand FpFormat.sigOf
    rw [he, hm]
    by_cases h : c / 2 ^ f.fracBits = 0
    · simp [h, FpFormat.shape]
    · simp [h, FpFormat.shape, Nat.add_comm]
  refine ⟨hs, ?_, fun h => ?_, fun h => ?_, fun _ => hsig⟩
  · rintro rfl
    rw [(top_div f).1] at he
    rw [(top_div f).2] at hm
    exact ⟨he, hm⟩
  · exact ⟨by rw [he, f.shape_topExp]; exact (div_lt_top h).ne, fun h => by simp [FpFormat.shape] at h⟩
  · unfold NumberFormat.value
    rw [hs, hsig, he, f.shape_excess]
    show sgn s * _ * _ = _
    rw [show f.shape.places = f.fracBits from rfl, place_eq, FpFormat.magOf, FpFormat.placeOf, mul_assoc]

theorem shape_fields (f : FpFormat) {w : Nat} (v : BitVec w) :
    f.shape.expField v = v.toNat % 2 ^ (f.expBits + f.fracBits) / 2 ^ f.fracBits ∧
      f.shape.sigField v = v.toNat % 2 ^ (f.expBits + f.fracBits) % 2 ^ f.fracBits := by
  constructor
  · rw [Nat.add_comm, pow_add, Nat.mod_mul_right_div_self]; rfl
  · rw [Nat.mod_mod_of_dvd _ (pow_dvd_pow 2 (Nat.le_add_left _ _))]; rfl

theorem reads_shape (hw : f.Wide) (w : Nat) : Reads f.shape f w := by
  refine ⟨hw, f.shape_limit, fun v hv => ⟨v.toNat % 2 ^ (f.expBits + f.fracBits), ?_,
    codes_of_fields rfl (shape_fields f v).1 (shape_fields f v).2⟩⟩
  have h1 := hv.1
  rw [(shape_fields f v).1, f.shape_topExp] at h1
  have h2 : v.toNat % 2 ^ (f.expBits + f.fracBits) < 2 ^ f.expBits * 2 ^ f.fracBits := by
    rw [← pow_add]; exact Nat.mod_lt _ (Nat.two_pow_pos _)
  have h3 := Nat.div_lt_of_lt_mul (Nat.mul_comm _ _ ▸ h2)
  unfold FpFormat.top
  have h4 : v.toNat % 2 ^ (f.expBits + f.fracBits) / 2 ^ f.fracBits < f.maxExp := by
    unfold FpFormat.maxExp at h1 ⊢; omega
  exact (Nat.div_lt_iff_lt_mul (Nat.two_pow_pos _)).1 h4

/-- A pattern built from a sign and magnitude bits, possibly within a wider word. -/
theorem codes_withSign {w : Nat} {r : BitVec w} {neg : Bool} {c : Nat} (hc : c ≤ f.top)
    (hr : r.toNat = c + if neg then 2 ^ (f.expBits + f.fracBits) else 0) : Codes f.shape f r neg c := by
  have hlt : c < 2 ^ (f.expBits + f.fracBits) := lt_of_le_of_lt hc f.top_lt
  have hmod : r.toNat % 2 ^ (f.expBits + f.fracBits) = c := by
    rw [hr]; cases neg <;> simp [Nat.mod_eq_of_lt hlt]
  obtain ⟨h1, h2⟩ := shape_fields f r
  rw [hmod] at h1 h2
  refine codes_of_fields ?_ h1 h2
  show (r.toNat / 2 ^ (f.expBits + f.fracBits) % 2 == 1) = neg
  rw [hr]
  cases neg
  · simp [Nat.div_eq_of_lt hlt]
  · rw [if_pos rfl, Nat.add_div_right _ (Nat.two_pow_pos _), Nat.div_eq_of_lt hlt]; rfl

theorem withSign_toNat {w : Nat} (neg : Bool) {c : Nat} (hw : 0 < w) (hc : c < 2 ^ (w - 1)) :
    (withSign w neg c).toNat = c + if neg then 2 ^ (w - 1) else 0 := by
  have : 2 ^ w = 2 * 2 ^ (w - 1) := by rw [← pow_succ', Nat.sub_add_cancel hw]
  rw [withSign, BitVec.toNat_ofNat, Nat.mod_eq_of_lt]
  split <;> omega

/-- What `unpack` reads. -/
theorem unpack_spec (f : FpFormat) {w : Nat} (v : BitVec w) :
    (f.shape.NaN v ∧ unpack f v.toNat = .nan) ∨
    (f.shape.Infinite v ∧ unpack f v.toNat = .inf (f.shape.sign v)) ∨
    (f.shape.Finite v ∧ unpack f v.toNat = .fin (f.shape.sign v) (f.shape.significand v)
      (f.minLsb + ((f.shape.expField v - 1 : Nat) : Int))) := by
  unfold unpack
  by_cases he : f.shape.expField v = f.maxExp
  · have he' : v.toNat / 2 ^ f.fracBits % 2 ^ f.expBits = f.maxExp := he
    by_cases hm : f.shape.sigField v = 0
    · have hm' : v.toNat % 2 ^ f.fracBits = 0 := hm
      refine .inr (.inl ⟨⟨he, hm⟩, ?_⟩)
      simp only [he', hm', if_true]; rfl
    · have hm' : ¬ v.toNat % 2 ^ f.fracBits = 0 := hm
      refine .inl ⟨⟨he, Nat.pos_of_ne_zero hm⟩, ?_⟩
      simp only [he', hm', if_true, if_false]
  · have he' : ¬ v.toNat / 2 ^ f.fracBits % 2 ^ f.expBits = f.maxExp := he
    refine .inr (.inr ⟨⟨he, fun h => by simp [FpFormat.shape] at h⟩, ?_⟩)
    simp only [he', if_false]
    by_cases h0 : f.shape.expField v = 0
    · have h0' : v.toNat / 2 ^ f.fracBits % 2 ^ f.expBits = 0 := h0
      have hs : f.shape.significand v = f.shape.sigField v := if_neg fun h => h.2 h0
      rw [if_pos h0', hs, h0]
      simp
      exact ⟨rfl, rfl⟩
    · have h0' : ¬ v.toNat / 2 ^ f.fracBits % 2 ^ f.expBits = 0 := h0
      have hs : f.shape.significand v = 2 ^ f.fracBits + f.shape.sigField v := if_pos ⟨rfl, h0⟩
      rw [if_neg h0', hs]
      rfl

/-- The number a datum stands for. -/
def FpNum.toRat : FpNum → ℚ
  | .fin s m e => sgn s * m * 2 ^ e
  | _ => 0

theorem shape_value (f : FpFormat) {w : Nat} (v : BitVec w) :
    f.shape.value v = sgn (f.shape.sign v) * f.shape.significand v * 2 ^ (f.minLsb + ((f.shape.expField v - 1 : Nat) : Int)) := by
  unfold NumberFormat.value
  rw [f.shape_excess, show f.shape.places = f.fracBits from rfl, place_eq]
  rfl

theorem shape_significand_lt (f : FpFormat) {w : Nat} (v : BitVec w) : f.shape.significand v < 2 ^ (f.fracBits + 1) := by
  have h : f.shape.sigField v < 2 ^ f.fracBits := Nat.mod_lt _ (Nat.two_pow_pos _)
  have h2 : f.shape.significand v = f.shape.sigField v ∨ f.shape.significand v = 2 ^ f.fracBits + f.shape.sigField v := by
    unfold NumberFormat.significand
    split
    · exact .inr rfl
    · exact .inl rfl
  rw [pow_succ]
  rcases h2 with h2 | h2 <;> rw [h2] <;> generalize 2 ^ f.fracBits = B at * <;> omega

theorem finite_not_infinite {F : NumberFormat} {w : Nat} {v : BitVec w} (h : F.Finite v) : ¬ F.Infinite v ∧ ¬ F.NaN v :=
  ⟨fun h' => h.1 h'.1, fun h' => h.1 h'.1⟩
theorem infinite_not_nan {F : NumberFormat} {w : Nat} {v : BitVec w} (h : F.Infinite v) : ¬ F.NaN v :=
  fun h' => by have := h.2; have := h'.2; omega

/-! ### Writing a datum -/

theorem roundMagnitude_le (f : FpFormat) (m : Nat) (e : Int) : roundMagnitude f m e ≤ f.top := by
  obtain ⟨k, sig, h, -⟩ := roundMagnitude_rounds f m e
  rw [h]
  exact min_le_right _ _

/-- The bits of a number are correctly rounded and have its sign, in any format and any pattern with those magnitude
bits. -/
theorem rounds_of_codes {F : NumberFormat} {w : Nat} (hF : Reads F f w) {r : BitVec w} {neg : Bool} {m : Nat} {e : Int}
    (hr : Codes F f r neg (roundMagnitude f m e)) : F.Rounds (sgn neg * (m * 2 ^ e)) r := by
  obtain ⟨k, sig, h1, h2⟩ := roundMagnitude_rounds f m e
  rw [h1] at hr
  exact rounds_of_roundsAt hF (mul_nonneg (Nat.cast_nonneg _) (two_pow_pos e).le) h2 hr

/-- A number that the format has is kept exactly. -/
theorem exact_of_codes {F : NumberFormat} {w : Nat} (hw : f.Wide) {r : BitVec w} {neg : Bool} {m : Nat} {e : Int}
    (hm : m < 2 ^ (f.fracBits + 1)) (he : f.minLsb ≤ e) (hx : (m : ℚ) * 2 ^ e < 2 ^ ((f.bias : Int) + 1))
    (hr : Codes F f r neg (roundMagnitude f m e)) : F.Finite r ∧ F.value r = sgn neg * (m * 2 ^ e) := by
  rcases Nat.eq_zero_or_pos m with rfl | hpos
  · have h0 : roundMagnitude f 0 e = 0 := rfl
    rw [h0] at hr
    have htop : 0 < f.top := by
      obtain ⟨h1, h2⟩ := hw.maxExp_eq
      unfold FpFormat.top
      exact Nat.mul_pos (by omega) (Nat.two_pow_pos _)
    exact ⟨hr.finite htop, by rw [hr.value htop]; simp⟩
  · obtain ⟨k, sig, h1, h2, h3, h4⟩ := roundMagnitude_spec f (Nat.pos_iff_ne_zero.1 hpos) e
    have hlog : m.log2 ≤ f.fracBits := by
      have := (Nat.log2_lt (Nat.pos_iff_ne_zero.1 hpos)).2 hm
      omega
    have hex := h3 (by omega)
    have hc : k * 2 ^ f.fracBits + sig < f.top := by
      by_contra hge
      have hlim := (h2.overflow_iff hw).1 (not_lt.1 hge)
      obtain ⟨hmax, hbias⟩ := hw.maxExp_eq
      obtain ⟨K, hK⟩ : ∃ K : Nat, f.minLsb + (K : Int) = (f.bias : Int) - f.fracBits :=
        ⟨2 * f.bias - 1, by unfold FpFormat.minLsb; omega⟩
      have hU : f.limitOf * 2 = (4 * 2 ^ f.fracBits - 1) * 2 ^ (f.minLsb + (K : Int)) := by
        unfold FpFormat.limitOf
        rw [hK, sub_eq_add_neg (f.bias : Int), two_pow_split, show -(f.fracBits : Int) - 1 = -(f.fracBits : Int) + (-1) by ring,
          two_pow_split, zpow_neg, zpow_natCast]
        have : (2 : ℚ) ^ f.fracBits ≠ 0 := by positivity
        field_simp
        norm_num
        ring
      have hend : (2 : ℚ) ^ ((f.bias : Int) + 1) = 2 * 2 ^ f.fracBits * 2 ^ (f.minLsb + (K : Int)) := by
        rw [hK, show (f.bias : Int) + 1 = 1 + ((f.fracBits : Int) + ((f.bias : Int) - f.fracBits)) by ring, two_pow_split,
          two_pow_split (f.fracBits : Int), zpow_one, zpow_natCast]
        ring
      have hp := two_pow_pos (f.minLsb + (K : Int))
      rcases lt_or_ge k K with hk | hk
      · have hb := h2.below
        have hle : (2 : ℚ) ^ (f.minLsb + (k : Int)) * 2 ≤ 2 ^ (f.minLsb + (K : Int)) := by
          have : (2 : ℚ) ^ (f.minLsb + (k : Int)) * 2 = 2 ^ (f.minLsb + (k : Int) + 1) := by
            rw [two_pow_split _ 1, zpow_one]
          rw [this]
          exact zpow_le_zpow_right₀ (by norm_num) (by omega)
        have hB : (1 : ℚ) ≤ 2 ^ f.fracBits := one_le_pow₀ (by norm_num)
        rw [pow_succ] at hb
        generalize (2 : ℚ) ^ (f.minLsb + (k : Int)) = U at *
        generalize (2 : ℚ) ^ (f.minLsb + (K : Int)) = V at *
        generalize (2 : ℚ) ^ f.fracBits = B at *
        nlinarith
      · have hmul : (2 : ℚ) ^ (f.minLsb + (k : Int)) = (2 ^ (k - K) : Nat) * 2 ^ (f.minLsb + (K : Int)) := by
          rw [← two_pow_nat, ← two_pow_split]; congr 1; omega
        rw [hex, hmul] at hx hlim
        rw [hend] at hx
        have h5 : (2 * (sig * 2 ^ (k - K) : Nat) : ℚ) < (4 * 2 ^ f.fracBits : Nat) := by
          have : (sig * 2 ^ (k - K) : Nat) * (2 : ℚ) ^ (f.minLsb + (K : Int)) < 2 * 2 ^ f.fracBits * 2 ^ (f.minLsb + (K : Int)) := by
            push_cast at hx ⊢; linarith
          have := lt_of_mul_lt_mul_right this hp.le
          push_cast at this ⊢; linarith
        have h6 : ((4 * 2 ^ f.fracBits : Nat) : ℚ) - 1 ≤ 2 * (sig * 2 ^ (k - K) : Nat) := by
          have : (4 * 2 ^ f.fracBits - 1) * (2 : ℚ) ^ (f.minLsb + (K : Int)) ≤ (2 * (sig * 2 ^ (k - K) : Nat)) * 2 ^ (f.minLsb + (K : Int)) := by
            push_cast at hlim ⊢; linarith
          have := le_of_mul_le_mul_right this hp
          push_cast at this ⊢; linarith
        have h7 : 2 * (sig * 2 ^ (k - K)) < 4 * 2 ^ f.fracBits := by exact_mod_cast h5
        have h8 : 4 * 2 ^ f.fracBits ≤ 2 * (sig * 2 ^ (k - K)) + 1 := by
          have : ((4 * 2 ^ f.fracBits : Nat) : ℚ) ≤ 2 * (sig * 2 ^ (k - K) : Nat) + 1 := by linarith
          exact_mod_cast this
        omega
    rw [h1, min_eq_left hc.le] at hr
    exact ⟨hr.finite hc, by rw [hr.value hc, h2.magOf, hex]⟩

/-- The bits of a signed magnitude within a word of any width. -/
theorem codes_pack {w w' : Nat} (hw : w = f.expBits + f.fracBits + 1) {r : BitVec w'} {neg : Bool} {c : Nat}
    (hc : c ≤ f.top) (hr : r.toNat = (withSign w neg c).toNat) : Codes f.shape f r neg c := by
  subst hw
  have := f.top_lt
  rw [withSign_toNat neg (by omega) (show c < 2 ^ (f.expBits + f.fracBits + 1 - 1) by simpa using by omega)] at hr
  exact codes_withSign hc hr

/-! ### The 80-bit format -/

theorem codes_ext_of_fields {w : Nat} {v : BitVec w} {s : Bool} {c : Nat} (hs : extended.sign v = s)
    (he : extended.expField v = c / 2 ^ 63)
    (hm : extended.sigField v = c % 2 ^ 63 + if c / 2 ^ 63 = 0 then 0 else 2 ^ 63) :
    Codes extended extended80 v s c := by
  have hsig : extended.significand v = extended80.sigOf c := by
    unfold NumberFormat.significand
    rw [if_neg (by simp [extended]), hm]
    rfl
  refine ⟨hs, ?_, fun h => ?_, fun h => ?_, fun _ => hsig⟩
  · rintro rfl
    exact ⟨he, hm⟩
  · have h1 : c / 2 ^ 63 < 32767 := div_lt_top h
    refine ⟨by rw [he]; exact h1.ne, fun _ => ?_⟩
    rw [he, hm]
    show _ ↔ _ < 2 ^ 63
    split <;> omega
  · unfold NumberFormat.value
    rw [hs, hsig, he, show extended.excess = (extended80.bias : Int) from rfl,
      show (extended.places : Int) = (extended80.fracBits : Int) from rfl, place_eq, FpFormat.magOf, FpFormat.placeOf, ← mul_assoc]
    rfl

theorem wide_formats : binary32.Wide ∧ binary64.Wide ∧ extended80.Wide ∧ binary128.Wide :=
  ⟨⟨by decide, by decide⟩, ⟨by decide, by decide⟩, ⟨by decide, by decide⟩, ⟨by decide, by decide⟩⟩

theorem extended_sigField_lt {w : Nat} (v : BitVec w) : extended.sigField v < 2 ^ 64 := Nat.mod_lt _ (Nat.two_pow_pos _)

theorem extended_expField_lt {w : Nat} (v : BitVec w) : extended.expField v < 2 ^ 15 := Nat.mod_lt _ (Nat.two_pow_pos _)

/-- Magnitude bits of the 80-bit format, less the integer bit. -/
def code80 {w : Nat} (v : BitVec w) : Nat := extended.expField v * 2 ^ 63 + extended.sigField v % 2 ^ 63

theorem codes_ext {w : Nat} {v : BitVec w} (hv : extended.Regular v) :
    Codes extended extended80 v (extended.sign v) (code80 v) := by
  have h1 : extended.expField v = 0 ↔ extended.sigField v < 2 ^ 63 := hv rfl
  have h2 := extended_sigField_lt v
  refine codes_ext_of_fields rfl ?_ ?_ <;> unfold code80
  · omega
  · split <;> omega

theorem reads_ext (w : Nat) : Reads extended extended80 w := by
  refine ⟨wide_formats.2.2.1, extended80.shape_limit, fun v hv => ⟨code80 v, ?_, codes_ext hv.2⟩⟩
  have h1 : extended.expField v ≠ 32767 := hv.1
  have h2 := extended_expField_lt v
  show _ < 32767 * 2 ^ 63
  unfold code80
  omega

theorem extend80_toNat (neg : Bool) {c : Nat} (hc : c ≤ extended80.top) :
    (extend80 neg c).toNat =
      c / 2 ^ 63 * 2 ^ 64 + (if c / 2 ^ 63 = 0 then 0 else 2 ^ 63) + c % 2 ^ 63 + if neg then 2 ^ 79 else 0 := by
  have hc' : c ≤ 32767 * 2 ^ 63 := hc
  have : c / 2 ^ 63 ≤ 32767 := by omega
  rw [extend80, withSign_toNat neg (by omega)]
  split <;> omega

theorem codes_extend80 {w : Nat} {r : BitVec w} {neg : Bool} {c : Nat} (hc : c ≤ extended80.top)
    (hr : r.toNat = (extend80 neg c).toNat) : Codes extended extended80 r neg c := by
  rw [extend80_toNat neg hc] at hr
  have hc' : c ≤ 32767 * 2 ^ 63 := hc
  have h1 : c / 2 ^ 63 ≤ 32767 := by omega
  refine codes_ext_of_fields ?_ ?_ ?_
  · show (r.toNat / 2 ^ 79 % 2 == 1) = neg
    rw [hr]
    cases neg
    · have : (c / 2 ^ 63 * 2 ^ 64 + (if c / 2 ^ 63 = 0 then 0 else 2 ^ 63) + c % 2 ^ 63 + 0) / 2 ^ 79 = 0 := by
        split <;> omega
      simp only [Bool.false_eq_true, if_false, this]; rfl
    · have : (c / 2 ^ 63 * 2 ^ 64 + (if c / 2 ^ 63 = 0 then 0 else 2 ^ 63) + c % 2 ^ 63 + 2 ^ 79) / 2 ^ 79 = 1 := by
        split <;> omega
      simp only [if_true, this]; rfl
  · show r.toNat / 2 ^ 64 % 2 ^ 15 = _
    rw [hr]; clear hr; split_ifs <;> omega
  · show r.toNat % 2 ^ 64 = _
    rw [hr]; clear hr; split_ifs <;> omega

/-! ### Some NaN -/

theorem nanFraction_spec (n : Nat) (d : Word) (hn : 1 ≤ n) : 1 ≤ nanFraction n d ∧ nanFraction n d < 2 ^ n := by
  have h1 := Nat.mod_lt d.toNat (Nat.two_pow_pos n)
  have h2 : 2 ≤ 2 ^ n := by
    calc 2 = 2 ^ 1 := rfl
      _ ≤ 2 ^ n := Nat.pow_le_pow_right (by norm_num) hn
  unfold nanFraction
  split <;> omega

/-- The drawn NaN of a format with an implicit leading bit is a NaN, in any word that holds it. -/
theorem nan_someNan (hw : f.Wide) {w w' : Nat} (hwid : w = f.expBits + f.fracBits + 1) (d : Word) {r : BitVec w'}
    (hr : r.toNat = (someNan f w d).toNat) : f.shape.NaN r := by
  subst hwid
  obtain ⟨h1, h2⟩ := nanFraction_spec f.fracBits d hw.frac
  have hp := Nat.two_pow_pos f.expBits
  have hlt : f.maxExp * 2 ^ f.fracBits + nanFraction f.fracBits d < 2 ^ (f.expBits + f.fracBits) := by
    unfold FpFormat.maxExp
    rw [pow_add]
    obtain ⟨k, hk⟩ : ∃ k, 2 ^ f.expBits = k + 1 := ⟨2 ^ f.expBits - 1, by omega⟩
    rw [hk, Nat.add_sub_cancel, Nat.succ_mul]
    omega
  rw [someNan, withSign_toNat _ (by omega) (by simpa using hlt)] at hr
  have hmod : r.toNat % 2 ^ (f.expBits + f.fracBits) = f.maxExp * 2 ^ f.fracBits + nanFraction f.fracBits d := by
    rw [hr, Nat.add_sub_cancel]
    split
    · rw [Nat.add_mod_right, Nat.mod_eq_of_lt hlt]
    · rw [Nat.add_zero, Nat.mod_eq_of_lt hlt]
  obtain ⟨h3, h4⟩ := shape_fields f r
  rw [hmod] at h3 h4
  constructor
  · rw [h3, Nat.add_comm, Nat.add_mul_div_right _ _ (Nat.two_pow_pos _), Nat.div_eq_of_lt h2, Nat.zero_add]
    rfl
  · rw [h4, Nat.add_comm, Nat.add_mul_mod_self_right, Nat.mod_eq_of_lt h2]
    exact h1

theorem nan_someNan80 (d : Word) {w : Nat} {r : BitVec w} (hr : r.toNat = (someNan80 d).toNat) : extended.NaN r := by
  obtain ⟨h1, h2⟩ := nanFraction_spec 63 d (by omega)
  have hm : extended80.maxExp = 32767 := rfl
  rw [someNan80, extend80, hm] at hr
  generalize nanFraction 63 d = n at *
  have e1 : (32767 * 2 ^ 63 + n) / 2 ^ 63 = 32767 := by omega
  have e2 : (32767 * 2 ^ 63 + n) % 2 ^ 63 = n := by omega
  rw [e1, e2, withSign_toNat _ (by omega) (by norm_num; omega)] at hr
  have h3 : r.toNat % 2 ^ 79 = 32767 * 2 ^ 64 + 2 ^ 63 + n := by
    rw [hr, if_neg (by omega)]; clear hr; split_ifs <;> omega
  constructor
  · show r.toNat / 2 ^ 64 % 2 ^ 15 = 32767
    omega
  · show 2 ^ 63 < r.toNat % 2 ^ 64
    omega

/-- What stands in a register or a cell after a floating-point answer is one of the values the answer admits. -/
theorem admits_fpBits {F : NumberFormat} {w : Nat} {nan : Word → BitVec w} (hn : ∀ d, F.NaN (nan d)) (s : State)
    (v : FpVal w) : FpAdmits F v (fpBits nan s v) := by
  cases v with
  | bits v => rfl
  | anyNan => exact hn _
  | any => trivial

theorem fpAfter_draws {w : Nat} (s : State) (v : FpVal w) : (fpAfter s v).draws = s.draws + fpDraws v := by
  cases v <;> rfl

/-! ### Exact arithmetic -/

theorem FpNum.toRat_fin (s : Bool) (m : Nat) (e : Int) : (FpNum.fin s m e).toRat = sgn s * m * 2 ^ e := rfl

theorem signed_cast (s : Bool) (m : Nat) : ((signed s m : Int) : ℚ) = sgn s * m := by
  cases s <;> simp [signed, sgn]

theorem signed_natAbs (z : Int) : signed (decide (z < 0)) z.natAbs = z := by
  unfold signed
  split
  · next h => have := of_decide_eq_true h; omega
  · next h => have : ¬ z < 0 := fun hz => h (decide_eq_true hz); omega

/-- The aligned numerators stand for the two numbers over one place. -/
theorem aligned_spec (s : Bool) (m : Nat) (e : Int) (t : Bool) (n : Nat) (g : Int) :
    ((aligned s m e t n g).1 : ℚ) * 2 ^ (aligned s m e t n g).2.2 = (FpNum.fin s m e).toRat ∧
      ((aligned s m e t n g).2.1 : ℚ) * 2 ^ (aligned s m e t n g).2.2 = (FpNum.fin t n g).toRat := by
  have key : ∀ (s : Bool) (m : Nat) (e k : Int), k ≤ e →
      ((signed s (m * 2 ^ (e - k).toNat) : Int) : ℚ) * 2 ^ k = (FpNum.fin s m e).toRat := by
    intro s m e k h
    rw [signed_cast, FpNum.toRat]
    conv_rhs => rw [show e = ((e - k).toNat : Int) + k by omega, two_pow_split, two_pow_nat]
    push_cast; ring
  exact ⟨key s m e _ (min_le_left _ _), key t n g _ (min_le_right _ _)⟩

/-- The sum of two numbers: exact, and -0 only for two negative terms. -/
theorem addNum_fin (s : Bool) (m : Nat) (e : Int) (t : Bool) (n : Nat) (g : Int) :
    ∃ s' m' e', addNum (.fin s m e) (.fin t n g) = .fin s' m' e' ∧
      (FpNum.fin s' m' e').toRat = (FpNum.fin s m e).toRat + (FpNum.fin t n g).toRat ∧
      ((FpNum.fin s m e).toRat + (FpNum.fin t n g).toRat = 0 → s' = (s && t)) := by
  obtain ⟨h1, h2⟩ := aligned_spec s m e t n g
  generalize ha : aligned s m e t n g = q at *
  obtain ⟨p, q, k⟩ := q
  dsimp only at h1 h2
  refine ⟨if p + q = 0 then s && t else decide (p + q < 0), (p + q).natAbs, k, by simp only [addNum, ha], ?_, ?_⟩ <;>
    rw [← h1, ← h2, ← add_mul]
  · rw [FpNum.toRat, ← signed_cast]
    congr 1
    rw [← Int.cast_add]
    congr 1
    split
    · next h => rw [h]; simp [signed]
    · exact signed_natAbs _
  · intro h0
    have : ((p + q : Int) : ℚ) = 0 := by
      push_cast
      exact (mul_eq_zero.1 h0).resolve_right (two_pow_pos k).ne'
    have : p + q = 0 := by exact_mod_cast this
    rw [if_pos this]

theorem negNum_toRat (x : FpNum) : (negNum x).toRat = -x.toRat := by
  cases x with
  | nan => simp [negNum, FpNum.toRat]
  | inf s => simp [negNum, FpNum.toRat]
  | fin s m e => rw [negNum, FpNum.toRat, FpNum.toRat, sgn_not]; ring

theorem mulNum_fin (s : Bool) (m : Nat) (e : Int) (t : Bool) (n : Nat) (g : Int) :
    mulNum (.fin s m e) (.fin t n g) = .fin (s ^^ t) (m * n) (e + g) ∧
      (FpNum.fin (s ^^ t) (m * n) (e + g)).toRat = (FpNum.fin s m e).toRat * (FpNum.fin t n g).toRat := by
  refine ⟨rfl, ?_⟩
  simp only [FpNum.toRat]
  rw [sgn_xor, two_pow_split]
  push_cast; ring

theorem toRat_eq_zero (s : Bool) (m : Nat) (e : Int) : (FpNum.fin s m e).toRat = 0 ↔ m = 0 := by
  simp only [FpNum.toRat]
  have h1 := (two_pow_pos e).ne'
  have h2 : sgn s ≠ 0 := by cases s <;> norm_num [sgn]
  simp [h1, h2]

/-- Integers in the place of a quotient: twice the whole quotient, plus one if it is not exact, lies on the same side of every
even integer as twice the quotient. -/
theorem sticky_side (p n : Nat) (hn : 0 < n) (z : Int) :
    (((2 * (p / n) + if p % n = 0 then 0 else 1 : Nat) : ℚ) < 2 * z ↔ 2 * ((p : ℚ) / n) < 2 * z) ∧
      ((2 * z : ℚ) < (2 * (p / n) + if p % n = 0 then 0 else 1 : Nat) ↔ (2 * z : ℚ) < 2 * ((p : ℚ) / n)) := by
  have hd := Nat.div_add_mod p n
  have hl := Nat.mod_lt p hn
  have hnq : (0 : ℚ) < n := by exact_mod_cast hn
  generalize p / n = q at *
  generalize p % n = r at *
  subst hd
  have hq : (((n * q + r : Nat) : ℚ)) / n = q + r / n := by push_cast; field_simp
  rw [hq]
  have hr0 : (0 : ℚ) ≤ (r : ℚ) / n := by positivity
  have hr1 : (r : ℚ) / n < 1 := by rw [div_lt_one hnq]; exact_mod_cast hl
  split
  · next h => subst h; simp
  · next h =>
    have hr2 : (0 : ℚ) < (r : ℚ) / n := by
      have : (0 : ℚ) < r := by exact_mod_cast Nat.pos_of_ne_zero h
      positivity
    constructor
    · constructor
      · intro hh
        have : (2 * q + 1 : Int) < 2 * z := by exact_mod_cast hh
        have : (q : Int) + 1 ≤ z := by omega
        have : (q : ℚ) + 1 ≤ z := by exact_mod_cast this
        linarith
      · intro hh
        have : (q : ℚ) < z := by linarith
        have : (q : Int) < z := by exact_mod_cast this
        have : (2 * q + 1 : Int) < 2 * z := by omega
        exact_mod_cast this
    · constructor
      · intro hh
        have : (2 * z : Int) < 2 * q + 1 := by exact_mod_cast hh
        have : z ≤ q := by omega
        have : (z : ℚ) ≤ q := by exact_mod_cast this
        linarith
      · intro hh
        have : (z : ℚ) < q + 1 := by linarith
        have : z < (q : Int) + 1 := by exact_mod_cast this
        have : (2 * z : Int) < 2 * q + 1 := by omega
        exact_mod_cast this

/-- A quotient computed by `divNum` rounds as the exact quotient of the two significands does. -/
theorem roundMagnitude_quotient {m n : Nat} (hm : 0 < m) (hn : 0 < n) (hn' : n < 2 ^ 113) (e : Int) :
    ∃ k sig : Nat,
      roundMagnitude binary128 (2 * (m * 2 ^ 230 / n) + if m * 2 ^ 230 % n = 0 then 0 else 1) (e - 231) =
        min (k * 2 ^ binary128.fracBits + sig) binary128.top ∧
      RoundsAt binary128 ((m : ℚ) / n * 2 ^ e) k sig := by
  generalize hM : (2 * (m * 2 ^ 230 / n) + if m * 2 ^ 230 % n = 0 then 0 else 1) = M
  have hbig : 2 ^ 118 ≤ M := by
    have : 2 ^ 117 ≤ m * 2 ^ 230 / n := by
      rw [Nat.le_div_iff_mul_le hn]
      calc 2 ^ 117 * n ≤ 2 ^ 117 * 2 ^ 113 := Nat.mul_le_mul_left _ hn'.le
        _ = 1 * 2 ^ 230 := by norm_num
        _ ≤ m * 2 ^ 230 := Nat.mul_le_mul_right _ hm
    omega
  have hM0 : M ≠ 0 := by omega
  have hlog : 118 ≤ M.log2 := (Nat.le_log2 hM0).2 hbig
  obtain ⟨k, sig, h1, h2, -, h4⟩ := roundMagnitude_spec binary128 hM0 (e - 231)
  refine ⟨k, sig, h1, RoundsAt.congr (e := e - 231) (by rw [h4]; have : binary128.fracBits = 112 := rfl; omega) ?_ h2⟩
  intro z
  have hp := two_pow_pos (e - 231)
  have hy : (m : ℚ) / n * 2 ^ e = 2 * (((m * 2 ^ 230 : Nat) : ℚ) / n) * 2 ^ (e - 231) := by
    conv_lhs => rw [show e = 231 + (e - 231) by ring, two_pow_split]
    have hnq : (n : ℚ) ≠ 0 := by exact_mod_cast hn.ne'
    push_cast
    field_simp
    norm_num
  obtain ⟨a, b⟩ := sticky_side (m * 2 ^ 230) n hn z
  rw [hM] at a b
  rw [hy, mul_lt_mul_iff_left₀ hp, mul_lt_mul_iff_left₀ hp, mul_lt_mul_iff_left₀ hp, mul_lt_mul_iff_left₀ hp]
  exact ⟨a, b⟩

/-- Numbers are ordered by value. -/
theorem cmpNum_fin (s : Bool) (m : Nat) (e : Int) (t : Bool) (n : Nat) (g : Int) :
    cmpNum (.fin s m e) (.fin t n g) =
      if (FpNum.fin s m e).toRat < (FpNum.fin t n g).toRat then .lt
      else if (FpNum.fin s m e).toRat = (FpNum.fin t n g).toRat then .eq else .gt := by
  obtain ⟨h1, h2⟩ := aligned_spec s m e t n g
  generalize ha : aligned s m e t n g = q at *
  obtain ⟨p, q, k⟩ := q
  dsimp only at h1 h2
  have hp := two_pow_pos k
  simp only [cmpNum, ha]
  rw [← h1, ← h2]
  have e1 : (p : ℚ) * 2 ^ k < q * 2 ^ k ↔ p < q := by rw [mul_lt_mul_iff_left₀ hp]; exact_mod_cast Iff.rfl
  have e2 : (p : ℚ) * 2 ^ k = q * 2 ^ k ↔ p = q := by rw [mul_left_inj' hp.ne']; exact_mod_cast Iff.rfl
  simp only [e1, e2]

/-! ### Integers -/

/-- A mode chooses one integer only. -/
theorem choosesInt_unique {tie : RoundnTie} {mode : RoundMode} {x : ℚ} {y z : Int} (hy : ChoosesInt tie mode x y)
    (hz : ChoosesInt tie mode x z) : y = z := by
  have cast_lt : ∀ {a b : Int}, (a : ℚ) < b + 1 → a ≤ b := fun h => by
    exact Int.lt_add_one_iff.1 (by exact_mod_cast h)
  cases mode with
  | floor => exact le_antisymm (cast_lt (by linarith [hy.1, hz.2])) (cast_lt (by linarith [hy.2, hz.1]))
  | ceiling => exact le_antisymm (cast_lt (by linarith [hy.1, hz.2])) (cast_lt (by linarith [hy.2, hz.1]))
  | trunc =>
    obtain ⟨a1, a2, a3⟩ := hy
    obtain ⟨b1, b2, b3⟩ := hz
    rw [← Int.cast_abs] at a1 a2 b1 b2
    have h1 : |y| = |z| := le_antisymm (cast_lt (by linarith)) (cast_lt (by linarith))
    rcases abs_eq_abs.1 h1 with h | h
    · exact h
    · subst h
      by_contra hne
      have hz0 : z ≠ 0 := by rintro rfl; exact hne rfl
      push_cast at a3
      have hxz : x * z = 0 := by linarith
      have hx : x = 0 := (mul_eq_zero.1 hxz).resolve_right (by exact_mod_cast hz0)
      rw [hx, abs_zero] at b1
      have : |z| ≤ 0 := by exact_mod_cast b1
      exact hz0 (abs_eq_zero.1 (le_antisymm this (abs_nonneg z)))
  | nearest =>
    by_contra hne
    have hy1 : |(y : ℚ) - x| ≤ 1 / 2 := by rcases hy with h | h; exacts [h.le, h.1.le]
    have hz1 : |(z : ℚ) - x| ≤ 1 / 2 := by rcases hz with h | h; exacts [h.le, h.1.le]
    have hy2 := abs_le.1 hy1
    have hz2 := abs_le.1 hz1
    have tie_of : ∀ {a b : Int}, a < b → -(1 / 2) ≤ (a : ℚ) - x → (b : ℚ) - x ≤ 1 / 2 → b = a + 1 ∧ x = a + 1 / 2 := by
      intro a b hab ha hb
      have h1 : (a : ℚ) + 1 ≤ b := by exact_mod_cast hab
      have h2 : b ≤ a + 1 := by
        have : (b : ℚ) ≤ a + 1 := by linarith
        exact_mod_cast this
      have h3 : b = a + 1 := by omega
      subst h3
      push_cast at hb
      exact ⟨rfl, by linarith⟩
    have main : ∀ {a b : Int}, ChoosesInt tie .nearest x a → ChoosesInt tie .nearest x b → b = a + 1 → x = a + 1 / 2 → False := by
      intro a b ha hb h1 h2
      subst h1
      have e1 : |(a : ℚ) - x| = 1 / 2 := by rw [h2, abs_of_nonpos (by linarith)]; ring
      have e2 : |((a + 1 : Int) : ℚ) - x| = 1 / 2 := by rw [h2]; push_cast; rw [abs_of_nonneg (by linarith)]; ring
      have ha' := (ha.resolve_left (by rw [e1]; exact lt_irrefl _)).2
      have hb' := (hb.resolve_left (by rw [e2]; exact lt_irrefl _)).2
      cases tie with
      | even => dsimp only at ha' hb'; omega
      | away =>
        dsimp only at ha' hb'
        rw [h2] at ha' hb'
        push_cast at hb'
        rcases le_or_gt 0 a with h | h
        · have : (0 : ℚ) ≤ a := by exact_mod_cast h
          rw [abs_of_nonneg (by linarith), abs_of_nonneg this] at ha'
          linarith
        · have : (a : ℚ) + 1 ≤ 0 := by exact_mod_cast h
          rw [abs_of_nonpos (by linarith), abs_of_nonpos this] at hb'
          linarith
    rcases lt_or_gt_of_ne hne with h | h
    · obtain ⟨h1, h2⟩ := tie_of h hy2.1 hz2.2
      exact main hy hz h1 h2
    · obtain ⟨h1, h2⟩ := tie_of h hz2.1 hy2.2
      exact main hz hy h1 h2

/-- An integer is chosen by every mode. -/
theorem choosesInt_self (tie : RoundnTie) (mode : RoundMode) (z : Int) : ChoosesInt tie mode (z : ℚ) z := by
  cases mode with
  | floor => exact ⟨le_refl _, by linarith⟩
  | ceiling => exact ⟨by linarith, le_refl _⟩
  | trunc => exact ⟨le_refl _, by linarith, mul_self_nonneg _⟩
  | nearest => left; simp

/-- `roundInt` is what the mode chooses. -/
theorem roundInt_chooses (tie : RoundnTie) (mode : RoundMode) (p : Int) {q : Nat} (hq : 0 < q) :
    ChoosesInt tie mode ((p : ℚ) / q) (roundInt tie mode p q) := by
  have hqq : (0 : ℚ) < q := by exact_mod_cast hq
  have hqz : (0 : Int) < q := by exact_mod_cast hq
  have hd := Int.emod_add_mul_ediv p q
  have h0 := Int.emod_nonneg p hqz.ne'
  have hl := Int.emod_lt_of_pos p hqz
  cases mode with
  | floor =>
    unfold roundInt
    dsimp only
    generalize p / (q : Int) = z at *
    generalize p % (q : Int) = r at *
    subst hd
    have e : ((r + q * z : Int) : ℚ) / q = z + r / q := by push_cast; field_simp; ring
    have a : (0 : ℚ) ≤ r / q := by have : (0 : ℚ) ≤ r := by exact_mod_cast h0
                                   positivity
    have b : (r : ℚ) / q < 1 := by rw [div_lt_one hqq]; exact_mod_cast hl
    rw [e]
    exact ⟨by linarith, by linarith⟩
  | ceiling =>
    unfold roundInt
    dsimp only
    clear hd h0 hl
    have hd := Int.emod_add_mul_ediv (-p) q
    have h0 := Int.emod_nonneg (-p) hqz.ne'
    have hl := Int.emod_lt_of_pos (-p) hqz
    generalize -p / (q : Int) = z at *
    generalize -p % (q : Int) = r at *
    have hp : p = -(r + q * z) := by omega
    subst hp
    have e : ((-(r + q * z) : Int) : ℚ) / q = -z - r / q := by push_cast; field_simp; ring
    have a : (0 : ℚ) ≤ r / q := by have : (0 : ℚ) ≤ r := by exact_mod_cast h0
                                   positivity
    have b : (r : ℚ) / q < 1 := by rw [div_lt_one hqq]; exact_mod_cast hl
    rw [e]
    refine ⟨?_, ?_⟩ <;> push_cast <;> linarith
  | trunc =>
    unfold roundInt
    dsimp only
    have hd := Int.tmod_add_mul_tdiv p q
    have hmod : |p.tmod q| < q := by
      have h1 := Int.natAbs_tmod p q
      have h2 := Nat.mod_lt p.natAbs (show 0 < (q : Int).natAbs by omega)
      rw [← Int.natCast_natAbs, h1]; omega
    have hsign : 0 ≤ p.tmod q * p.tdiv q ∧ 0 ≤ p * p.tdiv q := by
      rcases le_total 0 p with h | h
      · have h1 := Int.tmod_nonneg q h
        have h2 : 0 ≤ p.tdiv q := Int.tdiv_nonneg h hqz.le
        exact ⟨mul_nonneg h1 h2, mul_nonneg h h2⟩
      · have h1 := Int.tmod_nonneg q (show 0 ≤ -p by omega)
        have h2 : 0 ≤ (-p).tdiv q := Int.tdiv_nonneg (by omega) hqz.le
        rw [Int.neg_tmod] at h1
        rw [Int.neg_tdiv] at h2
        exact ⟨by nlinarith, by nlinarith⟩
    generalize p.tdiv q = z at *
    generalize p.tmod q = r at *
    have e : (p : ℚ) / q = z + r / q := by rw [← hd]; push_cast; field_simp; ring
    have hr : |(r : ℚ) / q| < 1 := by
      rw [abs_div, abs_of_pos hqq, div_lt_one hqq]
      exact_mod_cast hmod
    have hrz : (0 : ℚ) ≤ r / q * z := by
      have : (0 : ℚ) ≤ r * z := by exact_mod_cast hsign.1
      rw [div_mul_eq_mul_div]; positivity
    rw [e]
    have habs : |(z : ℚ) + r / q| = |(z : ℚ)| + |(r : ℚ) / q| := by
      rw [abs_add_eq_add_abs_iff]
      rcases lt_trichotomy (z : ℚ) 0 with h | h | h
      · right; exact ⟨h.le, by by_contra hc; nlinarith [not_le.1 hc]⟩
      · rw [h]; rcases le_total 0 ((r : ℚ) / q) with h' | h'
        · left; exact ⟨le_refl _, h'⟩
        · right; exact ⟨le_refl _, h'⟩
      · left; exact ⟨h.le, by by_contra hc; nlinarith [not_le.1 hc]⟩
    refine ⟨?_, ?_, ?_⟩
    · rw [habs]; linarith [abs_nonneg ((r : ℚ) / q)]
    · rw [habs]; linarith
    · nlinarith [mul_self_nonneg (z : ℚ)]
  | nearest =>
    unfold roundInt
    dsimp only
    generalize hz : p / (q : Int) = z at *
    generalize p % (q : Int) = r at *
    have hp := hd
    subst hd
    have e : ((r + q * z : Int) : ℚ) / q = z + r / q := by push_cast; field_simp; ring
    have a : (0 : ℚ) ≤ r / q := by have : (0 : ℚ) ≤ r := by exact_mod_cast h0
                                   positivity
    have b : (r : ℚ) / q < 1 := by rw [div_lt_one hqq]; exact_mod_cast hl
    rw [e]
    by_cases h1 : 2 * r < q
    · rw [if_pos h1]
      left
      have : (r : ℚ) / q < 1 / 2 := by
        rw [div_lt_iff₀ hqq]
        have : (2 * r : ℚ) < q := by exact_mod_cast h1
        linarith
      rw [abs_lt]; constructor <;> linarith
    rw [if_neg h1]
    by_cases h2 : (q : Int) < 2 * r
    · rw [if_pos h2]
      left
      have : 1 / 2 < (r : ℚ) / q := by
        rw [lt_div_iff₀ hqq]
        have : (q : ℚ) < 2 * r := by exact_mod_cast h2
        linarith
      push_cast
      rw [abs_lt]; constructor <;> linarith
    · rw [if_neg h2]
      have hr : 2 * r = q := by omega
      have hhalf : (r : ℚ) / q = 1 / 2 := by
        rw [div_eq_iff hqq.ne']
        have : (2 * r : ℚ) = q := by exact_mod_cast hr
        linarith
      rw [hhalf]
      right
      cases tie with
      | even =>
        dsimp only
        split_ifs with h3
        · exact ⟨by rw [abs_of_nonpos (by linarith)]; ring, h3⟩
        · push_cast
          exact ⟨by rw [abs_of_nonneg (by linarith)]; ring, by omega⟩
      | away =>
        dsimp only
        split_ifs with h3
        · have : 0 ≤ z := by
            by_contra hc
            have : (q : Int) * z ≤ q * (-1) := by nlinarith
            omega
          have : (0 : ℚ) ≤ z := by exact_mod_cast this
          push_cast
          refine ⟨by rw [abs_of_nonneg (by linarith)]; ring, ?_⟩
          rw [abs_of_nonneg (by linarith), abs_of_nonneg (by linarith)]; linarith
        · have : z ≤ -1 := by
            by_contra hc
            have : 0 ≤ (q : Int) * z := mul_nonneg hqz.le (by omega)
            omega
          have : (z : ℚ) ≤ -1 := by exact_mod_cast this
          refine ⟨by rw [abs_of_nonpos (by linarith)]; ring, ?_⟩
          rw [abs_of_nonpos (by linarith), abs_of_nonpos (by linarith)]; linarith

/-- The integer that `toIntNum` chooses before it looks whether it fits. -/
theorem toIntNum_fin (tie : RoundnTie) (mode : RoundMode) (s : Bool) (m : Nat) (e : Int) :
    ∃ z, ChoosesInt tie mode (FpNum.fin s m e).toRat z ∧
      toIntNum tie mode (.fin s m e) = if -2 ^ 127 ≤ z ∧ z ≤ 2 ^ 127 - 1 then some z else none := by
  refine ⟨_, ?_, rfl⟩
  rw [FpNum.toRat]
  split
  · next h =>
    have : sgn s * (m : ℚ) * 2 ^ e = ((signed s (m * 2 ^ e.toNat) : Int) : ℚ) := by
      rw [signed_cast]
      conv_lhs => rw [show e = (e.toNat : Int) by omega, two_pow_nat]
      push_cast; ring
    rw [this]
    exact choosesInt_self _ _ _
  · next h =>
    have : sgn s * (m : ℚ) * 2 ^ e = ((signed s m : Int) : ℚ) / (2 ^ (-e).toNat : Nat) := by
      rw [signed_cast, ← two_pow_nat, div_eq_mul_inv, ← zpow_neg]
      congr 2; omega
    rw [this]
    exact roundInt_chooses _ _ _ (Nat.two_pow_pos _)

/-- The fraction that `fracNum` keeps of a number. -/
def fracPart (m : Nat) (e : Int) : Nat := if 0 ≤ e then 0 else m % 2 ^ (-e).toNat

theorem fracNum_fin (s : Bool) (m : Nat) (e : Int) :
    fracNum (.fin s m e) = if fracPart m e = 0 then .bits 0 else pack128 (.fin s (fracPart m e) e) := rfl

theorem fracPart_le (m : Nat) (e : Int) : fracPart m e ≤ m := by
  unfold fracPart
  split
  · exact Nat.zero_le _
  · exact Nat.mod_le _ _

/-- The number is its integer part toward zero and that fraction. -/
theorem fracPart_spec (tie : RoundnTie) (s : Bool) (m : Nat) (e : Int) :
    ∃ z : Int, ChoosesInt tie .trunc (FpNum.fin s m e).toRat z ∧
      (FpNum.fin s (fracPart m e) e).toRat = (FpNum.fin s m e).toRat - z := by
  unfold fracPart
  by_cases h : 0 ≤ e
  · refine ⟨signed s (m * 2 ^ e.toNat), ?_⟩
    have : (FpNum.fin s m e).toRat = ((signed s (m * 2 ^ e.toNat) : Int) : ℚ) := by
      rw [signed_cast, FpNum.toRat]
      conv_lhs => rw [show e = (e.toNat : Int) by omega, two_pow_nat]
      push_cast; ring
    rw [this, if_pos h]
    exact ⟨choosesInt_self _ _ _, by simp [FpNum.toRat]⟩
  · rw [if_neg h]
    refine ⟨(signed s m).tdiv (2 ^ (-e).toNat : Nat), ?_, ?_⟩
    · have : (FpNum.fin s m e).toRat = ((signed s m : Int) : ℚ) / (2 ^ (-e).toNat : Nat) := by
        rw [signed_cast, FpNum.toRat, ← two_pow_nat, div_eq_mul_inv, ← zpow_neg]
        congr 2; omega
      rw [this]
      exact roundInt_chooses tie .trunc _ (Nat.two_pow_pos _)
    · have hz : (signed s m).tdiv (2 ^ (-e).toNat : Nat) = signed s (m / 2 ^ (-e).toNat) := by
        unfold signed
        cases s
        · simp only [Bool.false_eq_true, if_false]; exact Int.ofNat_tdiv _ _
        · simp only [if_true]; rw [Int.neg_tdiv]; congr 1
      have hd := Nat.div_add_mod m (2 ^ (-e).toNat)
      have he : (2 : ℚ) ^ e * (2 ^ (-e).toNat : Nat) = 1 := by
        rw [← two_pow_nat, ← two_pow_split, show e + ((-e).toNat : Int) = 0 by omega, zpow_zero]
      rw [hz, signed_cast, FpNum.toRat, FpNum.toRat]
      have hdq : (m : ℚ) = (2 ^ (-e).toNat : Nat) * (m / 2 ^ (-e).toNat : Nat) + (m % 2 ^ (-e).toNat : Nat) := by
        exact_mod_cast hd.symm
      generalize m / 2 ^ (-e).toNat = a at *
      generalize m % 2 ^ (-e).toNat = b at *
      rw [hdq]
      have : sgn s * ((2 ^ (-e).toNat : Nat) * (a : ℚ) + b) * 2 ^ e = sgn s * b * 2 ^ e + sgn s * a * (2 ^ e * (2 ^ (-e).toNat : Nat)) := by
        ring
      rw [this, he]; ring

/-! ### The formats of the registers and of the cells -/

/-- What a register holds. -/
theorem num128_spec (v : Word) :
    (quad.NaN v ∧ num128 v = .nan) ∨ (quad.Infinite v ∧ num128 v = .inf (quad.sign v)) ∨
    (quad.Finite v ∧ num128 v = .fin (quad.sign v) (quad.significand v)
      (binary128.minLsb + ((quad.expField v - 1 : Nat) : Int))) := unpack_spec binary128 v

theorem num128_of_finite {v : Word} (h : quad.Finite v) :
    ∃ m e, num128 v = .fin (quad.sign v) m e ∧ (FpNum.fin (quad.sign v) m e).toRat = quad.value v ∧
      m < 2 ^ 113 ∧ binary128.minLsb ≤ e := by
  rcases num128_spec v with ⟨h1, _⟩ | ⟨h1, _⟩ | ⟨_, h2⟩
  · exact absurd h1 (finite_not_infinite h).2
  · exact absurd h1 (finite_not_infinite h).1
  · exact ⟨_, _, h2, (shape_value binary128 v).symm, shape_significand_lt binary128 v, by omega⟩

theorem num128_of_infinite {v : Word} (h : quad.Infinite v) : num128 v = .inf (quad.sign v) := by
  rcases num128_spec v with ⟨h1, _⟩ | ⟨_, h2⟩ | ⟨h1, _⟩
  · exact absurd h1 (infinite_not_nan h)
  · exact h2
  · exact absurd h (finite_not_infinite h1).1

theorem num128_of_nan {v : Word} (h : quad.NaN v) : num128 v = .nan := by
  rcases num128_spec v with ⟨_, h2⟩ | ⟨h1, _⟩ | ⟨h1, _⟩
  · exact h2
  · exact absurd h (infinite_not_nan h1)
  · exact absurd h (finite_not_infinite h1).2

/-- A bit pattern is a NaN, an infinity or a number. -/
theorem quad_cases (v : Word) : quad.NaN v ∨ quad.Infinite v ∨ quad.Finite v := by
  rcases num128_spec v with ⟨h, _⟩ | ⟨h, _⟩ | ⟨h, _⟩
  · exact .inl h
  · exact .inr (.inl h)
  · exact .inr (.inr h)

theorem nan_someNan128 (d : Word) : quad.NaN (someNan binary128 128 d) :=
  nan_someNan (f := binary128) wide_formats.2.2.2 rfl d rfl

/-- A number written to a register has its sign and is correctly rounded. -/
theorem pack128_fin {s : Bool} {m : Nat} {e : Int} {r : Word} (h : FpAdmits quad (pack128 (.fin s m e)) r) :
    quad.sign r = s ∧ quad.Rounds (FpNum.fin s m e).toRat r := by
  have hc : Codes binary128.shape binary128 r s (roundMagnitude binary128 m e) :=
    codes_pack rfl (roundMagnitude_le _ _ _) (congrArg BitVec.toNat h)
  refine ⟨hc.sign, ?_⟩
  rw [FpNum.toRat, mul_assoc]
  exact rounds_of_codes (reads_shape wide_formats.2.2.2 128) hc

/-- A number that the registers' format has is written exactly. -/
theorem pack128_exact {s : Bool} {m : Nat} {e : Int} {r : Word} (h : FpAdmits quad (pack128 (.fin s m e)) r)
    (hm : m < 2 ^ 113) (he : binary128.minLsb ≤ e) (hx : (m : ℚ) * 2 ^ e < 2 ^ (16384 : Int)) :
    quad.Finite r ∧ quad.value r = (FpNum.fin s m e).toRat := by
  have hc : Codes binary128.shape binary128 r s (roundMagnitude binary128 m e) :=
    codes_pack rfl (roundMagnitude_le _ _ _) (congrArg BitVec.toNat h)
  rw [FpNum.toRat, mul_assoc]
  exact exact_of_codes wide_formats.2.2.2 hm he hx hc

theorem pack128_inf {s : Bool} {r : Word} (h : FpAdmits quad (pack128 (.inf s)) r) :
    quad.Infinite r ∧ quad.sign r = s := by
  have hc : Codes binary128.shape binary128 r s binary128.top :=
    codes_pack rfl (le_refl _) (congrArg BitVec.toNat h)
  exact ⟨hc.infinite rfl, hc.sign⟩

/-- What a 32-bit or 64-bit load writes. -/
theorem widen_shape (f : FpFormat) (w : Nat) (hw : w = f.expBits + f.fracBits + 1) (v : Word) :
    (f.shape.NaN v ∧ unpack f (v.setWidth w).toNat = .nan) ∨
    (f.shape.Infinite v ∧ unpack f (v.setWidth w).toNat = .inf (f.shape.sign v)) ∨
    (f.shape.Finite v ∧ unpack f (v.setWidth w).toNat = .fin (f.shape.sign v) (f.shape.significand v)
      (f.minLsb + ((f.shape.expField v - 1 : Nat) : Int))) := by
  subst hw
  have h : ∀ n, n ≤ f.expBits + f.fracBits → ∀ k, k ≤ f.expBits + f.fracBits + 1 - n →
      (v.setWidth (f.expBits + f.fracBits + 1)).toNat / 2 ^ n % 2 ^ k = v.toNat / 2 ^ n % 2 ^ k := by
    intro n hn k hk
    rw [BitVec.toNat_setWidth, show f.expBits + f.fracBits + 1 = n + (f.expBits + f.fracBits + 1 - n) by omega, pow_add,
      Nat.mod_mul_right_div_self, Nat.mod_mod_of_dvd _ (pow_dvd_pow 2 hk)]
  have hs : f.shape.sign (v.setWidth (f.expBits + f.fracBits + 1)) = f.shape.sign v := by
    have := h (f.expBits + f.fracBits) (le_refl _) 1 (by omega)
    rw [pow_one] at this
    exact congrArg (· == 1) this
  have he : f.shape.expField (v.setWidth (f.expBits + f.fracBits + 1)) = f.shape.expField v :=
    h f.fracBits (by omega) f.expBits (by omega)
  have hm : f.shape.sigField (v.setWidth (f.expBits + f.fracBits + 1)) = f.shape.sigField v := by
    have := h 0 (by omega) f.fracBits (by omega)
    rw [pow_zero, Nat.div_one, Nat.div_one] at this
    exact this
  have := unpack_spec f (v.setWidth (f.expBits + f.fracBits + 1))
  simpa only [NumberFormat.NaN, NumberFormat.Infinite, NumberFormat.Finite, NumberFormat.Regular, NumberFormat.significand,
    hs, he, hm] using this

/-- What an 80-bit load writes, of a pattern whose integer bit agrees with its exponent. -/
theorem widen80_spec (v : Word) :
    (extended.NaN v → widen80 (v.setWidth 80) = .anyNan) ∧
    (extended.Infinite v → widen80 (v.setWidth 80) = pack128 (.inf (extended.sign v))) ∧
    (extended.Finite v → widen80 (v.setWidth 80) = pack128 (.fin (extended.sign v) (extended.significand v)
      (extended80.minLsb + ((extended.expField v - 1 : Nat) : Int)))) := by
  have hneg : (v.setWidth 80).msb = extended.sign v := by
    rw [BitVec.msb_eq_decide, BitVec.toNat_setWidth]
    show decide (_ ≤ _) = (v.toNat / 2 ^ 79 % 2 == 1)
    rcases Nat.mod_two_eq_zero_or_one (v.toNat / 2 ^ 79) with h | h <;> rw [h] <;> simp <;> omega
  have he : ((v.setWidth 80).extractLsb' 64 15).toNat = extended.expField v := by
    rw [BitVec.extractLsb'_toNat, BitVec.toNat_setWidth, Nat.shiftRight_eq_div_pow]
    show _ = v.toNat / 2 ^ 64 % 2 ^ 15
    omega
  have hm : ((v.setWidth 80).extractLsb' 0 63).toNat = extended.sigField v % 2 ^ 63 := by
    rw [BitVec.extractLsb'_toNat, BitVec.toNat_setWidth, Nat.shiftRight_eq_div_pow]
    show _ = v.toNat % 2 ^ 64 % 2 ^ 63
    omega
  have hone : (v.setWidth 80).getLsbD 63 = decide (2 ^ 63 ≤ extended.sigField v) := by
    rw [BitVec.getLsbD, BitVec.toNat_setWidth, Nat.testBit_eq_decide_div_mod_eq]
    show decide (_ = 1) = decide (2 ^ 63 ≤ v.toNat % 2 ^ 64)
    congr 1
    apply propext
    omega
  have hlt := extended_sigField_lt v
  have hsig : extended.significand v = extended.sigField v := if_neg (by simp [extended])
  unfold widen80
  rw [hneg, he, hm, hone, show extended80.maxExp = 32767 from rfl]
  refine ⟨fun ⟨h1, h2⟩ => ?_, fun ⟨h1, h2⟩ => ?_, fun ⟨h1, h2⟩ => ?_⟩
  · have h1 : extended.expField v = 32767 := h1
    have h2 : 2 ^ 63 < extended.sigField v := h2
    rw [decide_eq_true h2.le]
    dsimp only
    rw [if_neg (by omega), if_pos h1, if_neg (by omega)]
  · have h1 : extended.expField v = 32767 := h1
    have h2 : extended.sigField v = 2 ^ 63 := h2
    rw [decide_eq_true h2.ge]
    dsimp only
    rw [if_neg (by omega), if_pos h1, if_pos (by omega)]
  · have h1 : extended.expField v ≠ 32767 := h1
    have h2 : extended.expField v = 0 ↔ extended.sigField v < 2 ^ 63 := h2 rfl
    rw [hsig]
    by_cases hb : 2 ^ 63 ≤ extended.sigField v
    · rw [decide_eq_true hb]
      dsimp only
      rw [if_neg (by omega), if_neg h1, show 2 ^ 63 + extended.sigField v % 2 ^ 63 = extended.sigField v by omega]
    · rw [decide_eq_false hb]
      dsimp only
      rw [if_pos (by omega), show extended.sigField v % 2 ^ 63 = extended.sigField v by omega, show extended.expField v = 0 by omega]
      simp

theorem ext_value (v : Word) :
    extended.value v = (FpNum.fin (extended.sign v) (extended.significand v)
      (extended80.minLsb + ((extended.expField v - 1 : Nat) : Int))).toRat := by
  unfold NumberFormat.value
  rw [show extended.excess = (extended80.bias : Int) from rfl,
    show (extended.places : Int) = (extended80.fracBits : Int) from rfl, place_eq]
  rfl

end Sys2Proof.Machine
end

