-- ==== Sys2Proof/Laws/Stack.lean ====
section
/-! SUPPORT. What the stack operations do (spec/20_memory.md R49, spec/40_int_move.md R137, R138). -/

namespace Sys2Proof.Machine

/-! ### One slot -/

/-- Everything a push of one slot can do. -/
theorem pushSlot_cases {v : State → Word} {s t : State} (h : pushSlot v s = .ok t) :
    InDomain s (s.sp - 16) 16 ∧
      t = (s.setX spReg (s.sp - 16)).store (s.sp - 16) 16 (v (s.setX spReg (s.sp - 16))) := by
  have := memWrite_cases h
  refine ⟨?_, by simpa [pushSlot] using this.2⟩
  have h1 : InDomain s (s.setSp (s.sp - 16)).sp 16 := this.1
  simpa using h1

theorem pushSlot_eq {s : State} (v : State → Word) (hd : InDomain s (s.sp - 16) 16) :
    pushSlot v s =
      .ok ((s.setX spReg (s.sp - 16)).store (s.sp - 16) 16 (v (s.setX spReg (s.sp - 16)))) := by
  have hd' : InDomain (s.setX spReg (s.sp - 16)) (s.sp - 16) 16 := hd.of_cfg rfl
  have := memWrite_eq (v (s.setX spReg (s.sp - 16))) hd'
  simpa [pushSlot] using this

theorem pushSlot_unmapped {s : State} (v : State → Word) (hd : ¬ InDomain s (s.sp - 16) 16) :
    pushSlot v s = .error (.unmappedAccess (s.sp - 16) 16 (s.setX spReg (s.sp - 16))) := by
  have hd' : ¬ InDomain (s.setX spReg (s.sp - 16)) (s.sp - 16) 16 := hd
  have := memWrite_unmapped (v (s.setX spReg (s.sp - 16))) hd'
  simpa [pushSlot] using this

/-- Everything a pop of one slot can do. -/
theorem popSlot_cases {put : Word → State → State} {s t : State} (h : popSlot put s = .ok t) :
    InDomain s s.sp 16 ∧
      t = (put (s.cell s.sp 16) s).setX spReg ((put (s.cell s.sp 16) s).sp + 16) := by
  unfold popSlot at h
  cases hr : memRead s s.sp 16 with
  | error r => rw [hr] at h; cases h
  | ok v =>
    obtain ⟨h1, rfl⟩ := memRead_cases hr
    rw [hr] at h
    exact ⟨h1, by simpa [Except.map] using h.symm⟩

theorem popSlot_eq {put : Word → State → State} {s : State} {v : Word} (hd : InDomain s s.sp 16)
    (hv : HoldsCell s s.sp 16 v) :
    popSlot put s = .ok ((put v s).setX spReg ((put v s).sp + 16)) := by
  rw [popSlot, memRead_eq hd hv (by omega)]
  simp [Except.map]

theorem popSlot_unmapped {put : Word → State → State} {s : State} (hd : ¬ InDomain s s.sp 16) :
    popSlot put s = .error (.unmappedAccess s.sp 16 s) := by
  rw [popSlot, memRead_unmapped hd]
  rfl

/-! ### Ranges -/

theorem regRange_eq (i j : Fin 32) :
    regRange i j = (List.range (j.val + 1 - i.val)).map fun k => Fin.ofNat 32 (i.val + k) := by
  revert i j
  decide +kernel

theorem regRange_length (i j : Fin 32) : (regRange i j).length = j.val + 1 - i.val := by
  simp [regRange_eq]

theorem mem_regRange {i j n : Fin 32} : n ∈ regRange i j ↔ i ≤ n ∧ n ≤ j := by
  have h : n ∈ allRegs := by revert n; decide +kernel
  simp [regRange, h]

theorem regRange_getElem {i j n : Fin 32} (hi : i ≤ n) (_ : n ≤ j)
    (h : n.val - i.val < (regRange i j).length) : (regRange i j)[n.val - i.val] = n := by
  have hi' : i.val ≤ n.val := hi
  apply Fin.ext
  simp only [regRange_eq, List.getElem_map, List.getElem_range, Fin.ofNat]
  omega

theorem regRange_nodup (i j : Fin 32) : (regRange i j).Nodup :=
  List.Nodup.filter _ (by decide +kernel)

theorem inPopOrder_length (o : PopOrder) (ns : List (Fin 32)) : (inPopOrder o ns).length = ns.length := by
  cases o <;> simp [inPopOrder]

theorem inPopOrder_nodup (o : PopOrder) {ns : List (Fin 32)} (h : ns.Nodup) : (inPopOrder o ns).Nodup := by
  cases o <;> simpa [inPopOrder] using h

theorem mem_inPopOrder (o : PopOrder) {ns : List (Fin 32)} {n : Fin 32} : n ∈ inPopOrder o ns ↔ n ∈ ns := by
  cases o <;> simp [inPopOrder]

/-- Which register of a range the `k`-th slot is loaded into. -/
theorem inPopOrder_getElem {o : PopOrder} {i j : Fin 32} {k : Nat} (hij : i ≤ j)
    (hk : k < (inPopOrder o (regRange i j)).length) :
    ∃ n : Fin 32, (inPopOrder o (regRange i j))[k] = n ∧ i ≤ n ∧ n ≤ j ∧ k = popPlace o i j n := by
  have hij' : i.val ≤ j.val := hij
  have hl := regRange_length i j
  cases o with
  | sourceAscending =>
    simp only [inPopOrder] at hk ⊢
    refine ⟨_, rfl, ?_⟩
    rw [hl] at hk
    have h : (regRange i j)[k] = Fin.ofNat 32 (i.val + k) := by simp [regRange_eq]
    rw [h]
    simp only [Fin.le_def, Fin.ofNat, popPlace]
    omega
  | descending =>
    simp only [inPopOrder, List.length_reverse] at hk ⊢
    refine ⟨_, rfl, ?_⟩
    rw [hl] at hk
    have h : (regRange i j).reverse[k]'(by simp; omega) = Fin.ofNat 32 (i.val + (j.val + 1 - i.val - 1 - k)) := by
      simp [regRange_eq, List.getElem_reverse]
    rw [h]
    simp only [Fin.le_def, Fin.ofNat, popPlace]
    omega

/-- A range that ends at `r31` is the rest of it, then `r31`. -/
theorem regRange_to_sp (i : Fin 32) (h : i ≠ 31) : regRange i 31 = regRange i 30 ++ [31] := by
  revert i
  decide +kernel

theorem regRange_self (i : Fin 32) : regRange i i = [i] := by
  revert i
  decide +kernel

theorem allRegs_eq_regRange : allRegs = regRange 0 31 := by decide +kernel

/-! ### Pushing a list of registers -/

theorem slotBelow_ne {a : Word} {j k p q : Nat} (hjk : j < k) (hk : k ≤ 64) (hp : p < 16) (hq : q < 16) :
    a - BitVec.ofNat 128 (16 * j) + BitVec.ofNat 128 p ≠ a - BitVec.ofNat 128 (16 * k) + BitVec.ofNat 128 q := by
  bv_omega

theorem pushAll_spec (get : State → Fin 32 → Word) (val : Fin 32 → Word → Word) (ns : List (Fin 32))
    (s : State) (hl : ns.length ≤ 32)
    (hget : ∀ s1 n, SameXBut [spReg] s s1 → s1.f = s.f → get s1 n = val n s1.sp)
    (hd : InDomain s (s.slotBelow ns.length) (16 * ns.length)) :
    ∃ t, pushAll get ns s = .ok t ∧ t.sp = s.slotBelow ns.length ∧
      (∀ k (hk : k < ns.length), HoldsCell t (s.slotBelow (k + 1)) 16 (val ns[k] (s.slotBelow (k + 1)))) ∧
      SameXBut [spReg] s t ∧ t.f = s.f ∧ SameBytesOutside (s.slotBelow ns.length) (16 * ns.length) s t ∧
      t.ip = s.ip ∧ t.cfg = s.cfg ∧ t.draws = s.draws := by
  induction ns generalizing s with
  | nil => exact ⟨s, rfl, by simp [State.slotBelow], by simp, fun _ _ => rfl, rfl, fun _ _ => rfl, rfl, rfl, rfl⟩
  | cons n ns ih =>
    simp only [List.length_cons] at hl hd ⊢
    have hslot : InDomain s (s.sp - 16) 16 :=
      hd.mono (16 * ns.length) (by unfold State.slotBelow; bv_omega) (by omega)
    obtain ⟨s1, hs1⟩ : ∃ s1, s1 = (s.setX spReg (s.sp - 16)).store (s.sp - 16) 16
      (get (s.setX spReg (s.sp - 16)) n) := ⟨_, rfl⟩
    have e1 : pushSlot (fun s1 => get s1 n) s = .ok s1 := by rw [hs1]; exact pushSlot_eq _ hslot
    have x1 : SameXBut [spReg] s s1 := by
      intro r hr
      rw [hs1]
      simpa using State.getX_setX_of_ne s (s.sp - 16) (by simpa using hr)
    have sp1 : s1.sp = s.sp - 16 := by rw [hs1]; simp
    have f1 : s1.f = s.f := by rw [hs1]; rfl
    have c1 : s1.cfg = s.cfg := by rw [hs1]; rfl
    have b1 : SameBytesOutside (s.sp - 16) 16 s s1 := by
      rw [hs1]
      exact sameBytesOutside_store _ _ _ _
    have h1 : HoldsCell s1 (s.sp - 16) 16 (val n (s.sp - 16)) := by
      have hg := hget (s.setX spReg (s.sp - 16)) n
        (fun r hr => by simpa using State.getX_setX_of_ne s (s.sp - 16) (by simpa using hr)) rfl
      rw [show (s.setX spReg (s.sp - 16)).sp = s.sp - 16 by simp] at hg
      rw [hs1, hg]
      exact holdsCell_store _ _ _ _ (by omega)
    have below1 : ∀ k, s1.slotBelow k = s.slotBelow (k + 1) := by
      intro k
      unfold State.slotBelow
      rw [sp1]
      bv_omega
    obtain ⟨t, e2, sp2, h2, x2, f2, b2, ip2, c2, d2⟩ := ih s1 (by omega)
      (fun s2 m hx hf => hget s2 m (fun r hr => (hx r hr).trans (x1 r hr)) (hf.trans f1))
      (by rw [below1]; exact (hd.mono 0 (by simp) (by omega)).of_cfg c1)
    refine ⟨t, by simp only [pushAll, e1, Except.bind, e2], ?_, ?_, fun r hr => (x2 r hr).trans (x1 r hr),
      f2.trans f1, ?_, ?_, c2.trans c1, ?_⟩
    · rw [sp2, below1]
    · intro k hk
      cases k with
      | zero =>
        have : HoldsCell t (s.sp - 16) 16 (val n (s.sp - 16)) := by
          refine h1.congr c2 fun k hk => b2 _ fun p hp => ?_
          rw [below1]
          unfold State.slotBelow
          bv_omega
        simpa [State.slotBelow] using this
      | succ k =>
        have := h2 k (by omega)
        rwa [below1] at this
    · intro b hb
      rw [b2, b1]
      · intro p hp
        have := hb (16 * ns.length + p) (by omega)
        rwa [show s.sp - 16 + BitVec.ofNat 128 p
          = s.slotBelow (ns.length + 1) + BitVec.ofNat 128 (16 * ns.length + p) by
            unfold State.slotBelow; bv_omega]
      · intro p hp
        rw [below1]
        exact hb p (by omega)
    · rw [ip2, hs1]; rfl
    · rw [d2, hs1]; rfl

/-- What a push of integer register `n` stores when `sp` is `w`: the slot of `r31` gets `sp` itself. -/
def pushedX (s : State) (n : Reg) (w : Word) : Word := if n = spReg then w else s.getX n

theorem getX_eq_pushedX {s s1 : State} (h : SameXBut [spReg] s s1) (n : Reg) : s1.getX n = pushedX s n s1.sp := by
  unfold pushedX
  split
  · next hn => subst hn; rfl
  · next hn => exact h n (by simpa using hn)

theorem getF_of_f {s s1 : State} (h : s1.f = s.f) (n : FReg) : s1.getF n = s.getF n := by
  simp [State.getF, h]

/-- The loop pushes one register after another. -/
theorem pushAll_append (get : State → Fin 32 → Word) (ms ns : List (Fin 32)) (s : State) :
    pushAll get (ms ++ ns) s = (pushAll get ms s).bind (pushAll get ns) := by
  induction ms generalizing s with
  | nil => rfl
  | cons m ms ih =>
    simp only [List.cons_append, pushAll]
    cases pushSlot (fun s1 => get s1 m) s with
    | error r => rfl
    | ok s1 => exact ih s1

/-- The push loop stops at the first slot that is not mapped: the slots before it are written and `sp` is at it. -/
theorem pushAll_unmapped (get : State → Fin 32 → Word) (ms ns : List (Fin 32)) (n : Fin 32) (s : State)
    (val : Fin 32 → Word → Word) (hl : ms.length ≤ 32)
    (hget : ∀ s1 n, SameXBut [spReg] s s1 → s1.f = s.f → get s1 n = val n s1.sp)
    (hd : InDomain s (s.slotBelow ms.length) (16 * ms.length)) (hn : ¬ InDomain s (s.slotBelow (ms.length + 1)) 16) :
    ∃ u, pushAll get (ms ++ n :: ns) s = .error (.unmappedAccess (s.slotBelow (ms.length + 1)) 16 u) ∧
      u.sp = s.slotBelow (ms.length + 1) ∧
      (∀ k (hk : k < ms.length), HoldsCell u (s.slotBelow (k + 1)) 16 (val ms[k] (s.slotBelow (k + 1)))) ∧
      SameXBut [spReg] s u ∧ u.f = s.f ∧ SameBytesOutside (s.slotBelow ms.length) (16 * ms.length) s u ∧
      u.ip = s.ip ∧ u.cfg = s.cfg ∧ u.draws = s.draws := by
  obtain ⟨t, e, sp, hv, hx, hf, hb, hip, hcfg, hdr⟩ := pushAll_spec get val ms s hl hget hd
  have h1 : t.sp - 16 = s.slotBelow (ms.length + 1) := by
    rw [sp]; unfold State.slotBelow; bv_omega
  have h2 : ¬ InDomain t (t.sp - 16) 16 := by
    rw [h1]; exact fun h => hn (h.of_cfg hcfg.symm)
  refine ⟨t.setX spReg (t.sp - 16), ?_, by simpa using h1, hv, fun r hr => ?_, hf, hb, hip, hcfg, hdr⟩
  · rw [pushAll_append, e]
    simp only [Except.bind, pushAll, pushSlot_unmapped _ h2, h1]
  · rw [State.getX_setX_of_ne _ _ (by simpa using hr)]
    exact hx r hr

/-- A range is its first `k` registers, the next one and the rest. -/
theorem regRange_split (i j : Fin 32) (k : Nat) (h : i.val + k ≤ j.val) :
    ∃ ms n ns, regRange i j = ms ++ n :: ns ∧ ms.length = k := by
  refine ⟨(regRange i j).take k, (regRange i j)[k]'(by rw [regRange_length]; omega), (regRange i j).drop (k+1), ?_, ?_⟩
  · rw [← List.drop_eq_getElem_cons, List.take_append_drop]
  · rw [List.length_take, regRange_length]; omega

/-- The registers of the first `k` places of a range. -/
theorem regRange_split_getElem {i j : Fin 32} {ms ns : List (Fin 32)} {n m : Fin 32}
    (h : regRange i j = ms ++ n :: ns) (hi : i ≤ m) (hk : m.val - i.val < ms.length) : ms[m.val - i.val] = m := by
  have hl : (regRange i j).length = ms.length + (ns.length + 1) := by rw [h]; simp
  rw [regRange_length] at hl
  have hi' : i.val ≤ m.val := hi
  have hj : m ≤ j := by rw [Fin.le_def]; omega
  have := regRange_getElem hi hj (by rw [h]; simp; omega)
  simpa [h, List.getElem_append_left hk] using this

/-- A push of a range stops at its first unmapped slot: what the registers before it push is stored, `sp` is at it. -/
theorem pushAll_range_unmapped {get : State → Fin 32 → Word} {i j : Fin 32} {k : Nat} {s : State}
    (val : Fin 32 → Word → Word) (hk : i.val + k ≤ j.val)
    (hget : ∀ s1 n, SameXBut [spReg] s s1 → s1.f = s.f → get s1 n = val n s1.sp)
    (hd : InDomain s (s.slotBelow k) (16 * k)) (hn : ¬ InDomain s (s.slotBelow (k + 1)) 16) :
    ∃ u, pushAll get (regRange i j) s = .error (.unmappedAccess (s.slotBelow (k + 1)) 16 u) ∧
      StoppedPushing s u i k fun n => val n (s.slotBelow (n.val + 1 - i.val)) := by
  obtain ⟨ms, n, ns, e, rfl⟩ := regRange_split i j k hk
  have := j.isLt
  obtain ⟨u, h, sp, hv, hx, hf, hb, hip, hcfg, _⟩ := pushAll_unmapped get ms ns n s val (by omega) hget hd hn
  refine ⟨u, by rw [e, h], sp, fun m h1 h2 => ?_, hx, fun r _ => getF_of_f hf r, hb, hip, hcfg⟩
  have h1' : i.val ≤ m.val := h1
  have hlt : m.val - i.val < ms.length := by omega
  have h3 := hv (m.val - i.val) hlt
  rw [regRange_split_getElem e h1 hlt] at h3
  rwa [show m.val - i.val + 1 = m.val + 1 - i.val by omega] at h3

/-! ### Popping a list of registers -/

theorem popAll_append (put : Fin 32 → Word → State → State) (ms ns : List (Fin 32)) (s : State) :
    popAll put (ms ++ ns) s = (popAll put ms s).bind (popAll put ns) := by
  induction ms generalizing s with
  | nil => rfl
  | cons m ms ih =>
    simp only [List.cons_append, popAll]
    cases popSlot (put m) s with
    | error r => rfl
    | ok s1 => exact ih s1

/-- Popping integer registers other than `sp`. -/
theorem popAll_putX_spec (vals : Reg → Word) (ns : List Reg) (s : State) (hl : ns.length ≤ 32)
    (hn : ns.Nodup) (hsp : spReg ∉ ns) (hd : InDomain s s.sp (16 * ns.length))
    (hv : ∀ k (hk : k < ns.length), HoldsCell s (s.slotAbove k) 16 (vals ns[k])) :
    ∃ t, popAll putX ns s = .ok t ∧ t.sp = s.slotAbove ns.length ∧ (∀ r ∈ ns, t.getX r = vals r) ∧
      SameXBut (spReg :: ns) s t ∧ t.f = s.f ∧ t.mem = s.mem ∧ t.ip = s.ip ∧ t.cfg = s.cfg ∧
      t.draws = s.draws := by
  induction ns generalizing s with
  | nil => exact ⟨s, rfl, by simp [State.slotAbove], by simp, fun _ _ => rfl, rfl, rfl, rfl, rfl, rfl⟩
  | cons n ns ih =>
    simp only [List.length_cons] at hl hd ⊢
    rw [List.nodup_cons] at hn
    have hnsp : spReg ≠ n := fun e => hsp (by simp [e])
    have hns : spReg ∉ ns := fun h => hsp (by simp [h])
    have hslot : InDomain s s.sp 16 := hd.mono 0 (by simp) (by omega)
    have h0 : HoldsCell s s.sp 16 (vals n) := by
      have := hv 0 (by simp)
      simpa only [State.slotAbove, Nat.mul_zero, BitVec.ofNat_eq_ofNat, BitVec.add_zero, List.getElem_cons_zero]
        using this
    obtain ⟨s1, hs1⟩ : ∃ s1, s1 = (s.setX n (vals n)).setX spReg (s.sp + 16) := ⟨_, rfl⟩
    have e1 : popSlot (putX n) s = .ok s1 := by
      rw [popSlot_eq hslot h0, hs1]
      simp [putX, State.getX_setX_of_ne _ _ hnsp]
    have sp1 : s1.sp = s.sp + 16 := by rw [hs1]; simp
    have c1 : s1.cfg = s.cfg := by rw [hs1]; rfl
    have above1 : ∀ k, s1.slotAbove k = s.slotAbove (k + 1) := by
      intro k
      unfold State.slotAbove
      rw [sp1]
      bv_omega
    have x1 : ∀ r, r ≠ spReg → s1.getX r = if r = n then vals n else s.getX r := by
      intro r hr
      rw [hs1, State.getX_setX_of_ne _ _ hr, State.getX_setX]
    obtain ⟨t, e2, sp2, v2, x2, f2, m2, ip2, c2, d2⟩ := ih s1 (by omega) hn.2 hns
      (by
        have : s1.sp = s.sp + BitVec.ofNat 128 16 := sp1
        exact (hd.mono 16 this (by omega)).of_cfg c1)
      (by
        intro k hk
        rw [above1]
        exact (hv (k + 1) (by simpa using hk)).congr c1 fun j hj => by rw [hs1]; rfl)
    refine ⟨t, by simp only [popAll, e1, Except.bind, e2], by rw [sp2, above1], ?_, ?_, ?_, ?_, ?_, c2.trans c1, ?_⟩
    · intro r hr
      rcases List.mem_cons.1 hr with rfl | hr
      · rw [x2 r (by simp [Ne.symm hnsp, hn.1]), x1 r (Ne.symm hnsp), if_pos rfl]
      · exact v2 r hr
    · intro r hr
      simp only [List.mem_cons, not_or] at hr
      rw [x2 r (by simp [hr.1, hr.2.2]), x1 r hr.1, if_neg hr.2.1]
    · rw [f2, hs1]; rfl
    · rw [m2, hs1]; rfl
    · rw [ip2, hs1]; rfl
    · rw [d2, hs1]; rfl

/-- Popping floating-point registers. -/
theorem popAll_putF_spec (vals : FReg → Word) (ns : List FReg) (s : State) (hl : ns.length ≤ 32)
    (hn : ns.Nodup) (hd : InDomain s s.sp (16 * ns.length))
    (hv : ∀ k (hk : k < ns.length), HoldsCell s (s.slotAbove k) 16 (vals ns[k])) :
    ∃ t, popAll putF ns s = .ok t ∧ t.sp = s.slotAbove ns.length ∧ (∀ r ∈ ns, t.getF r = vals r) ∧
      SameXBut [spReg] s t ∧ SameFBut ns s t ∧ t.mem = s.mem ∧ t.ip = s.ip ∧ t.cfg = s.cfg ∧
      t.draws = s.draws := by
  induction ns generalizing s with
  | nil => exact ⟨s, rfl, by simp [State.slotAbove], by simp, fun _ _ => rfl, fun _ _ => rfl, rfl, rfl, rfl, rfl⟩
  | cons n ns ih =>
    simp only [List.length_cons] at hl hd ⊢
    rw [List.nodup_cons] at hn
    have hslot : InDomain s s.sp 16 := hd.mono 0 (by simp) (by omega)
    have h0 : HoldsCell s s.sp 16 (vals n) := by
      have := hv 0 (by simp)
      simpa only [State.slotAbove, Nat.mul_zero, BitVec.ofNat_eq_ofNat, BitVec.add_zero, List.getElem_cons_zero]
        using this
    obtain ⟨s1, hs1⟩ : ∃ s1, s1 = (s.setF n (vals n)).setX spReg (s.sp + 16) := ⟨_, rfl⟩
    have e1 : popSlot (putF n) s = .ok s1 := by
      rw [popSlot_eq hslot h0, hs1]
      simp [putF]
    have sp1 : s1.sp = s.sp + 16 := by rw [hs1]; simp
    have c1 : s1.cfg = s.cfg := by rw [hs1]; rfl
    have above1 : ∀ k, s1.slotAbove k = s.slotAbove (k + 1) := by
      intro k
      unfold State.slotAbove
      rw [sp1]
      bv_omega
    obtain ⟨t, e2, sp2, v2, x2, f2, m2, ip2, c2, d2⟩ := ih s1 (by omega) hn.2
      (by
        have : s1.sp = s.sp + BitVec.ofNat 128 16 := sp1
        exact (hd.mono 16 this (by omega)).of_cfg c1)
      (by
        intro k hk
        rw [above1]
        exact (hv (k + 1) (by simpa using hk)).congr c1 fun j hj => by rw [hs1]; rfl)
    refine ⟨t, by simp only [popAll, e1, Except.bind, e2], by rw [sp2, above1], ?_, ?_, ?_, ?_, ?_, c2.trans c1, ?_⟩
    · intro r hr
      rcases List.mem_cons.1 hr with rfl | hr
      · rw [f2 r hn.1, hs1]; simp
      · exact v2 r hr
    · intro r hr
      rw [x2 r hr, hs1, State.getX_setX_of_ne _ _ (by simpa using hr)]
      rfl
    · intro r hr
      simp only [List.mem_cons, not_or] at hr
      rw [f2 r hr.2, hs1]
      simpa using State.getF_setF_of_ne s (vals n) hr.1
    · rw [m2, hs1]; rfl
    · rw [ip2, hs1]; rfl
    · rw [d2, hs1]; rfl

/-- A pop loop stops at the first slot that is not mapped, the answer for the slots before it given. -/
theorem popAll_unmapped {put : Fin 32 → Word → State → State} {ms ns : List (Fin 32)} {n : Fin 32} {s t : State}
    (h : popAll put ms s = .ok t) (hd : ¬ InDomain t t.sp 16) :
    popAll put (ms ++ n :: ns) s = .error (.unmappedAccess t.sp 16 t) := by
  rw [popAll_append, h, Except.bind, popAll, popSlot_unmapped hd, Except.bind]

/-- A range in the order of a pop is its first `k` registers, those of places below `k`, the next one and the rest. -/
theorem inPopOrder_split (o : PopOrder) (i j : Fin 32) (k : Nat) (h : i.val + k ≤ j.val) :
    ∃ ms n ns, inPopOrder o (regRange i j) = ms ++ n :: ns ∧ ms.length = k ∧ ms.Nodup ∧
      (∀ q (hq : q < ms.length), popPlace o i j ms[q] = q) ∧
      ∀ m, m ∈ ms ↔ i ≤ m ∧ m ≤ j ∧ popPlace o i j m < k := by
  have hl : (inPopOrder o (regRange i j)).length = j.val + 1 - i.val := by rw [inPopOrder_length, regRange_length]
  have hij : i ≤ j := by rw [Fin.le_def]; omega
  have hlt : ((inPopOrder o (regRange i j)).take k).length = k := by rw [List.length_take]; omega
  refine ⟨(inPopOrder o (regRange i j)).take k, (inPopOrder o (regRange i j))[k]'(by omega),
    (inPopOrder o (regRange i j)).drop (k + 1), ?_, hlt,
    (inPopOrder_nodup o (regRange_nodup i j)).sublist (List.take_sublist _ _), fun q hq => ?_, fun m => ?_⟩
  · rw [← List.drop_eq_getElem_cons, List.take_append_drop]
  · obtain ⟨n, e, _, _, h⟩ := inPopOrder_getElem (o := o) hij (k := q) (by omega)
    rw [List.getElem_take, e, h]
  · constructor
    · intro hm
      obtain ⟨q, hq, e⟩ := List.getElem_of_mem hm
      obtain ⟨n, e', h1, h2, h3⟩ := inPopOrder_getElem (o := o) hij (k := q) (by omega)
      rw [List.getElem_take, e'] at e
      subst e
      exact ⟨h1, h2, by omega⟩
    · rintro ⟨h1, h2, h3⟩
      obtain ⟨n, e, h4, h5, h6⟩ := inPopOrder_getElem (o := o) hij (k := popPlace o i j m) (by omega)
      rw [Fin.le_def] at h1 h2 h4 h5
      have : n = m := by
        apply Fin.ext
        cases o <;> simp only [popPlace] at h6 <;> omega
      subst this
      rw [← e]
      exact List.mem_take_iff_getElem.2 ⟨_, by omega, rfl⟩

/-- A pop of a range of integer registers stops at its first unmapped slot: the registers of the places before it are loaded, `sp`
is at it (the place of `r31`, if the range has it, comes later). -/
theorem popAll_putX_unmapped {o : PopOrder} {i j : Reg} {k : Nat} {s : State} (vals : Reg → Word) (hk : i.val + k ≤ j.val)
    (hsp : ¬ (i ≤ spReg ∧ spReg ≤ j ∧ popPlace o i j spReg < k)) (hd : InDomain s s.sp (16 * k))
    (hn : ¬ InDomain s (s.slotAbove k) 16)
    (hv : ∀ m, i ≤ m → m ≤ j → popPlace o i j m < k → HoldsCell s (s.slotAbove (popPlace o i j m)) 16 (vals m)) :
    ∃ u, popAll putX (inPopOrder o (regRange i j)) s = .error (.unmappedAccess (s.slotAbove k) 16 u) ∧
      StoppedPopping s u (s.slotAbove k) s.ip (fun m => i ≤ m ∧ m ≤ j ∧ popPlace o i j m < k) vals := by
  obtain ⟨ms, n, ns, e, hl, hnd, hp, hm⟩ := inPopOrder_split o i j k hk
  obtain ⟨t, e2, sp, hg, hx, hf, hmem, hip, hcfg, _⟩ := popAll_putX_spec vals ms s (by omega) hnd
    (fun h => hsp ((hm _).1 h)) (by rw [hl]; exact hd) (fun q hq => by
      obtain ⟨h1, h2, h3⟩ := (hm _).1 (List.getElem_mem hq)
      have := hv _ h1 h2 h3
      rwa [hp q hq] at this)
  rw [hl] at sp
  refine ⟨t, ?_, sp, hip, fun m hms => ⟨fun h => hg m ((hm m).2 h), fun h => hx m ?_⟩, fun r _ => getF_of_f hf r,
    fun b => by unfold State.readByte; rw [hmem], hcfg⟩
  · rw [e, popAll_unmapped e2 (by rw [sp]; exact fun h => hn (h.of_cfg hcfg.symm)), sp]
  · rw [List.mem_cons, not_or]
    exact ⟨hms, fun h' => h ((hm m).1 h')⟩

/-- A pop of a range of floating-point registers stops at its first unmapped slot. -/
theorem popAll_putF_unmapped {o : PopOrder} {i j : FReg} {k : Nat} {s : State} (vals : FReg → Word) (hk : i.val + k ≤ j.val)
    (hd : InDomain s s.sp (16 * k)) (hn : ¬ InDomain s (s.slotAbove k) 16)
    (hv : ∀ m, i ≤ m → m ≤ j → popPlace o i j m < k → HoldsCell s (s.slotAbove (popPlace o i j m)) 16 (vals m)) :
    ∃ u, popAll putF (inPopOrder o (regRange i j)) s = .error (.unmappedAccess (s.slotAbove k) 16 u) ∧
      u.sp = s.slotAbove k ∧ (∀ m, i ≤ m ∧ m ≤ j ∧ popPlace o i j m < k → u.getF m = vals m) ∧
      (∀ m, ¬ (i ≤ m ∧ m ≤ j ∧ popPlace o i j m < k) → u.getF m = s.getF m) ∧
      SameXBut [spReg] s u ∧ SameBytes s u ∧ u.ip = s.ip ∧ u.cfg = s.cfg := by
  obtain ⟨ms, n, ns, e, hl, hnd, hp, hm⟩ := inPopOrder_split o i j k hk
  obtain ⟨t, e2, sp, hg, hx, hf, hmem, hip, hcfg, _⟩ := popAll_putF_spec vals ms s (by omega) hnd
    (by rw [hl]; exact hd) (fun q hq => by
      obtain ⟨h1, h2, h3⟩ := (hm _).1 (List.getElem_mem hq)
      have := hv _ h1 h2 h3
      rwa [hp q hq] at this)
  rw [hl] at sp
  refine ⟨t, ?_, sp, fun m h => hg m ((hm m).2 h), fun m h => hf m fun h' => h ((hm m).1 h'), hx,
    fun b => by unfold State.readByte; rw [hmem], hip, hcfg⟩
  rw [e, popAll_unmapped e2 (by rw [sp]; exact fun h => hn (h.of_cfg hcfg.symm)), sp]

end Sys2Proof.Machine
end

