-- ==== Sys2Proof/Laws/Ops.lean ====
section
/-! SUPPORT. One lemma for each shared operation that says once everything it can do, and the lemmas that say when it
completes and when it faults. -/

namespace Sys2Proof.Machine

/-- What every operation keeps: the parameters, the canonical form of memory; draws are only ever taken. -/
structure Keeps (s t : State) : Prop where
  cfg : t.cfg = s.cfg
  draws : s.draws ≤ t.draws
  wf : s.mem.wf → t.mem.wf

theorem Keeps.refl (s : State) : Keeps s s := ⟨rfl, le_refl _, id⟩

theorem Keeps.trans {s t u : State} (h : Keeps s t) (h' : Keeps t u) : Keeps s u :=
  ⟨h'.cfg.trans h.cfg, h.draws.trans h'.draws, h'.wf ∘ h.wf⟩

theorem keeps_setX (s : State) (r : Reg) (v : Word) : Keeps s (s.setX r v) := ⟨rfl, le_refl _, id⟩
theorem keeps_setF (s : State) (r : FReg) (v : Word) : Keeps s (s.setF r v) := ⟨rfl, le_refl _, id⟩
theorem keeps_setIp (s : State) (v : Word) : Keeps s (s.setIp v) := ⟨rfl, le_refl _, id⟩
theorem keeps_drawn (s : State) : Keeps s s.drawn := ⟨rfl, Nat.le_succ _, id⟩
theorem keeps_advance (s : State) : Keeps s s.advance := ⟨rfl, le_refl _, id⟩
theorem keeps_store (s : State) (a : Word) (n : Nat) (v : Word) : Keeps s (s.store a n v) :=
  ⟨rfl, le_refl _, fun h => wf_store h a n v⟩

/-! ### Ends -/

@[simp] theorem finish_eq_next {e : Except Fault State} {t : State} : finish e = .next t ↔ e = .ok t := by
  cases e <;> simp [finish]

@[simp] theorem finish_eq_fault {e : Except Fault State} {r : Fault} : finish e = .fault r ↔ e = .error r := by
  cases e <;> simp [finish]

@[simp] theorem finish_ne_refused {e : Except Fault State} {r : Refusal} : finish e ≠ .refused r := by
  cases e <;> simp [finish]

@[simp] theorem finish_ok (t : State) : finish (.ok t) = .next t := rfl

@[simp] theorem finish_error (r : Fault) : finish (.error r) = .fault r := rfl

/-! ### Answers of floating-point functions -/

theorem keeps_fpAfter {w : Nat} (s : State) (v : FpVal w) : Keeps s (fpAfter s v) := by
  cases v
  · exact Keeps.refl s
  · exact keeps_drawn s
  · exact keeps_drawn s

@[simp] theorem fpAfter_x {w : Nat} (s : State) (v : FpVal w) : (fpAfter s v).x = s.x := by cases v <;> rfl
@[simp] theorem fpAfter_f {w : Nat} (s : State) (v : FpVal w) : (fpAfter s v).f = s.f := by cases v <;> rfl
@[simp] theorem fpAfter_ip {w : Nat} (s : State) (v : FpVal w) : (fpAfter s v).ip = s.ip := by cases v <;> rfl
@[simp] theorem fpAfter_mem {w : Nat} (s : State) (v : FpVal w) : (fpAfter s v).mem = s.mem := by cases v <;> rfl
@[simp] theorem fpAfter_cfg {w : Nat} (s : State) (v : FpVal w) : (fpAfter s v).cfg = s.cfg := by cases v <;> rfl

@[simp] theorem setFp_x (s : State) (d : FReg) (v : FpVal 128) : (s.setFp d v).x = s.x := by simp [State.setFp]
@[simp] theorem setFp_ip (s : State) (d : FReg) (v : FpVal 128) : (s.setFp d v).ip = s.ip := by simp [State.setFp]
@[simp] theorem setFp_mem (s : State) (d : FReg) (v : FpVal 128) : (s.setFp d v).mem = s.mem := by
  simp [State.setFp]
@[simp] theorem setFp_cfg (s : State) (d : FReg) (v : FpVal 128) : (s.setFp d v).cfg = s.cfg := by
  simp [State.setFp]

@[simp] theorem getF_setFp_self (s : State) (d : FReg) (v : FpVal 128) :
    (s.setFp d v).getF d = fpBits (someNan binary128 128) s v := by
  simp [State.setFp]

theorem getF_setFp_of_ne (s : State) {d q : FReg} (v : FpVal 128) (h : q ≠ d) :
    (s.setFp d v).getF q = s.getF q := by
  rw [State.setFp, State.getF_setF_of_ne _ _ h]
  simp [State.getF]

theorem keeps_setFp (s : State) (d : FReg) (v : FpVal 128) : Keeps s (s.setFp d v) :=
  (keeps_fpAfter s v).trans (keeps_setF _ _ _)

/-! ### Loads and stores -/

theorem loadX_cases {n : Nat} {widen : Word → Word} {d : Reg} {m : MemOperand} {s t : State}
    (h : loadX n widen d m s = .ok t) :
    InDomain s (s.ea m) n ∧ t = s.setX d (widen (s.cell (s.ea m) n)) := by
  unfold loadX at h
  cases hr : memRead s (s.ea m) n with
  | error r => rw [hr] at h; cases h
  | ok v =>
    obtain ⟨h1, rfl⟩ := memRead_cases hr
    rw [hr] at h
    exact ⟨h1, by simpa [Except.map] using h.symm⟩

theorem loadX_eq {n : Nat} {widen : Word → Word} {d : Reg} {m : MemOperand} {s : State} {v : Word} (hn : n ≤ 16)
    (hd : InDomain s (s.ea m) n) (hv : HoldsCell s (s.ea m) n v) :
    loadX n widen d m s = .ok (s.setX d (widen (lowBytes n v))) := by
  rw [loadX, memRead_eq hd hv hn]
  rfl

theorem loadX_unmapped {n : Nat} {widen : Word → Word} {d : Reg} {m : MemOperand} {s : State}
    (hd : ¬ InDomain s (s.ea m) n) : loadX n widen d m s = .error (.unmappedAccess (s.ea m) n s) := by
  rw [loadX, memRead_unmapped hd]
  rfl

theorem loadX_fault {n : Nat} {widen : Word → Word} {d : Reg} {m : MemOperand} {s : State} {r : Fault}
    (h : loadX n widen d m s = .error r) : ¬ InDomain s (s.ea m) n ∧ r = .unmappedAccess (s.ea m) n s := by
  unfold loadX at h
  cases hr : memRead s (s.ea m) n with
  | error r' =>
    rw [hr] at h
    obtain ⟨h1, h2⟩ := memRead_fault hr
    cases h
    exact ⟨h1, h2⟩
  | ok v => rw [hr] at h; cases h

theorem storeX_cases {n : Nat} {r : Reg} {m : MemOperand} {s t : State} (h : storeX n r m s = .ok t) :
    InDomain s (s.ea m) n ∧ t = s.store (s.ea m) n (s.getX r) :=
  memWrite_cases h

theorem storeX_eq {n : Nat} {r : Reg} {m : MemOperand} {s : State} (hd : InDomain s (s.ea m) n) :
    storeX n r m s = .ok (s.store (s.ea m) n (s.getX r)) :=
  memWrite_eq _ hd

theorem storeX_unmapped {n : Nat} {r : Reg} {m : MemOperand} {s : State} (hd : ¬ InDomain s (s.ea m) n) :
    storeX n r m s = .error (.unmappedAccess (s.ea m) n s) := memWrite_unmapped _ hd

theorem storeX_fault {n : Nat} {q : Reg} {m : MemOperand} {s : State} {r : Fault} (h : storeX n q m s = .error r) :
    ¬ InDomain s (s.ea m) n ∧ r = .unmappedAccess (s.ea m) n s := by
  by_cases hd : InDomain s (s.ea m) n
  · rw [storeX_eq hd] at h; cases h
  · rw [storeX_unmapped hd] at h; cases h; exact ⟨hd, rfl⟩

theorem loadF_cases {n : Nat} {convert : Word → FpVal 128} {d : FReg} {m : MemOperand} {s t : State}
    (h : loadF n convert d m s = .ok t) :
    InDomain s (s.ea m) n ∧ t = s.setFp d (convert (s.cell (s.ea m) n)) := by
  unfold loadF at h
  cases hr : memRead s (s.ea m) n with
  | error r => rw [hr] at h; cases h
  | ok v =>
    obtain ⟨h1, rfl⟩ := memRead_cases hr
    rw [hr] at h
    exact ⟨h1, by simpa [Except.map] using h.symm⟩

theorem loadF_eq {n : Nat} {convert : Word → FpVal 128} {d : FReg} {m : MemOperand} {s : State} {v : Word}
    (hn : n ≤ 16) (hd : InDomain s (s.ea m) n) (hv : HoldsCell s (s.ea m) n v) :
    loadF n convert d m s = .ok (s.setFp d (convert (lowBytes n v))) := by
  rw [loadF, memRead_eq hd hv hn]
  rfl

theorem loadF_unmapped {n : Nat} {convert : Word → FpVal 128} {d : FReg} {m : MemOperand} {s : State}
    (hd : ¬ InDomain s (s.ea m) n) : loadF n convert d m s = .error (.unmappedAccess (s.ea m) n s) := by
  rw [loadF, memRead_unmapped hd]
  rfl

theorem loadF_fault {n : Nat} {convert : Word → FpVal 128} {d : FReg} {m : MemOperand} {s : State} {r : Fault}
    (h : loadF n convert d m s = .error r) : ¬ InDomain s (s.ea m) n ∧ r = .unmappedAccess (s.ea m) n s := by
  unfold loadF at h
  cases hr : memRead s (s.ea m) n with
  | error r' =>
    rw [hr] at h
    obtain ⟨h1, h2⟩ := memRead_fault hr
    cases h
    exact ⟨h1, h2⟩
  | ok v => rw [hr] at h; cases h

theorem storeF_cases {n w : Nat} {nan : Word → BitVec w} {v : FpVal w} {m : MemOperand} {s t : State}
    (h : storeF n nan v m s = .ok t) :
    InDomain s (s.ea m) n ∧ t = (fpAfter s v).store (s.ea m) n (zext (fpBits nan s v)) := by
  have := memWrite_cases h
  exact ⟨this.1.of_cfg (by simp), this.2⟩

theorem storeF_eq {n w : Nat} {nan : Word → BitVec w} {v : FpVal w} {m : MemOperand} {s : State}
    (hd : InDomain s (s.ea m) n) :
    storeF n nan v m s = .ok ((fpAfter s v).store (s.ea m) n (zext (fpBits nan s v))) :=
  memWrite_eq _ (hd.of_cfg (by simp))

theorem storeF_unmapped {n w : Nat} {nan : Word → BitVec w} {v : FpVal w} {m : MemOperand} {s : State}
    (hd : ¬ InDomain s (s.ea m) n) : storeF n nan v m s = .error (.unmappedAccess (s.ea m) n (fpAfter s v)) :=
  memWrite_unmapped _ fun h => hd (h.of_cfg (by simp))

theorem storeF_fault {n w : Nat} {nan : Word → BitVec w} {v : FpVal w} {m : MemOperand} {s : State} {r : Fault}
    (h : storeF n nan v m s = .error r) : ¬ InDomain s (s.ea m) n ∧ r = .unmappedAccess (s.ea m) n (fpAfter s v) := by
  by_cases hd : InDomain s (s.ea m) n
  · rw [storeF_eq hd] at h; cases h
  · rw [storeF_unmapped hd] at h; cases h; exact ⟨hd, rfl⟩

theorem keeps_loadX {n : Nat} {widen : Word → Word} {d : Reg} {m : MemOperand} {s t : State}
    (h : loadX n widen d m s = .ok t) : Keeps s t := by
  rw [(loadX_cases h).2]; exact keeps_setX _ _ _

theorem keeps_storeX {n : Nat} {r : Reg} {m : MemOperand} {s t : State} (h : storeX n r m s = .ok t) :
    Keeps s t := by
  rw [(storeX_cases h).2]; exact keeps_store _ _ _ _

theorem keeps_loadF {n : Nat} {convert : Word → FpVal 128} {d : FReg} {m : MemOperand} {s t : State}
    (h : loadF n convert d m s = .ok t) : Keeps s t := by
  rw [(loadF_cases h).2]; exact keeps_setFp _ _ _

theorem keeps_storeF {n w : Nat} {nan : Word → BitVec w} {v : FpVal w} {m : MemOperand} {s t : State}
    (h : storeF n nan v m s = .ok t) : Keeps s t := by
  rw [(storeF_cases h).2]; exact (keeps_fpAfter _ _).trans (keeps_store _ _ _ _)

/-! ### Stack -/

theorem keeps_pushSlot {v : State → Word} {s t : State} (h : pushSlot v s = .ok t) : Keeps s t := by
  rw [(pushSlot_cases h).2]; exact (keeps_setX _ _ _).trans (keeps_store _ _ _ _)

theorem keeps_popSlot {put : Word → State → State} (hput : ∀ v s, Keeps s (put v s)) {s t : State}
    (h : popSlot put s = .ok t) : Keeps s t := by
  rw [(popSlot_cases h).2]; exact (hput _ _).trans (keeps_setX _ _ _)

/-- The faults of a push of one slot. -/
theorem pushSlot_fault {v : State → Word} {s : State} {r : Fault} (h : pushSlot v s = .error r) :
    ¬ InDomain s (s.sp - 16) 16 ∧ r = .unmappedAccess (s.sp - 16) 16 (s.setX spReg (s.sp - 16)) := by
  by_cases hd : InDomain s (s.sp - 16) 16
  · rw [pushSlot_eq v hd] at h; cases h
  · rw [pushSlot_unmapped v hd] at h
    cases h
    exact ⟨hd, rfl⟩

/-- The faults of a pop of one slot. -/
theorem popSlot_fault {put : Word → State → State} {s : State} {r : Fault} (h : popSlot put s = .error r) :
    ¬ InDomain s s.sp 16 ∧ r = .unmappedAccess s.sp 16 s := by
  by_cases hd : InDomain s s.sp 16
  · rw [popSlot_eq hd (holdsCell_cell s s.sp (by omega))] at h; cases h
  · rw [popSlot_unmapped hd] at h
    cases h
    exact ⟨hd, rfl⟩

/-- Everything the push loop can do, seen from its one-slot steps: a relation that each slot's push satisfies and
that composes holds of the whole. -/
theorem pushAll_induct {R : State → State → Prop} (hr : ∀ s, R s s) (ht : ∀ s t u, R s t → R t u → R s u)
    (hs : ∀ v s t, pushSlot v s = .ok t → R s t) (get : State → Fin 32 → Word) (ns : List (Fin 32)) {s t : State}
    (h : pushAll get ns s = .ok t) : R s t := by
  induction ns generalizing s with
  | nil => cases h; exact hr _
  | cons n ns ih =>
    simp only [pushAll] at h
    cases h1 : pushSlot (fun s1 => get s1 n) s with
    | error r => rw [h1] at h; cases h
    | ok s1 => rw [h1] at h; exact ht _ _ _ (hs _ _ _ h1) (ih h)

/-- The same for the pop loop. -/
theorem popAll_induct {R : State → State → Prop} (hr : ∀ s, R s s) (ht : ∀ s t u, R s t → R t u → R s u)
    {put : Fin 32 → Word → State → State} (hs : ∀ n s t, popSlot (put n) s = .ok t → R s t)
    (ns : List (Fin 32)) {s t : State} (h : popAll put ns s = .ok t) : R s t := by
  induction ns generalizing s with
  | nil => cases h; exact hr _
  | cons n ns ih =>
    simp only [popAll] at h
    cases h1 : popSlot (put n) s with
    | error r => rw [h1] at h; cases h
    | ok s1 => rw [h1] at h; exact ht _ _ _ (hs _ _ _ h1) (ih h)

theorem keeps_pushAll (get : State → Fin 32 → Word) (ns : List (Fin 32)) {s t : State}
    (h : pushAll get ns s = .ok t) : Keeps s t :=
  pushAll_induct Keeps.refl (fun _ _ _ => Keeps.trans) (fun _ _ _ => keeps_pushSlot) get ns h

theorem keeps_popAll {put : Fin 32 → Word → State → State} (hput : ∀ n v s, Keeps s (put n v s))
    (ns : List (Fin 32)) {s t : State} (h : popAll put ns s = .ok t) : Keeps s t :=
  popAll_induct Keeps.refl (fun _ _ _ => Keeps.trans) (fun n _ _ => keeps_popSlot (hput n)) ns h

/-- A push loop faults only with an unmapped slot, and keeps what every operation keeps until it stops. -/
theorem pushAll_fault (get : State → Fin 32 → Word) (ns : List (Fin 32)) {s : State} {r : Fault}
    (h : pushAll get ns s = .error r) : ∃ u a, r = .unmappedAccess a 16 u ∧ ¬ InDomain s a 16 ∧ Keeps s u := by
  induction ns generalizing s with
  | nil => cases h
  | cons n ns ih =>
    simp only [pushAll] at h
    cases h1 : pushSlot (fun s1 => get s1 n) s with
    | error r' =>
      rw [h1] at h
      cases h
      obtain ⟨hd, rfl⟩ := pushSlot_fault h1
      exact ⟨_, _, rfl, hd, keeps_setX _ _ _⟩
    | ok s1 =>
      rw [h1] at h
      obtain ⟨u, a, rfl, hd, hk⟩ := ih h
      exact ⟨u, a, rfl, fun h => hd (h.of_cfg (keeps_pushSlot h1).cfg), (keeps_pushSlot h1).trans hk⟩

/-- A pop loop faults only with an unmapped slot, and keeps what every operation keeps until it stops. -/
theorem popAll_fault {put : Fin 32 → Word → State → State} (hput : ∀ n v s, Keeps s (put n v s))
    (ns : List (Fin 32)) {s : State} {r : Fault} (h : popAll put ns s = .error r) :
    ∃ u a, r = .unmappedAccess a 16 u ∧ ¬ InDomain s a 16 ∧ Keeps s u := by
  induction ns generalizing s with
  | nil => cases h
  | cons n ns ih =>
    simp only [popAll] at h
    cases h1 : popSlot (put n) s with
    | error r' =>
      rw [h1] at h
      cases h
      obtain ⟨hd, rfl⟩ := popSlot_fault h1
      exact ⟨_, _, rfl, hd, Keeps.refl s⟩
    | ok s1 =>
      rw [h1] at h
      obtain ⟨u, a, rfl, hd, hk⟩ := ih h
      have h1 := keeps_popSlot (hput n) h1
      exact ⟨u, a, rfl, fun h => hd (h.of_cfg h1.cfg), h1.trans hk⟩

theorem keeps_putX (n : Reg) (v : Word) (s : State) : Keeps s (putX n v s) := keeps_setX _ _ _
theorem keeps_putF (n : FReg) (v : Word) (s : State) : Keeps s (putF n v s) := keeps_setF _ _ _

/-! ### Results that may be free or may fault -/

theorem setShift_of_lt {d : Reg} {c : Word} {g : Nat → Word} {s : State} (h : c.toNat < 128) :
    setShift d c g s = s.setX d (g c.toNat) := if_pos h

theorem setShift_of_ge {d : Reg} {c : Word} {g : Nat → Word} {s : State} (h : 128 ≤ c.toNat) :
    setShift d c g s = s.drawn.setX d s.anyWord := if_neg (by omega)

/-- Everything a shift can do: it writes one register, and may take a draw. -/
theorem setShift_cases (d : Reg) (c : Word) (g : Nat → Word) (s : State) :
    (c.toNat < 128 ∧ setShift d c g s = s.setX d (g c.toNat)) ∨
      (128 ≤ c.toNat ∧ setShift d c g s = s.drawn.setX d s.anyWord) := by
  by_cases h : c.toNat < 128
  · exact .inl ⟨h, setShift_of_lt h⟩
  · exact .inr ⟨by omega, setShift_of_ge (by omega)⟩

theorem keeps_setShift (d : Reg) (c : Word) (g : Nat → Word) (s : State) : Keeps s (setShift d c g s) := by
  rcases setShift_cases d c g s with ⟨_, h⟩ | ⟨_, h⟩ <;> rw [h]
  · exact keeps_setX _ _ _
  · exact (keeps_drawn _).trans (keeps_setX _ _ _)

/-- Everything a rounding can do. -/
theorem setRounded_cases (d : Reg) (z : Option Int) (s : State) :
    (∃ k, z = some k ∧ setRounded d z s = s.setX d (BitVec.ofInt 128 k)) ∨
      (z = none ∧ setRounded d z s = s.drawn.setX d s.anyWord) := by
  cases z with
  | some k => exact .inl ⟨k, rfl, rfl⟩
  | none => exact .inr ⟨rfl, rfl⟩

theorem keeps_setRounded (d : Reg) (z : Option Int) (s : State) : Keeps s (setRounded d z s) := by
  rcases setRounded_cases d z s with ⟨k, _, h⟩ | ⟨_, h⟩ <;> rw [h]
  · exact keeps_setX _ _ _
  · exact (keeps_drawn _).trans (keeps_setX _ _ _)

/-- Everything a division can do: one register written with its answer. -/
theorem setDivision_cases {d : Reg} {v : State → Except Fault Word} {s t : State} (h : setDivision d v s = .ok t) :
    ∃ w, v s = .ok w ∧ t = s.setX d w := by
  unfold setDivision at h
  cases hv : v s with
  | error r => rw [hv] at h; cases h
  | ok w => rw [hv] at h; exact ⟨w, rfl, by simpa [Except.map] using h.symm⟩

/-- Everything a division of both results can do. -/
theorem setDivMod_cases {q r : Reg} {x y : State → Except Fault Word} {s t : State}
    (h : setDivMod q r x y s = .ok t) : ∃ v w, x s = .ok v ∧ y s = .ok w ∧ t = (s.setX q v).setX r w := by
  unfold setDivMod at h
  cases hx : x s with
  | error e => rw [hx] at h; cases h
  | ok v =>
    cases hy : y s with
    | error e => rw [hx, hy] at h; cases h
    | ok w => rw [hx, hy] at h; exact ⟨v, w, rfl, rfl, by simpa [Except.map, Except.bind] using h.symm⟩

theorem setDivision_eq {d : Reg} {v : State → Except Fault Word} {s : State} {w : Word} (h : v s = .ok w) :
    setDivision d v s = .ok (s.setX d w) := by
  rw [setDivision, h]
  rfl

theorem setDivMod_eq {q r : Reg} {x y : State → Except Fault Word} {s : State} {v w : Word} (hx : x s = .ok v)
    (hy : y s = .ok w) : setDivMod q r x y s = .ok ((s.setX q v).setX r w) := by
  rw [setDivMod, hx, hy]
  rfl

theorem setDivision_error {d : Reg} {v : State → Except Fault Word} {s : State} {r : Fault} (h : v s = .error r) :
    setDivision d v s = .error r := by
  rw [setDivision, h]
  rfl

theorem setDivMod_error {p q : Reg} {x y : State → Except Fault Word} {s : State} {r : Fault} (h : x s = .error r) :
    setDivMod p q x y s = .error r := by
  rw [setDivMod, h]
  rfl

theorem setDivision_fault {d : Reg} {v : State → Except Fault Word} {s : State} {r : Fault}
    (h : setDivision d v s = .error r) : v s = .error r := by
  unfold setDivision at h
  cases hv : v s with
  | error e => rw [hv] at h; simpa [Except.map] using h
  | ok w => rw [hv] at h; cases h

theorem setDivMod_fault {p q : Reg} {x y : State → Except Fault Word} {s : State} {r : Fault}
    (h : setDivMod p q x y s = .error r) : x s = .error r ∨ y s = .error r := by
  unfold setDivMod at h
  cases hx : x s with
  | error e => rw [hx] at h; exact .inl (by simpa [Except.bind] using h)
  | ok v =>
    cases hy : y s with
    | error e => rw [hx, hy] at h; exact .inr (by simpa [Except.bind, Except.map] using h)
    | ok w => rw [hx, hy] at h; cases h

theorem keeps_setDivision {d : Reg} {v : State → Except Fault Word} {s t : State} (h : setDivision d v s = .ok t) :
    Keeps s t := by
  obtain ⟨w, _, rfl⟩ := setDivision_cases h
  exact keeps_setX _ _ _

theorem keeps_setDivMod {q r : Reg} {x y : State → Except Fault Word} {s t : State}
    (h : setDivMod q r x y s = .ok t) : Keeps s t := by
  obtain ⟨v, w, _, _, rfl⟩ := setDivMod_cases h
  exact (keeps_setX _ _ _).trans (keeps_setX _ _ _)

theorem udiv_of_ne_zero {a b : Word} (s : State) (h : b ≠ 0) :
    udiv a b s = .ok (BitVec.ofNat 128 (a.toNat / b.toNat)) := if_neg h

theorem urem_of_ne_zero {a b : Word} (s : State) (h : b ≠ 0) :
    urem a b s = .ok (BitVec.ofNat 128 (a.toNat - a.toNat / b.toNat * b.toNat)) := if_neg h

theorem sdiv_of_ne_zero {a b : Word} (s : State) (h : b ≠ 0) (ho : ¬ (a.toInt = -2 ^ 127 ∧ b.toInt = -1)) :
    sdiv a b s = .ok (BitVec.ofInt 128 (quotient s.cfg.sdivRounding a.toInt b.toInt)) := by
  rw [sdiv, if_neg h, if_neg ho]

theorem srem_of_ne_zero {a b : Word} (s : State) (h : b ≠ 0) :
    srem a b s = .ok (BitVec.ofInt 128 (a.toInt - quotient s.cfg.sdivRounding a.toInt b.toInt * b.toInt)) := if_neg h

/-- A zero divisor faults in every division, with the state as it was. -/
theorem divisions_by_zero (a : Word) (s : State) :
    udiv a 0 s = .error (.divideByZero s) ∧ urem a 0 s = .error (.divideByZero s) ∧
      sdiv a 0 s = .error (.divideByZero s) ∧ srem a 0 s = .error (.divideByZero s) := by
  simp [udiv, urem, sdiv, srem]

theorem sdiv_overflow {a b : Word} (s : State) (ha : a.toInt = -2 ^ 127) (hb : b.toInt = -1) :
    sdiv a b s = .error (.divideOverflow s) := by
  have : b ≠ 0 := by rintro rfl; simp at hb
  rw [sdiv, if_neg this, if_pos ⟨ha, hb⟩]

theorem udiv_fault {a b : Word} {s : State} {r : Fault} (h : udiv a b s = .error r) : b = 0 ∧ r = .divideByZero s := by
  unfold udiv at h
  split at h <;> cases h
  exact ⟨‹_›, rfl⟩

theorem urem_fault {a b : Word} {s : State} {r : Fault} (h : urem a b s = .error r) : b = 0 ∧ r = .divideByZero s := by
  unfold urem at h
  split at h <;> cases h
  exact ⟨‹_›, rfl⟩

theorem sdiv_fault {a b : Word} {s : State} {r : Fault} (h : sdiv a b s = .error r) :
    b = 0 ∧ r = .divideByZero s ∨ (a.toInt = -2 ^ 127 ∧ b.toInt = -1) ∧ r = .divideOverflow s := by
  unfold sdiv at h
  split at h
  · cases h; exact .inl ⟨‹_›, rfl⟩
  · split at h
    · cases h; exact .inr ⟨‹_›, rfl⟩
    · cases h

theorem srem_fault {a b : Word} {s : State} {r : Fault} (h : srem a b s = .error r) : b = 0 ∧ r = .divideByZero s := by
  unfold srem at h
  split at h <;> cases h
  exact ⟨‹_›, rfl⟩

/-! ### Control transfer -/

/-- The table of conditions in terms of the signed reading. -/
theorem holds_iff (c : Cond) (v : Word) : holds c v = true ↔ CondTrue c v := by
  have hz : v = 0 ↔ v.toInt = 0 := by
    rw [← BitVec.toInt_inj]
    rfl
  have hm : v.msb = true ↔ v.toInt < 0 := BitVec.msb_eq_toInt.symm ▸ by simp
  cases c <;> simp only [holds, CondTrue, sval, Bool.and_eq_true, Bool.or_eq_true, bne_iff_ne, beq_iff_eq,
    Bool.not_eq_true', ne_eq, ← Bool.not_eq_true, hz, hm] <;> omega

theorem onlyIf_true {c : Cond} {v : Word} {act : State → Except Fault State} {s : State} (h : CondTrue c v) :
    onlyIf c v act s = act s := if_pos ((holds_iff c v).2 h)

theorem onlyIf_false {c : Cond} {v : Word} {act : State → Except Fault State} {s : State} (h : ¬ CondTrue c v) :
    onlyIf c v act s = .ok s := if_neg (mt (holds_iff c v).1 h)

/-- Everything a conditional can do. -/
theorem onlyIf_cases {c : Cond} {v : Word} {act : State → Except Fault State} {s t : State}
    (h : onlyIf c v act s = .ok t) : (CondTrue c v ∧ act s = .ok t) ∨ (¬ CondTrue c v ∧ t = s) := by
  by_cases hc : CondTrue c v
  · rw [onlyIf_true hc] at h; exact .inl ⟨hc, h⟩
  · rw [onlyIf_false hc] at h; exact .inr ⟨hc, by simpa using h.symm⟩

/-- The faults of a conditional are those of what it does when the condition holds. -/
theorem onlyIf_fault {c : Cond} {v : Word} {act : State → Except Fault State} {s : State} {r : Fault}
    (h : onlyIf c v act s = .error r) : CondTrue c v ∧ act s = .error r := by
  by_cases hc : CondTrue c v
  · rw [onlyIf_true hc] at h; exact ⟨hc, h⟩
  · rw [onlyIf_false hc] at h; cases h

theorem callTo_eq {s : State} (target : State → Word) (hd : InDomain s (s.sp - 16) 16) :
    callTo target s =
      let s1 := (s.setX spReg (s.sp - 16)).store (s.sp - 16) 16 s.ip
      .ok (s1.setIp (target s1)) := by
  rw [callTo, pushSlot_eq _ hd]
  rfl

/-- Everything a call can do. -/
theorem callTo_cases {target : State → Word} {s t : State} (h : callTo target s = .ok t) :
    InDomain s (s.sp - 16) 16 ∧
      t = ((s.setX spReg (s.sp - 16)).store (s.sp - 16) 16 s.ip).setIp
        (target ((s.setX spReg (s.sp - 16)).store (s.sp - 16) 16 s.ip)) := by
  unfold callTo at h
  cases h1 : pushSlot (fun s1 => s1.ip) s with
  | error r => rw [h1] at h; cases h
  | ok s1 =>
    obtain ⟨h2, rfl⟩ := pushSlot_cases h1
    rw [h1] at h
    exact ⟨h2, by simpa [Except.map] using h.symm⟩

theorem callTo_unmapped {s : State} (target : State → Word) (hd : ¬ InDomain s (s.sp - 16) 16) :
    callTo target s = .error (.unmappedAccess (s.sp - 16) 16 (s.setX spReg (s.sp - 16))) := by
  rw [callTo, pushSlot_unmapped _ hd]
  rfl

theorem callTo_fault {target : State → Word} {s : State} {r : Fault} (h : callTo target s = .error r) :
    ¬ InDomain s (s.sp - 16) 16 ∧ r = .unmappedAccess (s.sp - 16) 16 (s.setX spReg (s.sp - 16)) := by
  by_cases hd : InDomain s (s.sp - 16) 16
  · rw [callTo_eq _ hd] at h; cases h
  · rw [callTo_unmapped _ hd] at h; cases h; exact ⟨hd, rfl⟩

theorem popIp_eq {s : State} {v : Word} (hd : InDomain s s.sp 16) (hv : HoldsCell s s.sp 16 v) :
    popIp s = .ok ((s.setIp v).setX spReg (s.sp + 16)) := by
  rw [popIp, popSlot_eq hd hv]
  simp

/-- Everything the pop of `ip` can do. -/
theorem popIp_cases {s t : State} (h : popIp s = .ok t) :
    InDomain s s.sp 16 ∧ t = (s.setIp (s.cell s.sp 16)).setX spReg (s.sp + 16) := by
  have := popSlot_cases h
  exact ⟨this.1, by simpa using this.2⟩

theorem popIp_unmapped {s : State} (hd : ¬ InDomain s s.sp 16) :
    popIp s = .error (.unmappedAccess s.sp 16 s) := popSlot_unmapped hd

theorem returnWith_eq {s : State} {v : Word} (size : State → Word) (hd : InDomain s s.sp 16)
    (hv : HoldsCell s s.sp 16 v) :
    returnWith size s =
      let s1 := (s.setIp v).setX spReg (s.sp + 16)
      .ok (s1.setX spReg (s.sp + 16 + size s1)) := by
  rw [returnWith, popIp_eq hd hv]
  simp [Except.map]

/-- Everything a return that removes arguments can do. -/
theorem returnWith_cases {size : State → Word} {s t : State} (h : returnWith size s = .ok t) :
    InDomain s s.sp 16 ∧
      t = ((s.setIp (s.cell s.sp 16)).setX spReg (s.sp + 16)).setX spReg
        (s.sp + 16 + size ((s.setIp (s.cell s.sp 16)).setX spReg (s.sp + 16))) := by
  unfold returnWith at h
  cases h1 : popIp s with
  | error r => rw [h1] at h; cases h
  | ok s1 =>
    obtain ⟨h2, rfl⟩ := popIp_cases h1
    rw [h1] at h
    exact ⟨h2, by simpa [Except.map] using h.symm⟩

theorem returnWith_unmapped {s : State} (size : State → Word) (hd : ¬ InDomain s s.sp 16) :
    returnWith size s = .error (.unmappedAccess s.sp 16 s) := by
  rw [returnWith, popIp_unmapped hd]
  rfl

theorem returnWith_fault {size : State → Word} {s : State} {r : Fault} (h : returnWith size s = .error r) :
    ¬ InDomain s s.sp 16 ∧ r = .unmappedAccess s.sp 16 s := by
  by_cases hd : InDomain s s.sp 16
  · rw [returnWith_eq _ hd (holdsCell_cell s s.sp (by omega))] at h; cases h
  · rw [returnWith_unmapped _ hd] at h; cases h; exact ⟨hd, rfl⟩

theorem keeps_callTo {target : State → Word} {s t : State} (h : callTo target s = .ok t) : Keeps s t := by
  rw [(callTo_cases h).2]
  exact ((keeps_setX _ _ _).trans (keeps_store _ _ _ _)).trans (keeps_setIp _ _)

theorem keeps_popIp {s t : State} (h : popIp s = .ok t) : Keeps s t := by
  rw [(popIp_cases h).2]; exact (keeps_setIp _ _).trans (keeps_setX _ _ _)

theorem keeps_returnWith {size : State → Word} {s t : State} (h : returnWith size s = .ok t) : Keeps s t := by
  rw [(returnWith_cases h).2]
  exact ((keeps_setIp _ _).trans (keeps_setX _ _ _)).trans (keeps_setX _ _ _)

theorem keeps_onlyIf {c : Cond} {v : Word} {act : State → Except Fault State} {s t : State}
    (hact : act s = .ok t → Keeps s t) (h : onlyIf c v act s = .ok t) : Keeps s t := by
  rcases onlyIf_cases h with ⟨_, h⟩ | ⟨_, rfl⟩
  · exact hact h
  · exact Keeps.refl _

theorem keeps_jumpIf {c : Cond} {v : Word} {target : State → Word} {s t : State}
    (h : onlyIf c v (fun s1 => .ok (s1.setIp (target s1))) s = .ok t) : Keeps s t :=
  keeps_onlyIf (act := fun s1 => .ok (s1.setIp (target s1))) (fun h => by cases h; exact keeps_setIp _ _) h

/-! ### The software interrupt -/

/-- Everything taking the software interrupt can do: the loop, one more slot, the new `ip`. -/
theorem enterTrap_cases {number : State → BitVec 10} {s t : State} (h : enterTrap number s = .ok t) :
    ∃ s1 s2, pushAll State.getX allRegs s = .ok s1 ∧ pushSlot (fun u => u.ip) s1 = .ok s2 ∧
      t = s2.setIp (handlerEntry (number s2)) := by
  unfold enterTrap at h
  cases h1 : pushAll State.getX allRegs s with
  | error r => rw [h1] at h; cases h
  | ok s1 =>
    rw [h1] at h
    simp only [Except.bind] at h
    cases h2 : pushSlot (fun u => u.ip) s1 with
    | error r => rw [h2] at h; cases h
    | ok s2 =>
      rw [h2] at h
      exact ⟨s1, s2, rfl, h2, by simpa [Except.map] using h.symm⟩

/-- Everything the return from it can do. -/
theorem leaveTrap_cases {s t : State} (h : leaveTrap s = .ok t) :
    ∃ s1, popIp s = .ok s1 ∧ popAll putX (inPopOrder s.cfg.popOrder allRegs) s1 = .ok t := by
  unfold leaveTrap at h
  cases h1 : popIp s with
  | error r => rw [h1] at h; cases h
  | ok s1 => rw [h1] at h; exact ⟨s1, rfl, h⟩

/-- Taking the software interrupt faults only with an unmapped slot. -/
theorem enterTrap_fault {number : State → BitVec 10} {s : State} {r : Fault} (h : enterTrap number s = .error r) :
    ∃ u a, r = .unmappedAccess a 16 u ∧ ¬ InDomain s a 16 ∧ Keeps s u := by
  unfold enterTrap at h
  cases h1 : pushAll State.getX allRegs s with
  | error r' => rw [h1] at h; cases h; exact pushAll_fault _ _ h1
  | ok s1 =>
    rw [h1, Except.bind] at h
    have hk := keeps_pushAll _ _ h1
    cases h2 : pushSlot (fun u => u.ip) s1 with
    | error r' =>
      rw [h2] at h
      cases h
      obtain ⟨hd, rfl⟩ := pushSlot_fault h2
      exact ⟨_, _, rfl, fun h => hd (h.of_cfg hk.cfg), hk.trans (keeps_setX _ _ _)⟩
    | ok s2 => rw [h2] at h; cases h

/-- The return from it faults only with an unmapped slot. -/
theorem leaveTrap_fault {s : State} {r : Fault} (h : leaveTrap s = .error r) :
    ∃ u a, r = .unmappedAccess a 16 u ∧ ¬ InDomain s a 16 ∧ Keeps s u := by
  unfold leaveTrap at h
  cases h1 : popIp s with
  | error r' =>
    rw [h1] at h
    cases h
    obtain ⟨hd, rfl⟩ := popSlot_fault h1
    exact ⟨_, _, rfl, hd, Keeps.refl s⟩
  | ok s1 =>
    rw [h1, Except.bind] at h
    have hk := keeps_popIp h1
    obtain ⟨u, a, rfl, hd, hu⟩ := popAll_fault keeps_putX _ h
    exact ⟨u, a, rfl, fun h => hd (h.of_cfg hk.cfg), hk.trans hu⟩

/-- Taking the software interrupt stops where its push loop stops. -/
theorem enterTrap_error {number : State → BitVec 10} {s : State} {r : Fault} (h : pushAll State.getX allRegs s = .error r) :
    enterTrap number s = .error r := by
  rw [enterTrap, h, Except.bind]

/-- It stops at the slot of `ip` if that one alone is not mapped. -/
theorem enterTrap_unmapped {number : State → BitVec 10} {s s1 : State} (h1 : pushAll State.getX allRegs s = .ok s1)
    (hd : ¬ InDomain s1 (s1.sp - 16) 16) :
    enterTrap number s = .error (.unmappedAccess (s1.sp - 16) 16 (s1.setX spReg (s1.sp - 16))) := by
  rw [enterTrap, h1, Except.bind, pushSlot_unmapped _ hd, Except.map]

/-- Taking the software interrupt, from what the push loop and the push of `ip` give. Cite this lemma instead of
simplifying `enterTrap`: its loop over 32 registers must not be evaluated. -/
theorem enterTrap_eq {number : State → BitVec 10} {s s1 s2 : State} (h1 : pushAll State.getX allRegs s = .ok s1)
    (h2 : pushSlot (fun u => u.ip) s1 = .ok s2) :
    enterTrap number s = .ok (s2.setIp (handlerEntry (number s2))) := by
  rw [enterTrap, h1, Except.bind, h2, Except.map]

/-- The return from it, from what the pop of `ip` gives. -/
theorem leaveTrap_eq {s s1 : State} (h1 : popIp s = .ok s1) :
    leaveTrap s = popAll putX (inPopOrder s.cfg.popOrder allRegs) s1 := by
  rw [leaveTrap, h1, Except.bind]

/-- A pop loop over one list after another, the first loop's answer given. -/
theorem popAll_append_eq {put : Fin 32 → Word → State → State} {ms ns : List (Fin 32)} {s t : State}
    (h : popAll put ms s = .ok t) : popAll put (ms ++ ns) s = popAll put ns t := by
  rw [popAll_append, h, Except.bind]

/-- A pop loop of one register more, the first slot's answer given. -/
theorem popAll_cons_eq {put : Fin 32 → Word → State → State} {n : Fin 32} {ns : List (Fin 32)} {s t : State}
    (h : popSlot (put n) s = .ok t) : popAll put (n :: ns) s = popAll put ns t := by
  rw [popAll, h, Except.bind]

/-- Popping `r31` alone. -/
theorem popSlot_putX_sp {s : State} {v : Word} (hd : InDomain s s.sp 16) (hv : HoldsCell s s.sp 16 v) :
    popSlot (putX spReg) s = .ok (s.setX spReg (v + 16)) := by
  rw [popSlot_eq hd hv, putX, State.sp_eq_getX, State.getX_setX_self, State.setX_setX_self]

theorem keeps_enterTrap {number : State → BitVec 10} {s t : State} (h : enterTrap number s = .ok t) : Keeps s t := by
  obtain ⟨s1, s2, h1, h2, rfl⟩ := enterTrap_cases h
  exact ((keeps_pushAll _ _ h1).trans (keeps_pushSlot h2)).trans (keeps_setIp _ _)

theorem keeps_leaveTrap {s t : State} (h : leaveTrap s = .ok t) : Keeps s t := by
  obtain ⟨s1, h1, h2⟩ := leaveTrap_cases h
  exact (keeps_popIp h1).trans (keeps_popAll keeps_putX _ h2)

end Sys2Proof.Machine
end

