-- ==== Sys2Proof/Laws/PerInstr.lean ====
section
/-! SUPPORT. The family `EncodeKey`: the word of an instruction has the leading 12 bits T:OP of its row of the opcode tables
(spec/30_encoding.md R78 to R92), whatever its operands. -/

namespace Sys2Proof.Laws

/-- The columns (T, OP) of an instruction's row, as `T * 1024 + OP`. -/
def rowKey : Instr → Nat
  | .movR _ _ => 3 * 1024 + 0
  | .movu _ _ => 3 * 1024 + 1
  | .movs _ _ => 3 * 1024 + 2
  | .movLoad _ _ => 3 * 1024 + 3
  | .mov8u _ _ => 3 * 1024 + 4
  | .mov16u _ _ => 3 * 1024 + 5
  | .mov32u _ _ => 3 * 1024 + 6
  | .mov64u _ _ => 3 * 1024 + 7
  | .mov8s _ _ => 3 * 1024 + 8
  | .mov16s _ _ => 3 * 1024 + 9
  | .mov32s _ _ => 3 * 1024 + 10
  | .mov64s _ _ => 3 * 1024 + 11
  | .movStore _ _ => 3 * 1024 + 12
  | .mov8 _ _ => 3 * 1024 + 13
  | .mov16 _ _ => 3 * 1024 + 14
  | .mov32 _ _ => 3 * 1024 + 15
  | .mov64 _ _ => 3 * 1024 + 16
  | .push _ _ => 3 * 1024 + 17
  | .pop _ _ => 3 * 1024 + 18
  | .movF _ _ => 3 * 1024 + 19
  | .movFLoad _ _ => 3 * 1024 + 20
  | .mov32fLoad _ _ => 3 * 1024 + 21
  | .mov64fLoad _ _ => 3 * 1024 + 22
  | .mov80fLoad _ _ => 3 * 1024 + 23
  | .mov32fStore _ _ => 3 * 1024 + 24
  | .mov64fStore _ _ => 3 * 1024 + 25
  | .mov80fStore _ _ => 3 * 1024 + 26
  | .pushF _ _ => 3 * 1024 + 27
  | .popF _ _ => 3 * 1024 + 28
  | .addiR _ _ _ => 0 * 1024 + 0
  | .addiI _ _ _ => 0 * 1024 + 1
  | .subiR _ _ _ => 0 * 1024 + 2
  | .subiI _ _ _ => 0 * 1024 + 3
  | .muliuR _ _ _ => 0 * 1024 + 4
  | .muliuI _ _ _ => 0 * 1024 + 5
  | .mulisR _ _ _ => 0 * 1024 + 6
  | .mulisI _ _ _ => 0 * 1024 + 7
  | .diviuR _ _ _ => 0 * 1024 + 8
  | .diviuI _ _ _ => 0 * 1024 + 9
  | .divisR _ _ _ => 0 * 1024 + 10
  | .divisI _ _ _ => 0 * 1024 + 11
  | .modiuR _ _ _ => 0 * 1024 + 12
  | .modiuI _ _ _ => 0 * 1024 + 13
  | .modisR _ _ _ => 0 * 1024 + 14
  | .modisI _ _ _ => 0 * 1024 + 15
  | .divmodiu _ _ _ _ => 0 * 1024 + 16
  | .divmodis _ _ _ _ => 0 * 1024 + 17
  | .cmpiuR _ _ _ => 0 * 1024 + 18
  | .cmpiuI _ _ _ => 0 * 1024 + 19
  | .cmpisR _ _ _ => 0 * 1024 + 20
  | .cmpisI _ _ _ => 0 * 1024 + 21
  | .andR _ _ _ => 0 * 1024 + 22
  | .andI _ _ _ => 0 * 1024 + 23
  | .orR _ _ _ => 0 * 1024 + 24
  | .orI _ _ _ => 0 * 1024 + 25
  | .xorR _ _ _ => 0 * 1024 + 26
  | .xorI _ _ _ => 0 * 1024 + 27
  | .andnR _ _ _ => 0 * 1024 + 28
  | .andnI _ _ _ => 0 * 1024 + 29
  | .ornR _ _ _ => 0 * 1024 + 30
  | .ornI _ _ _ => 0 * 1024 + 31
  | .xornR _ _ _ => 0 * 1024 + 32
  | .xornI _ _ _ => 0 * 1024 + 33
  | .lshiftR _ _ _ => 0 * 1024 + 34
  | .lshiftI _ _ _ => 0 * 1024 + 35
  | .rshiftR _ _ _ => 0 * 1024 + 36
  | .rshiftI _ _ _ => 0 * 1024 + 37
  | .rshiftsR _ _ _ => 0 * 1024 + 38
  | .rshiftsI _ _ _ => 0 * 1024 + 39
  | .notR _ _ => 0 * 1024 + 40
  | .notI _ _ => 0 * 1024 + 41
  | .addf _ _ _ => 1 * 1024 + 0
  | .subf _ _ _ => 1 * 1024 + 1
  | .mulf _ _ _ => 1 * 1024 + 2
  | .divf _ _ _ => 1 * 1024 + 3
  | .cmpf _ _ _ => 1 * 1024 + 4
  | .roundn _ _ => 1 * 1024 + 5
  | .roundl _ _ => 1 * 1024 + 6
  | .roundg _ _ => 1 * 1024 + 7
  | .roundt _ _ => 1 * 1024 + 8
  | .frac _ _ => 1 * 1024 + 9
  | .jmp _ => 2 * 1024 + 0
  | .jmprR _ => 2 * 1024 + 8
  | .jmprI _ => 2 * 1024 + 16
  | .jmpS _ _ => 2 * 1024 + 24
  | .jmpZ _ _ => 2 * 1024 + 25
  | .jmpP _ _ => 2 * 1024 + 26
  | .jmpNz _ _ => 2 * 1024 + 27
  | .jmpGe _ _ => 2 * 1024 + 28
  | .jmpLe _ _ => 2 * 1024 + 29
  | .jmpSrR _ _ => 2 * 1024 + 32
  | .jmpZrR _ _ => 2 * 1024 + 33
  | .jmpPrR _ _ => 2 * 1024 + 34
  | .jmpNzrR _ _ => 2 * 1024 + 35
  | .jmpGerR _ _ => 2 * 1024 + 36
  | .jmpLerR _ _ => 2 * 1024 + 37
  | .jmpSrI _ _ => 2 * 1024 + 40
  | .jmpZrI _ _ => 2 * 1024 + 41
  | .jmpPrI _ _ => 2 * 1024 + 42
  | .jmpNzrI _ _ => 2 * 1024 + 43
  | .jmpGerI _ _ => 2 * 1024 + 44
  | .jmpLerI _ _ => 2 * 1024 + 45
  | .call _ => 2 * 1024 + 48
  | .callrR _ => 2 * 1024 + 56
  | .callrI _ => 2 * 1024 + 64
  | .callS _ _ => 2 * 1024 + 72
  | .callZ _ _ => 2 * 1024 + 73
  | .callP _ _ => 2 * 1024 + 74
  | .callNz _ _ => 2 * 1024 + 75
  | .callGe _ _ => 2 * 1024 + 76
  | .callLe _ _ => 2 * 1024 + 77
  | .callSrR _ _ => 2 * 1024 + 80
  | .callZrR _ _ => 2 * 1024 + 81
  | .callPrR _ _ => 2 * 1024 + 82
  | .callNzrR _ _ => 2 * 1024 + 83
  | .callGerR _ _ => 2 * 1024 + 84
  | .callLerR _ _ => 2 * 1024 + 85
  | .callSrI _ _ => 2 * 1024 + 88
  | .callZrI _ _ => 2 * 1024 + 89
  | .callPrI _ _ => 2 * 1024 + 90
  | .callNzrI _ _ => 2 * 1024 + 91
  | .callGerI _ _ => 2 * 1024 + 92
  | .callLerI _ _ => 2 * 1024 + 93
  | .ret => 2 * 1024 + 96
  | .retS _ => 2 * 1024 + 104
  | .retZ _ => 2 * 1024 + 105
  | .retP _ => 2 * 1024 + 106
  | .retNz _ => 2 * 1024 + 107
  | .retGe _ => 2 * 1024 + 108
  | .retLe _ => 2 * 1024 + 109
  | .retaR _ => 2 * 1024 + 112
  | .retaI _ => 2 * 1024 + 120
  | .retaSR _ _ => 2 * 1024 + 128
  | .retaZR _ _ => 2 * 1024 + 129
  | .retaPR _ _ => 2 * 1024 + 130
  | .retaNzR _ _ => 2 * 1024 + 131
  | .retaGeR _ _ => 2 * 1024 + 132
  | .retaLeR _ _ => 2 * 1024 + 133
  | .retaSI _ _ => 2 * 1024 + 136
  | .retaZI _ _ => 2 * 1024 + 137
  | .retaPI _ _ => 2 * 1024 + 138
  | .retaNzI _ _ => 2 * 1024 + 139
  | .retaGeI _ _ => 2 * 1024 + 140
  | .retaLeI _ _ => 2 * 1024 + 141
  | .trapR _ => 2 * 1024 + 144
  | .trapI _ => 2 * 1024 + 152
  | .reti => 2 * 1024 + 160

/-- The word of `i` has the key of its row, in every form of its operands. -/
def EncodeKey.Statement (i : Instr) : Prop := keyNumber (encode i) = rowKey i

theorem EncodeKey.movR (d : Reg) (a : Reg) : EncodeKey.Statement (.movR d a) :=
  keyNumber_wordD _ _ _
theorem EncodeKey.movu (d : Reg) (imm : BitVec 15) : EncodeKey.Statement (.movu d imm) :=
  keyNumber_wordC _ _ _
theorem EncodeKey.movs (d : Reg) (imm : BitVec 15) : EncodeKey.Statement (.movs d imm) :=
  keyNumber_wordC _ _ _
theorem EncodeKey.movLoad (d : Reg) (m : MemOperand) : EncodeKey.Statement (.movLoad d m) :=
  keyNumber_wordM _ _ _
theorem EncodeKey.mov8u (d : Reg) (m : MemOperand) : EncodeKey.Statement (.mov8u d m) :=
  keyNumber_wordM _ _ _
theorem EncodeKey.mov16u (d : Reg) (m : MemOperand) : EncodeKey.Statement (.mov16u d m) :=
  keyNumber_wordM _ _ _
theorem EncodeKey.mov32u (d : Reg) (m : MemOperand) : EncodeKey.Statement (.mov32u d m) :=
  keyNumber_wordM _ _ _
theorem EncodeKey.mov64u (d : Reg) (m : MemOperand) : EncodeKey.Statement (.mov64u d m) :=
  keyNumber_wordM _ _ _
theorem EncodeKey.mov8s (d : Reg) (m : MemOperand) : EncodeKey.Statement (.mov8s d m) :=
  keyNumber_wordM _ _ _
theorem EncodeKey.mov16s (d : Reg) (m : MemOperand) : EncodeKey.Statement (.mov16s d m) :=
  keyNumber_wordM _ _ _
theorem EncodeKey.mov32s (d : Reg) (m : MemOperand) : EncodeKey.Statement (.mov32s d m) :=
  keyNumber_wordM _ _ _
theorem EncodeKey.mov64s (d : Reg) (m : MemOperand) : EncodeKey.Statement (.mov64s d m) :=
  keyNumber_wordM _ _ _
theorem EncodeKey.movStore (r : Reg) (m : MemOperand) : EncodeKey.Statement (.movStore r m) :=
  keyNumber_wordM _ _ _
theorem EncodeKey.mov8 (r : Reg) (m : MemOperand) : EncodeKey.Statement (.mov8 r m) :=
  keyNumber_wordM _ _ _
theorem EncodeKey.mov16 (r : Reg) (m : MemOperand) : EncodeKey.Statement (.mov16 r m) :=
  keyNumber_wordM _ _ _
theorem EncodeKey.mov32 (r : Reg) (m : MemOperand) : EncodeKey.Statement (.mov32 r m) :=
  keyNumber_wordM _ _ _
theorem EncodeKey.mov64 (r : Reg) (m : MemOperand) : EncodeKey.Statement (.mov64 r m) :=
  keyNumber_wordM _ _ _
theorem EncodeKey.push (i : Reg) (j : Reg) : EncodeKey.Statement (.push i j) :=
  keyNumber_wordD _ _ _
theorem EncodeKey.pop (i : Reg) (j : Reg) : EncodeKey.Statement (.pop i j) :=
  keyNumber_wordD _ _ _
theorem EncodeKey.movF (d : FReg) (a : FReg) : EncodeKey.Statement (.movF d a) :=
  keyNumber_wordD _ _ _
theorem EncodeKey.movFLoad (d : FReg) (m : MemOperand) : EncodeKey.Statement (.movFLoad d m) :=
  keyNumber_wordM _ _ _
theorem EncodeKey.mov32fLoad (d : FReg) (m : MemOperand) : EncodeKey.Statement (.mov32fLoad d m) :=
  keyNumber_wordM _ _ _
theorem EncodeKey.mov64fLoad (d : FReg) (m : MemOperand) : EncodeKey.Statement (.mov64fLoad d m) :=
  keyNumber_wordM _ _ _
theorem EncodeKey.mov80fLoad (d : FReg) (m : MemOperand) : EncodeKey.Statement (.mov80fLoad d m) :=
  keyNumber_wordM _ _ _
theorem EncodeKey.mov32fStore (r : FReg) (m : MemOperand) : EncodeKey.Statement (.mov32fStore r m) :=
  keyNumber_wordM _ _ _
theorem EncodeKey.mov64fStore (r : FReg) (m : MemOperand) : EncodeKey.Statement (.mov64fStore r m) :=
  keyNumber_wordM _ _ _
theorem EncodeKey.mov80fStore (r : FReg) (m : MemOperand) : EncodeKey.Statement (.mov80fStore r m) :=
  keyNumber_wordM _ _ _
theorem EncodeKey.pushF (i : FReg) (j : FReg) : EncodeKey.Statement (.pushF i j) :=
  keyNumber_wordD _ _ _
theorem EncodeKey.popF (i : FReg) (j : FReg) : EncodeKey.Statement (.popF i j) :=
  keyNumber_wordD _ _ _
theorem EncodeKey.addiR (d : Reg) (a : Reg) (b : Reg) : EncodeKey.Statement (.addiR d a b) :=
  keyNumber_wordF _ _ _ _
theorem EncodeKey.addiI (d : Reg) (a : Reg) (imm : BitVec 10) : EncodeKey.Statement (.addiI d a imm) :=
  keyNumber_wordE _ _ _ _
theorem EncodeKey.subiR (d : Reg) (a : Reg) (b : Reg) : EncodeKey.Statement (.subiR d a b) :=
  keyNumber_wordF _ _ _ _
theorem EncodeKey.subiI (d : Reg) (a : Reg) (imm : BitVec 10) : EncodeKey.Statement (.subiI d a imm) :=
  keyNumber_wordE _ _ _ _
theorem EncodeKey.muliuR (d : Reg) (a : Reg) (b : Reg) : EncodeKey.Statement (.muliuR d a b) :=
  keyNumber_wordF _ _ _ _
theorem EncodeKey.muliuI (d : Reg) (a : Reg) (imm : BitVec 10) : EncodeKey.Statement (.muliuI d a imm) :=
  keyNumber_wordE _ _ _ _
theorem EncodeKey.mulisR (d : Reg) (a : Reg) (b : Reg) : EncodeKey.Statement (.mulisR d a b) :=
  keyNumber_wordF _ _ _ _
theorem EncodeKey.mulisI (d : Reg) (a : Reg) (imm : BitVec 10) : EncodeKey.Statement (.mulisI d a imm) :=
  keyNumber_wordE _ _ _ _
theorem EncodeKey.diviuR (d : Reg) (a : Reg) (b : Reg) : EncodeKey.Statement (.diviuR d a b) :=
  keyNumber_wordF _ _ _ _
theorem EncodeKey.diviuI (d : Reg) (a : Reg) (imm : BitVec 10) : EncodeKey.Statement (.diviuI d a imm) :=
  keyNumber_wordE _ _ _ _
theorem EncodeKey.divisR (d : Reg) (a : Reg) (b : Reg) : EncodeKey.Statement (.divisR d a b) :=
  keyNumber_wordF _ _ _ _
theorem EncodeKey.divisI (d : Reg) (a : Reg) (imm : BitVec 10) : EncodeKey.Statement (.divisI d a imm) :=
  keyNumber_wordE _ _ _ _
theorem EncodeKey.modiuR (d : Reg) (a : Reg) (b : Reg) : EncodeKey.Statement (.modiuR d a b) :=
  keyNumber_wordF _ _ _ _
theorem EncodeKey.modiuI (d : Reg) (a : Reg) (imm : BitVec 10) : EncodeKey.Statement (.modiuI d a imm) :=
  keyNumber_wordE _ _ _ _
theorem EncodeKey.modisR (d : Reg) (a : Reg) (b : Reg) : EncodeKey.Statement (.modisR d a b) :=
  keyNumber_wordF _ _ _ _
theorem EncodeKey.modisI (d : Reg) (a : Reg) (imm : BitVec 10) : EncodeKey.Statement (.modisI d a imm) :=
  keyNumber_wordE _ _ _ _
theorem EncodeKey.divmodiu (q : Reg) (r : Reg) (a : Reg) (b : Reg) : EncodeKey.Statement (.divmodiu q r a b) :=
  keyNumber_wordG _ _ _ _ _
theorem EncodeKey.divmodis (q : Reg) (r : Reg) (a : Reg) (b : Reg) : EncodeKey.Statement (.divmodis q r a b) :=
  keyNumber_wordG _ _ _ _ _
theorem EncodeKey.cmpiuR (d : Reg) (a : Reg) (b : Reg) : EncodeKey.Statement (.cmpiuR d a b) :=
  keyNumber_wordF _ _ _ _
theorem EncodeKey.cmpiuI (d : Reg) (a : Reg) (imm : BitVec 10) : EncodeKey.Statement (.cmpiuI d a imm) :=
  keyNumber_wordE _ _ _ _
theorem EncodeKey.cmpisR (d : Reg) (a : Reg) (b : Reg) : EncodeKey.Statement (.cmpisR d a b) :=
  keyNumber_wordF _ _ _ _
theorem EncodeKey.cmpisI (d : Reg) (a : Reg) (imm : BitVec 10) : EncodeKey.Statement (.cmpisI d a imm) :=
  keyNumber_wordE _ _ _ _
theorem EncodeKey.andR (d : Reg) (a : Reg) (b : Reg) : EncodeKey.Statement (.andR d a b) :=
  keyNumber_wordF _ _ _ _
theorem EncodeKey.andI (d : Reg) (a : Reg) (imm : BitVec 10) : EncodeKey.Statement (.andI d a imm) :=
  keyNumber_wordE _ _ _ _
theorem EncodeKey.orR (d : Reg) (a : Reg) (b : Reg) : EncodeKey.Statement (.orR d a b) :=
  keyNumber_wordF _ _ _ _
theorem EncodeKey.orI (d : Reg) (a : Reg) (imm : BitVec 10) : EncodeKey.Statement (.orI d a imm) :=
  keyNumber_wordE _ _ _ _
theorem EncodeKey.xorR (d : Reg) (a : Reg) (b : Reg) : EncodeKey.Statement (.xorR d a b) :=
  keyNumber_wordF _ _ _ _
theorem EncodeKey.xorI (d : Reg) (a : Reg) (imm : BitVec 10) : EncodeKey.Statement (.xorI d a imm) :=
  keyNumber_wordE _ _ _ _
theorem EncodeKey.andnR (d : Reg) (a : Reg) (b : Reg) : EncodeKey.Statement (.andnR d a b) :=
  keyNumber_wordF _ _ _ _
theorem EncodeKey.andnI (d : Reg) (a : Reg) (imm : BitVec 10) : EncodeKey.Statement (.andnI d a imm) :=
  keyNumber_wordE _ _ _ _
theorem EncodeKey.ornR (d : Reg) (a : Reg) (b : Reg) : EncodeKey.Statement (.ornR d a b) :=
  keyNumber_wordF _ _ _ _
theorem EncodeKey.ornI (d : Reg) (a : Reg) (imm : BitVec 10) : EncodeKey.Statement (.ornI d a imm) :=
  keyNumber_wordE _ _ _ _
theorem EncodeKey.xornR (d : Reg) (a : Reg) (b : Reg) : EncodeKey.Statement (.xornR d a b) :=
  keyNumber_wordF _ _ _ _
theorem EncodeKey.xornI (d : Reg) (a : Reg) (imm : BitVec 10) : EncodeKey.Statement (.xornI d a imm) :=
  keyNumber_wordE _ _ _ _
theorem EncodeKey.lshiftR (d : Reg) (a : Reg) (b : Reg) : EncodeKey.Statement (.lshiftR d a b) :=
  keyNumber_wordF _ _ _ _
theorem EncodeKey.lshiftI (d : Reg) (a : Reg) (imm : BitVec 10) : EncodeKey.Statement (.lshiftI d a imm) :=
  keyNumber_wordE _ _ _ _
theorem EncodeKey.rshiftR (d : Reg) (a : Reg) (b : Reg) : EncodeKey.Statement (.rshiftR d a b) :=
  keyNumber_wordF _ _ _ _
theorem EncodeKey.rshiftI (d : Reg) (a : Reg) (imm : BitVec 10) : EncodeKey.Statement (.rshiftI d a imm) :=
  keyNumber_wordE _ _ _ _
theorem EncodeKey.rshiftsR (d : Reg) (a : Reg) (b : Reg) : EncodeKey.Statement (.rshiftsR d a b) :=
  keyNumber_wordF _ _ _ _
theorem EncodeKey.rshiftsI (d : Reg) (a : Reg) (imm : BitVec 10) : EncodeKey.Statement (.rshiftsI d a imm) :=
  keyNumber_wordE _ _ _ _
theorem EncodeKey.notR (d : Reg) (a : Reg) : EncodeKey.Statement (.notR d a) :=
  keyNumber_wordD _ _ _
theorem EncodeKey.notI (d : Reg) (imm : BitVec 15) : EncodeKey.Statement (.notI d imm) :=
  keyNumber_wordC _ _ _
theorem EncodeKey.addf (d : FReg) (a : FReg) (b : FReg) : EncodeKey.Statement (.addf d a b) :=
  keyNumber_wordF _ _ _ _
theorem EncodeKey.subf (d : FReg) (a : FReg) (b : FReg) : EncodeKey.Statement (.subf d a b) :=
  keyNumber_wordF _ _ _ _
theorem EncodeKey.mulf (d : FReg) (a : FReg) (b : FReg) : EncodeKey.Statement (.mulf d a b) :=
  keyNumber_wordF _ _ _ _
theorem EncodeKey.divf (d : FReg) (a : FReg) (b : FReg) : EncodeKey.Statement (.divf d a b) :=
  keyNumber_wordF _ _ _ _
theorem EncodeKey.cmpf (d : Reg) (a : FReg) (b : FReg) : EncodeKey.Statement (.cmpf d a b) :=
  keyNumber_wordF _ _ _ _
theorem EncodeKey.roundn (d : Reg) (a : FReg) : EncodeKey.Statement (.roundn d a) :=
  keyNumber_wordD _ _ _
theorem EncodeKey.roundl (d : Reg) (a : FReg) : EncodeKey.Statement (.roundl d a) :=
  keyNumber_wordD _ _ _
theorem EncodeKey.roundg (d : Reg) (a : FReg) : EncodeKey.Statement (.roundg d a) :=
  keyNumber_wordD _ _ _
theorem EncodeKey.roundt (d : Reg) (a : FReg) : EncodeKey.Statement (.roundt d a) :=
  keyNumber_wordD _ _ _
theorem EncodeKey.frac (d : FReg) (a : FReg) : EncodeKey.Statement (.frac d a) :=
  keyNumber_wordD _ _ _
theorem EncodeKey.jmp (a : Reg) : EncodeKey.Statement (.jmp a) :=
  keyNumber_wordB _ _
theorem EncodeKey.jmprR (a : Reg) : EncodeKey.Statement (.jmprR a) :=
  keyNumber_wordB _ _
theorem EncodeKey.jmprI (imm : BitVec 20) : EncodeKey.Statement (.jmprI imm) :=
  keyNumber_wordA _ _
theorem EncodeKey.jmpS (t : Reg) (a : Reg) : EncodeKey.Statement (.jmpS t a) :=
  keyNumber_wordD _ _ _
theorem EncodeKey.jmpZ (t : Reg) (a : Reg) : EncodeKey.Statement (.jmpZ t a) :=
  keyNumber_wordD _ _ _
theorem EncodeKey.jmpP (t : Reg) (a : Reg) : EncodeKey.Statement (.jmpP t a) :=
  keyNumber_wordD _ _ _
theorem EncodeKey.jmpNz (t : Reg) (a : Reg) : EncodeKey.Statement (.jmpNz t a) :=
  keyNumber_wordD _ _ _
theorem EncodeKey.jmpGe (t : Reg) (a : Reg) : EncodeKey.Statement (.jmpGe t a) :=
  keyNumber_wordD _ _ _
theorem EncodeKey.jmpLe (t : Reg) (a : Reg) : EncodeKey.Statement (.jmpLe t a) :=
  keyNumber_wordD _ _ _
theorem EncodeKey.jmpSrR (t : Reg) (a : Reg) : EncodeKey.Statement (.jmpSrR t a) :=
  keyNumber_wordD _ _ _
theorem EncodeKey.jmpZrR (t : Reg) (a : Reg) : EncodeKey.Statement (.jmpZrR t a) :=
  keyNumber_wordD _ _ _
theorem EncodeKey.jmpPrR (t : Reg) (a : Reg) : EncodeKey.Statement (.jmpPrR t a) :=
  keyNumber_wordD _ _ _
theorem EncodeKey.jmpNzrR (t : Reg) (a : Reg) : EncodeKey.Statement (.jmpNzrR t a) :=
  keyNumber_wordD _ _ _
theorem EncodeKey.jmpGerR (t : Reg) (a : Reg) : EncodeKey.Statement (.jmpGerR t a) :=
  keyNumber_wordD _ _ _
theorem EncodeKey.jmpLerR (t : Reg) (a : Reg) : EncodeKey.Statement (.jmpLerR t a) :=
  keyNumber_wordD _ _ _
theorem EncodeKey.jmpSrI (t : Reg) (imm : BitVec 15) : EncodeKey.Statement (.jmpSrI t imm) :=
  keyNumber_wordC _ _ _
theorem EncodeKey.jmpZrI (t : Reg) (imm : BitVec 15) : EncodeKey.Statement (.jmpZrI t imm) :=
  keyNumber_wordC _ _ _
theorem EncodeKey.jmpPrI (t : Reg) (imm : BitVec 15) : EncodeKey.Statement (.jmpPrI t imm) :=
  keyNumber_wordC _ _ _
theorem EncodeKey.jmpNzrI (t : Reg) (imm : BitVec 15) : EncodeKey.Statement (.jmpNzrI t imm) :=
  keyNumber_wordC _ _ _
theorem EncodeKey.jmpGerI (t : Reg) (imm : BitVec 15) : EncodeKey.Statement (.jmpGerI t imm) :=
  keyNumber_wordC _ _ _
theorem EncodeKey.jmpLerI (t : Reg) (imm : BitVec 15) : EncodeKey.Statement (.jmpLerI t imm) :=
  keyNumber_wordC _ _ _
theorem EncodeKey.call (a : Reg) : EncodeKey.Statement (.call a) :=
  keyNumber_wordB _ _
theorem EncodeKey.callrR (a : Reg) : EncodeKey.Statement (.callrR a) :=
  keyNumber_wordB _ _
theorem EncodeKey.callrI (imm : BitVec 20) : EncodeKey.Statement (.callrI imm) :=
  keyNumber_wordA _ _
theorem EncodeKey.callS (t : Reg) (a : Reg) : EncodeKey.Statement (.callS t a) :=
  keyNumber_wordD _ _ _
theorem EncodeKey.callZ (t : Reg) (a : Reg) : EncodeKey.Statement (.callZ t a) :=
  keyNumber_wordD _ _ _
theorem EncodeKey.callP (t : Reg) (a : Reg) : EncodeKey.Statement (.callP t a) :=
  keyNumber_wordD _ _ _
theorem EncodeKey.callNz (t : Reg) (a : Reg) : EncodeKey.Statement (.callNz t a) :=
  keyNumber_wordD _ _ _
theorem EncodeKey.callGe (t : Reg) (a : Reg) : EncodeKey.Statement (.callGe t a) :=
  keyNumber_wordD _ _ _
theorem EncodeKey.callLe (t : Reg) (a : Reg) : EncodeKey.Statement (.callLe t a) :=
  keyNumber_wordD _ _ _
theorem EncodeKey.callSrR (t : Reg) (a : Reg) : EncodeKey.Statement (.callSrR t a) :=
  keyNumber_wordD _ _ _
theorem EncodeKey.callZrR (t : Reg) (a : Reg) : EncodeKey.Statement (.callZrR t a) :=
  keyNumber_wordD _ _ _
theorem EncodeKey.callPrR (t : Reg) (a : Reg) : EncodeKey.Statement (.callPrR t a) :=
  keyNumber_wordD _ _ _
theorem EncodeKey.callNzrR (t : Reg) (a : Reg) : EncodeKey.Statement (.callNzrR t a) :=
  keyNumber_wordD _ _ _
theorem EncodeKey.callGerR (t : Reg) (a : Reg) : EncodeKey.Statement (.callGerR t a) :=
  keyNumber_wordD _ _ _
theorem EncodeKey.callLerR (t : Reg) (a : Reg) : EncodeKey.Statement (.callLerR t a) :=
  keyNumber_wordD _ _ _
theorem EncodeKey.callSrI (t : Reg) (imm : BitVec 15) : EncodeKey.Statement (.callSrI t imm) :=
  keyNumber_wordC _ _ _
theorem EncodeKey.callZrI (t : Reg) (imm : BitVec 15) : EncodeKey.Statement (.callZrI t imm) :=
  keyNumber_wordC _ _ _
theorem EncodeKey.callPrI (t : Reg) (imm : BitVec 15) : EncodeKey.Statement (.callPrI t imm) :=
  keyNumber_wordC _ _ _
theorem EncodeKey.callNzrI (t : Reg) (imm : BitVec 15) : EncodeKey.Statement (.callNzrI t imm) :=
  keyNumber_wordC _ _ _
theorem EncodeKey.callGerI (t : Reg) (imm : BitVec 15) : EncodeKey.Statement (.callGerI t imm) :=
  keyNumber_wordC _ _ _
theorem EncodeKey.callLerI (t : Reg) (imm : BitVec 15) : EncodeKey.Statement (.callLerI t imm) :=
  keyNumber_wordC _ _ _
theorem EncodeKey.ret : EncodeKey.Statement .ret :=
  keyNumber_wordZ _
theorem EncodeKey.retS (t : Reg) : EncodeKey.Statement (.retS t) :=
  keyNumber_wordB _ _
theorem EncodeKey.retZ (t : Reg) : EncodeKey.Statement (.retZ t) :=
  keyNumber_wordB _ _
theorem EncodeKey.retP (t : Reg) : EncodeKey.Statement (.retP t) :=
  keyNumber_wordB _ _
theorem EncodeKey.retNz (t : Reg) : EncodeKey.Statement (.retNz t) :=
  keyNumber_wordB _ _
theorem EncodeKey.retGe (t : Reg) : EncodeKey.Statement (.retGe t) :=
  keyNumber_wordB _ _
theorem EncodeKey.retLe (t : Reg) : EncodeKey.Statement (.retLe t) :=
  keyNumber_wordB _ _
theorem EncodeKey.retaR (a : Reg) : EncodeKey.Statement (.retaR a) :=
  keyNumber_wordB _ _
theorem EncodeKey.retaI (imm : BitVec 20) : EncodeKey.Statement (.retaI imm) :=
  keyNumber_wordA _ _
theorem EncodeKey.retaSR (t : Reg) (a : Reg) : EncodeKey.Statement (.retaSR t a) :=
  keyNumber_wordD _ _ _
theorem EncodeKey.retaZR (t : Reg) (a : Reg) : EncodeKey.Statement (.retaZR t a) :=
  keyNumber_wordD _ _ _
theorem EncodeKey.retaPR (t : Reg) (a : Reg) : EncodeKey.Statement (.retaPR t a) :=
  keyNumber_wordD _ _ _
theorem EncodeKey.retaNzR (t : Reg) (a : Reg) : EncodeKey.Statement (.retaNzR t a) :=
  keyNumber_wordD _ _ _
theorem EncodeKey.retaGeR (t : Reg) (a : Reg) : EncodeKey.Statement (.retaGeR t a) :=
  keyNumber_wordD _ _ _
theorem EncodeKey.retaLeR (t : Reg) (a : Reg) : EncodeKey.Statement (.retaLeR t a) :=
  keyNumber_wordD _ _ _
theorem EncodeKey.retaSI (t : Reg) (imm : BitVec 15) : EncodeKey.Statement (.retaSI t imm) :=
  keyNumber_wordC _ _ _
theorem EncodeKey.retaZI (t : Reg) (imm : BitVec 15) : EncodeKey.Statement (.retaZI t imm) :=
  keyNumber_wordC _ _ _
theorem EncodeKey.retaPI (t : Reg) (imm : BitVec 15) : EncodeKey.Statement (.retaPI t imm) :=
  keyNumber_wordC _ _ _
theorem EncodeKey.retaNzI (t : Reg) (imm : BitVec 15) : EncodeKey.Statement (.retaNzI t imm) :=
  keyNumber_wordC _ _ _
theorem EncodeKey.retaGeI (t : Reg) (imm : BitVec 15) : EncodeKey.Statement (.retaGeI t imm) :=
  keyNumber_wordC _ _ _
theorem EncodeKey.retaLeI (t : Reg) (imm : BitVec 15) : EncodeKey.Statement (.retaLeI t imm) :=
  keyNumber_wordC _ _ _
theorem EncodeKey.trapR (a : Reg) : EncodeKey.Statement (.trapR a) :=
  keyNumber_wordB _ _
theorem EncodeKey.trapI (imm : BitVec 10) : EncodeKey.Statement (.trapI imm) :=
  keyNumber_wordA _ _
theorem EncodeKey.reti : EncodeKey.Statement .reti :=
  keyNumber_wordZ _

end Sys2Proof.Laws
end

