-- ==== Sys2Proof/Tests/Slice0.lean ====
section
/-! SUPPORT. Tests: the checks of WellFormed, the words of spec/30_encoding.md written out field by field, single steps from the
vectors of spec/95_test_vectors.md, and a witness for the hypotheses of every statement. -/

namespace Sys2Proof.Tests

open Sys2Proof Sys2Proof.Machine

set_option Elab.async false

/-! ### WellFormed: each check accepts and refuses -/

/-- 20 R43: the index is `r0` to `r30`. -/
theorem test_wf_index : Instr.wf (.movLoad 1 ⟨31, 30, .x16⟩) = true ∧ Instr.wf (.movLoad 1 ⟨2, 31, .x16⟩) = false ∧
    Instr.wf (.mov80fStore 1 ⟨2, 31, .x10⟩) = false := by decide

/-- 40 R139: a range ascends. -/
theorem test_wf_range : Instr.wf (.push 5 5) = true ∧ Instr.wf (.push 0 31) = true ∧ Instr.wf (.push 2 1) = false ∧
    Instr.wf (.pop 31 30) = false ∧ Instr.wf (.pushF 3 2) = false ∧ Instr.wf (.popF 31 0) = false := by decide

/-! ### Words written out from the tables of 30 R72 and R78 to R92 -/

/-- Every row of these tables, its fields in the order of its template. -/
theorem test_decode_moves_and_stack :
    decode 0b11_0000000000_01110_10011_0000000000#32 = .ok (.movR 14 19) ∧
    decode 0b11_0000000001_11011_100000000000000#32 = .ok (.movu 27 16384#15) ∧
    decode 0b11_0000000010_01000_000000000000101#32 = .ok (.movs 8 5#15) ∧
    decode 0b11_0000000011_10101_11110_10000_100_00#32 = .ok (.movLoad 21 ⟨30, 16, .x16⟩) ∧
    decode 0b11_0000000100_00010_00101_11011_101_00#32 = .ok (.mov8u 2 ⟨5, 27, .x10⟩) ∧
    decode 0b11_0000000101_01111_01100_00111_000_00#32 = .ok (.mov16u 15 ⟨12, 7, .x1⟩) ∧
    decode 0b11_0000000110_11100_10011_10010_001_00#32 = .ok (.mov32u 28 ⟨19, 18, .x2⟩) ∧
    decode 0b11_0000000111_01001_11010_11101_010_00#32 = .ok (.mov64u 9 ⟨26, 29, .x4⟩) ∧
    decode 0b11_0000001000_10110_00001_01001_011_00#32 = .ok (.mov8s 22 ⟨1, 9, .x8⟩) ∧
    decode 0b11_0000001001_00011_01000_10100_100_00#32 = .ok (.mov16s 3 ⟨8, 20, .x16⟩) ∧
    decode 0b11_0000001010_10000_01111_00000_101_00#32 = .ok (.mov32s 16 ⟨15, 0, .x10⟩) ∧
    decode 0b11_0000001011_11101_10110_01011_000_00#32 = .ok (.mov64s 29 ⟨22, 11, .x1⟩) ∧
    decode 0b11_0000001100_01010_11101_10110_001_00#32 = .ok (.movStore 10 ⟨29, 22, .x2⟩) ∧
    decode 0b11_0000001101_10111_00100_00010_010_00#32 = .ok (.mov8 23 ⟨4, 2, .x4⟩) ∧
    decode 0b11_0000001110_00100_01011_01101_011_00#32 = .ok (.mov16 4 ⟨11, 13, .x8⟩) ∧
    decode 0b11_0000001111_10001_10010_11000_100_00#32 = .ok (.mov32 17 ⟨18, 24, .x16⟩) ∧
    decode 0b11_0000010000_11110_11001_00100_101_00#32 = .ok (.mov64 30 ⟨25, 4, .x10⟩) ∧
    decode 0b11_0000010001_01011_10000_0000000000#32 = .ok (.push 11 16) ∧
    decode 0b11_0000010010_11000_11101_0000000000#32 = .ok (.pop 24 29) := by decide +kernel

/-- Every row of these tables, its fields in the order of its template. -/
theorem test_decode_integer_arithmetic :
    decode 0b00_0000000000_01110_10011_11000_00000#32 = .ok (.addiR 14 19 24) ∧
    decode 0b00_0000000001_11011_00000_1000000000#32 = .ok (.addiI 27 0 512#10) ∧
    decode 0b00_0000000010_01000_01101_10010_00000#32 = .ok (.subiR 8 13 18) ∧
    decode 0b00_0000000011_10101_11010_1111111101#32 = .ok (.subiI 21 26 1021#10) ∧
    decode 0b00_0000000100_00010_00111_01100_00000#32 = .ok (.muliuR 2 7 12) ∧
    decode 0b00_0000000101_01111_10100_1000000000#32 = .ok (.muliuI 15 20 512#10) ∧
    decode 0b00_0000000110_11100_00001_00110_00000#32 = .ok (.mulisR 28 1 6) ∧
    decode 0b00_0000000111_01001_01110_1111111101#32 = .ok (.mulisI 9 14 1021#10) ∧
    decode 0b00_0000001000_10110_11011_00000_00000#32 = .ok (.diviuR 22 27 0) ∧
    decode 0b00_0000001001_00011_01000_1000000000#32 = .ok (.diviuI 3 8 512#10) ∧
    decode 0b00_0000001010_10000_10101_11010_00000#32 = .ok (.divisR 16 21 26) ∧
    decode 0b00_0000001011_11101_00010_1111111101#32 = .ok (.divisI 29 2 1021#10) ∧
    decode 0b00_0000001100_01010_01111_10100_00000#32 = .ok (.modiuR 10 15 20) ∧
    decode 0b00_0000001101_10111_11100_1000000000#32 = .ok (.modiuI 23 28 512#10) ∧
    decode 0b00_0000001110_00100_01001_01110_00000#32 = .ok (.modisR 4 9 14) ∧
    decode 0b00_0000001111_10001_10110_1111111101#32 = .ok (.modisI 17 22 1021#10) ∧
    decode 0b00_0000010000_11110_00011_01000_01101#32 = .ok (.divmodiu 30 3 8 13) ∧
    decode 0b00_0000010001_01011_10000_10101_11010#32 = .ok (.divmodis 11 16 21 26) ∧
    decode 0b00_0000010010_11000_11101_00010_00000#32 = .ok (.cmpiuR 24 29 2) ∧
    decode 0b00_0000010011_00101_01010_1111111101#32 = .ok (.cmpiuI 5 10 1021#10) ∧
    decode 0b00_0000010100_10010_10111_11100_00000#32 = .ok (.cmpisR 18 23 28) ∧
    decode 0b00_0000010101_11111_00100_1000000000#32 = .ok (.cmpisI 31 4 512#10) := by decide +kernel

/-- Every row of these tables, its fields in the order of its template. -/
theorem test_decode_bitwise :
    decode 0b00_0000010110_01110_10011_11000_00000#32 = .ok (.andR 14 19 24) ∧
    decode 0b00_0000010111_11011_00000_1000000000#32 = .ok (.andI 27 0 512#10) ∧
    decode 0b00_0000011000_01000_01101_10010_00000#32 = .ok (.orR 8 13 18) ∧
    decode 0b00_0000011001_10101_11010_1111111101#32 = .ok (.orI 21 26 1021#10) ∧
    decode 0b00_0000011010_00010_00111_01100_00000#32 = .ok (.xorR 2 7 12) ∧
    decode 0b00_0000011011_01111_10100_1000000000#32 = .ok (.xorI 15 20 512#10) ∧
    decode 0b00_0000011100_11100_00001_00110_00000#32 = .ok (.andnR 28 1 6) ∧
    decode 0b00_0000011101_01001_01110_1111111101#32 = .ok (.andnI 9 14 1021#10) ∧
    decode 0b00_0000011110_10110_11011_00000_00000#32 = .ok (.ornR 22 27 0) ∧
    decode 0b00_0000011111_00011_01000_1000000000#32 = .ok (.ornI 3 8 512#10) ∧
    decode 0b00_0000100000_10000_10101_11010_00000#32 = .ok (.xornR 16 21 26) ∧
    decode 0b00_0000100001_11101_00010_1111111101#32 = .ok (.xornI 29 2 1021#10) ∧
    decode 0b00_0000100010_01010_01111_10100_00000#32 = .ok (.lshiftR 10 15 20) ∧
    decode 0b00_0000100011_10111_11100_1000000000#32 = .ok (.lshiftI 23 28 512#10) ∧
    decode 0b00_0000100100_00100_01001_01110_00000#32 = .ok (.rshiftR 4 9 14) ∧
    decode 0b00_0000100101_10001_10110_1111111101#32 = .ok (.rshiftI 17 22 1021#10) ∧
    decode 0b00_0000100110_11110_00011_01000_00000#32 = .ok (.rshiftsR 30 3 8) ∧
    decode 0b00_0000100111_01011_10000_1000000000#32 = .ok (.rshiftsI 11 16 512#10) ∧
    decode 0b00_0000101000_11000_11101_0000000000#32 = .ok (.notR 24 29) ∧
    decode 0b00_0000101001_00101_111111111111101#32 = .ok (.notI 5 32765#15) := by decide +kernel

/-- Every row of these tables, its fields in the order of its template. -/
theorem test_decode_float_moves :
    decode 0b11_0000010011_01110_10011_0000000000#32 = .ok (.movF 14 19) ∧
    decode 0b11_0000010100_11011_10000_11001_010_00#32 = .ok (.movFLoad 27 ⟨16, 25, .x4⟩) ∧
    decode 0b11_0000010101_01000_10111_00101_011_00#32 = .ok (.mov32fLoad 8 ⟨23, 5, .x8⟩) ∧
    decode 0b11_0000010110_10101_11110_10000_100_00#32 = .ok (.mov64fLoad 21 ⟨30, 16, .x16⟩) ∧
    decode 0b11_0000010111_00010_00101_11011_101_00#32 = .ok (.mov80fLoad 2 ⟨5, 27, .x10⟩) ∧
    decode 0b11_0000011000_01111_01100_00111_000_00#32 = .ok (.mov32fStore 15 ⟨12, 7, .x1⟩) ∧
    decode 0b11_0000011001_11100_10011_10010_001_00#32 = .ok (.mov64fStore 28 ⟨19, 18, .x2⟩) ∧
    decode 0b11_0000011010_01001_11010_11101_010_00#32 = .ok (.mov80fStore 9 ⟨26, 29, .x4⟩) ∧
    decode 0b11_0000011011_10110_11011_0000000000#32 = .ok (.pushF 22 27) ∧
    decode 0b11_0000011100_00011_01000_0000000000#32 = .ok (.popF 3 8) := by decide +kernel

/-- Every row of these tables, its fields in the order of its template. -/
theorem test_decode_float_arithmetic :
    decode 0b01_0000000000_01110_10011_11000_00000#32 = .ok (.addf 14 19 24) ∧
    decode 0b01_0000000001_11011_00000_00101_00000#32 = .ok (.subf 27 0 5) ∧
    decode 0b01_0000000010_01000_01101_10010_00000#32 = .ok (.mulf 8 13 18) ∧
    decode 0b01_0000000011_10101_11010_11111_00000#32 = .ok (.divf 21 26 31) ∧
    decode 0b01_0000000100_00010_00111_01100_00000#32 = .ok (.cmpf 2 7 12) ∧
    decode 0b01_0000000101_01111_10100_0000000000#32 = .ok (.roundn 15 20) ∧
    decode 0b01_0000000110_11100_00001_0000000000#32 = .ok (.roundl 28 1) ∧
    decode 0b01_0000000111_01001_01110_0000000000#32 = .ok (.roundg 9 14) ∧
    decode 0b01_0000001000_10110_11011_0000000000#32 = .ok (.roundt 22 27) ∧
    decode 0b01_0000001001_00011_01000_0000000000#32 = .ok (.frac 3 8) := by decide +kernel

/-- Every row of these tables, its fields in the order of its template. -/
theorem test_decode_jumps :
    decode 0b10_0000000000_01110_000000000000000#32 = .ok (.jmp 14) ∧
    decode 0b10_0000001000_11011_000000000000000#32 = .ok (.jmprR 27) ∧
    decode 0b10_0000010000_00000000000000000101#32 = .ok (.jmprI 5#20) ∧
    decode 0b10_0000011000_10101_11010_0000000000#32 = .ok (.jmpS 21 26) ∧
    decode 0b10_0000011001_00010_00111_0000000000#32 = .ok (.jmpZ 2 7) ∧
    decode 0b10_0000011010_01111_10100_0000000000#32 = .ok (.jmpP 15 20) ∧
    decode 0b10_0000011011_11100_00001_0000000000#32 = .ok (.jmpNz 28 1) ∧
    decode 0b10_0000011100_01001_01110_0000000000#32 = .ok (.jmpGe 9 14) ∧
    decode 0b10_0000011101_10110_11011_0000000000#32 = .ok (.jmpLe 22 27) ∧
    decode 0b10_0000100000_00011_01000_0000000000#32 = .ok (.jmpSrR 3 8) ∧
    decode 0b10_0000100001_10000_10101_0000000000#32 = .ok (.jmpZrR 16 21) ∧
    decode 0b10_0000100010_11101_00010_0000000000#32 = .ok (.jmpPrR 29 2) ∧
    decode 0b10_0000100011_01010_01111_0000000000#32 = .ok (.jmpNzrR 10 15) ∧
    decode 0b10_0000100100_10111_11100_0000000000#32 = .ok (.jmpGerR 23 28) ∧
    decode 0b10_0000100101_00100_01001_0000000000#32 = .ok (.jmpLerR 4 9) ∧
    decode 0b10_0000101000_10001_111111111111101#32 = .ok (.jmpSrI 17 32765#15) ∧
    decode 0b10_0000101001_11110_011111111111111#32 = .ok (.jmpZrI 30 16383#15) ∧
    decode 0b10_0000101010_01011_100000000000000#32 = .ok (.jmpPrI 11 16384#15) ∧
    decode 0b10_0000101011_11000_000000000000101#32 = .ok (.jmpNzrI 24 5#15) ∧
    decode 0b10_0000101100_00101_111111111111101#32 = .ok (.jmpGerI 5 32765#15) ∧
    decode 0b10_0000101101_10010_011111111111111#32 = .ok (.jmpLerI 18 16383#15) := by decide +kernel

/-- Every row of these tables, its fields in the order of its template. -/
theorem test_decode_calls :
    decode 0b10_0000110000_01110_000000000000000#32 = .ok (.call 14) ∧
    decode 0b10_0000111000_11011_000000000000000#32 = .ok (.callrR 27) ∧
    decode 0b10_0001000000_00000000000000000101#32 = .ok (.callrI 5#20) ∧
    decode 0b10_0001001000_10101_11010_0000000000#32 = .ok (.callS 21 26) ∧
    decode 0b10_0001001001_00010_00111_0000000000#32 = .ok (.callZ 2 7) ∧
    decode 0b10_0001001010_01111_10100_0000000000#32 = .ok (.callP 15 20) ∧
    decode 0b10_0001001011_11100_00001_0000000000#32 = .ok (.callNz 28 1) ∧
    decode 0b10_0001001100_01001_01110_0000000000#32 = .ok (.callGe 9 14) ∧
    decode 0b10_0001001101_10110_11011_0000000000#32 = .ok (.callLe 22 27) ∧
    decode 0b10_0001010000_00011_01000_0000000000#32 = .ok (.callSrR 3 8) ∧
    decode 0b10_0001010001_10000_10101_0000000000#32 = .ok (.callZrR 16 21) ∧
    decode 0b10_0001010010_11101_00010_0000000000#32 = .ok (.callPrR 29 2) ∧
    decode 0b10_0001010011_01010_01111_0000000000#32 = .ok (.callNzrR 10 15) ∧
    decode 0b10_0001010100_10111_11100_0000000000#32 = .ok (.callGerR 23 28) ∧
    decode 0b10_0001010101_00100_01001_0000000000#32 = .ok (.callLerR 4 9) ∧
    decode 0b10_0001011000_10001_111111111111101#32 = .ok (.callSrI 17 32765#15) ∧
    decode 0b10_0001011001_11110_011111111111111#32 = .ok (.callZrI 30 16383#15) ∧
    decode 0b10_0001011010_01011_100000000000000#32 = .ok (.callPrI 11 16384#15) ∧
    decode 0b10_0001011011_11000_000000000000101#32 = .ok (.callNzrI 24 5#15) ∧
    decode 0b10_0001011100_00101_111111111111101#32 = .ok (.callGerI 5 32765#15) ∧
    decode 0b10_0001011101_10010_011111111111111#32 = .ok (.callLerI 18 16383#15) := by decide +kernel

/-- Every row of these tables, its fields in the order of its template. -/
theorem test_decode_returns_and_traps :
    decode 0b10_0001100000_00000000000000000000#32 = .ok (.ret) ∧
    decode 0b10_0001101000_11011_000000000000000#32 = .ok (.retS 27) ∧
    decode 0b10_0001101001_01000_000000000000000#32 = .ok (.retZ 8) ∧
    decode 0b10_0001101010_10101_000000000000000#32 = .ok (.retP 21) ∧
    decode 0b10_0001101011_00010_000000000000000#32 = .ok (.retNz 2) ∧
    decode 0b10_0001101100_01111_000000000000000#32 = .ok (.retGe 15) ∧
    decode 0b10_0001101101_11100_000000000000000#32 = .ok (.retLe 28) ∧
    decode 0b10_0001110000_01001_000000000000000#32 = .ok (.retaR 9) ∧
    decode 0b10_0001111000_01111111111111111111#32 = .ok (.retaI 524287#20) ∧
    decode 0b10_0010000000_00011_01000_0000000000#32 = .ok (.retaSR 3 8) ∧
    decode 0b10_0010000001_10000_10101_0000000000#32 = .ok (.retaZR 16 21) ∧
    decode 0b10_0010000010_11101_00010_0000000000#32 = .ok (.retaPR 29 2) ∧
    decode 0b10_0010000011_01010_01111_0000000000#32 = .ok (.retaNzR 10 15) ∧
    decode 0b10_0010000100_10111_11100_0000000000#32 = .ok (.retaGeR 23 28) ∧
    decode 0b10_0010000101_00100_01001_0000000000#32 = .ok (.retaLeR 4 9) ∧
    decode 0b10_0010001000_10001_111111111111101#32 = .ok (.retaSI 17 32765#15) ∧
    decode 0b10_0010001001_11110_011111111111111#32 = .ok (.retaZI 30 16383#15) ∧
    decode 0b10_0010001010_01011_100000000000000#32 = .ok (.retaPI 11 16384#15) ∧
    decode 0b10_0010001011_11000_000000000000101#32 = .ok (.retaNzI 24 5#15) ∧
    decode 0b10_0010001100_00101_111111111111101#32 = .ok (.retaGeI 5 32765#15) ∧
    decode 0b10_0010001101_10010_011111111111111#32 = .ok (.retaLeI 18 16383#15) ∧
    decode 0b10_0010010000_11111_000000000000000#32 = .ok (.trapR 31) ∧
    decode 0b10_0010011000_0000000000_0000000101#32 = .ok (.trapI 5#10) ∧
    decode 0b10_0010100000_00000000000000000000#32 = .ok (.reti) := by decide +kernel

/-- 95 section 2.7: the words that select no instruction, each with its case of 30 R94. -/
theorem test_illegal_words :
    decode 0xFFFFFFFF#32 = .error .unassigned ∧
    decode 0x02A00000#32 = .error .unassigned ∧
    decode 0x3FF00000#32 = .error .unassigned ∧
    decode 0x40A00000#32 = .error .unassigned ∧
    decode 0xC1D00000#32 = .error .unassigned ∧
    decode 0x8A800000#32 = .error .unassigned ∧
    decode 0x80128000#32 = .error .badCondition ∧
    decode 0x81E08800#32 = .error .badCondition ∧
    decode 0x82F08002#32 = .error .badCondition ∧
    decode 0xC0008801#32 = .error .mustBeZero ∧
    decode 0x00008861#32 = .error .mustBeZero ∧
    decode 0x40008870#32 = .error .mustBeZero ∧
    decode 0x02808A00#32 = .error .mustBeZero ∧
    decode 0x40508801#32 = .error .mustBeZero ∧
    decode 0x80028001#32 = .error .mustBeZero ∧
    decode 0xC0308878#32 = .error .reservedScale ∧
    decode 0xC030887C#32 = .error .reservedScale ∧
    decode 0xC0308871#32 = .error .mustBeZero ∧
    decode 0xC0308BF0#32 = .error .indexIsSp ∧
    decode 0xC1808BE8#32 = .error .indexIsSp ∧
    decode 0xC1110400#32 = .error .rangeReversed ∧
    decode 0xC1C18800#32 = .error .rangeReversed ∧
    decode 0x86000001#32 = .error .mustBeZero ∧
    decode 0x8A080000#32 = .error .mustBeZero ∧
    decode 0x89800400#32 = .error .mustBeZero := by decide +kernel

/-! ### Single steps -/

/-- A start state at 0x1000: the registers and the cells (address, width, value) given, all else as at reset. -/
def start (c : Config) (xs : List (Reg × Word)) (fs : List (FReg × Word)) (cells : List (Word × Nat × Word)) : State :=
  let s : State := { State.reset with cfg := c, ip := 0x1000 }
  let s := xs.foldl (fun s p => s.setX p.1 p.2) s
  let s := fs.foldl (fun s p => s.setF p.1 p.2) s
  cells.foldl (fun s p => s.store p.1 p.2.1 p.2.2) s

/-- One step on the word laid out at `ip`. -/
def after (s : State) (w : Nat) : Outcome := step (s.withFetchWord 32 w)

/-- The step completes with this `ip`, these registers, these cells, and a canonical memory. -/
def leaves (o : Outcome) (ip : Word) (xs : List (Reg × Word)) (fs : List (FReg × Word)) (cells : List (Word × Nat × Word)) :
    Bool :=
  match o with
  | .next t => t.ip == ip && xs.all (fun p => t.getX p.1 == p.2) && fs.all (fun p => t.getF p.1 == p.2) &&
      cells.all (fun p => t.cell p.1 p.2.1 == p.2.2) && decide t.mem.wf
  | _ => false

/-- The step completes and takes one draw. -/
def draws (o : Outcome) : Bool :=
  match o with
  | .next t => t.draws == 1
  | _ => false

/-- The step faults, with the fault that `r` gives for its faulted state. -/
def faults (o : Outcome) (r : State → Fault) : Bool :=
  match o with
  | .fault q => q == r q.left
  | _ => false

/-- The faulted state, seen as a next one. -/
def faulted (o : Outcome) : Outcome :=
  match o with
  | .fault q => .next q.left
  | _ => o

/-- The default parameters. -/
abbrev std : Config := Config.specDefault
/-- Big-endian. -/
abbrev big : Config := { std with byteOrder := .big }
/-- Quotients rounded down. -/
abbrev floored : Config := { std with sdivRounding := .floor }
/-- Pops in descending order. -/
abbrev descending : Config := { std with popOrder := .descending }
/-- The parameters with memory at `base`, `size` bytes of it. -/
abbrev within (base size : Nat) : Config := { std with memDomain := [⟨base, size⟩] }

/-- Vectors of 95 section 2.1. -/
theorem test_step_moves :
    leaves (after (start std [(2, 0x1234)] [] []) 0xC0008800) 0x1004 [(1, 0x1234)] [] [] = true ∧
    leaves (after (start std [(0, 0x15)] [] []) 0xC0000000) 0x1004 [(0, 0x15)] [] [] = true ∧
    leaves (after (start std [] [] []) 0xC012FFFF) 0x1004 [(5, 0x7FFF)] [] [] = true ∧
    leaves (after (start std [] [] []) 0xC0128000) 0x1004 [(5, 0x0)] [] [] = true ∧
    leaves (after (start std [] [] []) 0xC022FFFF) 0x1004 [(5, 0xFFFFFFFFFFFFFFFFFFFFFFFFFFFFFFFF)] [] [] = true ∧
    leaves (after (start std [] [] []) 0xC022BFFF) 0x1004 [(5, 0x3FFF)] [] [] = true := by decide +kernel

/-- Vectors of 95 section 2.1: both byte orders. -/
theorem test_step_loads :
    leaves (after (start std [(2,0x1000),(3,2)] [] [(0x1020, 1, 0x80)]) 0xC0408870) 0x1004 [(1,0x80)] [] [] = true ∧
    leaves (after (start big [(2,0x1000),(3,2)] [] [(0x1020, 1, 0x80)]) 0xC0408870) 0x1004 [(1,0x80)] [] [] = true ∧
    leaves (after (start std [(2,0x1000),(3,2)] [] [(0x1020, 1, 0x80), (0x1021, 1, 0x81)]) 0xC0508870) 0x1004 [(1,0x8180)] [] [] = true ∧
    leaves (after (start big [(2,0x1000),(3,2)] [] [(0x1020, 1, 0x80), (0x1021, 1, 0x81)]) 0xC0508870) 0x1004 [(1,0x8081)] [] [] = true ∧
    leaves (after (start std [(2,0x1000),(3,2)] [] [(0x1020, 1, 0x80), (0x1021, 1, 0x81), (0x1022, 1, 0x82), (0x1023, 1, 0x83)]) 0xC0608870) 0x1004 [(1,0x83828180)] [] [] = true ∧
    leaves (after (start big [(2,0x1000),(3,2)] [] [(0x1020, 1, 0x80), (0x1021, 1, 0x81), (0x1022, 1, 0x82), (0x1023, 1, 0x83)]) 0xC0608870) 0x1004 [(1,0x80818283)] [] [] = true ∧
    leaves (after (start std [(2,0x1000),(3,2)] [] [(0x1020, 1, 0x80), (0x1021, 1, 0x81), (0x1022, 1, 0x82), (0x1023, 1, 0x83), (0x1024, 1, 0x84), (0x1025, 1, 0x85), (0x1026, 1, 0x86), (0x1027, 1, 0x87)]) 0xC0708870) 0x1004 [(1,0x8786858483828180)] [] [] = true ∧
    leaves (after (start big [(2,0x1000),(3,2)] [] [(0x1020, 1, 0x80), (0x1021, 1, 0x81), (0x1022, 1, 0x82), (0x1023, 1, 0x83), (0x1024, 1, 0x84), (0x1025, 1, 0x85), (0x1026, 1, 0x86), (0x1027, 1, 0x87)]) 0xC0708870) 0x1004 [(1,0x8081828384858687)] [] [] = true ∧
    leaves (after (start std [(2,0x1000),(3,2)] [] [(0x1020, 1, 0x80)]) 0xC0808870) 0x1004 [(1,0xFFFFFFFFFFFFFFFFFFFFFFFFFFFFFF80)] [] [] = true ∧
    leaves (after (start big [(2,0x1000),(3,2)] [] [(0x1020, 1, 0x80)]) 0xC0808870) 0x1004 [(1,0xFFFFFFFFFFFFFFFFFFFFFFFFFFFFFF80)] [] [] = true ∧
    leaves (after (start std [(2,0x1000),(3,2)] [] [(0x1020, 1, 0x80), (0x1021, 1, 0x81)]) 0xC0908870) 0x1004 [(1,0xFFFFFFFFFFFFFFFFFFFFFFFFFFFF8180)] [] [] = true ∧
    leaves (after (start big [(2,0x1000),(3,2)] [] [(0x1020, 1, 0x80), (0x1021, 1, 0x81)]) 0xC0908870) 0x1004 [(1,0xFFFFFFFFFFFFFFFFFFFFFFFFFFFF8081)] [] [] = true := by decide +kernel

/-- Vectors of 95 section 2.1: both byte orders. -/
theorem test_step_loads_2 :
    leaves (after (start std [(2,0x1000),(3,2)] [] [(0x1020, 1, 0x80), (0x1021, 1, 0x81), (0x1022, 1, 0x82), (0x1023, 1, 0x83)]) 0xC0A08870) 0x1004 [(1,0xFFFFFFFFFFFFFFFFFFFFFFFF83828180)] [] [] = true ∧
    leaves (after (start big [(2,0x1000),(3,2)] [] [(0x1020, 1, 0x80), (0x1021, 1, 0x81), (0x1022, 1, 0x82), (0x1023, 1, 0x83)]) 0xC0A08870) 0x1004 [(1,0xFFFFFFFFFFFFFFFFFFFFFFFF80818283)] [] [] = true ∧
    leaves (after (start std [(2,0x1000),(3,2)] [] [(0x1020, 1, 0x80), (0x1021, 1, 0x81), (0x1022, 1, 0x82), (0x1023, 1, 0x83), (0x1024, 1, 0x84), (0x1025, 1, 0x85), (0x1026, 1, 0x86), (0x1027, 1, 0x87)]) 0xC0B08870) 0x1004 [(1,0xFFFFFFFFFFFFFFFF8786858483828180)] [] [] = true ∧
    leaves (after (start big [(2,0x1000),(3,2)] [] [(0x1020, 1, 0x80), (0x1021, 1, 0x81), (0x1022, 1, 0x82), (0x1023, 1, 0x83), (0x1024, 1, 0x84), (0x1025, 1, 0x85), (0x1026, 1, 0x86), (0x1027, 1, 0x87)]) 0xC0B08870) 0x1004 [(1,0xFFFFFFFFFFFFFFFF8081828384858687)] [] [] = true ∧
    leaves (after (start std [(2,0x1000),(3,2)] [] [(0x1020, 1, 0x80), (0x1021, 1, 0x81), (0x1022, 1, 0x82), (0x1023, 1, 0x83), (0x1024, 1, 0x84), (0x1025, 1, 0x85), (0x1026, 1, 0x86), (0x1027, 1, 0x87), (0x1028, 1, 0x88), (0x1029, 1, 0x89), (0x102A, 1, 0x8A), (0x102B, 1, 0x8B), (0x102C, 1, 0x8C), (0x102D, 1, 0x8D), (0x102E, 1, 0x8E), (0x102F, 1, 0x8F)]) 0xC0308870) 0x1004 [(1,0x8F8E8D8C8B8A89888786858483828180)] [] [] = true ∧
    leaves (after (start big [(2,0x1000),(3,2)] [] [(0x1020, 1, 0x80), (0x1021, 1, 0x81), (0x1022, 1, 0x82), (0x1023, 1, 0x83), (0x1024, 1, 0x84), (0x1025, 1, 0x85), (0x1026, 1, 0x86), (0x1027, 1, 0x87), (0x1028, 1, 0x88), (0x1029, 1, 0x89), (0x102A, 1, 0x8A), (0x102B, 1, 0x8B), (0x102C, 1, 0x8C), (0x102D, 1, 0x8D), (0x102E, 1, 0x8E), (0x102F, 1, 0x8F)]) 0xC0308870) 0x1004 [(1,0x808182838485868788898A8B8C8D8E8F)] [] [] = true := by decide +kernel

/-- Vectors of 95 section 2.1: both byte orders. -/
theorem test_step_stores :
    leaves (after (start std [(2, 0x2000), (1, 0x102030405060708090A0B0C0D0E0F), (3, 0x0)] [] []) 0xC0C08870) 0x1004 [] [] [(0x2000, 1, 0xF), (0x2001, 1, 0xE), (0x2002, 1, 0xD), (0x2003, 1, 0xC), (0x2004, 1, 0xB), (0x2005, 1, 0xA), (0x2006, 1, 0x9), (0x2007, 1, 0x8), (0x2008, 1, 0x7), (0x2009, 1, 0x6), (0x200A, 1, 0x5), (0x200B, 1, 0x4), (0x200C, 1, 0x3), (0x200D, 1, 0x2), (0x200E, 1, 0x1), (0x200F, 1, 0x0)] = true ∧
    leaves (after (start big [(2, 0x2000), (1, 0x102030405060708090A0B0C0D0E0F), (3, 0x0)] [] []) 0xC0C08870) 0x1004 [] [] [(0x2000, 1, 0x0), (0x2001, 1, 0x1), (0x2002, 1, 0x2), (0x2003, 1, 0x3), (0x2004, 1, 0x4), (0x2005, 1, 0x5), (0x2006, 1, 0x6), (0x2007, 1, 0x7), (0x2008, 1, 0x8), (0x2009, 1, 0x9), (0x200A, 1, 0xA), (0x200B, 1, 0xB), (0x200C, 1, 0xC), (0x200D, 1, 0xD), (0x200E, 1, 0xE), (0x200F, 1, 0xF)] = true ∧
    leaves (after (start std [(2, 0x2000), (1, 0x1FF), (3, 0x5)] [] []) 0xC0D08860) 0x1004 [] [] [(0x2005, 1, 0xFF)] = true ∧
    leaves (after (start std [(2, 0x2000), (1, 0x12345), (3, 0x1)] [] []) 0xC0E08864) 0x1004 [] [] [(0x2002, 1, 0x45), (0x2003, 1, 0x23)] = true ∧
    leaves (after (start big [(2, 0x2000), (1, 0x12345), (3, 0x1)] [] []) 0xC0E08864) 0x1004 [] [] [(0x2002, 1, 0x23), (0x2003, 1, 0x45)] = true ∧
    leaves (after (start std [(2, 0x2000), (1, 0x1122334455667788), (3, 0x1)] [] []) 0xC0F08868) 0x1004 [] [] [(0x2004, 1, 0x88), (0x2005, 1, 0x77), (0x2006, 1, 0x66), (0x2007, 1, 0x55)] = true ∧
    leaves (after (start big [(2, 0x2000), (1, 0x1122334455667788), (3, 0x1)] [] []) 0xC0F08868) 0x1004 [] [] [(0x2004, 1, 0x55), (0x2005, 1, 0x66), (0x2006, 1, 0x77), (0x2007, 1, 0x88)] = true ∧
    leaves (after (start std [(2, 0x2000), (1, 0xAABB1122334455667788), (3, 0x1)] [] []) 0xC100886C) 0x1004 [] [] [(0x2008, 1, 0x88), (0x2009, 1, 0x77), (0x200A, 1, 0x66), (0x200B, 1, 0x55), (0x200C, 1, 0x44), (0x200D, 1, 0x33), (0x200E, 1, 0x22), (0x200F, 1, 0x11)] = true ∧
    leaves (after (start big [(2, 0x2000), (1, 0xAABB1122334455667788), (3, 0x1)] [] []) 0xC100886C) 0x1004 [] [] [(0x2008, 1, 0x11), (0x2009, 1, 0x22), (0x200A, 1, 0x33), (0x200B, 1, 0x44), (0x200C, 1, 0x55), (0x200D, 1, 0x66), (0x200E, 1, 0x77), (0x200F, 1, 0x88)] = true := by decide +kernel

/-- Vectors of 95 section 2.1: both pop orders. -/
theorem test_step_push_pop :
    leaves (after (start std [(1, 0xA), (2, 0xB), (3, 0xC), (31, 0x8000)] [] []) 0xC1108C00) 0x1004 [(31, 0x7FD0)] [] [(0x7FF0, 16, 0xA), (0x7FE0, 16, 0xB), (0x7FD0, 16, 0xC)] = true ∧
    leaves (after (start std [(30, 0xAA), (31, 0x8000)] [] []) 0xC11F7C00) 0x1004 [(31, 0x7FE0)] [] [(0x7FF0, 16, 0xAA), (0x7FE0, 16, 0x7FE0)] = true ∧
    leaves (after (start std [(31, 0x7FD0)] [] [(0x7FF0, 16, 0xA), (0x7FE0, 16, 0xB), (0x7FD0, 16, 0xC)]) 0xC1208C00) 0x1004 [(1, 0xC), (2, 0xB), (3, 0xA), (31, 0x8000)] [] [] = true ∧
    leaves (after (start descending [(31, 0x7FE0)] [] [(0x7FF0, 16, 0xAA), (0x7FE0, 16, 0x7FE0)]) 0xC12F7C00) 0x1004 [(30, 0xAA), (31, 0x8000)] [] [] = true := by decide +kernel

/-- Vectors of 95 section 2.2. -/
theorem test_step_arithmetic :
    leaves (after (start std [(2, 0x5), (3, 0x7)] [] []) 0x00008860) 0x1004 [(1, 0xC)] [] [] = true ∧
    leaves (after (start std [(0, 0x15)] [] []) 0x00000000) 0x1004 [(0, 0x2A)] [] [] = true ∧
    leaves (after (start std [(2, 0xA)] [] []) 0x00108BFD) 0x1004 [(1, 0x7)] [] [] = true ∧
    leaves (after (start std [(2, 0x0)] [] []) 0x00108A00) 0x1004 [(1, 0xFFFFFFFFFFFFFFFFFFFFFFFFFFFFFE00)] [] [] = true ∧
    leaves (after (start std [(2, 0x5), (3, 0x7)] [] []) 0x00208860) 0x1004 [(1, 0xFFFFFFFFFFFFFFFFFFFFFFFFFFFFFFFE)] [] [] = true ∧
    leaves (after (start std [(2, 0x80000000000000000000000000000000), (3, 0x1)] [] []) 0x00208860) 0x1004 [(1, 0x7FFFFFFFFFFFFFFFFFFFFFFFFFFFFFFF)] [] [] = true ∧
    leaves (after (start std [(2, 0xA)] [] []) 0x00308807) 0x1004 [(1, 0x3)] [] [] = true ∧
    leaves (after (start std [(31, 0x8000)] [] []) 0x003FFC10) 0x1004 [(31, 0x7FF0)] [] [] = true ∧
    leaves (after (start std [(2, 0x6), (3, 0x7)] [] []) 0x00408860) 0x1004 [(1, 0x2A)] [] [] = true ∧
    leaves (after (start std [(2, 0xFFFFFFFFFFFFFFFFFFFFFFFFFFFFFFFF), (3, 0xFFFFFFFFFFFFFFFFFFFFFFFFFFFFFFFF)] [] []) 0x00408860) 0x1004 [(1, 0x1)] [] [] = true ∧
    leaves (after (start std [(2, 0x2)] [] []) 0x00508BFD) 0x1004 [(1, 0xFFFFFFFFFFFFFFFFFFFFFFFFFFFFFFFA)] [] [] = true ∧
    leaves (after (start std [(2, 0xFFFFFFFFFFFFFFFFFFFFFFFFFFFFFFFE), (3, 0x3)] [] []) 0x00608860) 0x1004 [(1, 0xFFFFFFFFFFFFFFFFFFFFFFFFFFFFFFFA)] [] [] = true ∧
    leaves (after (start std [(2, 0xFFFFFFFFFFFFFFFFFFFFFFFFFFFFFFFF), (3, 0xFFFFFFFFFFFFFFFFFFFFFFFFFFFFFFFF)] [] []) 0x00608860) 0x1004 [(1, 0x1)] [] [] = true ∧
    leaves (after (start std [(2, 0x5)] [] []) 0x00708BFD) 0x1004 [(1, 0xFFFFFFFFFFFFFFFFFFFFFFFFFFFFFFF1)] [] [] = true := by decide +kernel

/-- Vectors of 95 section 2.2. -/
theorem test_step_arithmetic_2 :
    leaves (after (start std [(2, 0x64), (3, 0x7)] [] []) 0x00808860) 0x1004 [(1, 0xE)] [] [] = true ∧
    leaves (after (start std [(2, 0x7), (3, 0x64)] [] []) 0x00808860) 0x1004 [(1, 0x0)] [] [] = true ∧
    leaves (after (start std [(2, 0x64)] [] []) 0x00908807) 0x1004 [(1, 0xE)] [] [] = true ∧
    leaves (after (start std [(2, 0x5)] [] []) 0x00908BFF) 0x1004 [(1, 0x0)] [] [] = true ∧
    leaves (after (start std [(2, 0x7), (3, 0x2)] [] []) 0x00A08860) 0x1004 [(1, 0x3)] [] [] = true ∧
    leaves (after (start std [(2, 0x80000000000000000000000000000000), (3, 0x1)] [] []) 0x00A08860) 0x1004 [(1, 0x80000000000000000000000000000000)] [] [] = true ∧
    leaves (after (start std [(2, 0x7)] [] []) 0x00B08BFD) 0x1004 [(1, 0xFFFFFFFFFFFFFFFFFFFFFFFFFFFFFFFE)] [] [] = true ∧
    leaves (after (start floored [(2, 0x7)] [] []) 0x00B08BFD) 0x1004 [(1, 0xFFFFFFFFFFFFFFFFFFFFFFFFFFFFFFFD)] [] [] = true ∧
    leaves (after (start std [(2, 0x64), (3, 0x7)] [] []) 0x00C08860) 0x1004 [(1, 0x2)] [] [] = true ∧
    leaves (after (start std [(2, 0xFFFFFFFFFFFFFFFFFFFFFFFFFFFFFFFF), (3, 0x10000000000000000)] [] []) 0x00C08860) 0x1004 [(1, 0xFFFFFFFFFFFFFFFF)] [] [] = true ∧
    leaves (after (start std [(2, 0x64)] [] []) 0x00D08807) 0x1004 [(1, 0x2)] [] [] = true ∧
    leaves (after (start std [(2, 0x5)] [] []) 0x00D08BFF) 0x1004 [(1, 0x5)] [] [] = true ∧
    leaves (after (start std [(2, 0x7), (3, 0x2)] [] []) 0x00E08860) 0x1004 [(1, 0x1)] [] [] = true ∧
    leaves (after (start std [(2, 0x80000000000000000000000000000000), (3, 0xFFFFFFFFFFFFFFFFFFFFFFFFFFFFFFFF)] [] []) 0x00E08860) 0x1004 [(1, 0x0)] [] [] = true := by decide +kernel

/-- Vectors of 95 section 2.2. -/
theorem test_step_arithmetic_3 :
    leaves (after (start std [(2, 0x7)] [] []) 0x00F08BFD) 0x1004 [(1, 0x1)] [] [] = true ∧
    leaves (after (start floored [(2, 0x7)] [] []) 0x00F08BFD) 0x1004 [(1, 0xFFFFFFFFFFFFFFFFFFFFFFFFFFFFFFFE)] [] [] = true ∧
    leaves (after (start std [(3, 0x64), (4, 0x7)] [] []) 0x01008864) 0x1004 [(1, 0xE), (2, 0x2)] [] [] = true ∧
    leaves (after (start std [(3, 0x64), (4, 0x7)] [] []) 0x01019064) 0x1004 [(3, 0xE), (4, 0x2)] [] [] = true ∧
    leaves (after (start std [(3, 0xFFFFFFFFFFFFFFFFFFFFFFFFFFFFFFF9), (4, 0x2)] [] []) 0x01108864) 0x1004 [(1, 0xFFFFFFFFFFFFFFFFFFFFFFFFFFFFFFFD), (2, 0xFFFFFFFFFFFFFFFFFFFFFFFFFFFFFFFF)] [] [] = true ∧
    leaves (after (start floored [(3, 0xFFFFFFFFFFFFFFFFFFFFFFFFFFFFFFF9), (4, 0x2)] [] []) 0x01108864) 0x1004 [(1, 0xFFFFFFFFFFFFFFFFFFFFFFFFFFFFFFFC), (2, 0x1)] [] [] = true ∧
    leaves (after (start std [(2, 0x3), (3, 0x5)] [] []) 0x01208860) 0x1004 [(1, 0xFFFFFFFFFFFFFFFFFFFFFFFFFFFFFFFF)] [] [] = true ∧
    leaves (after (start std [(2, 0x7FFFFFFFFFFFFFFFFFFFFFFFFFFFFFFF), (3, 0x80000000000000000000000000000000)] [] []) 0x01208860) 0x1004 [(1, 0xFFFFFFFFFFFFFFFFFFFFFFFFFFFFFFFF)] [] [] = true ∧
    leaves (after (start std [(2, 0x5)] [] []) 0x01308BFF) 0x1004 [(1, 0xFFFFFFFFFFFFFFFFFFFFFFFFFFFFFFFF)] [] [] = true ∧
    leaves (after (start std [(2, 0x0)] [] []) 0x01308800) 0x1004 [(1, 0x0)] [] [] = true ∧
    leaves (after (start std [(2, 0xFFFFFFFFFFFFFFFFFFFFFFFFFFFFFFFF), (3, 0x0)] [] []) 0x01408860) 0x1004 [(1, 0xFFFFFFFFFFFFFFFFFFFFFFFFFFFFFFFF)] [] [] = true ∧
    leaves (after (start std [(2, 0x5), (3, 0x3)] [] []) 0x01408860) 0x1004 [(1, 0x1)] [] [] = true ∧
    leaves (after (start std [(2, 0x5)] [] []) 0x01508BFF) 0x1004 [(1, 0x1)] [] [] = true ∧
    leaves (after (start std [(2, 0xFFFFFFFFFFFFFFFFFFFFFFFFFFFFFFFE)] [] []) 0x01508BFF) 0x1004 [(1, 0xFFFFFFFFFFFFFFFFFFFFFFFFFFFFFFFF)] [] [] = true := by decide +kernel

/-- Vectors of 95 section 2.2. -/
theorem test_step_division_faults :
    faults (after (start std [(2, 5), (3, 0), (4, 0)] [] []) 0x00808860) .divideByZero = true ∧
    faults (after (start std [(2, 5), (3, 0), (4, 0)] [] []) 0x00908800) .divideByZero = true ∧
    faults (after (start std [(2, 0x64), (3, 0), (4, 0)] [] []) 0x00C08860) .divideByZero = true ∧
    faults (after (start std [(2, 0x80000000000000000000000000000000), (3, 0xFFFFFFFFFFFFFFFFFFFFFFFFFFFFFFFF), (4, 0xFFFFFFFFFFFFFFFFFFFFFFFFFFFFFFFF)] [] []) 0x00A08860) .divideOverflow = true ∧
    faults (after (start std [(2, 1), (3, 0), (4, 0)] [] []) 0x00B08800) .divideByZero = true ∧
    faults (after (start std [(2, 1), (3, 0), (4, 0)] [] []) 0x01008864) .divideByZero = true ∧
    faults (after (start std [(3, 0x80000000000000000000000000000000), (4, 0xFFFFFFFFFFFFFFFFFFFFFFFFFFFFFFFF)] [] []) 0x01108864) .divideOverflow = true := by decide +kernel

/-- 41 R169: the faults come before any register is written. -/
theorem test_step_division_faults_write_nothing :
    leaves (faulted (after (start std [(1, 7), (2, 5), (3, 0), (4, 0)] [] []) 0x00808860)) 0x1004 [(1, 7), (2, 5)] [] [] = true ∧
    leaves (faulted (after (start std [(1, 7), (2, 0x80000000000000000000000000000000), (3, 0xFFFFFFFFFFFFFFFFFFFFFFFFFFFFFFFF), (4, 0xFFFFFFFFFFFFFFFFFFFFFFFFFFFFFFFF)] [] []) 0x00A08860)) 0x1004 [(1, 7), (2, 0x80000000000000000000000000000000)] [] [] = true ∧
    leaves (faulted (after (start std [(1, 7), (2, 1), (3, 0), (4, 0)] [] []) 0x01008864)) 0x1004 [(1, 7), (2, 1)] [] [] = true := by decide +kernel

/-- 40 R137, 60 R312: a `push r1-r5` that fails at its third store leaves two slots written, `sp` decremented three times and
`ip` at the next instruction; a `call` that fails leaves `sp` decremented, the return address lost. -/
theorem test_step_faulted_state :
    (let s := start (within 0x1000 0x40) [(1, 0xA1), (2, 0xA2), (3, 0xA3), (31, 0x1020)] [] [(0x1020, 16, 9)]
     let t := { s with ip := 0x1030 }
     faults (after t 0xC1109400) (.unmappedAccess 0xFF0 16) = true ∧
     leaves (faulted (after t 0xC1109400)) 0x1034 [(1, 0xA1), (3, 0xA3), (31, 0xFF0)] []
       [(0x1010, 16, 0xA1), (0x1000, 16, 0xA2), (0x1020, 16, 9)] = true) ∧
    (let s := start (within 0x1000 0x40) [(1, 0xA1), (31, 0x1000)] [] []
     faults (after s 0x83008000) (.unmappedAccess 0xFF0 16) = true ∧
     leaves (faulted (after s 0x83008000)) 0x1004 [(1, 0xA1), (31, 0xFF0)] [] [(0xFF0, 16, 0)] = true) := by decide +kernel

/-- Vectors of 95 section 2.3. -/
theorem test_step_bitwise :
    leaves (after (start std [(2, 0xFF0F), (3, 0xFF0)] [] []) 0x01608860) 0x1004 [(1, 0xF00)] [] [] = true ∧
    leaves (after (start std [(2, 0x1234)] [] []) 0x0170880F) 0x1004 [(1, 0x4)] [] [] = true ∧
    leaves (after (start std [(2, 0xFFFFFFFFFFFFFFFFFFFFFFFFFFFFFFFF)] [] []) 0x01708A00) 0x1004 [(1, 0xFFFFFFFFFFFFFFFFFFFFFFFFFFFFFE00)] [] [] = true ∧
    leaves (after (start std [(2, 0xF0), (3, 0xF)] [] []) 0x01808860) 0x1004 [(1, 0xFF)] [] [] = true ∧
    leaves (after (start std [(2, 0x1230)] [] []) 0x0190880F) 0x1004 [(1, 0x123F)] [] [] = true ∧
    leaves (after (start std [(2, 0x1)] [] []) 0x01908A00) 0x1004 [(1, 0xFFFFFFFFFFFFFFFFFFFFFFFFFFFFFE01)] [] [] = true ∧
    leaves (after (start std [(2, 0xFF), (3, 0xF)] [] []) 0x01A08860) 0x1004 [(1, 0xF0)] [] [] = true ∧
    leaves (after (start std [(8, 0x1234)] [] []) 0x01A42100) 0x1004 [(8, 0x0)] [] [] = true ∧
    leaves (after (start std [(2, 0xFF)] [] []) 0x01B0880F) 0x1004 [(1, 0xF0)] [] [] = true ∧
    leaves (after (start std [(2, 0xFF)] [] []) 0x01B08BFF) 0x1004 [(1, 0xFFFFFFFFFFFFFFFFFFFFFFFFFFFFFF00)] [] [] = true ∧
    leaves (after (start std [(2, 0xFF), (3, 0xF)] [] []) 0x01C08860) 0x1004 [(1, 0xF0)] [] [] = true ∧
    leaves (after (start std [(2, 0x1234)] [] []) 0x01D0880F) 0x1004 [(1, 0x1230)] [] [] = true ∧
    leaves (after (start std [(2, 0x1234)] [] []) 0x01D08BFF) 0x1004 [(1, 0x0)] [] [] = true ∧
    leaves (after (start std [(2, 0x0), (3, 0xF)] [] []) 0x01E08860) 0x1004 [(1, 0xFFFFFFFFFFFFFFFFFFFFFFFFFFFFFFF0)] [] [] = true := by decide +kernel

/-- Vectors of 95 section 2.3. -/
theorem test_step_bitwise_2 :
    leaves (after (start std [(2, 0x0)] [] []) 0x01F0880F) 0x1004 [(1, 0xFFFFFFFFFFFFFFFFFFFFFFFFFFFFFFF0)] [] [] = true ∧
    leaves (after (start std [(2, 0x1234)] [] []) 0x01F08BFF) 0x1004 [(1, 0x1234)] [] [] = true ∧
    leaves (after (start std [(2, 0xFF), (3, 0xF)] [] []) 0x02008860) 0x1004 [(1, 0xFFFFFFFFFFFFFFFFFFFFFFFFFFFFFF0F)] [] [] = true ∧
    leaves (after (start std [(2, 0x1234), (3, 0x1234)] [] []) 0x02008860) 0x1004 [(1, 0xFFFFFFFFFFFFFFFFFFFFFFFFFFFFFFFF)] [] [] = true ∧
    leaves (after (start std [(2, 0xFF)] [] []) 0x0210880F) 0x1004 [(1, 0xFFFFFFFFFFFFFFFFFFFFFFFFFFFFFF0F)] [] [] = true ∧
    leaves (after (start std [(2, 0xFF)] [] []) 0x02108BFF) 0x1004 [(1, 0xFF)] [] [] = true ∧
    leaves (after (start std [(2, 0x1), (3, 0x64)] [] []) 0x02208860) 0x1004 [(1, 0x10000000000000000000000000)] [] [] = true ∧
    leaves (after (start std [(2, 0x3), (3, 0x7F)] [] []) 0x02208860) 0x1004 [(1, 0x80000000000000000000000000000000)] [] [] = true ∧
    leaves (after (start std [(2, 0x12)] [] []) 0x02308804) 0x1004 [(1, 0x120)] [] [] = true ∧
    leaves (after (start std [(2, 0x1)] [] []) 0x0230887F) 0x1004 [(1, 0x80000000000000000000000000000000)] [] [] = true ∧
    leaves (after (start std [(2, 0xFFFFFFFFFFFFFFFFFFFFFFFFFFFFFFFF), (3, 0x4)] [] []) 0x02408860) 0x1004 [(1, 0xFFFFFFFFFFFFFFFFFFFFFFFFFFFFFFF)] [] [] = true ∧
    leaves (after (start std [(2, 0x80000000000000000000000000000000), (3, 0x7F)] [] []) 0x02408860) 0x1004 [(1, 0x1)] [] [] = true ∧
    leaves (after (start std [(2, 0x120)] [] []) 0x02508804) 0x1004 [(1, 0x12)] [] [] = true ∧
    leaves (after (start std [(2, 0x80000000000000000000000000000000)] [] []) 0x02508800) 0x1004 [(1, 0x80000000000000000000000000000000)] [] [] = true := by decide +kernel

/-- Vectors of 95 section 2.3. -/
theorem test_step_bitwise_3 :
    leaves (after (start std [(2, 0xFFFFFFFFFFFFFFFFFFFFFFFFFFFFFFF0), (3, 0x2)] [] []) 0x02608860) 0x1004 [(1, 0xFFFFFFFFFFFFFFFFFFFFFFFFFFFFFFFC)] [] [] = true ∧
    leaves (after (start std [(2, 0x7FFFFFFFFFFFFFFFFFFFFFFFFFFFFFFF), (3, 0x7E)] [] []) 0x02608860) 0x1004 [(1, 0x1)] [] [] = true ∧
    leaves (after (start std [(2, 0x80000000000000000000000000000000)] [] []) 0x02708804) 0x1004 [(1, 0xF8000000000000000000000000000000)] [] [] = true ∧
    leaves (after (start std [(2, 0x120)] [] []) 0x02708804) 0x1004 [(1, 0x12)] [] [] = true ∧
    leaves (after (start std [(2, 0x0)] [] []) 0x02808800) 0x1004 [(1, 0xFFFFFFFFFFFFFFFFFFFFFFFFFFFFFFFF)] [] [] = true ∧
    leaves (after (start std [(2, 0xF0)] [] []) 0x02808800) 0x1004 [(1, 0xFFFFFFFFFFFFFFFFFFFFFFFFFFFFFF0F)] [] [] = true ∧
    leaves (after (start std [] [] []) 0x02908000) 0x1004 [(1, 0xFFFFFFFFFFFFFFFFFFFFFFFFFFFFFFFF)] [] [] = true ∧
    leaves (after (start std [] [] []) 0x0290C000) 0x1004 [(1, 0x3FFF)] [] [] = true := by decide +kernel

/-- Vectors of 95 section 2.3: a count of 128 or more draws a free value. -/
theorem test_step_free_shifts :
    draws (after (start std [(2, 1), (3, 0x80)] [] []) 0x02208860) = true ∧
    draws (after (start std [(2, 1), (3, 0)] [] []) 0x02308880) = true ∧
    draws (after (start std [(2, 1), (3, 0)] [] []) 0x02308BFF) = true ∧
    draws (after (start std [(2, 1), (3, 0x10000000000000000)] [] []) 0x02408860) = true ∧
    draws (after (start std [(2, 1), (3, 0)] [] []) 0x027088C8) = true := by decide +kernel

/-- Vectors of 95 section 2.6. -/
theorem test_step_jumps :
    leaves (after (start std [(5, 0x2000)] [] []) 0x80028000) 0x2000 [] [] [] = true ∧
    leaves (after (start std [(0, 0x44)] [] []) 0x80000000) 0x44 [] [] [] = true ∧
    leaves (after (start std [(5, 0x3)] [] []) 0x80828000) 0x1010 [] [] [] = true ∧
    leaves (after (start std [(5, 0x40000000000000000000000000000001)] [] []) 0x80828000) 0x1008 [] [] [] = true ∧
    leaves (after (start std [] [] []) 0x81000003) 0x1010 [] [] [] = true ∧
    leaves (after (start std [] [] []) 0x8107FFFF) 0x201000 [] [] [] = true := by decide +kernel

/-- Vectors of 95 section 2.6. -/
theorem test_step_calls :
    leaves (after (start std [(5, 0x2000), (31, 0x8000)] [] []) 0x83028000) 0x2000 [(31, 0x7FF0)] [] [(0x7FF0, 16, 0x1004)] = true ∧
    leaves (after (start std [(31, 0x8000)] [] []) 0x830F8000) 0x7FF0 [(31, 0x7FF0)] [] [(0x7FF0, 16, 0x1004)] = true ∧
    leaves (after (start std [(5, 0xFFFFFFFFFFFFFFFFFFFFFFFFFFFFFFFF), (31, 0x8000)] [] []) 0x83828000) 0x1000 [(31, 0x7FF0)] [] [(0x7FF0, 16, 0x1004)] = true ∧
    leaves (after (start std [(31, 0x8000)] [] []) 0x8400000A) 0x102C [(31, 0x7FF0)] [] [(0x7FF0, 16, 0x1004)] = true := by decide +kernel

/-- Every condition taken and not taken, on values of the condition table of 95 section 2.6. The target is the register. -/
theorem test_step_jmp_cc :
    leaves (after (start std [(1, 0x80000000000000000000000000000000), (2, 0x2000)] [] []) 0x81808800) 0x2000 [] [] [] = true ∧
    leaves (after (start std [(1, 0), (2, 0x2000)] [] []) 0x81808800) 0x1004 [] [] [] = true ∧
    leaves (after (start std [(1, 0), (2, 0x2000)] [] []) 0x81908800) 0x2000 [] [] [] = true ∧
    leaves (after (start std [(1, 1), (2, 0x2000)] [] []) 0x81908800) 0x1004 [] [] [] = true ∧
    leaves (after (start std [(1, 2), (2, 0x2000)] [] []) 0x81A08800) 0x2000 [] [] [] = true ∧
    leaves (after (start std [(1, 0), (2, 0x2000)] [] []) 0x81A08800) 0x1004 [] [] [] = true ∧
    leaves (after (start std [(1, 0xFFFFFFFFFFFFFFFFFFFFFFFFFFFFFFFF), (2, 0x2000)] [] []) 0x81B08800) 0x2000 [] [] [] = true ∧
    leaves (after (start std [(1, 0), (2, 0x2000)] [] []) 0x81B08800) 0x1004 [] [] [] = true ∧
    leaves (after (start std [(1, 0), (2, 0x2000)] [] []) 0x81C08800) 0x2000 [] [] [] = true ∧
    leaves (after (start std [(1, 0xFFFFFFFFFFFFFFFFFFFFFFFFFFFFFFFF), (2, 0x2000)] [] []) 0x81C08800) 0x1004 [] [] [] = true ∧
    leaves (after (start std [(1, 0), (2, 0x2000)] [] []) 0x81D08800) 0x2000 [] [] [] = true ∧
    leaves (after (start std [(1, 2), (2, 0x2000)] [] []) 0x81D08800) 0x1004 [] [] [] = true := by decide +kernel

/-- Every condition taken and not taken, on values of the condition table of 95 section 2.6. Five instructions on. -/
theorem test_step_jmp_cc_register :
    leaves (after (start std [(1, 0x80000000000000000000000000000000), (2, 5)] [] []) 0x82008800) 0x1018 [] [] [] = true ∧
    leaves (after (start std [(1, 0), (2, 5)] [] []) 0x82008800) 0x1004 [] [] [] = true ∧
    leaves (after (start std [(1, 0), (2, 5)] [] []) 0x82108800) 0x1018 [] [] [] = true ∧
    leaves (after (start std [(1, 1), (2, 5)] [] []) 0x82108800) 0x1004 [] [] [] = true ∧
    leaves (after (start std [(1, 2), (2, 5)] [] []) 0x82208800) 0x1018 [] [] [] = true ∧
    leaves (after (start std [(1, 0), (2, 5)] [] []) 0x82208800) 0x1004 [] [] [] = true ∧
    leaves (after (start std [(1, 0xFFFFFFFFFFFFFFFFFFFFFFFFFFFFFFFF), (2, 5)] [] []) 0x82308800) 0x1018 [] [] [] = true ∧
    leaves (after (start std [(1, 0), (2, 5)] [] []) 0x82308800) 0x1004 [] [] [] = true ∧
    leaves (after (start std [(1, 0), (2, 5)] [] []) 0x82408800) 0x1018 [] [] [] = true ∧
    leaves (after (start std [(1, 0xFFFFFFFFFFFFFFFFFFFFFFFFFFFFFFFF), (2, 5)] [] []) 0x82408800) 0x1004 [] [] [] = true ∧
    leaves (after (start std [(1, 0), (2, 5)] [] []) 0x82508800) 0x1018 [] [] [] = true ∧
    leaves (after (start std [(1, 2), (2, 5)] [] []) 0x82508800) 0x1004 [] [] [] = true := by decide +kernel

/-- Every condition taken and not taken, on values of the condition table of 95 section 2.6. Three instructions back. -/
theorem test_step_jmp_cc_immediate :
    leaves (after (start std [(1, 0x80000000000000000000000000000000)] [] []) 0x8280FFFD) 0xFF8 [] [] [] = true ∧
    leaves (after (start std [(1, 0)] [] []) 0x8280FFFD) 0x1004 [] [] [] = true ∧
    leaves (after (start std [(1, 0)] [] []) 0x8290FFFD) 0xFF8 [] [] [] = true ∧
    leaves (after (start std [(1, 1)] [] []) 0x8290FFFD) 0x1004 [] [] [] = true ∧
    leaves (after (start std [(1, 2)] [] []) 0x82A0FFFD) 0xFF8 [] [] [] = true ∧
    leaves (after (start std [(1, 0)] [] []) 0x82A0FFFD) 0x1004 [] [] [] = true ∧
    leaves (after (start std [(1, 0xFFFFFFFFFFFFFFFFFFFFFFFFFFFFFFFF)] [] []) 0x82B0FFFD) 0xFF8 [] [] [] = true ∧
    leaves (after (start std [(1, 0)] [] []) 0x82B0FFFD) 0x1004 [] [] [] = true ∧
    leaves (after (start std [(1, 0)] [] []) 0x82C0FFFD) 0xFF8 [] [] [] = true ∧
    leaves (after (start std [(1, 0xFFFFFFFFFFFFFFFFFFFFFFFFFFFFFFFF)] [] []) 0x82C0FFFD) 0x1004 [] [] [] = true ∧
    leaves (after (start std [(1, 0)] [] []) 0x82D0FFFD) 0xFF8 [] [] [] = true ∧
    leaves (after (start std [(1, 2)] [] []) 0x82D0FFFD) 0x1004 [] [] [] = true := by decide +kernel

/-- Every condition taken and not taken, on values of the condition table of 95 section 2.6. The return address is stored. -/
theorem test_step_call_cc :
    leaves (after (start std [(1, 0x80000000000000000000000000000000), (2, 0x3000), (31, 0x8000)] [] []) 0x84808800) 0x3000 [(31, 0x7FF0)] [] [(0x7FF0, 16, 0x1004)] = true ∧
    leaves (after (start std [(1, 0), (2, 0x3000), (31, 0x8000)] [] []) 0x84808800) 0x1004 [(31, 0x8000)] [] [(0x7FF0, 16, 0)] = true ∧
    leaves (after (start std [(1, 0), (2, 0x3000), (31, 0x8000)] [] []) 0x84908800) 0x3000 [(31, 0x7FF0)] [] [(0x7FF0, 16, 0x1004)] = true ∧
    leaves (after (start std [(1, 1), (2, 0x3000), (31, 0x8000)] [] []) 0x84908800) 0x1004 [(31, 0x8000)] [] [(0x7FF0, 16, 0)] = true ∧
    leaves (after (start std [(1, 2), (2, 0x3000), (31, 0x8000)] [] []) 0x84A08800) 0x3000 [(31, 0x7FF0)] [] [(0x7FF0, 16, 0x1004)] = true ∧
    leaves (after (start std [(1, 0), (2, 0x3000), (31, 0x8000)] [] []) 0x84A08800) 0x1004 [(31, 0x8000)] [] [(0x7FF0, 16, 0)] = true ∧
    leaves (after (start std [(1, 0xFFFFFFFFFFFFFFFFFFFFFFFFFFFFFFFF), (2, 0x3000), (31, 0x8000)] [] []) 0x84B08800) 0x3000 [(31, 0x7FF0)] [] [(0x7FF0, 16, 0x1004)] = true ∧
    leaves (after (start std [(1, 0), (2, 0x3000), (31, 0x8000)] [] []) 0x84B08800) 0x1004 [(31, 0x8000)] [] [(0x7FF0, 16, 0)] = true ∧
    leaves (after (start std [(1, 0), (2, 0x3000), (31, 0x8000)] [] []) 0x84C08800) 0x3000 [(31, 0x7FF0)] [] [(0x7FF0, 16, 0x1004)] = true ∧
    leaves (after (start std [(1, 0xFFFFFFFFFFFFFFFFFFFFFFFFFFFFFFFF), (2, 0x3000), (31, 0x8000)] [] []) 0x84C08800) 0x1004 [(31, 0x8000)] [] [(0x7FF0, 16, 0)] = true ∧
    leaves (after (start std [(1, 0), (2, 0x3000), (31, 0x8000)] [] []) 0x84D08800) 0x3000 [(31, 0x7FF0)] [] [(0x7FF0, 16, 0x1004)] = true ∧
    leaves (after (start std [(1, 2), (2, 0x3000), (31, 0x8000)] [] []) 0x84D08800) 0x1004 [(31, 0x8000)] [] [(0x7FF0, 16, 0)] = true := by decide +kernel

/-- Every condition taken and not taken, on values of the condition table of 95 section 2.6. Two instructions on. -/
theorem test_step_call_cc_register :
    leaves (after (start std [(1, 0x80000000000000000000000000000000), (2, 2), (31, 0x8000)] [] []) 0x85008800) 0x100C [(31, 0x7FF0)] [] [(0x7FF0, 16, 0x1004)] = true ∧
    leaves (after (start std [(1, 0), (2, 2), (31, 0x8000)] [] []) 0x85008800) 0x1004 [(31, 0x8000)] [] [(0x7FF0, 16, 0)] = true ∧
    leaves (after (start std [(1, 0), (2, 2), (31, 0x8000)] [] []) 0x85108800) 0x100C [(31, 0x7FF0)] [] [(0x7FF0, 16, 0x1004)] = true ∧
    leaves (after (start std [(1, 1), (2, 2), (31, 0x8000)] [] []) 0x85108800) 0x1004 [(31, 0x8000)] [] [(0x7FF0, 16, 0)] = true ∧
    leaves (after (start std [(1, 2), (2, 2), (31, 0x8000)] [] []) 0x85208800) 0x100C [(31, 0x7FF0)] [] [(0x7FF0, 16, 0x1004)] = true ∧
    leaves (after (start std [(1, 0), (2, 2), (31, 0x8000)] [] []) 0x85208800) 0x1004 [(31, 0x8000)] [] [(0x7FF0, 16, 0)] = true ∧
    leaves (after (start std [(1, 0xFFFFFFFFFFFFFFFFFFFFFFFFFFFFFFFF), (2, 2), (31, 0x8000)] [] []) 0x85308800) 0x100C [(31, 0x7FF0)] [] [(0x7FF0, 16, 0x1004)] = true ∧
    leaves (after (start std [(1, 0), (2, 2), (31, 0x8000)] [] []) 0x85308800) 0x1004 [(31, 0x8000)] [] [(0x7FF0, 16, 0)] = true ∧
    leaves (after (start std [(1, 0), (2, 2), (31, 0x8000)] [] []) 0x85408800) 0x100C [(31, 0x7FF0)] [] [(0x7FF0, 16, 0x1004)] = true ∧
    leaves (after (start std [(1, 0xFFFFFFFFFFFFFFFFFFFFFFFFFFFFFFFF), (2, 2), (31, 0x8000)] [] []) 0x85408800) 0x1004 [(31, 0x8000)] [] [(0x7FF0, 16, 0)] = true ∧
    leaves (after (start std [(1, 0), (2, 2), (31, 0x8000)] [] []) 0x85508800) 0x100C [(31, 0x7FF0)] [] [(0x7FF0, 16, 0x1004)] = true ∧
    leaves (after (start std [(1, 2), (2, 2), (31, 0x8000)] [] []) 0x85508800) 0x1004 [(31, 0x8000)] [] [(0x7FF0, 16, 0)] = true := by decide +kernel

/-- Every condition taken and not taken, on values of the condition table of 95 section 2.6. Five instructions on. -/
theorem test_step_call_cc_immediate :
    leaves (after (start std [(1, 0x80000000000000000000000000000000), (31, 0x8000)] [] []) 0x85808005) 0x1018 [(31, 0x7FF0)] [] [(0x7FF0, 16, 0x1004)] = true ∧
    leaves (after (start std [(1, 0), (31, 0x8000)] [] []) 0x85808005) 0x1004 [(31, 0x8000)] [] [(0x7FF0, 16, 0)] = true ∧
    leaves (after (start std [(1, 0), (31, 0x8000)] [] []) 0x85908005) 0x1018 [(31, 0x7FF0)] [] [(0x7FF0, 16, 0x1004)] = true ∧
    leaves (after (start std [(1, 1), (31, 0x8000)] [] []) 0x85908005) 0x1004 [(31, 0x8000)] [] [(0x7FF0, 16, 0)] = true ∧
    leaves (after (start std [(1, 2), (31, 0x8000)] [] []) 0x85A08005) 0x1018 [(31, 0x7FF0)] [] [(0x7FF0, 16, 0x1004)] = true ∧
    leaves (after (start std [(1, 0), (31, 0x8000)] [] []) 0x85A08005) 0x1004 [(31, 0x8000)] [] [(0x7FF0, 16, 0)] = true ∧
    leaves (after (start std [(1, 0xFFFFFFFFFFFFFFFFFFFFFFFFFFFFFFFF), (31, 0x8000)] [] []) 0x85B08005) 0x1018 [(31, 0x7FF0)] [] [(0x7FF0, 16, 0x1004)] = true ∧
    leaves (after (start std [(1, 0), (31, 0x8000)] [] []) 0x85B08005) 0x1004 [(31, 0x8000)] [] [(0x7FF0, 16, 0)] = true ∧
    leaves (after (start std [(1, 0), (31, 0x8000)] [] []) 0x85C08005) 0x1018 [(31, 0x7FF0)] [] [(0x7FF0, 16, 0x1004)] = true ∧
    leaves (after (start std [(1, 0xFFFFFFFFFFFFFFFFFFFFFFFFFFFFFFFF), (31, 0x8000)] [] []) 0x85C08005) 0x1004 [(31, 0x8000)] [] [(0x7FF0, 16, 0)] = true ∧
    leaves (after (start std [(1, 0), (31, 0x8000)] [] []) 0x85D08005) 0x1018 [(31, 0x7FF0)] [] [(0x7FF0, 16, 0x1004)] = true ∧
    leaves (after (start std [(1, 2), (31, 0x8000)] [] []) 0x85D08005) 0x1004 [(31, 0x8000)] [] [(0x7FF0, 16, 0)] = true := by decide +kernel

/-- Every condition taken and not taken, on values of the condition table of 95 section 2.6. The slot is removed. -/
theorem test_step_ret_cc :
    leaves (after (start std [(1, 0x80000000000000000000000000000000), (31, 0x7FF0)] [] [(0x7FF0, 16, 0x3000)]) 0x86808000) 0x3000 [(31, 0x8000)] [] [] = true ∧
    leaves (after (start std [(1, 0), (31, 0x7FF0)] [] [(0x7FF0, 16, 0x3000)]) 0x86808000) 0x1004 [(31, 0x7FF0)] [] [] = true ∧
    leaves (after (start std [(1, 0), (31, 0x7FF0)] [] [(0x7FF0, 16, 0x3000)]) 0x86908000) 0x3000 [(31, 0x8000)] [] [] = true ∧
    leaves (after (start std [(1, 1), (31, 0x7FF0)] [] [(0x7FF0, 16, 0x3000)]) 0x86908000) 0x1004 [(31, 0x7FF0)] [] [] = true ∧
    leaves (after (start std [(1, 2), (31, 0x7FF0)] [] [(0x7FF0, 16, 0x3000)]) 0x86A08000) 0x3000 [(31, 0x8000)] [] [] = true ∧
    leaves (after (start std [(1, 0), (31, 0x7FF0)] [] [(0x7FF0, 16, 0x3000)]) 0x86A08000) 0x1004 [(31, 0x7FF0)] [] [] = true ∧
    leaves (after (start std [(1, 0xFFFFFFFFFFFFFFFFFFFFFFFFFFFFFFFF), (31, 0x7FF0)] [] [(0x7FF0, 16, 0x3000)]) 0x86B08000) 0x3000 [(31, 0x8000)] [] [] = true ∧
    leaves (after (start std [(1, 0), (31, 0x7FF0)] [] [(0x7FF0, 16, 0x3000)]) 0x86B08000) 0x1004 [(31, 0x7FF0)] [] [] = true ∧
    leaves (after (start std [(1, 0), (31, 0x7FF0)] [] [(0x7FF0, 16, 0x3000)]) 0x86C08000) 0x3000 [(31, 0x8000)] [] [] = true ∧
    leaves (after (start std [(1, 0xFFFFFFFFFFFFFFFFFFFFFFFFFFFFFFFF), (31, 0x7FF0)] [] [(0x7FF0, 16, 0x3000)]) 0x86C08000) 0x1004 [(31, 0x7FF0)] [] [] = true ∧
    leaves (after (start std [(1, 0), (31, 0x7FF0)] [] [(0x7FF0, 16, 0x3000)]) 0x86D08000) 0x3000 [(31, 0x8000)] [] [] = true ∧
    leaves (after (start std [(1, 2), (31, 0x7FF0)] [] [(0x7FF0, 16, 0x3000)]) 0x86D08000) 0x1004 [(31, 0x7FF0)] [] [] = true := by decide +kernel

/-- Every condition taken and not taken, on values of the condition table of 95 section 2.6. 32 bytes more are removed. -/
theorem test_step_reta_cc_register :
    leaves (after (start std [(1, 0x80000000000000000000000000000000), (2, 0x20), (31, 0x7FD0)] [] [(0x7FD0, 16, 0x3000)]) 0x88008800) 0x3000 [(31, 0x8000)] [] [] = true ∧
    leaves (after (start std [(1, 0), (2, 0x20), (31, 0x7FD0)] [] [(0x7FD0, 16, 0x3000)]) 0x88008800) 0x1004 [(31, 0x7FD0)] [] [] = true ∧
    leaves (after (start std [(1, 0), (2, 0x20), (31, 0x7FD0)] [] [(0x7FD0, 16, 0x3000)]) 0x88108800) 0x3000 [(31, 0x8000)] [] [] = true ∧
    leaves (after (start std [(1, 1), (2, 0x20), (31, 0x7FD0)] [] [(0x7FD0, 16, 0x3000)]) 0x88108800) 0x1004 [(31, 0x7FD0)] [] [] = true ∧
    leaves (after (start std [(1, 2), (2, 0x20), (31, 0x7FD0)] [] [(0x7FD0, 16, 0x3000)]) 0x88208800) 0x3000 [(31, 0x8000)] [] [] = true ∧
    leaves (after (start std [(1, 0), (2, 0x20), (31, 0x7FD0)] [] [(0x7FD0, 16, 0x3000)]) 0x88208800) 0x1004 [(31, 0x7FD0)] [] [] = true ∧
    leaves (after (start std [(1, 0xFFFFFFFFFFFFFFFFFFFFFFFFFFFFFFFF), (2, 0x20), (31, 0x7FD0)] [] [(0x7FD0, 16, 0x3000)]) 0x88308800) 0x3000 [(31, 0x8000)] [] [] = true ∧
    leaves (after (start std [(1, 0), (2, 0x20), (31, 0x7FD0)] [] [(0x7FD0, 16, 0x3000)]) 0x88308800) 0x1004 [(31, 0x7FD0)] [] [] = true ∧
    leaves (after (start std [(1, 0), (2, 0x20), (31, 0x7FD0)] [] [(0x7FD0, 16, 0x3000)]) 0x88408800) 0x3000 [(31, 0x8000)] [] [] = true ∧
    leaves (after (start std [(1, 0xFFFFFFFFFFFFFFFFFFFFFFFFFFFFFFFF), (2, 0x20), (31, 0x7FD0)] [] [(0x7FD0, 16, 0x3000)]) 0x88408800) 0x1004 [(31, 0x7FD0)] [] [] = true ∧
    leaves (after (start std [(1, 0), (2, 0x20), (31, 0x7FD0)] [] [(0x7FD0, 16, 0x3000)]) 0x88508800) 0x3000 [(31, 0x8000)] [] [] = true ∧
    leaves (after (start std [(1, 2), (2, 0x20), (31, 0x7FD0)] [] [(0x7FD0, 16, 0x3000)]) 0x88508800) 0x1004 [(31, 0x7FD0)] [] [] = true := by decide +kernel

/-- Every condition taken and not taken, on values of the condition table of 95 section 2.6. 32767 bytes more are removed: the constant is unsigned. -/
theorem test_step_reta_cc_immediate :
    leaves (after (start std [(1, 0x80000000000000000000000000000000), (31, 0x7FD0)] [] [(0x7FD0, 16, 0x3000)]) 0x8880FFFF) 0x3000 [(31, 0xFFDF)] [] [] = true ∧
    leaves (after (start std [(1, 0), (31, 0x7FD0)] [] [(0x7FD0, 16, 0x3000)]) 0x8880FFFF) 0x1004 [(31, 0x7FD0)] [] [] = true ∧
    leaves (after (start std [(1, 0), (31, 0x7FD0)] [] [(0x7FD0, 16, 0x3000)]) 0x8890FFFF) 0x3000 [(31, 0xFFDF)] [] [] = true ∧
    leaves (after (start std [(1, 1), (31, 0x7FD0)] [] [(0x7FD0, 16, 0x3000)]) 0x8890FFFF) 0x1004 [(31, 0x7FD0)] [] [] = true ∧
    leaves (after (start std [(1, 2), (31, 0x7FD0)] [] [(0x7FD0, 16, 0x3000)]) 0x88A0FFFF) 0x3000 [(31, 0xFFDF)] [] [] = true ∧
    leaves (after (start std [(1, 0), (31, 0x7FD0)] [] [(0x7FD0, 16, 0x3000)]) 0x88A0FFFF) 0x1004 [(31, 0x7FD0)] [] [] = true ∧
    leaves (after (start std [(1, 0xFFFFFFFFFFFFFFFFFFFFFFFFFFFFFFFF), (31, 0x7FD0)] [] [(0x7FD0, 16, 0x3000)]) 0x88B0FFFF) 0x3000 [(31, 0xFFDF)] [] [] = true ∧
    leaves (after (start std [(1, 0), (31, 0x7FD0)] [] [(0x7FD0, 16, 0x3000)]) 0x88B0FFFF) 0x1004 [(31, 0x7FD0)] [] [] = true ∧
    leaves (after (start std [(1, 0), (31, 0x7FD0)] [] [(0x7FD0, 16, 0x3000)]) 0x88C0FFFF) 0x3000 [(31, 0xFFDF)] [] [] = true ∧
    leaves (after (start std [(1, 0xFFFFFFFFFFFFFFFFFFFFFFFFFFFFFFFF), (31, 0x7FD0)] [] [(0x7FD0, 16, 0x3000)]) 0x88C0FFFF) 0x1004 [(31, 0x7FD0)] [] [] = true ∧
    leaves (after (start std [(1, 0), (31, 0x7FD0)] [] [(0x7FD0, 16, 0x3000)]) 0x88D0FFFF) 0x3000 [(31, 0xFFDF)] [] [] = true ∧
    leaves (after (start std [(1, 2), (31, 0x7FD0)] [] [(0x7FD0, 16, 0x3000)]) 0x88D0FFFF) 0x1004 [(31, 0x7FD0)] [] [] = true := by decide +kernel

/-- Vectors of 95 section 2.6: a size register `r31` is read after the pop, an immediate size is unsigned. -/
theorem test_step_returns :
    leaves (after (start std [(31, 0x7FF0)] [] [(0x7FF0, 16, 0x3000)]) 0x86000000) 0x3000 [(31, 0x8000)] [] [] = true ∧
    leaves (after (start std [(5, 0x20), (31, 0x7FD0)] [] [(0x7FD0, 16, 0x3000)]) 0x87028000) 0x3000 [(31, 0x8000)] [] [] = true ∧
    leaves (after (start std [(31, 0x7FD0)] [] [(0x7FD0, 16, 0x3000)]) 0x870F8000) 0x3000 [(31, 0xFFC0)] [] [] = true ∧
    leaves (after (start std [(31, 0x7FD0)] [] [(0x7FD0, 16, 0x3000)]) 0x87800007) 0x3000 [(31, 0x7FE7)] [] [] = true ∧
    leaves (after (start std [(31, 0x7FD0)] [] [(0x7FD0, 16, 0x3000)]) 0x878FFFFF) 0x3000 [(31, 0x107FDF)] [] [] = true := by decide +kernel

/-- Vectors of 95 section 2.6: the frame of a trap, the slot of `r31` holding its own address. -/
theorem test_step_traps :
    leaves (after (start std [(0, 0x100), (7, 0x107), (30, 0x11E), (31, 0x10000)] [] []) 0x89800003) 0x30 [(31, 0xFDF0)] [] [(0xFFF0, 16, 0x100), (0xFF80, 16, 0x107), (0xFE10, 16, 0x11E), (0xFE00, 16, 0xFE00), (0xFDF0, 16, 0x1004)] = true ∧
    leaves (after (start std [(0, 0x100), (5, 0x1403), (7, 0x107), (30, 0x11E), (31, 0x10000)] [] []) 0x89028000) 0x30 [(31, 0xFDF0)] [] [(0xFFF0, 16, 0x100), (0xFF80, 16, 0x107), (0xFE10, 16, 0x11E), (0xFE00, 16, 0xFE00), (0xFDF0, 16, 0x1004)] = true ∧
    leaves (after (start std [(31, 0x10010)] [] []) 0x890F8000) 0x2000 [(31, 0xFE00)] [] [] = true := by decide +kernel

/-- Vectors of 95 section 2.6: the frame taken back, in both pop orders. -/
theorem test_step_reti :
    leaves (after (start descending [(31, 0xFDF0)] [] [(0xFFF0, 16, 0x100), (0xFF80, 16, 0x107), (0xFE20, 16, 0x11D), (0xFE10, 16, 0x11E), (0xFE00, 16, 0xFE00), (0xFDF0, 16, 0x3004)]) 0x8A000000) 0x3004 [(0, 0x100), (7, 0x107), (30, 0x11E), (31, 0x10000)] [] [] = true ∧
    leaves (after (start std [(31, 0xFDF0)] [] [(0xFFF0, 16, 0x100), (0xFF80, 16, 0x107), (0xFE20, 16, 0x11D), (0xFE10, 16, 0x11E), (0xFE00, 16, 0xFE00), (0xFDF0, 16, 0x3004)]) 0x8A000000) 0x3004 [(0, 0xFE00), (1, 0x11E), (2, 0x11D), (24, 0x107), (31, 0x110)] [] [] = true := by decide +kernel

/-- Vectors of 95 section 2.4. -/
theorem test_step_float_loads :
    leaves (after (start std [(2, 0x2000), (3, 1)] [(2, 0x7FFF8000000000000000000000000005)] []) 0xC1308800) 0x1004 [] [(1, 0x7FFF8000000000000000000000000005)] [] = true ∧
    leaves (after (start std [(2, 0x2000), (3, 1)] [] [(0x2010, 1, 0x30), (0x201F, 1, 0x3F)]) 0xC1408870) 0x1004 [] [(1, 0x3F000000000000000000000000000030)] [] = true ∧
    leaves (after (start big [(2, 0x2000), (3, 1)] [] [(0x2010, 1, 0x30), (0x201F, 1, 0x3F)]) 0xC1408870) 0x1004 [] [(1, 0x3000000000000000000000000000003F)] [] = true ∧
    leaves (after (start std [(2, 0x2000), (3, 1)] [] [(0x2004, 4, 0x00000001)]) 0xC1508868) 0x1004 [] [(1, 0x3F6A0000000000000000000000000000)] [] = true ∧
    leaves (after (start std [(2, 0x2000), (3, 1)] [] [(0x2004, 4, 0x7F7FFFFF)]) 0xC1508868) 0x1004 [] [(1, 0x407EFFFFFE0000000000000000000000)] [] = true ∧
    leaves (after (start std [(2, 0x2000), (3, 1)] [] [(0x2008, 8, 0xC000000000000000)]) 0xC160886C) 0x1004 [] [(1, 0xC0000000000000000000000000000000)] [] = true ∧
    leaves (after (start std [(2, 0x2000), (3, 1)] [] [(0x2008, 8, 0x0000000000000001)]) 0xC160886C) 0x1004 [] [(1, 0x3BCD0000000000000000000000000000)] [] = true ∧
    leaves (after (start std [(2, 0x2000), (3, 1)] [] [(0x200A, 10, 0x4000FFFFFFFFFFFFFFFF)]) 0xC1708874) 0x1004 [] [(1, 0x4000FFFFFFFFFFFFFFFE000000000000)] [] = true ∧
    leaves (after (start std [(2, 0x2000), (3, 1)] [] [(0x200A, 10, 0x00000000000000000001)]) 0xC1708874) 0x1004 [] [(1, 0x00000000000000000002000000000000)] [] = true := by decide +kernel

/-- Vectors of 95 section 2.4. -/
theorem test_step_float_stores :
    leaves (after (start std [(2, 0x2000), (3, 1)] [(1, 0x3FFD5555555555555555555555555555)] []) 0xC1808868) 0x1004 [] [] [(0x2004, 1, 0xAB), (0x2005, 3, 0x3EAAAA)] = true ∧
    leaves (after (start std [(2, 0x2000), (3, 1)] [(1, 0x3F698000000000000000000000000000)] []) 0xC1808868) 0x1004 [] [] [(0x2004, 4, 1)] = true ∧
    leaves (after (start std [(2, 0x2000), (3, 1)] [(1, 0x3FFF0000000000000800000000000000)] []) 0xC190886C) 0x1004 [] [] [(0x2008, 8, 0x3FF0000000000000)] = true ∧
    leaves (after (start std [(2, 0x2000), (3, 1)] [(1, 0x43FF0000000000000000000000000000)] []) 0xC190886C) 0x1004 [] [] [(0x2008, 8, 0x7FF0000000000000)] = true ∧
    leaves (after (start std [(2, 0x2000), (3, 1)] [(1, 0x3FFD5555555555555555555555555555)] []) 0xC1A08874) 0x1004 [] [] [(0x200A, 10, 0x3FFDAAAAAAAAAAAAAAAB)] = true ∧
    leaves (after (start std [(2, 0x2000), (3, 1)] [(1, 0x80000000000000000002000000000000)] []) 0xC1A08874) 0x1004 [] [] [(0x200A, 10, 0x80000000000000000001)] = true := by decide +kernel

/-- Vectors of 95 section 2.4: both pop orders. -/
theorem test_step_float_push_pop :
    leaves (after (start std [(31, 0x8000)] [(0, 0x3FFF0000000000000000000000000000), (1, 0x40000000000000000000000000000000)] []) 0xC1B00400) 0x1004 [(31, 0x7FE0)] [] [(0x7FF0, 16, 0x3FFF0000000000000000000000000000), (0x7FE0, 16, 0x40000000000000000000000000000000)] = true ∧
    leaves (after (start std [(31, 0x7FE0)] [] [(0x7FF0, 16, 0x3FFF0000000000000000000000000000), (0x7FE0, 16, 0x40000000000000000000000000000000)]) 0xC1C00400) 0x1004 [(31, 0x8000)] [(0, 0x40000000000000000000000000000000), (1, 0x3FFF0000000000000000000000000000)] [] = true ∧
    leaves (after (start descending [(31, 0x7FE0)] [] [(0x7FF0, 16, 0x3FFF0000000000000000000000000000), (0x7FE0, 16, 0x40000000000000000000000000000000)]) 0xC1C00400) 0x1004 [(31, 0x8000)] [(0, 0x3FFF0000000000000000000000000000), (1, 0x40000000000000000000000000000000)] [] = true := by decide +kernel

/-- Vectors of 95 section 2.5. -/
theorem test_step_float_arithmetic :
    leaves (after (start std [] [(2, 0x3FFB999999999999999999999999999A), (3, 0x3FFC999999999999999999999999999A)] []) 0x40008860) 0x1004 [] [(1, 0x3FFD3333333333333333333333333334)] [] = true ∧
    leaves (after (start std [] [(2, 0x3FFF0000000000000000000000000001), (3, 0x3F8E0000000000000000000000000000)] []) 0x40008860) 0x1004 [] [(1, 0x3FFF0000000000000000000000000002)] [] = true ∧
    leaves (after (start std [] [(2, 0x3FFF0000000000000000000000000000), (3, 0x40000000000000000000000000000000)] []) 0x40108860) 0x1004 [] [(1, 0xBFFF0000000000000000000000000000)] [] = true ∧
    leaves (after (start std [] [(2, 0x80000000000000000000000000000000), (3, 0)] []) 0x40108860) 0x1004 [] [(1, 0x80000000000000000000000000000000)] [] = true ∧
    leaves (after (start std [] [(2, 0xBFFF8000000000000000000000000000), (3, 0x40000000000000000000000000000000)] []) 0x40208860) 0x1004 [] [(1, 0xC0008000000000000000000000000000)] [] = true ∧
    leaves (after (start std [] [(2, 1), (3, 0x3FFF8000000000000000000000000000)] []) 0x40208860) 0x1004 [] [(1, 2)] [] = true ∧
    leaves (after (start std [] [(2, 0x40000000000000000000000000000000), (3, 0x40008000000000000000000000000000)] []) 0x40308860) 0x1004 [] [(1, 0x3FFE5555555555555555555555555555)] [] = true ∧
    leaves (after (start std [] [(2, 0x3FFF0000000000000000000000000000), (3, 0x80000000000000000000000000000000)] []) 0x40308860) 0x1004 [] [(1, 0xFFFF0000000000000000000000000000)] [] = true := by decide +kernel

/-- Vectors of 95 section 2.5. -/
theorem test_step_float_to_integer :
    leaves (after (start std [] [(2, 0xBFFF0000000000000000000000000000), (3, 1)] []) 0x40408860) 0x1004 [(1, 0xFFFFFFFFFFFFFFFFFFFFFFFFFFFFFFFF)] [] [] = true ∧
    leaves (after (start std [] [(2, 0x3FFF0000000000000000000000000000), (3, 0x7FFF8000000000000000000000000000)] []) 0x40408860) 0x1004 [(1, 2)] [] [] = true ∧
    leaves (after (start std [] [(2, 0x40004000000000000000000000000000), (3, 0)] []) 0x40508800) 0x1004 [(1, 2)] [] [] = true ∧
    leaves (after (start ({ std with roundnTie := .away }) [] [(2, 0x40004000000000000000000000000000), (3, 0)] []) 0x40508800) 0x1004 [(1, 3)] [] [] = true ∧
    leaves (after (start std [] [(2, 0xBFFE0000000000000000000000000000), (3, 0)] []) 0x40608800) 0x1004 [(1, 0xFFFFFFFFFFFFFFFFFFFFFFFFFFFFFFFF)] [] [] = true ∧
    leaves (after (start std [] [(2, 0xC07E0000000000000000000000000000), (3, 0)] []) 0x40608800) 0x1004 [(1, 0x80000000000000000000000000000000)] [] [] = true ∧
    leaves (after (start std [] [(2, 1), (3, 0)] []) 0x40708800) 0x1004 [(1, 1)] [] [] = true ∧
    leaves (after (start std [] [(2, 0xC0004000000000000000000000000000), (3, 0)] []) 0x40708800) 0x1004 [(1, 0xFFFFFFFFFFFFFFFFFFFFFFFFFFFFFFFE)] [] [] = true ∧
    leaves (after (start std [] [(2, 0xC0004000000000000000000000000000), (3, 0)] []) 0x40808800) 0x1004 [(1, 0xFFFFFFFFFFFFFFFFFFFFFFFFFFFFFFFE)] [] [] = true ∧
    leaves (after (start std [] [(2, 0x407DFFFFFFFFFFFFFFFFFFFFFFFFFFFF), (3, 0)] []) 0x40808800) 0x1004 [(1, 0x7FFFFFFFFFFFFFFFFFFFFFFFFFFFC000)] [] [] = true ∧
    leaves (after (start std [] [(2, 0xC0004000000000000000000000000000), (3, 0)] []) 0x40908800) 0x1004 [] [(1, 0xBFFE0000000000000000000000000000)] [] = true ∧
    leaves (after (start std [] [(2, 0x80000000000000000000000000000001), (3, 0)] []) 0x40908800) 0x1004 [] [(1, 0x80000000000000000000000000000001)] [] = true ∧
    draws (after (start std [] [(2, 0x407E0000000000000000000000000000)] []) 0x40508800) = true := by decide +kernel

/-! ### Witnesses: the hypotheses of every statement, clause by clause, met by concrete states and operands -/

theorem next_of_leaves {o : Outcome} {ip : Word} {xs : List (Reg × Word)} {fs : List (FReg × Word)}
    {cells : List (Word × Nat × Word)} (h : leaves o ip xs fs cells = true) : ∃ t, o = .next t := by
  cases o with
  | next t => exact ⟨t, rfl⟩
  | fault r => simp [leaves] at h
  | refused r => simp [leaves] at h

theorem fault_of_faults {o : Outcome} {r : State → Fault} (h : faults o r = true) : ∃ u, o = .fault (r u) := by
  cases o with
  | next t => simp [faults] at h
  | fault q => exact ⟨q.left, by simpa [faults] using h⟩
  | refused r => simp [faults] at h

/-- The descending pop order with memory at `base`, `size` bytes of it. -/
abbrev withinDescending (base size : Nat) : Config := { descending with memDomain := [⟨base, size⟩] }
/-- Three slots from an address up. -/
abbrev slots (a : Word) : List (Word × Nat × Word) := [(a, 16, 0x100), (a + 16, 16, 0x101), (a + 32, 16, 0x102)]

theorem witness_DecodeOfEncode :
    (∀ i ∈ [Instr.push 31 31, .pop 0 31, .popF 31 31, .mov80fLoad 31 ⟨31, 30, .x10⟩, .movStore 0 ⟨31, 0, .x1⟩,
      .divmodiu 31 31 31 31, .jmprI 0xFFFFF, .trapI 1023, .reti], Instr.wf i = true) := by decide +kernel

theorem witness_EncodeOfDecode :
    decode 0b11_0000011100_11111_11111_0000000000#32 = .ok (.popF 31 31) ∧
    decode 0b10_0010011000_0000000000_1111111111#32 = .ok (.trapI 1023) := by decide +kernel

/-- Both sides: each case of 30 R94 has a word, and a word beside each case is in none. -/
theorem witness_RejectedWordsAreTheSixCases :
    (∀ w ∈ [0b00_0000101010_00000_00000_00000_00000#32, 0b01_0000001010_00000_00000_00000_00000#32,
      0b11_0000011101_00000_00000_00000_00000#32, 0b10_0010101000_00000_00000_00000_00000#32,
      0b10_0000000001_00000_00000_00000_00000#32, 0b10_0000011110_00000_00000_00000_00000#32,
      0b10_0000000000_00000_000000000000001#32, 0b11_0000000000_00000_00000_0000000001#32,
      0b00_0000000000_00000_00000_00000_00001#32, 0b11_0000000011_00000_00000_00000_000_01#32,
      0b10_0001100000_00000000000000000001#32, 0b10_0010011000_0000000001_0000000000#32,
      0b11_0000000011_00000_00000_00000_110_00#32, 0b11_0000000011_00000_00000_11111_000_00#32,
      0b11_0000010001_00001_00000_0000000000#32], IllegalWord w) ∧
    (∀ w ∈ [0b00_0000101001_00000_00000_00000_00000#32, 0b01_0000001001_00000_00000_00000_00000#32,
      0b11_0000011100_00000_00000_00000_00000#32, 0b10_0010100000_00000_00000_00000_00000#32,
      0b10_0000011101_00000_00000_00000_00000#32, 0b11_0000000011_00000_00000_11110_101_00#32,
      0b11_0000010001_00001_00001_0000000000#32], ¬ IllegalWord w) := by
  simp [IllegalWord, TemplateD, TemplateF, TemplateM, TemplateRange, slice]

/-- Both byte orders; the last fetch wraps around the top of the address space. -/
theorem witness_StepRunsTheDecodedInstruction :
    (∀ s ∈ [start std [] [] [(0x1000, 4, 0x00108BFD)], start big [] [] [(0x1000, 4, 0x00108BFD)],
        start { big with haltIp := some 0x1004 } [] [] [(0x1000, 4, 0x00108BFD)],
        { start std [] [] [(0xFFFFFFFFFFFFFFFFFFFFFFFFFFFFFFFE, 4, 0x00108BFD)] with
          ip := 0xFFFFFFFFFFFFFFFFFFFFFFFFFFFFFFFE }],
      s.cfg.haltIp ≠ some s.ip ∧ InDomain s s.ip 4 ∧ HoldsCell s s.ip 4 ((0x00108BFD#32).setWidth 128)) ∧
    decode 0x00108BFD#32 = .ok (.addiI 1 2 (BitVec.ofInt 10 (-3))) := by
  unfold InDomain HoldsCell
  decide +kernel

/-- The last two bytes of the fetch lie outside; and a mapped word of no instruction. -/
theorem witness_FetchAndDecodeFaults :
    let s := start (within 0 0x1002) [] [] []
    let t := start (within 0x1000 4) [] [] [(0x1000, 4, 0xFFFFFFFF)]
    (s.cfg.haltIp ≠ some s.ip ∧ ¬ InDomain s s.ip 4) ∧
    t.cfg.haltIp ≠ some t.ip ∧ InDomain t t.ip 4 ∧ HoldsCell t t.ip 4 ((0xFFFFFFFF#32).setWidth 128) ∧
      decode 0xFFFFFFFF#32 = .error .unassigned := by
  unfold InDomain HoldsCell
  decide +kernel

/-- A launch state whose registers and memory are not those of `State.reset`; and a state that is none. -/
theorem witness_LaunchAndReset :
    (State.launch std (Vector.replicate 32 7) (Vector.replicate 32 9) [(0x10, 3)]).IsLaunch ∧
    ¬ (start std [] [] []).IsLaunch := by
  unfold State.IsLaunch
  decide +kernel

theorem witness_HaltedRunStays :
    (start { std with haltIp := some 0x1000 } [] [] []).cfg.haltIp =
      some (start { std with haltIp := some 0x1000 } [] [] []).ip := by decide +kernel

/-- A store, a push and a draw, from a canonical memory. -/
theorem witness_EveryStepKeepsTheCanonicalMemory :
    (∃ t, (start std [(1, 5), (31, 0x8000)] [] [(0x1000, 4, 0xC1100400)]).Inv ∧
      step (start std [(1, 5), (31, 0x8000)] [] [(0x1000, 4, 0xC1100400)]) = .next t) ∧
    ∃ t, State.reset.Inv ∧ step State.reset = .next t := by
  constructor
  · obtain ⟨t, h⟩ := next_of_leaves (o := step (start std [(1, 5), (31, 0x8000)] [] [(0x1000, 4, 0xC1100400)]))
      (ip := 0x1004) (xs := [(31, 0x7FE0)]) (fs := []) (cells := [(0x7FE0, 16, 5)]) (by decide +kernel)
    exact ⟨t, by unfold State.Inv; decide +kernel, h⟩
  · obtain ⟨t, h⟩ := next_of_leaves (o := step State.reset) (ip := 4) (xs := []) (fs := []) (cells := [])
      (by decide +kernel)
    exact ⟨t, by unfold State.Inv; decide +kernel, h⟩

theorem witness_EveryStepKeepsTheParameters : ∃ t, step State.reset = .next t :=
  next_of_leaves (ip := 4) (xs := []) (fs := []) (cells := []) (by decide +kernel)

/-- The three faults an instruction may raise. -/
theorem witness_FaultsComeFromTheirInstructions :
    (∃ u, exec (.modiuR 1 2 3) State.reset = .fault (.divideByZero u)) ∧
    (∃ u, exec (.divisI 1 2 (BitVec.ofInt 10 (-1))) (State.reset.setX 2 0x80000000000000000000000000000000) =
      .fault (.divideOverflow u)) ∧
    (∃ u, exec (.push 0 0) (start (within 0x1000 4) [(31, 0x1003)] [] []) = .fault (.unmappedAccess 0xFF3 16 u)) ∧
    ∃ u, exec (.movLoad 1 ⟨2, 3, .x1⟩) (start (within 0x1000 4) [] [] []) = .fault (.unmappedAccess 0 16 u) :=
  ⟨fault_of_faults (by decide +kernel), fault_of_faults (by decide +kernel), fault_of_faults (by decide +kernel),
    fault_of_faults (by decide +kernel)⟩

/-- One instruction outside each kind completes. -/
theorem witness_EachKindOfStateHasItsWriters :
    (∃ t, writesFloat (.cmpf 1 2 3) = false ∧ exec (.cmpf 1 2 3) State.reset = .next t) ∧
    (∃ t, storesMemory (.popF 0 31) = false ∧ exec (.popF 0 31) State.reset = .next t) ∧
    (∃ t, transfersControl (.push 0 31) = false ∧ exec (.push 0 31) State.reset = .next t) := by
  refine ⟨?_, ?_, ?_⟩
  · obtain ⟨t, h⟩ := next_of_leaves (o := exec (.cmpf 1 2 3) State.reset) (ip := 0) (xs := []) (fs := [])
      (cells := []) (by decide +kernel)
    exact ⟨t, rfl, h⟩
  · obtain ⟨t, h⟩ := next_of_leaves (o := exec (.popF 0 31) State.reset) (ip := 0) (xs := []) (fs := [])
      (cells := []) (by decide +kernel)
    exact ⟨t, rfl, h⟩
  · obtain ⟨t, h⟩ := next_of_leaves (o := exec (.push 0 31) State.reset) (ip := 0) (xs := []) (fs := [])
      (cells := []) (by decide +kernel)
    exact ⟨t, by decide +kernel, h⟩

/-- Every width, both byte orders, the cell across the top of the address space, the base also the index. -/
theorem witness_IntegerLoads :
    let m : MemOperand := ⟨2, 3, .x10⟩
    let v : Word := 0x8182838485868788898A8B8C8D8E8F90
    let s := start std [(2, 0xFFFFFFFFFFFFFFFFFFFFFFFFFFFFFFEB), (3, 2)] [] [(0xFFFFFFFFFFFFFFFFFFFFFFFFFFFFFFFF, 16, v)]
    let t := start big [(2, 0x2000)] [] [(0x2000, 16, v)]
    ∀ n ∈ [16, 1, 2, 4, 8], (InDomain s (s.ea m) n ∧ HoldsCell s (s.ea m) n v) ∧
      InDomain t (t.ea m) n ∧ HoldsCell t (t.ea m) n (v >>> (128 - 8 * n)) := by
  unfold InDomain HoldsCell
  decide +kernel

/-- A domain that holds the widest cell and no byte more, and one that ends with the cell's first byte. -/
theorem witness_stores :
    let m : MemOperand := ⟨2, 2, .x1⟩
    let s := start (within 0x2000 16) [(2, 0x1000)] [] []
    (∀ n ∈ [16, 1, 2, 4, 8], InDomain s (s.ea m) n) ∧ (∀ n ∈ [4, 8, 10], InDomain s (s.ea m) n) := by
  unfold InDomain
  decide +kernel

theorem witness_IntegerStores :
    InDomain (start (within 0x2000 16) [(2, 0x1000)] [] []) ((start (within 0x2000 16) [(2, 0x1000)] [] []).ea ⟨2, 2, .x1⟩) 16 :=
  witness_stores.1 16 (by decide)

theorem witness_LoadAfterStore :
    InDomain (start (within 0x2000 16) [(2, 0x1000)] [] []) ((start (within 0x2000 16) [(2, 0x1000)] [] []).ea ⟨2, 2, .x1⟩) 8 :=
  witness_stores.1 8 (by decide)

theorem witness_FloatStores :
    ∀ n ∈ [4, 8, 10], InDomain (start (within 0x2000 16) [(2, 0x1000)] [] [])
      ((start (within 0x2000 16) [(2, 0x1000)] [] []).ea ⟨2, 2, .x1⟩) n :=
  witness_stores.2

/-- Only the last byte of the cell is outside. -/
theorem witness_UnmappedCellsFault :
    ∀ n ∈ [1, 2, 4, 8, 10, 16], ¬ InDomain (start (within 0 (0x2000 + n - 1)) [(2, 0x1000)] [] [])
      ((start (within 0 (0x2000 + n - 1)) [(2, 0x1000)] [] []).ea ⟨2, 2, .x1⟩) n := by
  unfold InDomain
  decide +kernel

/-- Ranges of 1 and 32 registers, `r31` alone and in the range, in a domain of just the slots. -/
theorem witness_PushStoresTheRange :
    ∀ p ∈ [(0, 0), (3, 7), (31, 31), (0, (31 : Reg))],
      let n := p.2.val + 1 - p.1.val
      let s := start (within (0x8000 - 16 * n) (16 * n)) [(31, 0x8000)] [] []
      p.1 ≤ p.2 ∧ InDomain s (s.slotBelow n) (16 * n) := by
  unfold InDomain
  decide +kernel

/-- Both orders; one register, `r0` to `r30` (what the cells hold is what a read of them gives). -/
theorem witness_PopLoadsTheRange :
    ∀ p ∈ [(0, 0), (30, 30), (0, (30 : Reg))], ∀ o ∈ [PopOrder.sourceAscending, .descending],
      let n := p.2.val + 1 - p.1.val
      let s := start { within 0x8000 (16 * n) with popOrder := o } [(31, 0x8000)] [] (slots 0x8000)
      (p.1 ≤ p.2 ∧ p.2 ≠ spReg ∧ InDomain s s.sp (16 * n)) ∧
        ∀ r : Reg, p.1 ≤ r → r ≤ p.2 →
          HoldsCell s (s.slotAbove (popPlace s.cfg.popOrder p.1 p.2 r)) 16
            (s.cell (s.slotAbove (popPlace s.cfg.popOrder p.1 p.2 r)) 16) := by
  intro p hp o ho
  refine ⟨?_, fun r _ _ => holdsCell_cell _ _ (by decide)⟩
  revert p o
  unfold InDomain
  decide +kernel

/-- `r31` alone and after others, in both orders. -/
theorem witness_PopOfTheStackPointer :
    (∀ i ∈ [29, 30, (31 : Reg)],
      let s := start (within 0x8000 (16 * (32 - i.val))) [(31, 0x8000)] [] (slots 0x8000)
      s.cfg.popOrder = .sourceAscending ∧ InDomain s s.sp (16 * (32 - i.val)) ∧
        ∀ n : Reg, i ≤ n → HoldsCell s (s.slotAbove (n.val - i.val)) 16 (BitVec.ofNat 128 (n.val - i.val + 0x100))) ∧
    (let s := start (withinDescending 0x8000 16) [(31, 0x8000)] [] [(0x8000, 16, 0x9000)]
     s.cfg.popOrder = .descending ∧ InDomain s s.sp 16 ∧ HoldsCell s s.sp 16 0x9000) ∧
    (31 : Reg) = spReg ∧ (30 : Reg) ≠ spReg := by
  unfold InDomain HoldsCell
  decide +kernel

theorem witness_PopAfterPush :
    ∀ p ∈ [(0, 0), (30, 30), (0, (30 : Reg))], ∀ o ∈ [PopOrder.sourceAscending, .descending],
      let n := p.2.val + 1 - p.1.val
      let s := start { within (0x8000 - 16 * n) (16 * n) with popOrder := o } [(31, 0x8000)] [] []
      p.1 ≤ p.2 ∧ p.2 ≠ spReg ∧ InDomain s (s.slotBelow n) (16 * n) ∧ s.cfg.popOrder = o := by
  unfold InDomain
  decide +kernel

theorem witness_FloatPushAndPop :
    ∀ p ∈ [(0, 0), (31, 31), (0, (31 : FReg))], ∀ o ∈ [PopOrder.sourceAscending, .descending],
      let n := p.2.val + 1 - p.1.val
      let s := start { within (0x8000 - 16 * n) (16 * n) with popOrder := o } [(31, 0x8000)] [] []
      let t := start { within 0x8000 (16 * n) with popOrder := o } [(31, 0x8000)] [] (slots 0x8000)
      (p.1 ≤ p.2 ∧ InDomain s (s.slotBelow n) (16 * n) ∧ InDomain t t.sp (16 * n)) ∧
        ∀ r : FReg, p.1 ≤ r → r ≤ p.2 →
          HoldsCell t (t.slotAbove (popPlace t.cfg.popOrder p.1 p.2 r)) 16
            (t.cell (t.slotAbove (popPlace t.cfg.popOrder p.1 p.2 r)) 16) := by
  intro p hp o ho
  refine ⟨?_, fun r _ _ => holdsCell_cell _ _ (by decide)⟩
  revert p o
  unfold InDomain
  decide +kernel

/-- The first and the last slot of a range of three; the integer pop in each of its three cases; what the slots hold. -/
theorem witness_RangesFaultAtTheFirstUnmappedSlot :
    (∀ k ∈ [0, 1, 2],
      let s := start (within (0x8000 - 16 * k) (16 * k)) [(31, 0x8000)] [] []
      (5 : Fin 32).val + k ≤ (7 : Fin 32).val ∧ InDomain s (s.slotBelow k) (16 * k) ∧ ¬ InDomain s (s.slotBelow (k + 1)) 16) ∧
    (∀ o ∈ [PopOrder.sourceAscending, .descending], ∀ k ∈ [0, 1, 2],
      let t := start { within 0x8000 (16 * k) with popOrder := o } [(31, 0x8000)] [] (slots 0x8000)
      InDomain t t.sp (16 * k) ∧ ¬ InDomain t (t.slotAbove k) 16 ∧ t.cfg.popOrder = o) ∧
    (∀ o ∈ [PopOrder.sourceAscending, .descending], ∀ k ∈ [0, 1, 2],
      let t := start { within 0x8000 (16 * k) with popOrder := o } [(31, 0x8000)] [] (slots 0x8000)
      ∀ n : Fin 32, 5 ≤ n → n ≤ 7 → popPlace t.cfg.popOrder 5 7 n < k →
        HoldsCell t (t.slotAbove (popPlace t.cfg.popOrder 5 7 n)) 16 (BitVec.ofNat 128 (popPlace o 5 7 n + 0x100))) ∧
    (7 : Fin 32) ≠ spReg := by
  unfold InDomain HoldsCell
  refine ⟨?_, ?_, ?_, ?_⟩ <;> decide +kernel

/-- Divisors 1, the largest, and a negative immediate. -/
theorem witness_UnsignedDivision :
    uval ((State.reset.setX 3 1).getX 3) ≠ 0 ∧
    uval ((State.reset.setX 3 0xFFFFFFFFFFFFFFFFFFFFFFFFFFFFFFFF).getX 3) ≠ 0 ∧
    uval ((BitVec.ofInt 10 (-512)).signExtend 128) ≠ 0 ∧ uval ((1 : BitVec 10).signExtend 128) ≠ 0 := by
  decide +kernel

/-- -2^127 by 1, a smaller dividend by -1, and -2^127 by -1 for the remainder alone. -/
theorem witness_SignedDivision :
    let s := State.reset.setX 2 0x80000000000000000000000000000000
    let t := State.reset.setX 3 0xFFFFFFFFFFFFFFFFFFFFFFFFFFFFFFFF
    (sval ((s.setX 3 1).getX 3) ≠ 0 ∧
      ¬ (sval ((s.setX 3 1).getX 2) = -2 ^ 127 ∧ sval ((s.setX 3 1).getX 3) = -1)) ∧
    (sval ((t.setX 2 7).getX 3) ≠ 0 ∧
      ¬ (sval ((t.setX 2 7).getX 2) = -2 ^ 127 ∧ sval ((t.setX 2 7).getX 3) = -1)) ∧
    (BitVec.ofInt 10 (-512)).toInt ≠ 0 ∧ ¬ (sval (s.getX 2) = -2 ^ 127 ∧ (BitVec.ofInt 10 (-512)).toInt = -1) ∧
    (BitVec.ofInt 10 (-1)).toInt ≠ 0 ∧ sval (t.getX 3) ≠ 0 := by
  decide +kernel

theorem witness_DivisionWithRemainder :
    let s := (State.reset.setX 2 0x80000000000000000000000000000000).setX 3 1
    uval (s.getX 3) ≠ 0 ∧ ¬ (sval (s.getX 2) = -2 ^ 127 ∧ sval (s.getX 3) = -1) ∧ (4 : Reg) ≠ 5 := by
  decide +kernel

theorem witness_DivisionFaults :
    let s := (State.reset.setX 2 0x80000000000000000000000000000000).setX 3 0xFFFFFFFFFFFFFFFFFFFFFFFFFFFFFFFF
    uval (State.reset.getX 3) = 0 ∧ sval (s.getX 2) = -2 ^ 127 ∧ sval (s.getX 3) = -1 := by
  decide +kernel

theorem witness_UnsignedCompare :
    let s := State.reset.setX 3 0xFFFFFFFFFFFFFFFFFFFFFFFFFFFFFFFF
    uval (s.getX 2) < uval (s.getX 3) ∧ uval (s.getX 2) = uval (s.getX 4) ∧ uval (s.getX 4) < uval (s.getX 3) := by
  decide +kernel

theorem witness_ShiftsInRange :
    uval (State.reset.getX 3) < 128 ∧ uval ((State.reset.setX 3 127).getX 3) < 128 ∧
    (0 : BitVec 10).toNat < 128 ∧ (127 : BitVec 10).toNat < 128 := by decide +kernel

theorem witness_ShiftsOutOfRangeAreFree :
    128 ≤ uval ((State.reset.setX 3 128).getX 3) ∧
    128 ≤ uval ((State.reset.setX 3 0xFFFFFFFFFFFFFFFFFFFFFFFFFFFFFFFF).getX 3) ∧
    128 ≤ (128 : BitVec 10).toNat ∧ 128 ≤ (BitVec.ofInt 10 (-1)).toNat ∧ 128 ≤ (BitVec.ofInt 10 (-512)).toNat := by
  decide +kernel

/-- Every width, in both byte orders. -/
theorem witness_FloatMoveAndLoads :
    let v : Word := 0x3FFF00000000000040490FDB7F800001
    let s := start std [(2, 0x2000)] [] [(0x2000, 16, v)]
    let t := start big [(2, 0x2000)] [] [(0x2000, 16, v)]
    ∀ n ∈ [16, 4, 8, 10], (InDomain s (s.ea ⟨2, 3, .x1⟩) n ∧ HoldsCell s (s.ea ⟨2, 3, .x1⟩) n v) ∧
      InDomain t (t.ea ⟨2, 3, .x1⟩) n ∧ HoldsCell t (t.ea ⟨2, 3, .x1⟩) n (v >>> (128 - 8 * n)) := by
  unfold InDomain HoldsCell
  decide +kernel

/-- Zeros, the least subnormal, the largest number, infinities, the first and the last NaN of each format. -/
theorem witness_WideningLoadsAreExact :
    (∀ p ∈ [(4, single, 0), (4, single, 0x80000000), (4, single, 1), (4, single, 0xFF7FFFFF),
        (8, double, 0), (8, double, 1), (8, double, 0xFFEFFFFFFFFFFFFF),
        (10, extended, 0), (10, extended, 1), (10, extended, 0x7FFEFFFFFFFFFFFFFFFF),
        (10, extended, (0x80018000000000000000 : Word))],
      let s := start std [(2, 0x2000)] [] [(0x2000, p.1, p.2.2)]
      s.cfg.fp = .ieee754 ∧ InDomain s (s.ea ⟨2, 3, .x1⟩) p.1 ∧ HoldsCell s (s.ea ⟨2, 3, .x1⟩) p.1 p.2.2 ∧
        p.2.1.Finite p.2.2) ∧
    (∀ p ∈ [(4, single, 0xFF800000), (8, double, 0x7FF0000000000000), (10, extended, (0x7FFF8000000000000000 : Word))],
      let s := start std [(2, 0x2000)] [] [(0x2000, p.1, p.2.2)]
      s.cfg.fp = .ieee754 ∧ InDomain s (s.ea ⟨2, 3, .x1⟩) p.1 ∧ HoldsCell s (s.ea ⟨2, 3, .x1⟩) p.1 p.2.2 ∧
        p.2.1.Infinite p.2.2) ∧
    ∀ p ∈ [(4, single, 0x7F800001), (4, single, 0xFFFFFFFF), (8, double, 0x7FF0000000000001),
        (10, extended, 0x7FFF8000000000000001), (10, extended, (0xFFFFFFFFFFFFFFFFFFFF : Word))],
      let s := start std [(2, 0x2000)] [] [(0x2000, p.1, p.2.2)]
      s.cfg.fp = .ieee754 ∧ InDomain s (s.ea ⟨2, 3, .x1⟩) p.1 ∧ HoldsCell s (s.ea ⟨2, 3, .x1⟩) p.1 p.2.2 ∧
        p.2.1.NaN p.2.2 := by
  unfold InDomain HoldsCell NumberFormat.Finite NumberFormat.Regular NumberFormat.Infinite NumberFormat.NaN
  decide +kernel

/-- The registers of the floating-point witnesses: 1, -1, 2, 0, -0, inf, -inf, a NaN, the least and the largest number, 5/2,
-1/2, 2^127, -2^127. -/
abbrev fpState : State :=
  start std [(2, 0x2000)] [(0, 0x3FFF0000000000000000000000000000), (1, 0xBFFF0000000000000000000000000000),
    (2, 0x40000000000000000000000000000000), (3, 0), (4, 0x80000000000000000000000000000000),
    (5, 0x7FFF0000000000000000000000000000), (6, 0xFFFF0000000000000000000000000000),
    (7, 0x7FFF0000000000000000000000000001), (8, 1), (9, 0x7FFEFFFFFFFFFFFFFFFFFFFFFFFFFFFF),
    (10, 0x40004000000000000000000000000000), (11, 0xBFFE0000000000000000000000000000),
    (12, 0x407E0000000000000000000000000000), (13, 0xC07E0000000000000000000000000000)] []

theorem fpState_kinds :
    (∀ r ∈ [0, 1, 2, 3, 4, 8, 9, 10, 11, 12, (13 : FReg)], quad.Finite (fpState.getF r)) ∧
    (∀ r ∈ [5, (6 : FReg)], quad.Infinite (fpState.getF r)) ∧ quad.NaN (fpState.getF 7) ∧
    (∀ r ∈ [5, 6, (7 : FReg)], ¬ quad.Finite (fpState.getF r)) := by
  unfold NumberFormat.Finite NumberFormat.Regular NumberFormat.Infinite NumberFormat.NaN
  decide +kernel

theorem fpState_fp : fpState.cfg.fp = .ieee754 := by decide +kernel

theorem value_of {v : Word} {neg : Bool} {m e : Nat} (h : quad.sign v = neg ∧ quad.significand v = m ∧ quad.expField v = e) :
    quad.value v = (if neg then -1 else 1) * m * 2 ^ ((max e 1 : Nat) - 16383 - 112 : ℤ) := by
  obtain ⟨rfl, rfl, rfl⟩ := h
  simp [NumberFormat.value, NumberFormat.excess, NumberFormat.places, quad]

theorem fpState_values :
    quad.value (fpState.getF 0) = 1 ∧ quad.value (fpState.getF 1) = -1 ∧ quad.value (fpState.getF 2) = 2 ∧
    quad.value (fpState.getF 3) = 0 ∧ quad.value (fpState.getF 4) = 0 ∧ quad.value (fpState.getF 10) = 5 / 2 ∧
    quad.value (fpState.getF 11) = -1 / 2 ∧ quad.value (fpState.getF 12) = 2 ^ 127 ∧
    quad.value (fpState.getF 13) = -2 ^ 127 := by
  refine ⟨?_, ?_, ?_, ?_, ?_, ?_, ?_, ?_, ?_⟩
  · rw [value_of (neg := false) (m := 2 ^ 112) (e := 16383) (by decide +kernel)]; norm_num
  · rw [value_of (neg := true) (m := 2 ^ 112) (e := 16383) (by decide +kernel)]; norm_num
  · rw [value_of (neg := false) (m := 2 ^ 112) (e := 16384) (by decide +kernel)]; norm_num
  · rw [value_of (neg := false) (m := 0) (e := 0) (by decide +kernel)]; norm_num
  · rw [value_of (neg := true) (m := 0) (e := 0) (by decide +kernel)]; norm_num
  · rw [value_of (neg := false) (m := 5 * 2 ^ 110) (e := 16384) (by decide +kernel)]; norm_num
  · rw [value_of (neg := true) (m := 2 ^ 112) (e := 16382) (by decide +kernel)]; norm_num
  · rw [value_of (neg := false) (m := 2 ^ 112) (e := 16510) (by decide +kernel)]; norm_num
  · rw [value_of (neg := true) (m := 2 ^ 112) (e := 16510) (by decide +kernel)]; norm_num

theorem witness_NarrowingStoresRoundToNearest :
    fpState.cfg.fp = .ieee754 ∧ (∀ n ∈ [4, 8, 10], InDomain fpState (fpState.ea ⟨2, 3, .x1⟩) n) ∧
    (∀ r ∈ [3, 4, 8, (9 : FReg)], quad.Finite (fpState.getF r)) ∧ quad.Infinite (fpState.getF 6) ∧
    quad.NaN (fpState.getF 7) :=
  ⟨fpState_fp, fun _ _ => inDomain_whole rfl _ _, fun r h => fpState_kinds.1 r (by revert r; decide),
    fpState_kinds.2.1 6 (by decide), fpState_kinds.2.2.1⟩

/-- The largest number plus itself, the least by the least, and a divisor that is not 0. -/
theorem witness_ArithmeticIsCorrectlyRounded :
    fpState.cfg.fp = .ieee754 ∧ quad.Finite (fpState.getF 9) ∧ quad.Finite (fpState.getF 8) ∧
    quad.Finite (fpState.getF 1) ∧ quad.value (fpState.getF 1) ≠ 0 :=
  ⟨fpState_fp, fpState_kinds.1 9 (by decide), fpState_kinds.1 8 (by decide), fpState_kinds.1 1 (by decide), by
    rw [fpState_values.2.1]; norm_num⟩

theorem witness_InvalidOperationsGiveNaN :
    fpState.cfg.fp = .ieee754 ∧ quad.NaN (fpState.getF 7) ∧
    (quad.Infinite (fpState.getF 5) ∧ quad.Infinite (fpState.getF 6)) ∧
    quad.sign (fpState.getF 5) ≠ quad.sign (fpState.getF 6) ∧
    quad.sign (fpState.getF 6) = quad.sign (fpState.getF 6) ∧
    (quad.Finite (fpState.getF 4) ∧ quad.value (fpState.getF 4) = 0) ∧
    quad.Finite (fpState.getF 3) ∧ quad.value (fpState.getF 3) = 0 :=
  ⟨fpState_fp, fpState_kinds.2.2.1, ⟨fpState_kinds.2.1 5 (by decide), fpState_kinds.2.1 6 (by decide)⟩, by decide +kernel, rfl,
    ⟨fpState_kinds.1 4 (by decide), fpState_values.2.2.2.2.1⟩, fpState_kinds.1 3 (by decide), fpState_values.2.2.2.1⟩

/-- An infinity and a number (0 among them), two infinities with each relation of their signs, a number over zero, a zero of
either sign over a number, and sums that cancel. -/
theorem witness_InfinitiesAndSignedZeros :
    fpState.cfg.fp = .ieee754 ∧ quad.Infinite (fpState.getF 6) ∧ quad.Finite (fpState.getF 1) ∧
    quad.value (fpState.getF 1) ≠ 0 ∧ quad.Infinite (fpState.getF 5) ∧
    quad.sign (fpState.getF 6) = quad.sign (fpState.getF 6) ∧ quad.sign (fpState.getF 5) = (!quad.sign (fpState.getF 6)) ∧
    quad.Finite (fpState.getF 4) ∧ quad.value (fpState.getF 4) = 0 ∧ quad.sign (fpState.getF 4) = true ∧
    (quad.Finite (fpState.getF 3) ∧ quad.value (fpState.getF 3) = 0 ∧ quad.sign (fpState.getF 3) = false) ∧
    (quad.Finite (fpState.getF 0) ∧ quad.value (fpState.getF 0) + quad.value (fpState.getF 1) = 0) ∧
    quad.value (fpState.getF 1) - quad.value (fpState.getF 1) = 0 :=
  ⟨fpState_fp, fpState_kinds.2.1 6 (by decide), fpState_kinds.1 1 (by decide), by rw [fpState_values.2.1]; norm_num,
    fpState_kinds.2.1 5 (by decide), rfl, by decide +kernel, fpState_kinds.1 4 (by decide), fpState_values.2.2.2.2.1,
    by decide +kernel, ⟨fpState_kinds.1 3 (by decide), fpState_values.2.2.2.1, by decide +kernel⟩, ⟨fpState_kinds.1 0 (by decide), by rw [fpState_values.1, fpState_values.2.1]; norm_num⟩, sub_self _⟩

theorem witness_CompareOrdersValues :
    fpState.cfg.fp = .ieee754 ∧ quad.Finite (fpState.getF 3) ∧ quad.Finite (fpState.getF 4) ∧
    quad.Finite (fpState.getF 9) ∧ quad.Infinite (fpState.getF 5) ∧ quad.Infinite (fpState.getF 6) :=
  ⟨fpState_fp, fpState_kinds.1 3 (by decide), fpState_kinds.1 4 (by decide), fpState_kinds.1 9 (by decide),
    fpState_kinds.2.1 5 (by decide), fpState_kinds.2.1 6 (by decide)⟩

/-- Each mode, the tie of `roundn` in both settings, the least integer that fits, the first that does not, and an infinity. -/
theorem witness_RoundingsChooseTheInteger :
    fpState.cfg.fp = .ieee754 ∧
    (quad.Finite (fpState.getF 10) ∧ fpState.cfg.roundnTie = .even ∧
      ChoosesInt .even .nearest (quad.value (fpState.getF 10)) 2 ∧
      ChoosesInt .away .nearest (quad.value (fpState.getF 10)) 3) ∧
    (quad.Finite (fpState.getF 11) ∧ ChoosesInt .even .floor (quad.value (fpState.getF 11)) (-1) ∧
      ChoosesInt .even .ceiling (quad.value (fpState.getF 11)) 0 ∧
      ChoosesInt .even .trunc (quad.value (fpState.getF 11)) 0) ∧
    (quad.Finite (fpState.getF 13) ∧ ChoosesInt .even .trunc (quad.value (fpState.getF 13)) (-2 ^ 127) ∧
      (-2 ^ 127 : ℤ) ≤ -2 ^ 127 ∧ (-2 ^ 127 : ℤ) ≤ 2 ^ 127 - 1) ∧
    (ChoosesInt .even .nearest (quad.value (fpState.getF 12)) (2 ^ 127) ∧ (2 ^ 127 - 1 : ℤ) < 2 ^ 127) ∧
    ¬ quad.Finite (fpState.getF 5) := by
  refine ⟨fpState_fp, ⟨fpState_kinds.1 10 (by decide), by decide +kernel, ?_, ?_⟩,
    ⟨fpState_kinds.1 11 (by decide), ?_, ?_, ?_⟩, ⟨fpState_kinds.1 13 (by decide), ?_, by norm_num, by norm_num⟩,
    ⟨?_, by norm_num⟩, fpState_kinds.2.2.2 5 (by decide)⟩
  all_goals
    simp only [fpState_values, ChoosesInt]
    norm_num [abs_of_nonneg, abs_of_nonpos, abs_div]

theorem witness_FractionIsExact :
    fpState.cfg.fp = .ieee754 ∧ quad.Finite (fpState.getF 11) ∧
    ChoosesInt fpState.cfg.roundnTie .trunc (quad.value (fpState.getF 11)) 0 ∧ quad.Finite (fpState.getF 4) ∧
    ChoosesInt fpState.cfg.roundnTie .trunc (quad.value (fpState.getF 4)) 0 := by
  refine ⟨fpState_fp, fpState_kinds.1 11 (by decide), ?_, fpState_kinds.1 4 (by decide), ?_⟩
  all_goals
    simp only [fpState_values, ChoosesInt]
    norm_num [abs_of_nonneg, abs_of_nonpos, abs_div]

/-- Each condition at the values beside its border. -/
theorem witness_conditions :
    (CondTrue .s 0x80000000000000000000000000000000 ∧ CondTrue .s (-1) ∧ ¬ CondTrue .s 0) ∧
    (CondTrue .z 0 ∧ ¬ CondTrue .z 1 ∧ ¬ CondTrue .z (-1)) ∧
    (CondTrue .p 1 ∧ CondTrue .p 0x7FFFFFFFFFFFFFFFFFFFFFFFFFFFFFFF ∧ ¬ CondTrue .p 0) ∧
    (CondTrue .nz 1 ∧ CondTrue .nz (-1) ∧ ¬ CondTrue .nz 0) ∧
    (CondTrue .ge 0 ∧ CondTrue .ge 1 ∧ ¬ CondTrue .ge (-1)) ∧
    (CondTrue .le 0 ∧ CondTrue .le (-1) ∧ ¬ CondTrue .le 1) := by
  simp only [CondTrue]
  decide +kernel

theorem witness_ConditionalJumps :
    CondTrue .le (State.reset.getX 1) ∧ ¬ CondTrue .le ((State.reset.setX 1 1).getX 1) := by
  simp only [CondTrue]
  decide +kernel

/-- One slot of memory is enough; or the slot wraps around. -/
theorem witness_Calls :
    InDomain (start (within 0x7FF0 16) [(31, 0x8000)] [] []) ((start (within 0x7FF0 16) [(31, 0x8000)] [] []).slotBelow 1) 16 ∧
    InDomain (start std [(31, 8)] [] []) ((start std [(31, 8)] [] []).slotBelow 1) 16 := by
  unfold InDomain
  decide +kernel

theorem witness_ConditionalCalls :
    let s := start (within 0x7FF0 16) [(1, -1), (31, 0x8000)] [] []
    ¬ CondTrue .ge (s.getX 1) ∧ CondTrue .s (s.getX 1) ∧ InDomain s (s.slotBelow 1) 16 := by
  simp only [CondTrue]
  unfold InDomain
  decide +kernel

theorem witness_Returns :
    let s := start (within 0x8000 16) [(31, 0x8000)] [] [(0x8000, 16, 0x1234)]
    InDomain s s.sp 16 ∧ HoldsCell s s.sp 16 0x1234 := by
  unfold InDomain HoldsCell
  decide +kernel

theorem witness_ConditionalReturns :
    let s := start (within 0x8000 16) [(31, 0x8000)] [] [(0x8000, 16, 0x1234)]
    ¬ CondTrue .nz (s.getX 1) ∧ CondTrue .z (s.getX 1) ∧ InDomain s s.sp 16 ∧ HoldsCell s s.sp 16 0x1234 := by
  simp only [CondTrue]
  unfold InDomain HoldsCell
  decide +kernel

theorem witness_ReturnAfterCall :
    InDomain (start (within 0x7FF0 16) [(31, 0x8000)] [] []) ((start (within 0x7FF0 16) [(31, 0x8000)] [] []).slotBelow 1) 16 :=
  witness_Calls.1

/-- The slot below and the slot at the top; the first and the last of the slots of a trap, and of those of a `reti` after `ip`
in each order (what the cells of the registers hold is what a read of them gives). -/
theorem witness_UnmappedStackSlotsFault :
    (let s := start (within 0x8000 16) [(31, 0x8000)] [] []
     let t := start (within 0x7FF0 16) [(31, 0x8000)] [] []
     (¬ InDomain s (s.slotBelow 1) 16 ∧ CondTrue .z (s.getX 1)) ∧ ¬ InDomain t t.sp 16 ∧ CondTrue .z (t.getX 1)) ∧
    (∀ k ∈ [0, 32],
      let u := start (within (0x8000 - 16 * k) (16 * k)) [(31, 0x8000)] [] []
      k ≤ 32 ∧ InDomain u (u.slotBelow k) (16 * k) ∧ ¬ InDomain u (u.slotBelow (k + 1)) 16) ∧
    (∀ o ∈ [PopOrder.sourceAscending, .descending], ∀ k ∈ [0, 31], (o = .sourceAscending ∨ k = 0) →
      let s := start { within 0x8000 (16 * (k + 1)) with popOrder := o } [(31, 0x8000)] [] ((0x8000, 16, 0x2004) :: slots 0x8010)
      HoldsCell s s.sp 16 0x2004 ∧ k ≤ 31 ∧ (s.cfg.popOrder = .sourceAscending ∨ k = 0) ∧ InDomain s s.sp (16 * (k + 1)) ∧
        ¬ InDomain s (s.slotAbove (k + 1)) 16) ∧
    ∀ k ∈ [0, 30],
      let s := start { descending with memDomain := [⟨0x8000, 32⟩, ⟨0x9010, 16 * k⟩] } [(31, 0x8000)] []
        ((0x8000, 16, 0x2004) :: (0x8010, 16, 0x9000) :: slots 0x9010)
      HoldsCell s s.sp 16 0x2004 ∧ k ≤ 30 ∧ s.cfg.popOrder = .descending ∧ InDomain s s.sp 32 ∧
        HoldsCell s (s.slotAbove 1) 16 0x9000 ∧ InDomain s (0x9000 + 16) (16 * k) ∧
        ¬ InDomain s (0x9000 + 16 + BitVec.ofNat 128 (16 * k)) 16 := by
  simp only [CondTrue]
  unfold InDomain HoldsCell
  refine ⟨?_, ?_, ?_, ?_⟩ <;> decide +kernel

/-- The frame and no byte more; a frame across address 0. -/
theorem witness_TrapSavesTheFrame :
    InDomain (start (within 0x7DF0 528) [(31, 0x8000)] [] []) ((start (within 0x7DF0 528) [(31, 0x8000)] [] []).slotBelow 33) 528 ∧
    InDomain (start std [(31, 0x10)] [] []) ((start std [(31, 0x10)] [] []).slotBelow 33) 528 := by
  constructor
  · unfold InDomain
    decide +kernel
  · exact inDomain_whole rfl _ _

theorem witness_RetiAfterTrap :
    let s := start (withinDescending 0x7DF0 528) [(31, 0x8000)] [] []
    let t := start (within 0x7DF0 528) [(31, 0x8000)] [] []
    (InDomain s (s.slotBelow 33) 528 ∧ s.cfg.popOrder = .descending) ∧
    InDomain t (t.slotBelow 33) 528 ∧ t.cfg.popOrder = .sourceAscending := by
  unfold InDomain
  decide +kernel

/-- Both orders: under the source's the frame is one block, under the other the registers lie where the loaded `sp` says (what
the cells of `r0` to `r30` hold is what a read of them gives). -/
theorem witness_RetiLoadsTheFrame :
    (let s := start (within 0x8000 528) [(31, 0x8000)] [] ((0x8000, 16, 0x2004) :: slots 0x8010)
     (HoldsCell s s.sp 16 0x2004 ∧ s.cfg.popOrder = .sourceAscending ∧ InDomain s s.sp 528) ∧
        ∀ n : Reg, HoldsCell s (s.slotAbove (n.val + 1)) 16 (s.cell (s.slotAbove (n.val + 1)) 16)) ∧
    (let s := start { descending with memDomain := [⟨0x8000, 32⟩, ⟨0x9010, 496⟩] } [(31, 0x8000)] []
        ((0x8000, 16, 0x2004) :: (0x8010, 16, 0x9000) :: slots 0x9010)
     (HoldsCell s s.sp 16 0x2004 ∧ s.cfg.popOrder = .descending ∧ InDomain s s.sp 32 ∧
        HoldsCell s (s.slotAbove 1) 16 0x9000 ∧ InDomain s (0x9000 + 16) 496) ∧
        ∀ n : Reg, n ≠ spReg → HoldsCell s (0x9000 + 16 + BitVec.ofNat 128 (16 * (30 - n.val))) 16
          (s.cell (0x9000 + 16 + BitVec.ofNat 128 (16 * (30 - n.val))) 16)) := by
  refine ⟨⟨?_, fun n => holdsCell_cell _ _ (by decide)⟩, ?_, fun n _ => holdsCell_cell _ _ (by decide)⟩
  all_goals
    unfold InDomain HoldsCell
    decide +kernel


end Sys2Proof.Tests
end

section
/-! PROOFS of the family 00_scope: what every step keeps (O10), and the shifts whose count is out of range (O37). -/

namespace Sys2Proof.Machine

/-! ### What every instruction and every step keeps -/

/-- An instruction that cannot fault keeps what the state it answers keeps. -/
theorem keeps_of_next {s t u : State} (hu : Keeps s u) (h : (.next u : Outcome) = .next t) : Keeps s t := by
  cases h; exact hu

/-- An instruction that ends in `finish` keeps what its operation keeps where that operation raises no fault. -/
theorem keeps_of_finish {s t : State} {e : Except Fault State} (he : e = .ok t → Keeps s t)
    (h : finish e = .next t) : Keeps s t :=
  he (finish_eq_next.mp h)

/-- No instruction writes the parameters, leaves the canonical form of memory or gives a draw back. One case per
operation that the meanings are made of. -/
theorem keeps_exec {i : Instr} {s t : State} (h : exec i s = .next t) : Keeps s t := by
  cases i with
  -- 40 to 44: one integer register written with a value that needs no memory
  | movR | movu | movs | addiR | addiI | subiR | subiI | muliuR | muliuI | mulisR | mulisI
  | cmpiuR | cmpiuI | cmpisR | cmpisI | andR | andI | orR | orI | xorR | xorI | andnR | andnI
  | ornR | ornI | xornR | xornI | notR | notI | cmpf => exact keeps_of_next (keeps_setX _ _ _) h
  | lshiftR | lshiftI | rshiftR | rshiftI | rshiftsR | rshiftsI =>
    exact keeps_of_next (keeps_setShift _ _ _ _) h
  | roundn | roundl | roundg | roundt => exact keeps_of_next (keeps_setRounded _ _ _) h
  | diviuR | diviuI | divisR | divisI | modiuR | modiuI | modisR | modisI =>
    exact keeps_of_finish keeps_setDivision h
  | divmodiu | divmodis => exact keeps_of_finish keeps_setDivMod h
  -- 43, 44: one floating-point register written
  | movF => exact keeps_of_next (keeps_setF _ _ _) h
  | addf | subf | mulf | divf | frac => exact keeps_of_next (keeps_setFp _ _ _) h
  -- 40, 43: loads and stores
  | movLoad | mov8u | mov16u | mov32u | mov64u | mov8s | mov16s | mov32s | mov64s =>
    exact keeps_of_finish keeps_loadX h
  | movStore | mov8 | mov16 | mov32 | mov64 => exact keeps_of_finish keeps_storeX h
  | movFLoad | mov32fLoad | mov64fLoad | mov80fLoad => exact keeps_of_finish keeps_loadF h
  | mov32fStore | mov64fStore | mov80fStore => exact keeps_of_finish keeps_storeF h
  -- 40, 43: ranges on the stack
  | push | pushF => exact keeps_of_finish (keeps_pushAll _ _) h
  | pop => exact keeps_of_finish (keeps_popAll keeps_putX _) h
  | popF => exact keeps_of_finish (keeps_popAll keeps_putF _) h
  -- 45: jumps, calls and returns
  | jmp | jmprR | jmprI => exact keeps_of_next (keeps_setIp _ _) h
  | jmpS | jmpZ | jmpP | jmpNz | jmpGe | jmpLe | jmpSrR | jmpZrR | jmpPrR | jmpNzrR | jmpGerR | jmpLerR
  | jmpSrI | jmpZrI | jmpPrI | jmpNzrI | jmpGerI | jmpLerI => exact keeps_of_finish keeps_jumpIf h
  | call | callrR | callrI => exact keeps_of_finish keeps_callTo h
  | callS | callZ | callP | callNz | callGe | callLe | callSrR | callZrR | callPrR | callNzrR | callGerR | callLerR
  | callSrI | callZrI | callPrI | callNzrI | callGerI | callLerI =>
    exact keeps_of_finish (keeps_onlyIf keeps_callTo) h
  | ret => exact keeps_of_finish keeps_popIp h
  | retS | retZ | retP | retNz | retGe | retLe => exact keeps_of_finish (keeps_onlyIf keeps_popIp) h
  | retaR | retaI => exact keeps_of_finish keeps_returnWith h
  | retaSR | retaZR | retaPR | retaNzR | retaGeR | retaLeR
  | retaSI | retaZI | retaPI | retaNzI | retaGeI | retaLeI =>
    exact keeps_of_finish (keeps_onlyIf keeps_returnWith) h
  -- 60: the software interrupt
  | trapR | trapI => exact keeps_of_finish keeps_enterTrap h
  | reti => exact keeps_of_finish keeps_leaveTrap h

/-- Everything a step that raises no fault can do (00 R15): stay where the run has ended, or execute the instruction
that the fetched word decodes to, `ip` already advanced. -/
theorem step_next_cases {s t : State} (h : step s = .next t) :
    (s.halted = true ∧ t = s) ∨
      ∃ w i, fetch s = .ok w ∧ decode w = .ok i ∧ exec i s.advance = .next t := by
  unfold step at h
  split at h
  case isTrue hhalt => cases h; exact .inl ⟨hhalt, rfl⟩
  case isFalse =>
    split at h
    case h_1 => cases h
    case h_2 w hfetch =>
      split at h
      case h_1 => cases h
      case h_2 i hdecode => exact .inr ⟨w, i, hfetch, hdecode, h⟩

/-- Every step keeps what every instruction keeps. -/
theorem keeps_step {s t : State} (h : step s = .next t) : Keeps s t := by
  rcases step_next_cases h with ⟨_, rfl⟩ | ⟨_, _, _, _, hexec⟩
  · exact Keeps.refl _
  · exact (keeps_advance s).trans (keeps_exec hexec)

/-- Settles O10: the parameters and the draws are two of the things that every step keeps. -/
theorem everyStepKeepsTheParameters : Obligations.EveryStepKeepsTheParameters :=
  fun _ _ h => ⟨(keeps_step h).cfg, (keeps_step h).draws⟩

/-! ### Shifts out of range -/

/-- A write to an integer register changes no other part of the state. -/
theorem onlyX_setX (s : State) (d : Reg) (v : Word) : OnlyX [d] s (s.setX d v) :=
  ⟨fun _ hr => s.getX_setX_of_ne v (List.ne_of_not_mem_cons hr), fun _ _ => rfl, fun _ => rfl, rfl, rfl⟩

/-- The frame of `OnlyX` does not speak of the draw counter: a draw may come before. -/
theorem OnlyX.of_drawn {rs : List Reg} {s t : State} (h : OnlyX rs s.drawn t) : OnlyX rs s t := h

/-- Sign extension makes no unsigned reading smaller, so an immediate of 128 or more stays out of range. -/
theorem toNat_le_toNat_sext {n : Nat} (imm : BitVec n) (hn : n ≤ 128) : imm.toNat ≤ (sext imm).toNat := by
  rw [sext, BitVec.toNat_signExtend, BitVec.toNat_setWidth_of_le hn]
  exact Nat.le_add_right _ _

/-- A shift whose count is 128 or more, whatever its direction (42 R210): it completes, its destination takes the
free value of the next draw, that draw is taken, and nothing else changes. -/
theorem exec_shift_free {i : Instr} {d : Reg} {c : Word} {g : Nat → Word} {s : State}
    (hi : exec i s = .next (setShift d c g s)) (hc : 128 ≤ c.toNat) :
    ∃ t, exec i s = .next t ∧ OnlyX [d] s t ∧ t.getX d = Config.anyWord s.draws ∧ t.draws = s.draws + 1 := by
  rw [setShift_of_ge hc] at hi
  exact ⟨_, hi, (onlyX_setX s.drawn d _).of_drawn, State.getX_setX_self _ _ _, rfl⟩

/-- Settles O37: each of the six is `setShift` of its count, the register forms with the register's value and the
immediate forms with the extended immediate. -/
theorem shiftsOutOfRangeAreFree : Obligations.ShiftsOutOfRangeAreFree := by
  intro d a b imm s
  constructor
  · intro hcount i hi
    simp only [List.mem_cons, List.not_mem_nil, or_false] at hi
    rcases hi with rfl | rfl | rfl <;> exact exec_shift_free rfl hcount
  · intro himm i hi
    have hcount : 128 ≤ (sext imm).toNat := himm.trans (toNat_le_toNat_sext imm (by decide))
    simp only [List.mem_cons, List.not_mem_nil, or_false] at hi
    rcases hi with rfl | rfl | rfl <;> exact exec_shift_free rfl hcount

end Sys2Proof.Machine
end

section
/-! PROOFS of the family 20_memory: which instructions change the floating-point file, memory and `ip` (O12). -/

namespace Sys2Proof.Machine

open Sys2Proof.Laws

/-! ### The type field of an instruction's word -/

/-- The word of every instruction has the key of its row, whatever its operands: one case per template of 30 R72. -/
theorem keyNumber_encode (i : Instr) : keyNumber (encode i) = rowKey i := by
  cases i with
  | jmprI | callrI | retaI | trapI => exact keyNumber_wordA _ _
  | jmp | jmprR | call | callrR | retS | retZ | retP | retNz | retGe | retLe | retaR | trapR =>
    exact keyNumber_wordB _ _
  | movu | movs | notI
  | jmpSrI | jmpZrI | jmpPrI | jmpNzrI | jmpGerI | jmpLerI
  | callSrI | callZrI | callPrI | callNzrI | callGerI | callLerI
  | retaSI | retaZI | retaPI | retaNzI | retaGeI | retaLeI => exact keyNumber_wordC _ _ _
  | movR | push | pop | movF | pushF | popF | notR | roundn | roundl | roundg | roundt | frac
  | jmpS | jmpZ | jmpP | jmpNz | jmpGe | jmpLe | jmpSrR | jmpZrR | jmpPrR | jmpNzrR | jmpGerR | jmpLerR
  | callS | callZ | callP | callNz | callGe | callLe | callSrR | callZrR | callPrR | callNzrR | callGerR | callLerR
  | retaSR | retaZR | retaPR | retaNzR | retaGeR | retaLeR => exact keyNumber_wordD _ _ _
  | addiI | subiI | muliuI | mulisI | diviuI | divisI | modiuI | modisI | cmpiuI | cmpisI
  | andI | orI | xorI | andnI | ornI | xornI | lshiftI | rshiftI | rshiftsI => exact keyNumber_wordE _ _ _ _
  | addiR | subiR | muliuR | mulisR | diviuR | divisR | modiuR | modisR | cmpiuR | cmpisR
  | andR | orR | xorR | andnR | ornR | xornR | lshiftR | rshiftR | rshiftsR
  | addf | subf | mulf | divf | cmpf => exact keyNumber_wordF _ _ _ _
  | divmodiu | divmodis => exact keyNumber_wordG _ _ _ _ _
  | movLoad | mov8u | mov16u | mov32u | mov64u | mov8s | mov16s | mov32s | mov64s
  | movStore | mov8 | mov16 | mov32 | mov64
  | movFLoad | mov32fLoad | mov64fLoad | mov80fLoad | mov32fStore | mov64fStore | mov80fStore =>
    exact keyNumber_wordM _ _ _
  | ret | reti => exact keyNumber_wordZ _

/-- The rows whose column T is 2 are the control transfers. -/
theorem transfersControl_of_rowKey {i : Instr} {op : Nat} (h : rowKey i = 2 * 1024 + op) (hop : op < 1024) :
    transfersControl i = true := by
  rw [← keyNumber_encode, keyNumber] at h
  rw [transfersControl, slice, beq_iff_eq]
  omega

/-! ### What the updates of the state may change -/

/-- What an instruction may change, from whether it writes floating-point registers, memory and `ip`: a part it does
not write is in `t` as in `s`. The integer file, the parameters and the draws are not spoken of. -/
structure ChangesOnly (float memory pointer : Bool) (s t : State) : Prop where
  f : float = false → t.f = s.f
  mem : memory = false → t.mem = s.mem
  ip : pointer = false → t.ip = s.ip

section

variable {fl mm ip : Bool} {s t u : State}

theorem ChangesOnly.refl (s : State) : ChangesOnly fl mm ip s s := ⟨fun _ => rfl, fun _ => rfl, fun _ => rfl⟩

theorem ChangesOnly.trans (h : ChangesOnly fl mm ip s t) (h' : ChangesOnly fl mm ip t u) : ChangesOnly fl mm ip s u :=
  ⟨fun e => (h'.f e).trans (h.f e), fun e => (h'.mem e).trans (h.mem e), fun e => (h'.ip e).trans (h.ip e)⟩

/-- The frame of the statements: a register and a byte are read off the file and the memory they lie in. -/
theorem ChangesOnly.frame (h : ChangesOnly fl mm ip s t) :
    (fl = false → SameFBut [] s t) ∧ (mm = false → SameBytes s t) ∧ (ip = false → t.ip = s.ip) :=
  ⟨fun e r _ => by rw [State.getF, h.f e, State.getF],
    fun e a => by rw [State.readByte, h.mem e, State.readByte], h.ip⟩

theorem changes_setX (s : State) (r : Reg) (v : Word) : ChangesOnly fl mm ip s (s.setX r v) :=
  ⟨fun _ => rfl, fun _ => rfl, fun _ => rfl⟩

theorem changes_drawn (s : State) : ChangesOnly fl mm ip s s.drawn := ⟨fun _ => rfl, fun _ => rfl, fun _ => rfl⟩

theorem changes_setF (s : State) (r : FReg) (v : Word) : ChangesOnly true mm ip s (s.setF r v) :=
  ⟨nofun, fun _ => rfl, fun _ => rfl⟩

theorem changes_store (s : State) (a : Word) (n : Nat) (v : Word) : ChangesOnly fl true ip s (s.store a n v) :=
  ⟨fun _ => rfl, nofun, fun _ => rfl⟩

theorem changes_setIp (s : State) (v : Word) : ChangesOnly fl mm true s (s.setIp v) :=
  ⟨fun _ => rfl, fun _ => rfl, nofun⟩

theorem changes_fpAfter {w : Nat} (s : State) (v : FpVal w) : ChangesOnly fl mm ip s (fpAfter s v) :=
  ⟨fun _ => fpAfter_f s v, fun _ => fpAfter_mem s v, fun _ => fpAfter_ip s v⟩

theorem changes_setFp (s : State) (d : FReg) (v : FpVal 128) : ChangesOnly true mm ip s (s.setFp d v) :=
  (changes_fpAfter s v).trans (changes_setF _ _ _)

/-! ### What the shared operations may change -/

theorem changes_setShift (d : Reg) (c : Word) (g : Nat → Word) (s : State) :
    ChangesOnly fl mm ip s (setShift d c g s) := by
  rcases setShift_cases d c g s with ⟨_, h⟩ | ⟨_, h⟩ <;> rw [h]
  · exact changes_setX _ _ _
  · exact (changes_drawn _).trans (changes_setX _ _ _)

theorem changes_setRounded (d : Reg) (z : Option Int) (s : State) : ChangesOnly fl mm ip s (setRounded d z s) := by
  rcases setRounded_cases d z s with ⟨_, _, h⟩ | ⟨_, h⟩ <;> rw [h]
  · exact changes_setX _ _ _
  · exact (changes_drawn _).trans (changes_setX _ _ _)

theorem changes_setDivision {d : Reg} {v : State → Except Fault Word} (h : setDivision d v s = .ok t) :
    ChangesOnly fl mm ip s t := by
  obtain ⟨_, _, rfl⟩ := setDivision_cases h
  exact changes_setX _ _ _

theorem changes_setDivMod {q r : Reg} {x y : State → Except Fault Word} (h : setDivMod q r x y s = .ok t) :
    ChangesOnly fl mm ip s t := by
  obtain ⟨_, _, _, _, rfl⟩ := setDivMod_cases h
  exact (changes_setX _ _ _).trans (changes_setX _ _ _)

theorem changes_loadX {n : Nat} {widen : Word → Word} {d : Reg} {m : MemOperand} (h : loadX n widen d m s = .ok t) :
    ChangesOnly fl mm ip s t := by
  rw [(loadX_cases h).2]; exact changes_setX _ _ _

theorem changes_storeX {n : Nat} {r : Reg} {m : MemOperand} (h : storeX n r m s = .ok t) :
    ChangesOnly fl true ip s t := by
  rw [(storeX_cases h).2]; exact changes_store _ _ _ _

theorem changes_loadF {n : Nat} {convert : Word → FpVal 128} {d : FReg} {m : MemOperand}
    (h : loadF n convert d m s = .ok t) : ChangesOnly true mm ip s t := by
  rw [(loadF_cases h).2]; exact changes_setFp _ _ _

theorem changes_storeF {n w : Nat} {nan : Word → BitVec w} {v : FpVal w} {m : MemOperand}
    (h : storeF n nan v m s = .ok t) : ChangesOnly fl true ip s t := by
  rw [(storeF_cases h).2]; exact (changes_fpAfter _ _).trans (changes_store _ _ _ _)

theorem changes_pushSlot {v : State → Word} (h : pushSlot v s = .ok t) : ChangesOnly fl true ip s t := by
  rw [(pushSlot_cases h).2]; exact (changes_setX _ _ _).trans (changes_store _ _ _ _)

theorem changes_popSlot {put : Word → State → State} (hput : ∀ v s, ChangesOnly fl mm ip s (put v s))
    (h : popSlot put s = .ok t) : ChangesOnly fl mm ip s t := by
  rw [(popSlot_cases h).2]; exact (hput _ _).trans (changes_setX _ _ _)

theorem changes_pushAll {get : State → Fin 32 → Word} {ns : List (Fin 32)} (h : pushAll get ns s = .ok t) :
    ChangesOnly fl true ip s t :=
  pushAll_induct ChangesOnly.refl (fun _ _ _ => ChangesOnly.trans) (fun _ _ _ => changes_pushSlot) get ns h

theorem changes_popAll {put : Fin 32 → Word → State → State} (hput : ∀ n v s, ChangesOnly fl mm ip s (put n v s))
    {ns : List (Fin 32)} (h : popAll put ns s = .ok t) : ChangesOnly fl mm ip s t :=
  popAll_induct ChangesOnly.refl (fun _ _ _ => ChangesOnly.trans) (fun n _ _ => changes_popSlot (hput n)) ns h

theorem changes_putX (n : Reg) (v : Word) (s : State) : ChangesOnly fl mm ip s (putX n v s) := changes_setX _ _ _

theorem changes_putF (n : FReg) (v : Word) (s : State) : ChangesOnly true mm ip s (putF n v s) := changes_setF _ _ _

theorem changes_onlyIf {c : Cond} {v : Word} {act : State → Except Fault State}
    (hact : act s = .ok t → ChangesOnly fl mm ip s t) (h : onlyIf c v act s = .ok t) : ChangesOnly fl mm ip s t := by
  rcases onlyIf_cases h with ⟨_, h⟩ | ⟨_, rfl⟩
  · exact hact h
  · exact ChangesOnly.refl _

theorem changes_jumpIf {c : Cond} {v : Word} {target : State → Word}
    (h : onlyIf c v (fun s1 => .ok (s1.setIp (target s1))) s = .ok t) : ChangesOnly fl mm true s t :=
  changes_onlyIf (fun h => by cases h; exact changes_setIp _ _) h

theorem changes_callTo {target : State → Word} (h : callTo target s = .ok t) : ChangesOnly fl true true s t := by
  rw [(callTo_cases h).2]
  exact ((changes_setX _ _ _).trans (changes_store _ _ _ _)).trans (changes_setIp _ _)

theorem changes_popIp (h : popIp s = .ok t) : ChangesOnly fl mm true s t := by
  rw [(popIp_cases h).2]; exact (changes_setIp _ _).trans (changes_setX _ _ _)

theorem changes_returnWith {size : State → Word} (h : returnWith size s = .ok t) : ChangesOnly fl mm true s t := by
  rw [(returnWith_cases h).2]
  exact ((changes_setIp _ _).trans (changes_setX _ _ _)).trans (changes_setX _ _ _)

theorem changes_enterTrap {number : State → BitVec 10} (h : enterTrap number s = .ok t) :
    ChangesOnly fl true true s t := by
  obtain ⟨_, _, h1, h2, rfl⟩ := enterTrap_cases h
  exact ((changes_pushAll h1).trans (changes_pushSlot h2)).trans (changes_setIp _ _)

theorem changes_leaveTrap (h : leaveTrap s = .ok t) : ChangesOnly fl mm true s t := by
  obtain ⟨_, h1, h2⟩ := leaveTrap_cases h
  exact (changes_popIp h1).trans (changes_popAll changes_putX h2)

/-! ### What each instruction may change -/

/-- An instruction that cannot fault changes what the state it answers shows. -/
theorem changes_of_next (hu : ChangesOnly fl mm ip s u) (h : (.next u : Outcome) = .next t) :
    ChangesOnly fl mm ip s t := by
  cases h; exact hu

/-- An instruction that ends in `finish` changes what its operation changes where that operation raises no fault. -/
theorem changes_of_finish {e : Except Fault State} (he : e = .ok t → ChangesOnly fl mm ip s t)
    (h : finish e = .next t) : ChangesOnly fl mm ip s t :=
  he (finish_eq_next.mp h)

/-- Of the instructions whose row has T = 2 nothing is claimed about `ip`. -/
theorem ChangesOnly.of_transfer {i : Instr} {op : Nat} (h : ChangesOnly fl mm true s t)
    (hi : rowKey i = 2 * 1024 + op) (hop : op < 1024) : ChangesOnly fl mm (transfersControl i) s t := by
  rw [transfersControl_of_rowKey hi hop]; exact h

end

/-- Every instruction changes only the kinds of state that its own kind names. One case per operation that the
meanings are made of; at each constructor the three kinds are known, and they must be those of the operation. -/
theorem changes_exec {i : Instr} {s t : State} (h : exec i s = .next t) :
    ChangesOnly (writesFloat i) (storesMemory i) (transfersControl i) s t := by
  cases i with
  -- none of the three: results in integer registers
  | movR | movu | movs | addiR | addiI | subiR | subiI | muliuR | muliuI | mulisR | mulisI
  | cmpiuR | cmpiuI | cmpisR | cmpisI | andR | andI | orR | orI | xorR | xorI | andnR | andnI
  | ornR | ornI | xornR | xornI | notR | notI | cmpf => exact changes_of_next (changes_setX _ _ _) h
  | lshiftR | lshiftI | rshiftR | rshiftI | rshiftsR | rshiftsI =>
    exact changes_of_next (changes_setShift _ _ _ _) h
  | roundn | roundl | roundg | roundt => exact changes_of_next (changes_setRounded _ _ _) h
  | diviuR | diviuI | divisR | divisI | modiuR | modiuI | modisR | modisI =>
    exact changes_of_finish changes_setDivision h
  | divmodiu | divmodis => exact changes_of_finish changes_setDivMod h
  | movLoad | mov8u | mov16u | mov32u | mov64u | mov8s | mov16s | mov32s | mov64s =>
    exact changes_of_finish changes_loadX h
  | pop => exact changes_of_finish (changes_popAll changes_putX) h
  -- the floating-point file
  | movF => exact changes_of_next (changes_setF _ _ _) h
  | addf | subf | mulf | divf | frac => exact changes_of_next (changes_setFp _ _ _) h
  | movFLoad | mov32fLoad | mov64fLoad | mov80fLoad => exact changes_of_finish changes_loadF h
  | popF => exact changes_of_finish (changes_popAll changes_putF) h
  -- memory
  | movStore | mov8 | mov16 | mov32 | mov64 => exact changes_of_finish changes_storeX h
  | mov32fStore | mov64fStore | mov80fStore => exact changes_of_finish changes_storeF h
  | push | pushF => exact changes_of_finish changes_pushAll h
  -- `ip`
  | jmp | jmprR | jmprI => exact (changes_of_next (changes_setIp _ _) h).of_transfer rfl (by decide)
  | jmpS | jmpZ | jmpP | jmpNz | jmpGe | jmpLe | jmpSrR | jmpZrR | jmpPrR | jmpNzrR | jmpGerR | jmpLerR
  | jmpSrI | jmpZrI | jmpPrI | jmpNzrI | jmpGerI | jmpLerI =>
    exact (changes_of_finish changes_jumpIf h).of_transfer rfl (by decide)
  | ret => exact (changes_of_finish changes_popIp h).of_transfer rfl (by decide)
  | retS | retZ | retP | retNz | retGe | retLe =>
    exact (changes_of_finish (changes_onlyIf changes_popIp) h).of_transfer rfl (by decide)
  | retaR | retaI => exact (changes_of_finish changes_returnWith h).of_transfer rfl (by decide)
  | retaSR | retaZR | retaPR | retaNzR | retaGeR | retaLeR
  | retaSI | retaZI | retaPI | retaNzI | retaGeI | retaLeI =>
    exact (changes_of_finish (changes_onlyIf changes_returnWith) h).of_transfer rfl (by decide)
  | reti => exact (changes_of_finish changes_leaveTrap h).of_transfer rfl (by decide)
  -- memory and `ip`
  | call | callrR | callrI => exact (changes_of_finish changes_callTo h).of_transfer rfl (by decide)
  | callS | callZ | callP | callNz | callGe | callLe | callSrR | callZrR | callPrR | callNzrR | callGerR | callLerR
  | callSrI | callZrI | callPrI | callNzrI | callGerI | callLerI =>
    exact (changes_of_finish (changes_onlyIf changes_callTo) h).of_transfer rfl (by decide)
  | trapR | trapI => exact (changes_of_finish changes_enterTrap h).of_transfer rfl (by decide)

/-- Settles O12: `changes_exec`, read register by register and byte by byte. -/
theorem eachKindOfStateHasItsWriters : Obligations.EachKindOfStateHasItsWriters :=
  fun _ _ _ h => (changes_exec h).frame

end Sys2Proof.Machine
end

section
/-! PROOFS of the family 30_encoding: the word of a well-formed instruction decodes to it (O1), and so do words written
out from the tables (O4). -/

namespace Sys2Proof

open Sys2Proof.Machine Sys2Proof.Laws

/-! ### The four tables (30 R96)

The column T of the key names the table, and what the table's entry reads is what `decode` reads. -/

section

variable {w : InstrWord} {t op : Nat} {i : Instr}

/-- A key's column T (30 R71). -/
theorem key_div (hop : op < 1024) : (t * 1024 + op) / 1024 = t := by omega

/-- A key's column OP (30 R71). -/
theorem key_mod (hop : op < 1024) : (t * 1024 + op) % 1024 = op := by omega

theorem decode_of_decodeInt (hkey : keyNumber w = 0 * 1024 + op) (hop : op < 1024) (h : decodeInt op w = .ok i) :
    decode w = .ok i := by
  rw [decode_eq hkey, key_div hop, key_mod hop]; exact h

theorem decode_of_decodeFloat (hkey : keyNumber w = 1 * 1024 + op) (hop : op < 1024) (h : decodeFloat op w = .ok i) :
    decode w = .ok i := by
  rw [decode_eq hkey, key_div hop, key_mod hop]; exact h

theorem decode_of_decodeControl (hkey : keyNumber w = 2 * 1024 + op) (hop : op < 1024)
    (h : decodeControl (op / 8) (BitVec.ofNat 3 (op % 8)) w = .ok i) : decode w = .ok i := by
  have hcond : (2 * 1024 + op) % 8 = op % 8 := by omega
  rw [decode_eq hkey, key_div hop, key_mod hop, hcond]; exact h

theorem decode_of_decodeMove (hkey : keyNumber w = 3 * 1024 + op) (hop : op < 1024) (h : decodeMove op w = .ok i) :
    decode w = .ok i := by
  rw [decode_eq hkey, key_div hop, key_mod hop]; exact h

end

/-! ### From an instruction to its word and back -/

/-- One case per template (30 R72) of each table: the key of the word finds the entry of `i` in the table, and that
entry is the reader of the template `encode` laid out. The two readers that check their operands, of a register range
and of a memory operand, take the check from `wf`. `ret` and `reti`, without operands, name their keys: their words
are closed terms, which would be evaluated before the key is found. -/
theorem decode_encode {i : Instr} (h : i.wf = true) : decode (encode i) = .ok i := by
  have hkey := keyNumber_encode i
  cases i with
  -- T = 00
  | addiI | subiI | muliuI | mulisI | diviuI | divisI | modiuI | modisI | cmpiuI | cmpisI
  | andI | orI | xorI | andnI | ornI | xornI | lshiftI | rshiftI | rshiftsI =>
    exact decode_of_decodeInt hkey (by decide) (readE_wordE _ _ _ _ _)
  | addiR | subiR | muliuR | mulisR | diviuR | divisR | modiuR | modisR | cmpiuR | cmpisR
  | andR | orR | xorR | andnR | ornR | xornR | lshiftR | rshiftR | rshiftsR =>
    exact decode_of_decodeInt hkey (by decide) (readF_wordF _ _ _ _ _)
  | divmodiu | divmodis => exact decode_of_decodeInt hkey (by decide) (readG_wordG _ _ _ _ _ _)
  | notR => exact decode_of_decodeInt hkey (by decide) (readD_wordD _ _ _ _)
  | notI => exact decode_of_decodeInt hkey (by decide) (readC_wordC _ _ _ _)
  -- T = 01
  | addf | subf | mulf | divf | cmpf => exact decode_of_decodeFloat hkey (by decide) (readF_wordF _ _ _ _ _)
  | roundn | roundl | roundg | roundt | frac => exact decode_of_decodeFloat hkey (by decide) (readD_wordD _ _ _ _)
  -- T = 10
  | jmprI | callrI | retaI => exact decode_of_decodeControl hkey (by decide) (readA_wordA _ _ _)
  | trapI => exact decode_of_decodeControl hkey (by decide) (readA10_wordA _ _ _)
  | jmp | jmprR | call | callrR | retS | retZ | retP | retNz | retGe | retLe | retaR | trapR =>
    exact decode_of_decodeControl hkey (by decide) (readB_wordB _ _ _)
  | jmpSrI | jmpZrI | jmpPrI | jmpNzrI | jmpGerI | jmpLerI
  | callSrI | callZrI | callPrI | callNzrI | callGerI | callLerI
  | retaSI | retaZI | retaPI | retaNzI | retaGeI | retaLeI =>
    exact decode_of_decodeControl hkey (by decide) (readC_wordC _ _ _ _)
  | jmpS | jmpZ | jmpP | jmpNz | jmpGe | jmpLe | jmpSrR | jmpZrR | jmpPrR | jmpNzrR | jmpGerR | jmpLerR
  | callS | callZ | callP | callNz | callGe | callLe | callSrR | callZrR | callPrR | callNzrR | callGerR | callLerR
  | retaSR | retaZR | retaPR | retaNzR | retaGeR | retaLeR =>
    exact decode_of_decodeControl hkey (by decide) (readD_wordD _ _ _ _)
  | ret => exact decode_of_decodeControl hkey (by decide) (readZ_wordZ (keyOf 2 96) .ret)
  | reti => exact decode_of_decodeControl hkey (by decide) (readZ_wordZ (keyOf 2 160) .reti)
  -- T = 11
  | movu | movs => exact decode_of_decodeMove hkey (by decide) (readC_wordC _ _ _ _)
  | movR | movF => exact decode_of_decodeMove hkey (by decide) (readD_wordD _ _ _ _)
  | push | pop | pushF | popF =>
    exact decode_of_decodeMove hkey (by decide) (readRange_wordD _ _ _ _ (of_decide_eq_true h))
  | movLoad | mov8u | mov16u | mov32u | mov64u | mov8s | mov16s | mov32s | mov64s
  | movStore | mov8 | mov16 | mov32 | mov64
  | movFLoad | mov32fLoad | mov64fLoad | mov80fLoad | mov32fStore | mov64fStore | mov80fStore =>
    exact decode_of_decodeMove hkey (by decide) (readM_wordM _ _ _ _ h)

/-- Settles O1: `decode_encode` at every instruction. -/
theorem decodeOfEncode : Obligations.DecodeOfEncode := fun _ => decode_encode

/-- A word written out by hand decodes to the instruction whose word it is. -/
theorem decode_of_encode_eq {w : InstrWord} {i : Instr} (hw : encode i = w) (h : i.wf = true) : decode w = .ok i :=
  hw ▸ decode_encode h

/-- Settles O4: each of the fifteen is the word that `encode` gives its instruction. -/
theorem writtenWordsDecode : Obligations.WrittenWordsDecode := by
  unfold Obligations.WrittenWordsDecode
  and_intros <;> exact decode_of_encode_eq (by decide) rfl

end Sys2Proof
end

section
/-! PROOFS of the family 40_int_move: integer moves, loads and stores (O13, O15, O16), ranges on the stack (O19, O20, O21,
O22), and where such a range faults (O24). -/

namespace Sys2Proof.Machine

/-! ### Moves -/

/-- Settles O13: each word is its template's by definition, each meaning one `setX`, and a sign-extended bit is the
immediate's own or its top bit. -/
theorem registerAndImmediateMoves : Obligations.RegisterAndImmediateMoves := by
  intro d a imm s
  refine ⟨⟨rfl, _, rfl, s.getX_setX_self d _, onlyX_setX s d _⟩, ⟨rfl, _, rfl, ?_, onlyX_setX s d _⟩,
    ⟨rfl, _, rfl, onlyX_setX s d _, fun k hk => ?_⟩⟩
  · rw [State.getX_setX_self, zext, uval, BitVec.toNat_setWidth_of_le (by decide)]
  · rw [State.getX_setX_self, sext, BitVec.getLsbD_signExtend, BitVec.msb_eq_getLsbD_last, decide_eq_true hk,
      Bool.true_and]

/-! ### Loads -/

/-- A load whose cell is mapped and holds `v`: the destination gets the low bytes of `v`, widened, and nothing else
changes. -/
theorem exec_loadX {i : Instr} {n : Nat} {widen : Word → Word} {d : Reg} {m : MemOperand} {s : State} {v : Word}
    (hi : exec i s = finish (loadX n widen d m s)) (hn : n ≤ 16) (hd : InDomain s (s.ea m) n)
    (hv : HoldsCell s (s.ea m) n v) :
    ∃ t, exec i s = .next t ∧ t.getX d = widen (lowBytes n v) ∧ OnlyX [d] s t := by
  rw [loadX_eq hn hd hv] at hi
  exact ⟨_, hi, s.getX_setX_self d _, onlyX_setX s d _⟩

/-- The sign extension of a cell, as a number: the residue nearest zero. -/
theorem toInt_sextCell_lowBytes {n : Nat} (hn : n ≤ 16) (v : Word) :
    (sextCell n (lowBytes n v)).toInt = Int.bmod v.toNat (2 ^ (8 * n)) := by
  rw [sextCell, sext, BitVec.toInt_signExtend_of_le (by omega), BitVec.toInt_eq_toNat_bmod, BitVec.toNat_setWidth,
    lowBytes_toNat hn, Nat.mod_mod, Int.natCast_mod, Int.emod_bmod]

theorem exec_loadX_unsigned {i : Instr} {n : Nat} {d : Reg} {m : MemOperand} {s : State} {v : Word}
    (hi : exec i s = finish (loadX n id d m s)) (hn : n ≤ 16) (hd : InDomain s (s.ea m) n)
    (hv : HoldsCell s (s.ea m) n v) :
    ∃ t, exec i s = .next t ∧ uval (t.getX d) = uval v % 2 ^ (8 * n) ∧ OnlyX [d] s t := by
  obtain ⟨t, ht, hval, hframe⟩ := exec_loadX hi hn hd hv
  exact ⟨t, ht, by rw [hval, id, uval, lowBytes_toNat hn], hframe⟩

theorem exec_loadX_signed {i : Instr} {n : Nat} {d : Reg} {m : MemOperand} {s : State} {v : Word}
    (hi : exec i s = finish (loadX n (sextCell n) d m s)) (hn : n ≤ 16) (hd : InDomain s (s.ea m) n)
    (hv : HoldsCell s (s.ea m) n v) :
    ∃ t, exec i s = .next t ∧ sval (t.getX d) = Int.bmod (uval v) (2 ^ (8 * n)) ∧ OnlyX [d] s t := by
  obtain ⟨t, ht, hval, hframe⟩ := exec_loadX hi hn hd hv
  exact ⟨t, ht, by rw [hval, sval, toInt_sextCell_lowBytes hn], hframe⟩

/-- Settles O15: every load is `loadX` of its width, with no widening or with `sextCell`. -/
theorem integerLoads : Obligations.IntegerLoads := by
  intro d m s v
  constructor
  · intro p hp hd hv
    simp only [List.mem_cons, List.not_mem_nil, or_false] at hp
    rcases hp with rfl | rfl | rfl | rfl | rfl <;> exact exec_loadX_unsigned rfl (by simp) hd hv
  · intro p hp hd hv
    simp only [List.mem_cons, List.not_mem_nil, or_false] at hp
    rcases hp with rfl | rfl | rfl | rfl <;> exact exec_loadX_signed rfl (by simp) hd hv

/-! ### Stores -/

/-- A store changes no part of the state but the bytes of its cell. -/
theorem onlyBytes_store (s : State) (a : Word) (n : Nat) (v : Word) : OnlyBytes a n s (s.store a n v) :=
  ⟨fun _ _ => rfl, fun _ _ => rfl, sameBytesOutside_store s a n v, rfl, rfl⟩

/-- A store whose cell is mapped: the cell holds the low bytes of the register, and nothing else changes. -/
theorem exec_storeX {i : Instr} {n : Nat} {r : Reg} {m : MemOperand} {s : State}
    (hi : exec i s = finish (storeX n r m s)) (hn : n ≤ 16) (hd : InDomain s (s.ea m) n) :
    ∃ t, exec i s = .next t ∧ HoldsCell t (s.ea m) n (s.getX r) ∧ OnlyBytes (s.ea m) n s t := by
  rw [storeX_eq hd] at hi
  exact ⟨_, hi, holdsCell_store s _ n _ hn, onlyBytes_store s _ n _⟩

/-- Settles O16: every store is `storeX` of its width. -/
theorem integerStores : Obligations.IntegerStores := by
  intro r m s p hp hd
  simp only [List.mem_cons, List.not_mem_nil, or_false] at hp
  rcases hp with rfl | rfl | rfl | rfl | rfl <;> exact exec_storeX rfl (by simp) hd

/-! ### What the range instructions run -/

theorem exec_push (i j : Reg) (s : State) : exec (.push i j) s = finish (pushAll State.getX (regRange i j) s) := rfl

theorem exec_pop (i j : Reg) (s : State) :
    exec (.pop i j) s = finish (popAll putX (inPopOrder s.cfg.popOrder (regRange i j)) s) := rfl

theorem exec_pushF (i j : FReg) (s : State) : exec (.pushF i j) s = finish (pushAll State.getF (regRange i j) s) := rfl

theorem exec_popF (i j : FReg) (s : State) :
    exec (.popF i j) s = finish (popAll putF (inPopOrder s.cfg.popOrder (regRange i j)) s) := rfl

/-! ### The numbers below `r31` -/

theorem le_spReg (n : Reg) : n ≤ spReg := Fin.le_last n

theorem lt_spReg {n : Reg} (h : n ≠ spReg) : n < spReg := lt_of_le_of_ne (le_spReg n) h

theorem ne_spReg_of_le {n j : Reg} (h : n ≤ j) (hj : j ≠ spReg) : n ≠ spReg := (h.trans_lt (lt_spReg hj)).ne

/-! ### Ranges that are mapped -/

theorem sameFBut_of_f {s t : State} (h : t.f = s.f) : SameFBut [] s t := fun r _ => getF_of_f h r

theorem sameBytes_of_mem {s t : State} (h : t.mem = s.mem) : SameBytes s t := fun a => by
  rw [State.readByte, h, State.readByte]

/-- A push of a range, of either file: register `n` in slot n - i + 1 below the old `sp`, `sp` at the last slot. -/
theorem pushAll_range_eq {get : State → Fin 32 → Word} {i j : Fin 32} {s : State} (val : Fin 32 → Word → Word)
    (hget : ∀ s1 n, SameXBut [spReg] s s1 → s1.f = s.f → get s1 n = val n s1.sp)
    (hd : InDomain s (s.slotBelow (j.val + 1 - i.val)) (16 * (j.val + 1 - i.val))) :
    ∃ t, pushAll get (regRange i j) s = .ok t ∧ t.sp = s.slotBelow (j.val + 1 - i.val) ∧
      (∀ n, i ≤ n → n ≤ j →
        HoldsCell t (s.slotBelow (n.val + 1 - i.val)) 16 (val n (s.slotBelow (n.val + 1 - i.val)))) ∧
      SameXBut [spReg] s t ∧ SameFBut [] s t ∧
      SameBytesOutside (s.slotBelow (j.val + 1 - i.val)) (16 * (j.val + 1 - i.val)) s t ∧
      t.ip = s.ip ∧ t.cfg = s.cfg := by
  have hlen := regRange_length i j
  rw [← hlen] at hd ⊢
  obtain ⟨t, ht, hsp, hslots, hx, hf, hbytes, hip, hcfg, _⟩ :=
    pushAll_spec get val (regRange i j) s (by omega) hget hd
  refine ⟨t, ht, hsp, fun n hin hnj => ?_, hx, sameFBut_of_f hf, hbytes, hip, hcfg⟩
  have hlt : n.val - i.val < (regRange i j).length := by omega
  have hslot := hslots (n.val - i.val) hlt
  rwa [regRange_getElem hin hnj hlt, show n.val - i.val + 1 = n.val + 1 - i.val by omega] at hslot

/-- Settles O19: the word pushed for `r31` is `sp` after the decrement, which is the address of its slot. -/
theorem pushStoresTheRange : Obligations.PushStoresTheRange := by
  intro i j s _ hd
  obtain ⟨t, ht, hrest⟩ := pushAll_range_eq (pushedX s) (fun _ n hx _ => getX_eq_pushedX hx n) hd
  exact ⟨t, by rw [exec_push, ht, finish_ok], hrest⟩

/-- A pop of a range without `r31`, in either order: its registers hold the slots of their places, `sp` is above them.
A reversed range, which is empty, is allowed. -/
theorem popAll_putX_range_eq {o : PopOrder} {i j : Reg} {s : State} (v : Reg → Word) (hj : j ≠ spReg)
    (hd : InDomain s s.sp (16 * (j.val + 1 - i.val)))
    (hv : ∀ n, i ≤ n → n ≤ j → HoldsCell s (s.slotAbove (popPlace o i j n)) 16 (v n)) :
    ∃ t, popAll putX (inPopOrder o (regRange i j)) s = .ok t ∧ t.sp = s.slotAbove (j.val + 1 - i.val) ∧
      (∀ n, i ≤ n → n ≤ j → t.getX n = v n) ∧ (∀ n, n ≠ spReg → (n < i ∨ j < n) → t.getX n = s.getX n) ∧
      SameFBut [] s t ∧ SameBytes s t ∧ t.ip = s.ip ∧ t.cfg = s.cfg := by
  have hlen : (inPopOrder o (regRange i j)).length = j.val + 1 - i.val := by rw [inPopOrder_length, regRange_length]
  have hmem (n : Reg) : n ∈ inPopOrder o (regRange i j) ↔ i ≤ n ∧ n ≤ j := by rw [mem_inPopOrder, mem_regRange]
  have hno31 : spReg ∉ inPopOrder o (regRange i j) := fun h => ne_spReg_of_le ((hmem _).1 h).2 hj rfl
  have hslots (k : Nat) (hk : k < (inPopOrder o (regRange i j)).length) :
      HoldsCell s (s.slotAbove k) 16 (v (inPopOrder o (regRange i j))[k]) := by
    obtain ⟨n, hn, hin, hnj, hplace⟩ := inPopOrder_getElem (Fin.le_def.2 (by omega)) hk
    rw [hn, hplace]
    exact hv n hin hnj
  rw [← hlen] at hd ⊢
  obtain ⟨t, ht, hsp, hloaded, hx, hf, hm, hip, hcfg, _⟩ := popAll_putX_spec v _ s (by omega)
    (inPopOrder_nodup o (regRange_nodup i j)) hno31 hd hslots
  refine ⟨t, ht, hsp, fun n hin hnj => hloaded n ((hmem n).2 ⟨hin, hnj⟩), fun n hn hout => hx n ?_, sameFBut_of_f hf,
    sameBytes_of_mem hm, hip, hcfg⟩
  rw [List.mem_cons, hmem]
  rintro (h | ⟨hin, hnj⟩)
  · exact hn h
  · exact hout.elim hin.not_gt hnj.not_gt

/-- Settles O20: `popAll_putX_range_eq` in the order of POP_ORDER. -/
theorem popLoadsTheRange : Obligations.PopLoadsTheRange := by
  intro i j s v _ hj hd hv
  obtain ⟨t, ht, hrest⟩ := popAll_putX_range_eq v hj hd hv
  exact ⟨t, by rw [exec_pop, ht, finish_ok], hrest⟩

/-! ### Ranges that end at `r31` -/

/-- A range that ends at `r31` is the rest of it, which may be empty, then `r31`. -/
theorem regRange_spReg (i : Reg) : regRange i spReg = regRange i 30 ++ [spReg] := by
  by_cases hi : i = spReg
  · subst hi; decide
  · exact regRange_to_sp i hi

/-- The pop loop that ends with `r31`, after what it loaded before. -/
theorem popAll_putX_sp_eq {s : State} {v : Word} (hd : InDomain s s.sp 16) (hv : HoldsCell s s.sp 16 v) :
    popAll putX [spReg] s = .ok (s.setX spReg (v + 16)) :=
  popAll_cons_eq (popSlot_putX_sp hd hv)

/-- Under the source's order `r31` is loaded last, from the slot above the rest of the range. -/
theorem popAll_putX_to_sp_eq {i : Reg} {s : State} (v : Reg → Word) (hd : InDomain s s.sp (16 * (32 - i.val)))
    (hv : ∀ n, i ≤ n → HoldsCell s (s.slotAbove (n.val - i.val)) 16 (v n)) :
    ∃ t, popAll putX (regRange i spReg) s = .ok t ∧ t.sp = v spReg + 16 ∧
      (∀ n, i ≤ n → n ≠ spReg → t.getX n = v n) ∧ (∀ n, n < i → t.getX n = s.getX n) ∧
      SameFBut [] s t ∧ SameBytes s t ∧ t.ip = s.ip ∧ t.cfg = s.cfg := by
  obtain ⟨t, ht, hsp, hloaded, hkept, hf, hbytes, hip, hcfg⟩ :=
    popAll_putX_range_eq (o := .sourceAscending) (i := i) (j := 30) v (by decide)
      (hd.mono 0 (by simp) (by simp)) (fun n hin _ => hv n hin)
  have hsp31 : t.sp = s.slotAbove (spReg.val - i.val) := hsp
  have hd31 : InDomain t t.sp 16 :=
    (hd.mono (16 * (spReg.val - i.val)) hsp31 (by simp; omega)).of_cfg hcfg
  have hv31 : HoldsCell t t.sp 16 (v spReg) := by
    rw [hsp31]
    exact (hv spReg (le_spReg i)).congr hcfg fun _ _ => hbytes _
  have hne {n : Reg} (hn : n ≠ spReg) : (t.setX spReg (v spReg + 16)).getX n = t.getX n := t.getX_setX_of_ne _ hn
  refine ⟨t.setX spReg (v spReg + 16), ?_, t.getX_setX_self _ _, fun n hin hn => ?_, fun n hn => ?_, hf, hbytes, hip,
    hcfg⟩
  · rw [regRange_spReg]
    exact (popAll_append_eq ht).trans (popAll_putX_sp_eq hd31 hv31)
  · rw [hne hn, hloaded n hin (Nat.le_of_lt_succ (lt_spReg hn))]
  · have hn31 : n ≠ spReg := (hn.trans_le (le_spReg i)).ne
    rw [hne hn31, hkept n hn31 (.inl hn)]

/-- Under the other order `r31` is loaded first, and the rest of the range comes from the new stack. -/
theorem popAll_putX_from_sp_eq (i : Reg) {s : State} {v : Word} (hd : InDomain s s.sp 16) (hv : HoldsCell s s.sp 16 v) :
    popAll putX (inPopOrder .descending (regRange i spReg)) s =
      popAll putX (inPopOrder .descending (regRange i 30)) (s.setX spReg (v + 16)) := by
  rw [regRange_spReg, inPopOrder, List.reverse_concat, popAll_cons_eq (popSlot_putX_sp hd hv), inPopOrder]

/-- Settles O21: one clause per order; where `r31` is loaded first, a range of `r31` alone ends there. -/
theorem popOfTheStackPointer : Obligations.PopOfTheStackPointer := by
  intro i s v
  refine ⟨fun ho hd hv => ?_, fun ho hd hv => ⟨?_, fun _ => ?_⟩⟩
  · obtain ⟨t, ht, hrest⟩ := popAll_putX_to_sp_eq v hd hv
    exact ⟨t, by rw [exec_pop, ho, inPopOrder, ht, finish_ok], hrest⟩
  · rintro rfl
    refine ⟨s.setX spReg (v spReg + 16), ?_, s.getX_setX_self _ _, onlyX_setX s _ _⟩
    rw [exec_pop, ho, regRange_self, inPopOrder, List.reverse_singleton, popAll_putX_sp_eq hd hv, finish_ok]
  · rw [exec_pop, exec_pop, State.setSp_eq_setX, State.setX_cfg, ho, popAll_putX_from_sp_eq i hd hv]

/-! ### A pop after a push -/

/-- The register whose pushed word a pop of the same range loads into register `n`: the orders of the two loops agree
under `descending`, and are opposite under `source_ascending`. -/
def poppedInto (o : PopOrder) (i j n : Reg) : Reg :=
  match o with
  | .sourceAscending => i + j - n
  | .descending => n

/-- Seen from `sp` before the push, the slot that the pop loads into `n` is the one `poppedInto` was pushed to. -/
theorem poppedInto_spec (o : PopOrder) {i j n : Reg} (hin : i ≤ n) (hnj : n ≤ j) :
    i ≤ poppedInto o i j n ∧ poppedInto o i j n ≤ j ∧
      (poppedInto o i j n).val + 1 - i.val + popPlace o i j n = j.val + 1 - i.val := by
  have hin' : i.val ≤ n.val := hin
  have hnj' : n.val ≤ j.val := hnj
  cases o with
  | sourceAscending =>
    have hval : (i + j - n).val = i.val + j.val - n.val := by
      rw [Fin.val_sub, Fin.val_add]
      omega
    simp only [poppedInto, popPlace, Fin.le_def, hval]
    omega
  | descending => exact ⟨hin, hnj, by rw [poppedInto, popPlace]; omega⟩

theorem slotAbove_of_sp {s t : State} {k p q : Nat} (hsp : t.sp = s.slotBelow k) (h : q + p = k) :
    t.slotAbove p = s.slotBelow q := by
  subst h
  rw [State.slotAbove, hsp, State.slotBelow, State.slotBelow]
  bv_omega

/-- A push and a pop of one range without `r31` complete; every register but those of the range is back, `sp` among
them, and each of the range holds what the pop finds in its slot. -/
theorem exec_pop_after_push {i j : Reg} {s : State} (hij : i ≤ j) (hj : j ≠ spReg)
    (hd : InDomain s (s.slotBelow (j.val + 1 - i.val)) (16 * (j.val + 1 - i.val))) :
    ∃ t u, exec (.push i j) s = .next t ∧ exec (.pop i j) t = .next u ∧
      (∀ n, i ≤ n → n ≤ j → u.getX n = s.getX (poppedInto s.cfg.popOrder i j n)) ∧
      (∀ n, (n < i ∨ j < n) → u.getX n = s.getX n) ∧ SameFBut [] s u ∧
      SameBytesOutside (s.slotBelow (j.val + 1 - i.val)) (16 * (j.val + 1 - i.val)) s u ∧
      u.ip = s.ip ∧ u.cfg = s.cfg := by
  obtain ⟨t, ht, htsp, hslots, htx, htf, htb, htip, htcfg⟩ := pushStoresTheRange i j s hij hd
  have hcells (n : Reg) (hin : i ≤ n) (hnj : n ≤ j) :
      HoldsCell t (t.slotAbove (popPlace t.cfg.popOrder i j n)) 16 (s.getX (poppedInto s.cfg.popOrder i j n)) := by
    obtain ⟨hlo, hhi, hplace⟩ := poppedInto_spec s.cfg.popOrder hin hnj
    have hslot := hslots _ hlo hhi
    rw [htcfg]
    rwa [State.pushed, if_neg (ne_spReg_of_le hhi hj), ← slotAbove_of_sp htsp hplace] at hslot
  obtain ⟨u, hu, husp, hloaded, hkept, huf, hub, huip, hucfg⟩ := popLoadsTheRange i j t
    (fun n => s.getX (poppedInto s.cfg.popOrder i j n)) hij hj (by rw [htsp]; exact hd.of_cfg htcfg) hcells
  refine ⟨t, u, ht, hu, hloaded, fun n hout => ?_, fun r hr => (huf r hr).trans (htf r hr),
    fun b hb => (hub b).trans (htb b hb), huip.trans htip, hucfg.trans htcfg⟩
  by_cases hn : n = spReg
  · subst hn
    calc u.sp = t.slotAbove (j.val + 1 - i.val) := husp
      _ = s.slotBelow 0 := slotAbove_of_sp htsp (Nat.zero_add _)
      _ = s.sp := by simp [State.slotBelow]
  · rw [hkept n hn hout, htx n (by simpa using hn)]

/-- Settles O22: `exec_pop_after_push` under each order. -/
theorem popAfterPush : Obligations.PopAfterPush := by
  intro i j s hij hj hd
  obtain ⟨t, u, ht, hu, hrange, hout, hframe⟩ := exec_pop_after_push hij hj hd
  refine ⟨t, u, ht, hu, hout spReg (.inr (lt_spReg hj)), fun ho n _ => ?_,
    fun ho => ⟨fun n hin hnj => ?_, hout⟩, hframe⟩
  · by_cases hn : i ≤ n ∧ n ≤ j
    · rw [hrange n hn.1 hn.2, ho, poppedInto]
    · exact hout n (by rwa [not_and_or, not_le, not_le] at hn)
  · rw [hrange n hin hnj, ho, poppedInto]

/-! ### The first unmapped slot -/

/-- Where O24 speaks of an integer pop, `r31` is not among the registers loaded before the slot that fails. -/
theorem popPlace_spReg_not_lt {o : PopOrder} {i j : Reg} {k : Nat} (hk : i.val + k ≤ j.val)
    (h : o = .sourceAscending ∨ j ≠ spReg ∨ k = 0) : ¬ (i ≤ spReg ∧ spReg ≤ j ∧ popPlace o i j spReg < k) := by
  rintro ⟨_, hj, hplace⟩
  obtain rfl : j = spReg := le_antisymm (le_spReg j) hj
  rcases h with rfl | hne | rfl
  · rw [popPlace] at hplace
    omega
  · exact hne rfl
  · exact Nat.not_lt_zero _ hplace

/-- Settles O24: the four loops stop at the slot that fails, in the state the lemmas of Laws/Stack name. -/
theorem rangesFaultAtTheFirstUnmappedSlot : Obligations.RangesFaultAtTheFirstUnmappedSlot := by
  intro i j k s hk
  refine ⟨fun hd hn => ⟨?_, ?_⟩, fun v hd hn hv => ⟨?_, fun hcase => ?_⟩⟩
  · obtain ⟨u, hu, hstop⟩ := pushAll_range_unmapped (pushedX s) hk (fun _ n hx _ => getX_eq_pushedX hx n) hd hn
    exact ⟨u, by rw [exec_push, hu, finish_error], hstop⟩
  · obtain ⟨u, hu, hstop⟩ := pushAll_range_unmapped (fun n _ => s.getF n) hk (fun _ n _ hf => getF_of_f hf n) hd hn
    exact ⟨u, by rw [exec_pushF, hu, finish_error], hstop⟩
  · obtain ⟨u, hu, hsp, hloaded, hkept, hframe⟩ := popAll_putF_unmapped v hk hd hn hv
    exact ⟨u, by rw [exec_popF, hu, finish_error], hsp, fun n hin hnj hplace => hloaded n ⟨hin, hnj, hplace⟩,
      fun n hout => hkept n fun ⟨hin, hnj, hplace⟩ => hout.elim hin.not_gt (·.elim hnj.not_gt hplace.not_ge), hframe⟩
  · obtain ⟨u, hu, hstop⟩ := popAll_putX_unmapped v hk (popPlace_spReg_not_lt hk hcase) hd hn hv
    exact ⟨u, by rw [exec_pop, hu, finish_error], hstop⟩

end Sys2Proof.Machine
end

section
/-! PROOFS of the family 41_int_arith: sums, differences and products (O25, O26), division (O27, O28, O29), and compares
(O31, O32). -/

namespace Sys2Proof.Machine

/-! ### What an instruction that completes leaves behind -/

/-- An instruction that writes one register: its destination holds the value, and nothing else changes. -/
theorem exec_setX {i : Instr} {d : Reg} {v : Word} {s : State} (hi : exec i s = .next (s.setX d v)) :
    ∃ t, exec i s = .next t ∧ OnlyX [d] s t ∧ t.getX d = v :=
  ⟨_, hi, onlyX_setX s d v, s.getX_setX_self d v⟩

/-- A division that raises no fault is such an instruction. -/
theorem exec_setDivision {i : Instr} {d : Reg} {x : State → Except Fault Word} {v : Word} {s : State}
    (hi : exec i s = finish (setDivision d x s)) (hx : x s = .ok v) :
    ∃ t, exec i s = .next t ∧ OnlyX [d] s t ∧ t.getX d = v :=
  exec_setX (by rw [hi, setDivision_eq hx, finish_ok])

/-- A division of both results that raises no fault: the second write stays where the destinations are equal. -/
theorem exec_setDivMod {i : Instr} {q r : Reg} {x y : State → Except Fault Word} {v w : Word} {s : State}
    (hi : exec i s = finish (setDivMod q r x y s)) (hx : x s = .ok v) (hy : y s = .ok w) :
    ∃ t, exec i s = .next t ∧ OnlyX [q, r] s t ∧ (q ≠ r → t.getX q = v) ∧ t.getX r = w := by
  refine ⟨(s.setX q v).setX r w, by rw [hi, setDivMod_eq hx hy, finish_ok],
    ⟨fun n hn => ?_, fun _ _ => rfl, fun _ => rfl, rfl, rfl⟩, fun hqr => ?_, State.getX_setX_self _ r w⟩
  · obtain ⟨hnq, hnr⟩ : n ≠ q ∧ n ≠ r := by simpa using hn
    rw [State.getX_setX_of_ne _ w hnr, State.getX_setX_of_ne _ v hnq]
  · rw [State.getX_setX_of_ne _ w hqr, State.getX_setX_self]

/-! ### Readings of words -/

/-- The signed reading of an extended immediate is that of the immediate (30 R77). -/
theorem sval_sext {n : Nat} (imm : BitVec n) (hn : n ≤ 128) : sval (sext imm) = imm.toInt :=
  BitVec.toInt_signExtend_of_le hn

theorem ne_zero_of_uval {b : Word} (h : uval b ≠ 0) : b ≠ 0 := by
  rintro rfl
  exact h rfl

theorem ne_zero_of_sval {b : Word} (h : sval b ≠ 0) : b ≠ 0 := by
  rintro rfl
  exact h rfl

theorem sval_ne_zero {b : Word} (h : b ≠ 0) : sval b ≠ 0 := fun hb => h (BitVec.toInt_inj.1 hb)

/-- Subtraction wraps modulo 2^128 (D1). -/
theorem uval_sub (a b : Word) : (uval (a - b) : Int) = ((uval a : Int) - uval b) % 2 ^ 128 := by
  simp only [uval, BitVec.toNat_sub]
  have := b.isLt
  omega

/-! ### Sums, differences and products -/

/-- Settles O25: each word is its template's by definition, each meaning one `setX` of a word's own operation. -/
theorem sumsDifferencesAndUnsignedProducts : Obligations.SumsDifferencesAndUnsignedProducts := by
  intro d a b imm s
  refine ⟨⟨rfl, _, rfl, onlyX_setX s d _, ?_⟩, ⟨rfl, _, rfl, onlyX_setX s d _, ?_⟩, ⟨rfl, _, rfl, onlyX_setX s d _, ?_⟩,
    ⟨rfl, _, rfl, onlyX_setX s d _, ?_⟩, ⟨rfl, _, rfl, onlyX_setX s d _, ?_⟩⟩ <;> rw [State.getX_setX_self]
  · exact BitVec.toNat_add _ _
  · exact BitVec.toNat_add _ _
  · exact uval_sub _ _
  · exact uval_sub _ _
  · exact BitVec.toNat_ofNat _ _

/-- The low 128 bits of the unsigned product are the product of the words (R154). -/
theorem ofNat_uval_mul (x y : Word) : BitVec.ofNat 128 (uval x * uval y) = x * y := by
  rw [BitVec.ofNat_mul, BitVec.ofNat_toNat, BitVec.ofNat_toNat, BitVec.setWidth_eq, BitVec.setWidth_eq]

/-- So are the low 128 bits of the signed product (R156). -/
theorem ofInt_sval_mul (x y : Word) : BitVec.ofInt 128 (sval x * sval y) = x * y := by
  rw [BitVec.ofInt_mul, BitVec.ofInt_toInt, BitVec.ofInt_toInt]

/-- Two instructions that write the low bits of the signed and of the unsigned product of the same words. -/
theorem exec_products {i j : Instr} {d : Reg} {x y : Word} {s : State}
    (hi : exec i s = .next (s.setX d (BitVec.ofInt 128 (sval x * sval y))))
    (hj : exec j s = .next (s.setX d (BitVec.ofNat 128 (uval x * uval y)))) :
    ∃ t, exec i s = .next t ∧ exec j s = .next t ∧ OnlyX [d] s t ∧
      sval (t.getX d) = Int.bmod (sval x * sval y) (2 ^ 128) := by
  rw [ofInt_sval_mul] at hi
  rw [ofNat_uval_mul] at hj
  obtain ⟨t, ht, hframe, hval⟩ := exec_setX hi
  exact ⟨t, ht, hj.trans (hi.symm.trans ht), hframe, by rw [hval, sval, BitVec.toInt_mul]⟩

/-- Settles O26: `exec_products` for both forms. -/
theorem productsAgree : Obligations.ProductsAgree := by
  intro d a b imm s
  refine ⟨exec_products rfl rfl, ?_⟩
  rw [← sval_sext imm (by decide)]
  exact exec_products rfl rfl

/-! ### Unsigned division -/

/-- `udiv` answers the quotient of the words. -/
theorem udiv_eq_div {a b : Word} (s : State) (h : b ≠ 0) : udiv a b s = .ok (a / b) := by
  rw [udiv_of_ne_zero s h, ← BitVec.toNat_udiv, BitVec.ofNat_toNat, BitVec.setWidth_eq]

/-- `urem` answers the remainder of the words. -/
theorem urem_eq_mod {a b : Word} (s : State) (h : b ≠ 0) : urem a b s = .ok (a % b) := by
  rw [urem_of_ne_zero s h, Nat.mul_comm, ← Nat.mod_eq_sub_mul_div, ← BitVec.toNat_umod, BitVec.ofNat_toNat,
    BitVec.setWidth_eq]

theorem exec_udiv {i : Instr} {d : Reg} {a b : Word} {s : State} (hi : exec i s = finish (setDivision d (udiv a b) s))
    (hb : uval b ≠ 0) :
    ∃ t, exec i s = .next t ∧ OnlyX [d] s t ∧
      uval (t.getX d) * uval b ≤ uval a ∧ uval a < (uval (t.getX d) + 1) * uval b := by
  obtain ⟨t, ht, hframe, hval⟩ := exec_setDivision hi (udiv_eq_div s (ne_zero_of_uval hb))
  refine ⟨t, ht, hframe, ?_⟩
  rw [hval, uval, BitVec.toNat_udiv]
  exact ⟨Nat.div_mul_le_self _ _, (Nat.div_lt_iff_lt_mul (Nat.pos_of_ne_zero hb)).1 (Nat.lt_succ_self _)⟩

theorem exec_urem {i : Instr} {d : Reg} {a b : Word} {s : State} (hi : exec i s = finish (setDivision d (urem a b) s))
    (hb : uval b ≠ 0) :
    ∃ t, exec i s = .next t ∧ OnlyX [d] s t ∧
      uval (t.getX d) < uval b ∧ ∃ k, uval a = k * uval b + uval (t.getX d) := by
  obtain ⟨t, ht, hframe, hval⟩ := exec_setDivision hi (urem_eq_mod s (ne_zero_of_uval hb))
  refine ⟨t, ht, hframe, ?_⟩
  rw [hval, uval, BitVec.toNat_umod]
  exact ⟨Nat.mod_lt _ (Nat.pos_of_ne_zero hb), _, (Nat.div_add_mod' _ _).symm⟩

/-- Settles O27: `exec_udiv` and `exec_urem`, for a register and for the extended immediate. -/
theorem unsignedDivision : Obligations.UnsignedDivision := by
  intro d a b imm s
  constructor
  · intro p hp hb
    simp only [List.mem_cons, List.not_mem_nil, or_false] at hp
    rcases hp with rfl | rfl <;> exact exec_udiv rfl hb
  · intro p hp hb
    simp only [List.mem_cons, List.not_mem_nil, or_false] at hp
    rcases hp with rfl | rfl <;> exact exec_urem rfl hb

/-! ### Signed quotients and remainders (R168) -/

theorem quotRem_trunc (p : Int) {q : Int} (hq : q ≠ 0) : QuotRem .trunc p q (p.tdiv q) (p.tmod q) := by
  refine ⟨(Int.tdiv_mul_add_tmod p q).symm, ?_, fun hm => ?_⟩
  · rw [Int.abs_eq_natAbs, Int.abs_eq_natAbs, Int.natAbs_tmod]
    exact Int.ofNat_lt.2 (Nat.mod_lt _ (Int.natAbs_pos.2 hq))
  · have hsign : (p.tmod q).sign = p.sign := by
      rw [Int.sign_tmod, if_neg (mt Int.tmod_eq_zero_of_dvd hm)]
    rw [← Int.sign_pos_iff, hsign, Int.sign_pos_iff]

theorem quotRem_floor (p : Int) {q : Int} (hq : q ≠ 0) : QuotRem .floor p q (p.fdiv q) (p.fmod q) := by
  have hdef : p = p.fdiv q * q + p.fmod q := (Int.fdiv_mul_add_fmod p q).symm
  rcases lt_or_gt_of_ne hq with hneg | hpos
  · have hflip : p.fmod q = -(-p).fmod (-q) := by rw [Int.neg_fmod_neg, neg_neg]
    have hlo : 0 ≤ (-p).fmod (-q) := Int.fmod_nonneg_of_pos _ (by omega)
    have hhi : (-p).fmod (-q) < -q := Int.fmod_lt_of_pos _ (by omega)
    refine ⟨hdef, ?_, fun hm => ?_⟩
    · rw [abs_of_nonpos (by omega), abs_of_neg hneg]
      omega
    · omega
  · have hlo : 0 ≤ p.fmod q := Int.fmod_nonneg_of_pos p hpos
    have hhi : p.fmod q < q := Int.fmod_lt_of_pos p hpos
    refine ⟨hdef, ?_, fun hm => ?_⟩
    · rwa [abs_of_nonneg hlo, abs_of_pos hpos]
    · omega

/-- The quotient of the model and what it leaves are a quotient and the remainder under SDIV_ROUNDING. -/
theorem quotRem_quotient (r : SdivRounding) (p : Int) {q : Int} (hq : q ≠ 0) :
    QuotRem r p q (quotient r p q) (p - quotient r p q * q) := by
  cases r with
  | trunc =>
    have h := quotRem_trunc p hq
    rwa [Int.tmod_def, Int.mul_comm q] at h
  | floor =>
    have h := quotRem_floor p hq
    rwa [Int.fmod_def, Int.mul_comm q] at h

/-- A quotient is no larger than its dividend. -/
theorem QuotRem.abs_quotient_le {r : SdivRounding} {p q k m : Int} (h : QuotRem r p q k m) : |k| ≤ |p| := by
  obtain ⟨hp, hm, _⟩ := h
  by_contra! hlt
  have hprod : |k| * |q| ≤ |p| + |m| := by
    rw [← abs_mul, show k * q = p - m by omega]
    exact abs_sub _ _
  have hq : 0 < |q| := (abs_nonneg m).trans_lt hm
  nlinarith [abs_nonneg p]

theorem abs_sval_le (v : Word) : |sval v| ≤ 2 ^ 127 := abs_le.2 ⟨v.le_toInt, v.toInt_lt.le⟩

/-- A remainder of 128-bit words fits in the word. -/
theorem QuotRem.sval_remainder {r : SdivRounding} {a b : Word} {k m : Int} (h : QuotRem r (sval a) (sval b) k m) :
    sval (BitVec.ofInt 128 m) = m := by
  obtain ⟨_, hm, _⟩ := h
  obtain ⟨hlo, hhi⟩ := abs_lt.1 (hm.trans_le (abs_sval_le b))
  exact BitVec.toInt_ofInt_eq_self (by decide) hlo.le hhi

/-- A quotient of 128-bit words fits in the word, except that of -2^127 by -1 (D13): a quotient of 2^127 takes the
dividend -2^127, and the remainder is then too small for any other divisor. -/
theorem QuotRem.sval_quotient {r : SdivRounding} {a b : Word} {k m : Int} (h : QuotRem r (sval a) (sval b) k m)
    (ho : ¬ (sval a = -2 ^ 127 ∧ sval b = -1)) : sval (BitVec.ofInt 128 k) = k := by
  have hka : |k| ≤ |sval a| := h.abs_quotient_le
  obtain ⟨hlo, hhi⟩ := abs_le.1 (hka.trans (abs_sval_le a))
  refine BitVec.toInt_ofInt_eq_self (by decide) hlo (lt_of_le_of_ne hhi fun hk => ho ?_)
  have hamin : sval a = -2 ^ 127 := by
    have halo : -2 ^ 127 ≤ sval a := a.le_toInt
    have hahi : sval a < 2 ^ 127 := a.toInt_lt
    rw [hk, le_abs, abs_of_pos (by decide)] at hka
    omega
  obtain ⟨hp, hm, _⟩ := h
  obtain ⟨hmlo, hmhi⟩ := abs_lt.1 (hm.trans_le (abs_sval_le b))
  rw [hk, hamin] at hp
  exact ⟨hamin, by omega⟩

/-- What `sdiv` answers where it raises no fault. -/
theorem sdiv_spec {a b : Word} (s : State) (hb : b ≠ 0) (ho : ¬ (sval a = -2 ^ 127 ∧ sval b = -1)) :
    ∃ v, sdiv a b s = .ok v ∧ sval v = quotient s.cfg.sdivRounding (sval a) (sval b) :=
  ⟨_, sdiv_of_ne_zero s hb ho, (quotRem_quotient _ _ (sval_ne_zero hb)).sval_quotient ho⟩

/-- What `srem` answers where it raises no fault. -/
theorem srem_spec {a b : Word} (s : State) (hb : b ≠ 0) :
    ∃ w, srem a b s = .ok w ∧ sval w = sval a - quotient s.cfg.sdivRounding (sval a) (sval b) * sval b :=
  ⟨_, srem_of_ne_zero s hb, (quotRem_quotient _ _ (sval_ne_zero hb)).sval_remainder⟩

theorem exec_sdiv {i : Instr} {d : Reg} {a b : Word} {s : State} (hi : exec i s = finish (setDivision d (sdiv a b) s))
    (hb : sval b ≠ 0) (ho : ¬ (sval a = -2 ^ 127 ∧ sval b = -1)) :
    ∃ t m, exec i s = .next t ∧ OnlyX [d] s t ∧ QuotRem s.cfg.sdivRounding (sval a) (sval b) (sval (t.getX d)) m := by
  obtain ⟨v, hv, hquo⟩ := sdiv_spec s (ne_zero_of_sval hb) ho
  obtain ⟨t, ht, hframe, hval⟩ := exec_setDivision hi hv
  exact ⟨t, _, ht, hframe, by rw [hval, hquo]; exact quotRem_quotient _ _ hb⟩

theorem exec_srem {i : Instr} {d : Reg} {a b : Word} {s : State} (hi : exec i s = finish (setDivision d (srem a b) s))
    (hb : sval b ≠ 0) :
    ∃ t k, exec i s = .next t ∧ OnlyX [d] s t ∧ QuotRem s.cfg.sdivRounding (sval a) (sval b) k (sval (t.getX d)) := by
  obtain ⟨w, hw, hrem⟩ := srem_spec (a := a) s (ne_zero_of_sval hb)
  obtain ⟨t, ht, hframe, hval⟩ := exec_setDivision hi hw
  exact ⟨t, _, ht, hframe, by rw [hval, hrem]; exact quotRem_quotient _ _ hb⟩

/-- Settles O28: `exec_sdiv` and `exec_srem`; an extended immediate reads as the immediate does. -/
theorem signedDivision : Obligations.SignedDivision := by
  intro d a b imm s
  rw [← sval_sext imm (by decide)]
  constructor
  · intro p hp hb ho
    simp only [List.mem_cons, List.not_mem_nil, or_false] at hp
    rcases hp with rfl | rfl <;> exact exec_sdiv rfl hb ho
  · intro p hp hb
    simp only [List.mem_cons, List.not_mem_nil, or_false] at hp
    rcases hp with rfl | rfl <;> exact exec_srem rfl hb

/-! ### Quotient and remainder at once -/

theorem exec_divmodiu (q r a b : Reg) {s : State} (hb : uval (s.getX b) ≠ 0) :
    ∃ t k, exec (.divmodiu q r a b) s = .next t ∧ OnlyX [q, r] s t ∧ (q ≠ r → uval (t.getX q) = k) ∧
      uval (s.getX a) = k * uval (s.getX b) + uval (t.getX r) ∧ uval (t.getX r) < uval (s.getX b) := by
  have hb' : s.getX b ≠ 0 := ne_zero_of_uval hb
  obtain ⟨t, ht, hframe, hquo, hrem⟩ :=
    exec_setDivMod (i := .divmodiu q r a b) rfl (udiv_eq_div s hb') (urem_eq_mod s hb')
  refine ⟨t, _, ht, hframe, fun hqr => by rw [hquo hqr, uval, BitVec.toNat_udiv], ?_⟩
  rw [hrem, uval, uval, uval, BitVec.toNat_umod]
  exact ⟨(Nat.div_add_mod' _ _).symm, Nat.mod_lt _ (Nat.pos_of_ne_zero hb)⟩

theorem exec_divmodis (q r a b : Reg) {s : State} (hb : s.getX b ≠ 0)
    (ho : ¬ (sval (s.getX a) = -2 ^ 127 ∧ sval (s.getX b) = -1)) :
    ∃ t k, exec (.divmodis q r a b) s = .next t ∧ OnlyX [q, r] s t ∧ (q ≠ r → sval (t.getX q) = k) ∧
      QuotRem s.cfg.sdivRounding (sval (s.getX a)) (sval (s.getX b)) k (sval (t.getX r)) := by
  obtain ⟨v, hv, hquo⟩ := sdiv_spec s hb ho
  obtain ⟨w, hw, hrem⟩ := srem_spec (a := s.getX a) s hb
  obtain ⟨t, ht, hframe, htq, htr⟩ := exec_setDivMod (i := .divmodis q r a b) rfl hv hw
  exact ⟨t, _, ht, hframe, fun hqr => by rw [htq hqr, hquo],
    by rw [htr, hrem]; exact quotRem_quotient _ _ (sval_ne_zero hb)⟩

/-- Settles O29: `exec_divmodiu` and `exec_divmodis`. -/
theorem divisionWithRemainder : Obligations.DivisionWithRemainder := fun q r a b _ hb =>
  ⟨exec_divmodiu q r a b hb, exec_divmodis q r a b (ne_zero_of_uval hb)⟩

/-! ### Compares -/

section

variable {x y : Int}

theorem compareResult_of_lt (h : x < y) : compareResult x y = -1 := if_pos h

theorem compareResult_self : compareResult x x = 0 := by rw [compareResult, if_neg (lt_irrefl x), if_pos rfl]

theorem compareResult_of_gt (h : y < x) : compareResult x y = 1 := by
  rw [compareResult, if_neg h.not_gt, if_neg h.ne']

end

/-- A compare writes the sign of the difference (R175). -/
theorem sval_compareResult (x y : Int) : sval (compareResult x y) = (x - y).sign := by
  rcases lt_trichotomy x y with h | rfl | h
  · rw [compareResult_of_lt h, Int.sign_eq_neg_one_of_neg (sub_neg.2 h)]
    decide
  · rw [compareResult_self, sub_self, Int.sign_zero]
    decide
  · rw [compareResult_of_gt h, Int.sign_eq_one_of_pos (sub_pos.2 h)]
    decide

/-- A compare of two numbers: the destination is the sign of their difference, which the six conditions of R271 read
back as the six comparisons. -/
theorem exec_compare {i : Instr} {d : Reg} {x y : Int} {s : State}
    (hi : exec i s = .next (s.setX d (compareResult x y))) :
    ∃ t, exec i s = .next t ∧ OnlyX [d] s t ∧ sval (t.getX d) = (x - y).sign ∧
      (CondTrue .s (t.getX d) ↔ x < y) ∧ (CondTrue .z (t.getX d) ↔ x = y) ∧ (CondTrue .p (t.getX d) ↔ y < x) ∧
      (CondTrue .nz (t.getX d) ↔ x ≠ y) ∧ (CondTrue .ge (t.getX d) ↔ y ≤ x) ∧ (CondTrue .le (t.getX d) ↔ x ≤ y) := by
  obtain ⟨t, ht, hframe, hval⟩ := exec_setX hi
  have hsign : sval (t.getX d) = (x - y).sign := by rw [hval, sval_compareResult]
  refine ⟨t, ht, hframe, hsign, ?_⟩
  simp only [CondTrue, hsign, ne_eq, Int.sign_neg_iff, Int.sign_pos_iff, Int.sign_nonneg_iff, Int.sign_nonpos_iff,
    Int.sign_eq_zero_iff_zero]
  omega

/-- Settles O31: the three results of `compareResult`, read as unsigned. -/
theorem unsignedCompare : Obligations.UnsignedCompare := by
  intro d a b s
  obtain ⟨t, ht, hframe, hval⟩ := exec_setX (i := .cmpiuR d a b) (s := s) rfl
  refine ⟨rfl, t, ht, hframe, ?_⟩
  rw [hval, compareUnsigned]
  refine ⟨fun h => ?_, fun h => ?_, fun h => ?_⟩
  · rw [compareResult_of_lt (Int.ofNat_lt.2 h)]
    decide
  · rw [show (s.getX a).toNat = (s.getX b).toNat from h, compareResult_self]
    decide
  · rw [compareResult_of_gt (Int.ofNat_lt.2 h)]
    decide

/-- Settles O32: `exec_compare` on the readings that each instruction compares. -/
theorem compareResultsFeedConditions : Obligations.CompareResultsFeedConditions := by
  intro d a b imm s
  rw [← sval_sext imm (by decide)]
  intro p hp
  simp only [List.mem_cons, List.not_mem_nil, or_false] at hp
  rcases hp with rfl | rfl | rfl <;> exact exec_compare rfl

end Sys2Proof.Machine
end

section
/-! PROOFS of the family 42_bitwise: bitwise operations (O33, O34), complements (O35), and shifts whose count is in range
(O36). -/

namespace Sys2Proof.Machine

/-! ### Operations that work bit by bit -/

/-- The operation `g` of words is the operation `f` of bits at each of the 128 places. -/
def BitByBit (g : Word → Word → Word) (f : Bool → Bool → Bool) : Prop :=
  ∀ (x y : Word), ∀ k < 128, (g x y).getLsbD k = f (x.getLsbD k) (y.getLsbD k)

theorem bitByBit_and : BitByBit (fun x y => x &&& y) fun x y => x && y := fun _ _ _ _ => BitVec.getLsbD_and

theorem bitByBit_or : BitByBit (fun x y => x ||| y) fun x y => x || y := fun _ _ _ _ => BitVec.getLsbD_or

theorem bitByBit_xor : BitByBit (fun x y => x ^^^ y) fun x y => x ^^ y := fun _ _ _ _ => BitVec.getLsbD_xor

theorem getLsbD_complement (y : Word) {k : Nat} (hk : k < 128) : (~~~y).getLsbD k = !y.getLsbD k := by
  rw [BitVec.getLsbD_not, decide_eq_true hk, Bool.true_and]

/-- The second source complemented (R189). -/
theorem BitByBit.complement {g : Word → Word → Word} {f : Bool → Bool → Bool} (h : BitByBit g f) :
    BitByBit (fun x y => g x (~~~y)) fun x y => f x !y := fun x y k hk => by
  rw [h x (~~~y) k hk, getLsbD_complement y hk]

/-- `xorn` sets the bits in which its sources agree. -/
theorem bitByBit_xorn : BitByBit (fun x y => x ^^^ ~~~y) fun x y => x == y := fun x y k hk => by
  have agree : ∀ p q : Bool, (p ^^ !q) = (p == q) := by decide
  exact (bitByBit_xor.complement x y k hk).trans (agree _ _)

/-- A bit of an extended immediate is the immediate's own, or its top bit (30 R77). -/
theorem getLsbD_sext {n : Nat} (imm : BitVec n) {k : Nat} (hk : k < 128) :
    (sext imm).getLsbD k = if k < n then imm.getLsbD k else imm.getLsbD (n - 1) := by
  rw [sext, BitVec.getLsbD_signExtend, BitVec.msb_eq_getLsbD_last, decide_eq_true hk, Bool.true_and]

section

variable {i : Instr} {d : Reg} {s : State} {x : Word} {g : Word → Word → Word} {f : Bool → Bool → Bool}

/-- An instruction that writes a bit-by-bit operation of two words. -/
theorem exec_bitByBit {y : Word} (hg : BitByBit g f) (hi : exec i s = .next (s.setX d (g x y))) :
    ∃ t, exec i s = .next t ∧ OnlyX [d] s t ∧
      ∀ k < 128, (t.getX d).getLsbD k = f (x.getLsbD k) (y.getLsbD k) := by
  obtain ⟨t, ht, hframe, hval⟩ := exec_setX hi
  exact ⟨t, ht, hframe, hval ▸ hg x y⟩

/-- The same with an extended immediate as the second source. -/
theorem exec_bitByBit_sext {n : Nat} {imm : BitVec n} (hg : BitByBit g f)
    (hi : exec i s = .next (s.setX d (g x (sext imm)))) :
    ∃ t, exec i s = .next t ∧ OnlyX [d] s t ∧ ∀ k < 128,
      (t.getX d).getLsbD k = f (x.getLsbD k) (if k < n then imm.getLsbD k else imm.getLsbD (n - 1)) := by
  obtain ⟨t, ht, hframe, hbits⟩ := exec_bitByBit hg hi
  exact ⟨t, ht, hframe, fun k hk => by rw [hbits k hk, getLsbD_sext imm hk]⟩

end

/-- Settles O33: each word is its template's by definition, each meaning one operation that works bit by bit. -/
theorem registerBitwise : Obligations.RegisterBitwise := by
  intro d a b s p hp
  simp only [List.mem_cons, List.not_mem_nil, or_false] at hp
  rcases hp with rfl | rfl | rfl
  · exact ⟨rfl, exec_bitByBit bitByBit_and rfl⟩
  · exact ⟨rfl, exec_bitByBit bitByBit_or rfl⟩
  · exact ⟨rfl, exec_bitByBit bitByBit_xor rfl⟩

/-- Settles O34: `exec_bitByBit_sext` for the immediates, `exec_bitByBit` for the registers. -/
theorem complementedAndImmediateBitwise : Obligations.ComplementedAndImmediateBitwise := by
  intro d a b imm s
  constructor
  · intro p hp
    simp only [List.mem_cons, List.not_mem_nil, or_false] at hp
    rcases hp with rfl | rfl | rfl | rfl | rfl | rfl
    · exact exec_bitByBit_sext bitByBit_and rfl
    · exact exec_bitByBit_sext bitByBit_or rfl
    · exact exec_bitByBit_sext bitByBit_xor rfl
    · exact exec_bitByBit_sext bitByBit_and.complement rfl
    · exact exec_bitByBit_sext bitByBit_or.complement rfl
    · exact exec_bitByBit_sext bitByBit_xorn rfl
  · intro p hp
    simp only [List.mem_cons, List.not_mem_nil, or_false] at hp
    rcases hp with rfl | rfl | rfl
    · exact exec_bitByBit bitByBit_and.complement rfl
    · exact exec_bitByBit bitByBit_or.complement rfl
    · exact exec_bitByBit bitByBit_xorn rfl

/-! ### Complements -/

/-- Settles O35: each word is its template's by definition, each meaning one `setX` of a complement. -/
theorem complement : Obligations.Complement := by
  intro d a imm s
  refine ⟨⟨rfl, _, rfl, onlyX_setX s d _, ?_⟩, ⟨rfl, _, rfl, onlyX_setX s d _, fun k hk => ?_⟩⟩ <;>
    rw [State.getX_setX_self]
  · exact BitVec.toNat_not
  · rw [getLsbD_complement _ hk, getLsbD_sext imm hk]

/-! ### Shifts in range -/

/-- An instruction that shifts by a count below 128 writes the shifted word and takes no draw. -/
theorem exec_shift {i : Instr} {d : Reg} {c : Word} {g : Nat → Word} {s : State}
    (hi : exec i s = .next (setShift d c g s)) (hc : uval c < 128) :
    ∃ t, exec i s = .next t ∧ OnlyX [d] s t ∧ t.getX d = g (uval c) :=
  exec_setX (by rw [hi, setShift_of_lt hc])

/-- A count below 128 in an immediate has its top bit clear: extended, it is the same count. -/
theorem uval_sext_of_lt {imm : BitVec 10} (h : imm.toNat < 128) : uval (sext imm) = imm.toNat := by
  have hmsb : imm.msb = false := BitVec.msb_eq_false_iff_two_mul_lt.2 (by omega)
  rw [uval, sext, BitVec.signExtend_eq_setWidth_of_msb_false hmsb, BitVec.toNat_setWidth_of_le (by decide)]

/-- The three shifts of one word by one count below 128. -/
theorem exec_shifts {l r rs : Instr} {d : Reg} {x c : Word} {s : State}
    (hl : exec l s = .next (setShift d c (fun n => x <<< n) s))
    (hr : exec r s = .next (setShift d c (fun n => x >>> n) s))
    (hrs : exec rs s = .next (setShift d c (fun n => x.sshiftRight n) s)) (hc : uval c < 128) :
    ∃ t u v, exec l s = .next t ∧ exec r s = .next u ∧ exec rs s = .next v ∧
      OnlyX [d] s t ∧ OnlyX [d] s u ∧ OnlyX [d] s v ∧
      uval (t.getX d) = uval x * 2 ^ uval c % 2 ^ 128 ∧ uval (u.getX d) = uval x / 2 ^ uval c ∧
      sval (v.getX d) = sval x / 2 ^ uval c := by
  obtain ⟨t, ht, htf, htv⟩ := exec_shift hl hc
  obtain ⟨u, hu, huf, huv⟩ := exec_shift hr hc
  obtain ⟨v, hv, hvf, hvv⟩ := exec_shift hrs hc
  refine ⟨t, u, v, ht, hu, hv, htf, huf, hvf, ?_, ?_, ?_⟩
  · rw [htv, uval, BitVec.toNat_shiftLeft, Nat.shiftLeft_eq]
  · rw [huv, uval, BitVec.toNat_ushiftRight, Nat.shiftRight_eq_div_pow]
  · rw [hvv, sval, BitVec.toInt_sshiftRight, Int.shiftRight_eq_div_pow, Nat.cast_pow, Nat.cast_ofNat]

/-- Settles O36: `exec_shifts` with the register's count, and with that of the extended immediate. -/
theorem shiftsInRange : Obligations.ShiftsInRange := by
  intro d a b imm s p hp hc
  simp only [List.mem_cons, List.not_mem_nil, or_false] at hp
  rcases hp with rfl | rfl
  · exact exec_shifts rfl rfl rfl hc
  · have himm : uval (sext imm) = imm.toNat := uval_sext_of_lt hc
    rw [← himm] at hc ⊢
    exact exec_shifts rfl rfl rfl hc

end Sys2Proof.Machine
end

section
/-! PROOFS of the family 43_float_move: ranges on the stack (O23), the move and the loads (O38, O42), and the stores
(O39, O43). -/

namespace Sys2Proof.Machine

/-! ### What a write of a floating-point register leaves behind -/

theorem onlyF_setF (s : State) (d : FReg) (v : Word) : OnlyF [d] s (s.setF d v) :=
  ⟨fun _ _ => rfl, fun _ hr => s.getF_setF_of_ne v (by simpa using hr), fun _ => rfl, rfl, rfl⟩

/-- A floating-point answer written to a register changes that register and the draw counter alone. -/
theorem onlyF_setFp (s : State) (d : FReg) (a : FpVal 128) : OnlyF [d] s (s.setFp d a) :=
  ⟨fun r _ => by rw [State.getX, setFp_x, State.getX], fun _ hr => getF_setFp_of_ne s a (by simpa using hr),
    sameBytes_of_mem (setFp_mem s d a), setFp_ip s d a, setFp_cfg s d a⟩

/-- An instruction that writes a floating-point answer: the destination holds what the answer admits, with as many draws
as it takes, and nothing else changes. -/
theorem exec_setFp {i : Instr} {d : FReg} {a : FpVal 128} {s : State} (hi : exec i s = .next (s.setFp d a)) :
    ∃ t, exec i s = .next t ∧ FpAdmits quad a (t.getF d) ∧ t.draws = s.draws + fpDraws a ∧ OnlyF [d] s t :=
  ⟨_, hi, by rw [getF_setFp_self]; exact admits_fpBits nan_someNan128 s a, fpAfter_draws s a, onlyF_setFp s d a⟩

/-! ### The move and the loads -/

/-- A conversion of `w` bits sees nothing of a cell's value above them. -/
theorem setWidth_lowBytes {n w : Nat} (hn : n ≤ 16) (hw : w ≤ 8 * n) (v : Word) :
    (lowBytes n v).setWidth w = v.setWidth w := by
  apply BitVec.eq_of_toNat_eq
  rw [BitVec.toNat_setWidth, lowBytes_toNat hn, Nat.mod_mod_of_dvd _ (pow_dvd_pow 2 hw), BitVec.toNat_setWidth]

/-- A load whose cell is mapped and holds `v` writes the answer `a` of its conversion. -/
theorem exec_loadF {i : Instr} {n : Nat} {convert : Word → FpVal 128} {d : FReg} {m : MemOperand} {s : State}
    {v : Word} {a : FpVal 128} (hi : exec i s = finish (loadF n convert d m s)) (hn : n ≤ 16)
    (ha : convert (lowBytes n v) = a) (hd : InDomain s (s.ea m) n) (hv : HoldsCell s (s.ea m) n v) :
    ∃ t, exec i s = .next t ∧ FpAdmits quad a (t.getF d) ∧ t.draws = s.draws + fpDraws a ∧ OnlyF [d] s t :=
  exec_setFp (by rw [hi, loadF_eq hn hd hv, finish_ok, ha])

/-- Settles O38: the move is one `setF`, and every load is `loadF` of its width and conversion. -/
theorem floatMoveAndLoads : Obligations.FloatMoveAndLoads := by
  intro d a m s v
  refine ⟨⟨_, rfl, s.getF_setF_self d _, onlyF_setF s d _⟩, fun p hp hd hv => ?_⟩
  simp only [List.mem_cons, List.not_mem_nil, or_false] at hp
  rcases hp with rfl | rfl | rfl | rfl
  · exact exec_loadF rfl (by simp) (by rw [lowBytes_sixteen]) hd hv
  · exact exec_loadF rfl (by simp) (by rw [setWidth_lowBytes (by simp) (by simp)]) hd hv
  · exact exec_loadF rfl (by simp) (by rw [setWidth_lowBytes (by simp) (by simp)]) hd hv
  · exact exec_loadF rfl (by simp) (by rw [setWidth_lowBytes (by simp) (by simp)]) hd hv

/-! ### The stores -/

/-- A store through a narrowing changes the bytes of its cell and the draw counter alone. -/
theorem onlyBytes_store_fpAfter {w : Nat} (s : State) (a : FpVal w) (addr : Word) (n : Nat) (v : Word) :
    OnlyBytes addr n s ((fpAfter s a).store addr n v) := by
  obtain ⟨hx, hf, hbytes, hip, hcfg⟩ := onlyBytes_store (fpAfter s a) addr n v
  refine ⟨fun r hr => (hx r hr).trans ?_, fun r hr => (hf r hr).trans (getF_of_f (fpAfter_f s a) r),
    fun b hb => (hbytes b hb).trans (sameBytes_of_mem (fpAfter_mem s a) b), hip.trans (fpAfter_ip s a),
    hcfg.trans (fpAfter_cfg s a)⟩
  rw [State.getX, fpAfter_x, State.getX]

/-- A store whose cell is mapped: the cell holds what the answer of the narrowing admits, and nothing else changes. -/
theorem exec_storeF {i : Instr} {F : NumberFormat} {n w : Nat} {nan : Word → BitVec w} {a : FpVal w} {m : MemOperand}
    {s : State} (hi : exec i s = finish (storeF n nan a m s)) (hn : n ≤ 16) (hnan : ∀ d, F.NaN (nan d))
    (hd : InDomain s (s.ea m) n) :
    ∃ t c, exec i s = .next t ∧ FpAdmits F a c ∧ HoldsCell t (s.ea m) n (c.setWidth 128) ∧
      OnlyBytes (s.ea m) n s t := by
  rw [storeF_eq hd, finish_ok] at hi
  exact ⟨_, _, hi, admits_fpBits hnan s a, holdsCell_store _ _ n _ hn, onlyBytes_store_fpAfter s a _ n _⟩

/-- Settles O39: every store is `storeF` of its width, and what it draws for a NaN is a NaN of its format. -/
theorem floatStores : Obligations.FloatStores := by
  intro r m s
  obtain ⟨hw32, hw64, -⟩ := wide_formats
  refine ⟨exec_storeF rfl (by simp) fun d => ?_, exec_storeF rfl (by simp) fun d => ?_,
    exec_storeF rfl (by simp) fun d => ?_⟩
  · exact nan_someNan hw32 rfl d rfl
  · exact nan_someNan hw64 rfl d rfl
  · exact nan_someNan80 d rfl

/-! ### Ranges on the stack -/

/-- The slots of a pop, place by place, from what the slot of each register holds. -/
theorem holdsCell_inPopOrder {o : PopOrder} {i j : Fin 32} {s : State} {v : Fin 32 → Word} (hij : i ≤ j)
    (hv : ∀ n, i ≤ n → n ≤ j → HoldsCell s (s.slotAbove (popPlace o i j n)) 16 (v n)) (k : Nat)
    (hk : k < (inPopOrder o (regRange i j)).length) :
    HoldsCell s (s.slotAbove k) 16 (v (inPopOrder o (regRange i j))[k]) := by
  obtain ⟨n, hn, hin, hnj, hplace⟩ := inPopOrder_getElem hij hk
  rw [hn, hplace]
  exact hv n hin hnj

/-- A pop of a range of floating-point registers, in either order: its registers hold the slots of their places, `sp`
is above them. -/
theorem popAll_putF_range_eq {o : PopOrder} {i j : FReg} {s : State} (v : FReg → Word) (hij : i ≤ j)
    (hd : InDomain s s.sp (16 * (j.val + 1 - i.val)))
    (hv : ∀ n, i ≤ n → n ≤ j → HoldsCell s (s.slotAbove (popPlace o i j n)) 16 (v n)) :
    ∃ t, popAll putF (inPopOrder o (regRange i j)) s = .ok t ∧ t.sp = s.slotAbove (j.val + 1 - i.val) ∧
      (∀ n, i ≤ n → n ≤ j → t.getF n = v n) ∧ (∀ n, (n < i ∨ j < n) → t.getF n = s.getF n) ∧
      SameXBut [spReg] s t ∧ SameBytes s t ∧ t.ip = s.ip ∧ t.cfg = s.cfg := by
  have hlen : (inPopOrder o (regRange i j)).length = j.val + 1 - i.val := by rw [inPopOrder_length, regRange_length]
  have hmem (n : FReg) : n ∈ inPopOrder o (regRange i j) ↔ i ≤ n ∧ n ≤ j := by rw [mem_inPopOrder, mem_regRange]
  rw [← hlen] at hd ⊢
  obtain ⟨t, ht, hsp, hloaded, hx, hf, hm, hip, hcfg, _⟩ := popAll_putF_spec v _ s (by omega)
    (inPopOrder_nodup o (regRange_nodup i j)) hd (holdsCell_inPopOrder hij hv)
  refine ⟨t, ht, hsp, fun n hin hnj => hloaded n ((hmem n).2 ⟨hin, hnj⟩), fun n hout => hf n fun hn => ?_, hx,
    sameBytes_of_mem hm, hip, hcfg⟩
  obtain ⟨hin, hnj⟩ := (hmem n).1 hn
  exact hout.elim hin.not_gt hnj.not_gt

/-- Settles O23: a push stores the registers' own bits, for `sp` is in the other file; a pop loads them in the order of
POP_ORDER. -/
theorem floatPushAndPop : Obligations.FloatPushAndPop := by
  intro i j s hij
  refine ⟨fun hd => ?_, fun v hd hv => ?_⟩
  · obtain ⟨t, ht, hrest⟩ := pushAll_range_eq (fun n _ => s.getF n) (fun _ n _ hf => getF_of_f hf n) hd
    exact ⟨t, by rw [exec_pushF, ht, finish_ok], hrest⟩
  · obtain ⟨t, ht, hrest⟩ := popAll_putF_range_eq v hij hd hv
    exact ⟨t, by rw [exec_popF, ht, finish_ok], hrest⟩

/-! ### Widening -/

/-- The record FP in force under the IEEE choice. -/
theorem fpOf_ieee754 {c : Config} (h : c.fp = .ieee754) : fpOf c = ieeeFp c.roundnTie := by
  simp only [fpOf, h]

/-- The register `r` holds the number, the infinity or a NaN, as the bits `v` of the format `F` do (43 R221). -/
def Widened (F : NumberFormat) (v r : Word) : Prop :=
  (F.Finite v → quad.Finite r ∧ quad.value r = F.value v ∧ quad.sign r = F.sign v) ∧
  (F.Infinite v → quad.Infinite r ∧ quad.sign r = F.sign v) ∧
  (F.NaN v → quad.NaN r)

/-- The answer `a` of a widening of the bits `v`: their datum, read with the places of `f` and written to a register. -/
structure WidensTo (F : NumberFormat) (f : FpFormat) (v : Word) (a : FpVal 128) : Prop where
  nan : F.NaN v → a = .anyNan
  infinite : F.Infinite v → a = pack128 (.inf (F.sign v))
  finite : F.Finite v → a = pack128 (.fin (F.sign v) (F.significand v) (f.minLsb + ((F.expField v - 1 : Nat) : Int)))

/-- The numbers of a format, from their significand and exponent field, are below the power of two that overflows. -/
theorem FpFormat.Wide.mul_lt {f : FpFormat} (hw : f.Wide) {m q : Nat} (hm : m < 2 ^ (f.fracBits + 1))
    (hq : q < f.maxExp) : (m : ℚ) * 2 ^ (f.minLsb + ((q - 1 : Nat) : Int)) < 2 ^ ((f.bias : Int) + 1) := by
  obtain ⟨hmax, hbias⟩ := hw.maxExp_eq
  have hplace : (f.fracBits + 1 : Nat) + (f.minLsb + ((q - 1 : Nat) : Int)) ≤ (f.bias : Int) + 1 := by
    unfold FpFormat.minLsb
    omega
  calc (m : ℚ) * 2 ^ (f.minLsb + ((q - 1 : Nat) : Int))
      < (2 ^ (f.fracBits + 1) : Nat) * 2 ^ (f.minLsb + ((q - 1 : Nat) : Int)) :=
        mul_lt_mul_of_pos_right (by exact_mod_cast hm) (two_pow_pos _)
    _ = 2 ^ ((f.fracBits + 1 : Nat) + (f.minLsb + ((q - 1 : Nat) : Int))) := by
        rw [two_pow_split (f.fracBits + 1 : Nat), two_pow_nat]
    _ ≤ 2 ^ ((f.bias : Int) + 1) := zpow_le_zpow_right₀ (by norm_num) hplace

/-- A format with no more places and no larger exponents than binary128: its numbers are written to a register exactly. -/
theorem WidensTo.widened {F : NumberFormat} {f : FpFormat} {v r : Word} {a : FpVal 128} (h : WidensTo F f v a)
    (hr : FpAdmits quad a r) (hw : f.Wide) (hfrac : f.fracBits ≤ 112) (hbias : f.bias ≤ 16383)
    (hsig : F.significand v < 2 ^ (f.fracBits + 1)) (hexp : F.Finite v → F.expField v < f.maxExp)
    (hval : F.value v = (FpNum.fin (F.sign v) (F.significand v)
      (f.minLsb + ((F.expField v - 1 : Nat) : Int))).toRat) : Widened F v r := by
  refine ⟨fun hv => ?_, fun hv => ?_, fun hv => ?_⟩
  · rw [h.finite hv] at hr
    have hm : F.significand v < 2 ^ 113 := hsig.trans_le (Nat.pow_le_pow_right (by norm_num) (by omega))
    have he : binary128.minLsb ≤ f.minLsb + ((F.expField v - 1 : Nat) : Int) := by
      rw [show binary128.minLsb = -16494 from rfl, FpFormat.minLsb]
      omega
    have hx := (hw.mul_lt hsig (hexp hv)).trans_le
      (zpow_le_zpow_right₀ (a := (2 : ℚ)) (n := 16384) (by norm_num) (by omega))
    obtain ⟨hfin, hexact⟩ := pack128_exact hr hm he hx
    exact ⟨hfin, hexact.trans hval.symm, (pack128_fin hr).1⟩
  · rw [h.infinite hv] at hr
    exact pack128_inf hr
  · rw [h.nan hv] at hr
    exact hr

/-- What a 32-bit or 64-bit load writes is what `unpack` reads. -/
theorem widensTo_unpack (f : FpFormat) {w : Nat} (hw : w = f.expBits + f.fracBits + 1) (v : Word) :
    WidensTo f.shape f v (pack128 (unpack f (v.setWidth w).toNat)) := by
  rcases widen_shape f w hw v with ⟨hv, hu⟩ | ⟨hv, hu⟩ | ⟨hv, hu⟩ <;> rw [hu]
  · exact ⟨fun _ => rfl, fun h => absurd hv (infinite_not_nan h), fun h => absurd hv (finite_not_infinite h).2⟩
  · exact ⟨fun h => absurd h (infinite_not_nan hv), fun _ => rfl, fun h => absurd hv (finite_not_infinite h).1⟩
  · exact ⟨fun h => absurd h (finite_not_infinite hv).2, fun h => absurd h (finite_not_infinite hv).1, fun _ => rfl⟩

theorem widened_unpack {f : FpFormat} {w : Nat} {v r : Word} (hw : f.Wide) (hwidth : w = f.expBits + f.fracBits + 1)
    (hfrac : f.fracBits ≤ 112) (hbias : f.bias ≤ 16383)
    (hr : FpAdmits quad (pack128 (unpack f (v.setWidth w).toNat)) r) : Widened f.shape v r := by
  refine (widensTo_unpack f hwidth v).widened hr hw hfrac hbias (shape_significand_lt f v) (fun hv => ?_)
    (shape_value f v)
  have hne : f.shape.expField v ≠ f.maxExp := hv.1
  have hlt : f.shape.expField v < 2 ^ f.expBits := Nat.mod_lt _ (Nat.two_pow_pos _)
  unfold FpFormat.maxExp at hne ⊢
  omega

theorem widened_widen80 {v r : Word} (hr : FpAdmits quad (widen80 (v.setWidth 80)) r) : Widened extended v r := by
  obtain ⟨hnan, hinf, hfin⟩ := widen80_spec v
  refine WidensTo.widened ⟨hnan, hinf, hfin⟩ hr wide_formats.2.2.1 (by decide) (by decide) (extended_sigField_lt v)
    (fun hv => ?_) (ext_value v)
  have hne : extended.expField v ≠ 32767 := hv.1
  have hlt := extended_expField_lt v
  rw [show extended80.maxExp = 32767 from rfl]
  omega

/-- Settles O42: a load writes what its conversion admits (`floatMoveAndLoads`), and the registers' format has every
number of the narrower ones. -/
theorem wideningLoadsAreExact : Obligations.WideningLoadsAreExact := by
  intro d m s v hfp p hp hd hv
  obtain ⟨-, hloads⟩ := floatMoveAndLoads d d m s v
  obtain ⟨hw32, hw64, -⟩ := wide_formats
  simp only [fpOf_ieee754 hfp, List.forall_mem_cons] at hloads
  obtain ⟨-, h32, h64, h80, -⟩ := hloads
  simp only [List.mem_cons, List.not_mem_nil, or_false] at hp
  rcases hp with rfl | rfl | rfl
  · obtain ⟨t, ht, hr, -, hframe⟩ := h32 hd hv
    exact ⟨t, ht, hframe, widened_unpack (f := binary32) hw32 rfl (by decide) (by decide) hr⟩
  · obtain ⟨t, ht, hr, -, hframe⟩ := h64 hd hv
    exact ⟨t, ht, hframe, widened_unpack (f := binary64) hw64 rfl (by decide) (by decide) hr⟩
  · obtain ⟨t, ht, hr, -, hframe⟩ := h80 hd hv
    exact ⟨t, ht, hframe, widened_widen80 hr⟩

/-! ### Narrowing -/

/-- The cell value `c` is the register `v` rounded to the format `F`, its infinity, or a NaN (43 R221). -/
def Narrowed (F : NumberFormat) (v c : Word) : Prop :=
  (quad.Finite v → F.sign c = quad.sign v ∧ F.Rounds (quad.value v) c) ∧
  (quad.Infinite v → F.Infinite c ∧ F.sign c = quad.sign v) ∧
  (quad.NaN v → F.NaN c)

/-- What `pack` and `narrow80` do: round a datum to magnitude bits of `f`, which `enc` lays out below a sign. -/
def roundedTo (f : FpFormat) {w : Nat} (enc : Bool → Nat → BitVec w) : FpNum → FpVal w
  | .nan => .anyNan
  | .inf neg => .bits (enc neg f.top)
  | .fin neg m e => .bits (enc neg (roundMagnitude f m e))

theorem pack_eq_roundedTo (f : FpFormat) (w : Nat) (x : FpNum) : pack f w x = roundedTo f (withSign w) x := by
  cases x <;> rfl

theorem narrow80_eq_roundedTo (v : Word) : narrow80 v = roundedTo extended80 extend80 (num128 v) := by
  unfold narrow80
  cases num128 v <;> rfl

/-- Whether a pattern is a NaN is in its number: it stays one in a wider word. -/
theorem nan_of_toNat_eq {F : NumberFormat} {w w' : Nat} {v : BitVec w} {r : BitVec w'} (h : r.toNat = v.toNat)
    (hv : F.NaN v) : F.NaN r := by
  have hexp : F.expField r = F.expField v := by rw [NumberFormat.expField, h, NumberFormat.expField]
  have hsig : F.sigField r = F.sigField v := by rw [NumberFormat.sigField, h, NumberFormat.sigField]
  rwa [NumberFormat.NaN, hexp, hsig]

/-- Bits that a narrowing admits are, zero-extended to a cell value, the rounded number, if `enc` gives a pattern of `F`
with the magnitude bits it lays out. -/
theorem narrowed_of_admits {F : NumberFormat} {f : FpFormat} {w : Nat} {enc : Bool → Nat → BitVec w} {v : Word}
    {c : BitVec w} (hF : Reads F f 128) (hw : w ≤ 128)
    (henc : ∀ {neg : Bool} {mag : Nat} {r : Word}, mag ≤ f.top → r.toNat = (enc neg mag).toNat → Codes F f r neg mag)
    (hc : FpAdmits F (roundedTo f enc (num128 v)) c) : Narrowed F v (c.setWidth 128) := by
  have hcell : (c.setWidth 128).toNat = c.toNat := BitVec.toNat_setWidth_of_le hw
  refine ⟨fun hv => ?_, fun hv => ?_, fun hv => ?_⟩
  · obtain ⟨m, e, hnum, hval, -⟩ := num128_of_finite hv
    rw [hnum] at hc
    have hcodes : Codes F f (c.setWidth 128) (quad.sign v) (roundMagnitude f m e) :=
      henc (roundMagnitude_le f m e) (hcell.trans (congrArg BitVec.toNat hc))
    refine ⟨hcodes.sign, ?_⟩
    rw [← hval, FpNum.toRat, mul_assoc]
    exact rounds_of_codes hF hcodes
  · rw [num128_of_infinite hv] at hc
    have hcodes : Codes F f (c.setWidth 128) (quad.sign v) f.top :=
      henc le_rfl (hcell.trans (congrArg BitVec.toNat hc))
    exact ⟨hcodes.infinite rfl, hcodes.sign⟩
  · rw [num128_of_nan hv] at hc
    exact nan_of_toNat_eq hcell hc

theorem narrowed_pack {f : FpFormat} {w : Nat} {v : Word} {c : BitVec w} (hw : f.Wide)
    (hwidth : w = f.expBits + f.fracBits + 1) (hle : w ≤ 128) (hc : FpAdmits f.shape (pack f w (num128 v)) c) :
    Narrowed f.shape v (c.setWidth 128) := by
  rw [pack_eq_roundedTo] at hc
  exact narrowed_of_admits (reads_shape hw 128) hle (codes_pack hwidth) hc

theorem narrowed_narrow80 {v : Word} {c : BitVec 80} (hc : FpAdmits extended (narrow80 v) c) :
    Narrowed extended v (c.setWidth 128) := by
  rw [narrow80_eq_roundedTo] at hc
  exact narrowed_of_admits (reads_ext 128) (by decide) codes_extend80 hc

/-- Settles O43: a store writes what its narrowing admits (`floatStores`), which is the rounded number in each format. -/
theorem narrowingStoresRoundToNearest : Obligations.NarrowingStoresRoundToNearest := by
  intro r m s hfp p hp hd
  obtain ⟨hw32, hw64, -⟩ := wide_formats
  have hstores := floatStores r m s
  rw [fpOf_ieee754 hfp] at hstores
  obtain ⟨h32, h64, h80⟩ := hstores
  simp only [List.mem_cons, List.not_mem_nil, or_false] at hp
  rcases hp with rfl | rfl | rfl
  · obtain ⟨t, c, ht, hc, hcell, hframe⟩ := h32 hd
    exact ⟨t, _, ht, hcell, hframe, narrowed_pack (f := binary32) hw32 rfl (by decide) hc⟩
  · obtain ⟨t, c, ht, hc, hcell, hframe⟩ := h64 hd
    exact ⟨t, _, ht, hcell, hframe, narrowed_pack (f := binary64) hw64 rfl (by decide) hc⟩
  · obtain ⟨t, c, ht, hc, hcell, hframe⟩ := h80 hd
    exact ⟨t, _, ht, hcell, hframe, narrowed_narrow80 hc⟩

end Sys2Proof.Machine
end

section
/-! PROOFS of the family 44_float_arith: what the arithmetic, the compare and the roundings write under any record FP (O40, O41),
and, under the IEEE record, correct rounding (O44) and the integer each mode chooses (O48). -/

namespace Sys2Proof.Machine

/-! ### Any record FP -/

/-- Settles O40: each of the five writes its function's answer with `setFp`. -/
theorem floatArithmetic : Obligations.FloatArithmetic := by
  intro d a b s p hp
  simp only [List.mem_cons, List.not_mem_nil, or_false] at hp
  rcases hp with rfl | rfl | rfl | rfl | rfl <;> exact exec_setFp rfl

/-- The four roundings differ in the mode that the record is asked for. -/
theorem exec_rounding (d : Reg) (a : FReg) (s : State) :
    ∀ p ∈ [(Instr.roundn d a, RoundMode.nearest), (.roundl d a, .floor), (.roundg d a, .ceiling), (.roundt d a, .trunc)],
      exec p.1 s = .next (setRounded d ((fpOf s.cfg).toInt p.2 (s.getF a)) s) := by
  intro p hp
  simp only [List.mem_cons, List.not_mem_nil, or_false] at hp
  rcases hp with rfl | rfl | rfl | rfl <;> rfl

/-- Settles O41: `cmpf` writes the code of the order; a rounding writes the integer, or the next draw where there is
none. -/
theorem floatToIntegerResults : Obligations.FloatToIntegerResults := by
  intro d a b s
  constructor
  · obtain ⟨t, ht, hframe, hval⟩ := exec_setX (i := .cmpf d a b) (s := s) rfl
    refine ⟨t, ht, hframe, ?_⟩
    rw [hval]
    cases (fpOf s.cfg).cmp (s.getF a) (s.getF b) <;> rfl
  · intro p hp
    have hexec := exec_rounding d a s p hp
    cases hz : (fpOf s.cfg).toInt p.2 (s.getF a) with
    | some z =>
      rw [hz] at hexec
      exact ⟨_, hexec, onlyX_setX s d _, State.getX_setX_self s d _, rfl⟩
    | none =>
      rw [hz] at hexec
      exact ⟨_, hexec, (onlyX_setX s.drawn d _).of_drawn, State.getX_setX_self s.drawn d _, rfl⟩

/-! ### Exact results -/

/-- The datum `x` is a number (no infinity, no NaN), and that number is `q`. -/
def FpNum.IsNumber (x : FpNum) (q : ℚ) : Prop := ∃ s m e, x = .fin s m e ∧ (FpNum.fin s m e).toRat = q

section

variable {x y : FpNum} {p q : ℚ}

theorem isNumber_num128 {v : Word} (h : quad.Finite v) : (num128 v).IsNumber (quad.value v) := by
  obtain ⟨m, e, hnum, hval, -⟩ := num128_of_finite h
  exact ⟨_, m, e, hnum, hval⟩

theorem FpNum.IsNumber.addNum (hx : x.IsNumber p) (hy : y.IsNumber q) : (addNum x y).IsNumber (p + q) := by
  obtain ⟨s, m, e, rfl, rfl⟩ := hx
  obtain ⟨t, n, g, rfl, rfl⟩ := hy
  obtain ⟨s', m', e', hsum, hval, -⟩ := addNum_fin s m e t n g
  exact ⟨s', m', e', hsum, hval⟩

theorem FpNum.IsNumber.negNum (hx : x.IsNumber p) : (negNum x).IsNumber (-p) := by
  obtain ⟨s, m, e, rfl, rfl⟩ := hx
  exact ⟨!s, m, e, rfl, negNum_toRat (.fin s m e)⟩

theorem FpNum.IsNumber.mulNum (hx : x.IsNumber p) (hy : y.IsNumber q) : (mulNum x y).IsNumber (p * q) := by
  obtain ⟨s, m, e, rfl, rfl⟩ := hx
  obtain ⟨t, n, g, rfl, rfl⟩ := hy
  obtain ⟨hprod, hval⟩ := mulNum_fin s m e t n g
  exact ⟨_, _, _, hprod, hval⟩

/-- A register written with an exact result holds it rounded. -/
theorem FpNum.IsNumber.rounds (hx : x.IsNumber q) {r : Word} (hr : FpAdmits quad (pack128 x) r) : quad.Rounds q r := by
  obtain ⟨s, m, e, rfl, rfl⟩ := hx
  exact (pack128_fin hr).2

end

/-! ### Quotients -/

/-- The significand that `divNum` gives a quotient: enough of its bits, the last one set if the division is not exact. -/
def quotientSig (m n : Nat) : Nat := 2 * (m * 2 ^ 230 / n) + if m * 2 ^ 230 % n = 0 then 0 else 1

theorem divNum_fin (s : Bool) (m : Nat) (e : Int) (t : Bool) {n : Nat} (hn : n ≠ 0) (g : Int) :
    divNum (.fin s m e) (.fin t n g) = .fin (s ^^ t) (quotientSig m n) (e - g - 231) := if_neg hn

/-- That significand rounds as the quotient does, the quotient 0 included. -/
theorem roundMagnitude_quotientSig (m : Nat) {n : Nat} (hn : n ≠ 0) (hn' : n < 2 ^ 113) (e : Int) :
    ∃ k sig : Nat,
      roundMagnitude binary128 (quotientSig m n) (e - 231) = min (k * 2 ^ binary128.fracBits + sig) binary128.top ∧
        RoundsAt binary128 ((m : ℚ) / n * 2 ^ e) k sig := by
  rcases Nat.eq_zero_or_pos m with rfl | hm
  · refine ⟨0, 0, by simp [quotientSig, roundMagnitude], ?_⟩
    simpa using roundsAt_zero binary128
  · exact roundMagnitude_quotient hm (Nat.pos_of_ne_zero hn) hn' e

theorem sgn_ne_zero (s : Bool) : sgn s ≠ 0 := left_ne_zero_of_mul_eq_one (sgn_mul_sgn s)

/-- The quotient of two numbers, from their signs, significands and exponents. -/
theorem toRat_div (s : Bool) (m : Nat) (e : Int) (t : Bool) (n : Nat) (g : Int) :
    (FpNum.fin s m e).toRat / (FpNum.fin t n g).toRat = sgn (s ^^ t) * ((m : ℚ) / n * 2 ^ (e - g)) := by
  have hsign : sgn s / sgn t = sgn (s ^^ t) := by
    rw [sgn_xor, div_eq_iff (sgn_ne_zero t), mul_assoc, sgn_mul_sgn, mul_one]
  rw [FpNum.toRat_fin, FpNum.toRat_fin, mul_div_mul_comm, mul_div_mul_comm, hsign, zpow_sub₀ two_ne_zero, mul_assoc]

/-- A register written with a quotient holds the exact one rounded, though the datum it is written from is not exact. -/
theorem rounds_divNum {v w r : Word} (hv : quad.Finite v) (hw : quad.Finite w) (hne : quad.value w ≠ 0)
    (hr : FpAdmits quad (pack128 (divNum (num128 v) (num128 w))) r) : quad.Rounds (quad.value v / quad.value w) r := by
  obtain ⟨m, e, hnumv, hvalv, -⟩ := num128_of_finite hv
  obtain ⟨n, g, hnumw, hvalw, hn', -⟩ := num128_of_finite hw
  have hn : n ≠ 0 := fun h => hne (hvalw ▸ (toRat_eq_zero _ _ _).2 h)
  rw [hnumv, hnumw, divNum_fin _ _ _ _ hn] at hr
  obtain ⟨k, sig, hmag, hround⟩ := roundMagnitude_quotientSig m hn hn' (e - g)
  have hcodes : Codes quad binary128 r (quad.sign v ^^ quad.sign w)
      (roundMagnitude binary128 (quotientSig m n) (e - g - 231)) :=
    codes_pack (f := binary128) rfl (roundMagnitude_le _ _ _) (congrArg BitVec.toNat hr)
  rw [hmag] at hcodes
  rw [← hvalv, ← hvalw, toRat_div]
  exact rounds_of_roundsAt (reads_shape wide_formats.2.2.2 128)
    (mul_nonneg (div_nonneg (Nat.cast_nonneg _) (Nat.cast_nonneg _)) (two_pow_pos _).le) hround hcodes

/-- Settles O44: the destination holds what the record's function admits (`floatArithmetic`): an exact sum, difference
or product, or a quotient in the place of the exact one, rounded once. -/
theorem arithmeticIsCorrectlyRounded : Obligations.ArithmeticIsCorrectlyRounded := by
  intro d a b s hfp ha hb p hp hdiv
  have hna := isNumber_num128 ha
  have hnb := isNumber_num128 hb
  have hresults := floatArithmetic d a b s
  simp only [fpOf_ieee754 hfp, List.forall_mem_cons] at hresults
  obtain ⟨hadd, hsub, hmul, hquot, -⟩ := hresults
  simp only [List.mem_cons, List.not_mem_nil, or_false] at hp
  rcases hp with rfl | rfl | rfl | rfl
  · obtain ⟨t, ht, hr, -, hframe⟩ := hadd
    exact ⟨t, ht, hframe, (hna.addNum hnb).rounds hr⟩
  · obtain ⟨t, ht, hr, -, hframe⟩ := hsub
    have hdiff : (addNum (num128 (s.getF a)) (negNum (num128 (s.getF b)))).IsNumber
        (quad.value (s.getF a) - quad.value (s.getF b)) := by
      rw [sub_eq_add_neg]
      exact hna.addNum hnb.negNum
    exact ⟨t, ht, hframe, hdiff.rounds hr⟩
  · obtain ⟨t, ht, hr, -, hframe⟩ := hmul
    exact ⟨t, ht, hframe, (hna.mulNum hnb).rounds hr⟩
  · obtain ⟨t, ht, hr, -, hframe⟩ := hquot
    exact ⟨t, ht, hframe, rounds_divNum ha hb (hdiv rfl) hr⟩

/-! ### The integers of the roundings -/

/-- The record chooses no integer from an infinity or a NaN. -/
theorem toIntNum_of_not_finite (tie : RoundnTie) (mode : RoundMode) {v : Word} (h : ¬ quad.Finite v) :
    toIntNum tie mode (num128 v) = none := by
  rcases quad_cases v with hv | hv | hv
  · rw [num128_of_nan hv]; rfl
  · rw [num128_of_infinite hv]; rfl
  · exact absurd hv h

/-- From a number it chooses the integer of the mode, the only one there is, if that fits. -/
theorem toIntNum_of_finite {tie : RoundnTie} {mode : RoundMode} {v : Word} {z : ℤ} (h : quad.Finite v)
    (hz : ChoosesInt tie mode (quad.value v) z) :
    toIntNum tie mode (num128 v) = if -2 ^ 127 ≤ z ∧ z ≤ 2 ^ 127 - 1 then some z else none := by
  obtain ⟨m, e, hnum, hval, -⟩ := num128_of_finite h
  obtain ⟨z', hz', htoInt⟩ := toIntNum_fin tie mode (quad.sign v) m e
  rw [hval] at hz'
  rw [hnum, htoInt, choosesInt_unique hz hz']

/-- Settles O48: what a rounding writes follows from whether the record chooses an integer (`floatToIntegerResults`). -/
theorem roundingsChooseTheInteger : Obligations.RoundingsChooseTheInteger := by
  intro d a s z hfp p hp
  obtain ⟨-, hroundings⟩ := floatToIntegerResults d a a s
  obtain ⟨t, ht, hframe, hval⟩ := hroundings p hp
  have hrecord : (fpOf s.cfg).toInt p.2 (s.getF a) = toIntNum s.cfg.roundnTie p.2 (num128 (s.getF a)) := by
    rw [fpOf_ieee754 hfp]; rfl
  rw [hrecord] at hval
  constructor
  · intro hfin hz hlo hhi
    rw [toIntNum_of_finite hfin hz, if_pos ⟨hlo, hhi⟩] at hval
    obtain ⟨hword, -⟩ := hval
    exact ⟨t, ht, hframe, by rw [hword]; exact BitVec.toInt_ofInt_eq_self (by decide) hlo (Int.lt_of_le_sub_one hhi)⟩
  · intro hfree
    have hnone : toIntNum s.cfg.roundnTie p.2 (num128 (s.getF a)) = none := by
      by_cases hfin : quad.Finite (s.getF a)
      · obtain ⟨hz, hout⟩ := hfree.resolve_left (not_not_intro hfin)
        rw [toIntNum_of_finite hfin hz, if_neg (by omega)]
      · exact toIntNum_of_not_finite _ _ hfin
    rw [hnone] at hval
    obtain ⟨hword, -⟩ := hval
    exact ⟨t, ht, hframe, hword⟩

end Sys2Proof.Machine
end

section
/-! PROOFS of the family 45_control: jumps (O50, O51), calls (O52, O53), returns (O54, O55, O56), the software interrupt
(O58, O59, O60), and where a transfer faults on the stack (O57). -/

namespace Sys2Proof.Machine

/-! ### Parts of a mapped access -/

/-- The first bytes of a mapped access. -/
theorem InDomain.of_le {s : State} {a : Word} {n k : Nat} (h : InDomain s a n) (hk : k ≤ n) : InDomain s a k :=
  h.mono 0 (BitVec.add_zero a).symm (by rwa [Nat.zero_add])

/-! ### Relative targets -/

/-- The offset of a relative target is signed, and the address wraps (45 R270, D7). -/
theorem relTarget_eq_target (s : State) (off : Word) : relTarget s.ip off = s.target (sval off) := by
  rw [State.target, BitVec.ofInt_add, BitVec.ofInt_mul, BitVec.ofInt_toInt, BitVec.ofInt_natCast, BitVec.ofNat_toNat,
    BitVec.setWidth_eq, relTarget]
  rfl

theorem relTarget_sext {n : Nat} (s : State) (imm : BitVec n) (hn : n ≤ 128) :
    relTarget s.ip (sext imm) = s.target imm.toInt := by
  rw [relTarget_eq_target, sval_sext imm hn]

/-! ### Conditional transfers -/

section

variable {i : Instr} {c : Cond} {v : Word} {act : State → Except Fault State} {s : State}

theorem exec_onlyIf_true (hi : exec i s = finish (onlyIf c v act s)) (hc : CondTrue c v) :
    exec i s = finish (act s) := by
  rw [hi, onlyIf_true hc]

theorem exec_onlyIf_false (hi : exec i s = finish (onlyIf c v act s)) (hc : ¬ CondTrue c v) : exec i s = .next s := by
  rw [hi, onlyIf_false hc, finish_ok]

end

section

variable (c : Cond) (x a : Reg) (imm : BitVec 15) (s : State)

theorem exec_jmpCc : exec (jmpCc c x a) s =
    finish (onlyIf c (s.getX x) (fun s1 => .ok (s1.setIp (s1.getX a))) s) := by cases c <;> rfl

theorem exec_jmpCcrR : exec (jmpCcrR c x a) s =
    finish (onlyIf c (s.getX x) (fun s1 => .ok (s1.setIp (relTarget s1.ip (s1.getX a)))) s) := by cases c <;> rfl

theorem exec_jmpCcrI : exec (jmpCcrI c x imm) s =
    finish (onlyIf c (s.getX x) (fun s1 => .ok (s1.setIp (relTarget s1.ip (sext imm)))) s) := by cases c <;> rfl

theorem exec_callCc : exec (callCc c x a) s =
    finish (onlyIf c (s.getX x) (callTo fun s1 => s1.getX a) s) := by cases c <;> rfl

theorem exec_callCcrR : exec (callCcrR c x a) s =
    finish (onlyIf c (s.getX x) (callTo fun s1 => relTarget s1.ip (s1.getX a)) s) := by cases c <;> rfl

theorem exec_callCcrI : exec (callCcrI c x imm) s =
    finish (onlyIf c (s.getX x) (callTo fun s1 => relTarget s1.ip (sext imm)) s) := by cases c <;> rfl

theorem exec_retCc : exec (retCc c x) s = finish (onlyIf c (s.getX x) popIp s) := by cases c <;> rfl

theorem exec_retaCcR : exec (retaCcR c x a) s =
    finish (onlyIf c (s.getX x) (returnWith fun s1 => s1.getX a) s) := by cases c <;> rfl

theorem exec_retaCcI : exec (retaCcI c x imm) s =
    finish (onlyIf c (s.getX x) (returnWith fun _ => zext imm) s) := by cases c <;> rfl

end

/-! ### Jumps -/

theorem moved_setIp (s : State) (v : Word) : Moved s (s.setIp v) v :=
  ⟨rfl, fun _ _ => rfl, fun _ _ => rfl, fun _ => rfl, rfl⟩

/-- An instruction that sets `ip` and does no more. -/
theorem exec_jump {i : Instr} {v w : Word} {s : State} (hi : exec i s = .next (s.setIp v)) (hv : v = w) :
    ∃ t, exec i s = .next t ∧ Moved s t w :=
  ⟨_, hi, hv ▸ moved_setIp s v⟩

/-- Settles O50: each meaning is one `setIp`, and a relative target is the one the spec writes with integers. -/
theorem jumps : Obligations.Jumps := fun _ imm s =>
  ⟨exec_jump rfl rfl, exec_jump rfl (relTarget_eq_target s _), exec_jump rfl (relTarget_sext s imm (by decide))⟩

/-- A conditional instruction that sets `ip` where its condition holds. -/
theorem exec_jumpIf {i : Instr} {c : Cond} {v w : Word} {target : State → Word} {s : State}
    (hi : exec i s = finish (onlyIf c v (fun s1 => .ok (s1.setIp (target s1))) s)) (hw : target s = w) :
    ∃ t, exec i s = .next t ∧ (CondTrue c v → Moved s t w) ∧ (¬ CondTrue c v → t = s) := by
  by_cases hc : CondTrue c v
  · obtain ⟨t, ht, hmoved⟩ := exec_jump (exec_onlyIf_true hi hc) hw
    exact ⟨t, ht, fun _ => hmoved, fun h => absurd hc h⟩
  · exact ⟨s, exec_onlyIf_false hi hc, fun h => absurd h hc, fun _ => rfl⟩

/-- Settles O51: `exec_jumpIf` with the target of each form. -/
theorem conditionalJumps : Obligations.ConditionalJumps := by
  intro c x a imm s p hp
  simp only [List.mem_cons, List.not_mem_nil, or_false] at hp
  rcases hp with rfl | rfl | rfl
  · exact exec_jumpIf (exec_jmpCc c x a s) rfl
  · exact exec_jumpIf (exec_jmpCcrR c x a s) (relTarget_eq_target s _)
  · exact exec_jumpIf (exec_jmpCcrI c x imm s) (relTarget_sext s imm (by decide))

/-! ### Calls -/

/-- The state after the push of the return address, in which a call reads its target (45 R278). -/
def State.pushedIp (s : State) : State := (s.setX spReg (s.slotBelow 1)).store (s.slotBelow 1) 16 s.ip

/-- A push of `ip` into a mapped slot answers `pushedIp`. -/
theorem pushSlot_ip_eq {s : State} (hd : InDomain s (s.slotBelow 1) 16) :
    pushSlot (fun s1 => s1.ip) s = .ok s.pushedIp := pushSlot_eq _ hd

theorem callTo_eq_pushedIp {s : State} (target : State → Word) (hd : InDomain s (s.slotBelow 1) 16) :
    callTo target s = .ok (s.pushedIp.setIp (target s.pushedIp)) := callTo_eq target hd

@[simp] theorem pushedIp_ip (s : State) : s.pushedIp.ip = s.ip := rfl

theorem getX_pushedIp (s : State) (r : Reg) : s.pushedIp.getX r = s.getXPushed r := by
  rw [State.pushedIp, State.getX_store, State.getX_setX, State.getXPushed]

/-- What the push of the return address does, seen from the state before (20 R49). -/
theorem called_setIp_pushedIp (s : State) (target : Word) : Called s (s.pushedIp.setIp target) target := by
  refine ⟨rfl, ?_, holdsCell_store _ _ 16 _ (by decide), fun r hr => ?_, fun _ _ => rfl,
    sameBytesOutside_store (s.setX spReg (s.slotBelow 1)) _ 16 _, rfl⟩
  · rw [State.sp_eq_getX, State.getX_setIp, getX_pushedIp, State.getXPushed, if_pos rfl]
  · rw [State.getX_setIp, getX_pushedIp, State.getXPushed, if_neg (List.ne_of_not_mem_cons hr)]

theorem relTarget_getX_pushedIp (s : State) (a : Reg) :
    relTarget s.pushedIp.ip (s.pushedIp.getX a) = s.target (sval (s.getXPushed a)) := by
  rw [getX_pushedIp, pushedIp_ip, relTarget_eq_target]

/-- A call whose slot is mapped. -/
theorem exec_callTo {i : Instr} {target : State → Word} {w : Word} {s : State}
    (hi : exec i s = finish (callTo target s)) (hw : target s.pushedIp = w) (hd : InDomain s (s.slotBelow 1) 16) :
    ∃ t, exec i s = .next t ∧ Called s t w := by
  rw [callTo_eq_pushedIp target hd, hw] at hi
  exact ⟨_, hi, called_setIp_pushedIp s w⟩

/-- Settles O52: `exec_callTo` with each target read after the push. -/
theorem calls : Obligations.Calls := fun a imm s hd =>
  ⟨exec_callTo rfl (getX_pushedIp s a) hd, exec_callTo rfl (relTarget_getX_pushedIp s a) hd,
    exec_callTo rfl (relTarget_sext s imm (by decide)) hd⟩

/-- A conditional call: the slot matters only where the condition holds. -/
theorem exec_callIf {i : Instr} {c : Cond} {v w : Word} {target : State → Word} {s : State}
    (hi : exec i s = finish (onlyIf c v (callTo target) s)) (hw : target s.pushedIp = w) :
    (¬ CondTrue c v → exec i s = .next s) ∧
      (CondTrue c v → InDomain s (s.slotBelow 1) 16 → ∃ t, exec i s = .next t ∧ Called s t w) :=
  ⟨exec_onlyIf_false hi, fun hc hd => exec_callTo (exec_onlyIf_true hi hc) hw hd⟩

/-- Settles O53: `exec_callIf` with the target of each form. -/
theorem conditionalCalls : Obligations.ConditionalCalls := by
  intro c x a imm s p hp
  simp only [List.mem_cons, List.not_mem_nil, or_false] at hp
  rcases hp with rfl | rfl | rfl
  · exact exec_callIf (exec_callCc c x a s) (getX_pushedIp s a)
  · exact exec_callIf (exec_callCcrR c x a s) (relTarget_getX_pushedIp s a)
  · exact exec_callIf (exec_callCcrI c x imm s) (relTarget_sext s imm (by decide))

/-! ### Returns -/

/-- The state with `ip` at `p` and `sp` at `w`, all else the same. Returns and `reti` go through such states. -/
def State.withIpSp (s : State) (p w : Word) : State := (s.setIp p).setX spReg w

theorem withIpSp_sp (s : State) (p w : Word) : (s.withIpSp p w).sp = w := State.getX_setX_self _ _ _

theorem getX_withIpSp (s : State) (p w : Word) (r : Reg) :
    (s.withIpSp p w).getX r = if r = spReg then w else s.getX r := by
  rw [State.withIpSp, State.getX_setX, State.getX_setIp]

theorem setX_spReg_withIpSp (s : State) (p w w' : Word) : (s.withIpSp p w).setX spReg w' = s.withIpSp p w' :=
  State.setX_setX_self _ _ _ _

theorem slotAbove_withIpSp (s : State) (p w : Word) (k : Nat) :
    (s.withIpSp p w).slotAbove k = w + BitVec.ofNat 128 (16 * k) := by
  rw [State.slotAbove, withIpSp_sp]

/-- The state after the top slot, which holds `p`, has been popped into `ip`: a return reads its size there (45 R286). -/
abbrev State.poppedIp (s : State) (p : Word) : State := s.withIpSp p (s.slotAbove 1)

/-- A pop of `ip` from a mapped slot answers `poppedIp`. -/
theorem popIp_eq_poppedIp {s : State} {v : Word} (hd : InDomain s s.sp 16) (hv : HoldsCell s s.sp 16 v) :
    popIp s = .ok (s.poppedIp v) := popIp_eq hd hv

theorem getX_poppedIp (s : State) (v : Word) (r : Reg) : (s.poppedIp v).getX r = s.getXPopped r :=
  getX_withIpSp s v _ r

theorem returnWith_eq_withIpSp {s : State} {v : Word} (size : State → Word) (hd : InDomain s s.sp 16)
    (hv : HoldsCell s s.sp 16 v) :
    returnWith size s = .ok (s.withIpSp v (s.sp + 16 + size (s.poppedIp v))) := by
  rw [returnWith_eq size hd hv, ← setX_spReg_withIpSp s v (s.slotAbove 1)]
  rfl

theorem returned_withIpSp {s : State} {v w size : Word} (hw : w = s.sp + 16 + size) :
    Returned s (s.withIpSp v w) v size := by
  refine ⟨rfl, (withIpSp_sp s v w).trans hw, fun r hr => ?_, fun _ _ => rfl, fun _ => rfl, rfl⟩
  rw [getX_withIpSp, if_neg (List.ne_of_not_mem_cons hr)]

/-- The size of an immediate is unsigned (45 R287). -/
theorem zext_eq_ofNat {n : Nat} (imm : BitVec n) : zext imm = BitVec.ofNat 128 imm.toNat :=
  (BitVec.ofNat_toNat 128 imm).symm

section

variable {i : Instr} {c : Cond} {w v k : Word} {size : State → Word} {s : State}

/-- A plain return whose slot is mapped. -/
theorem exec_popIp (hi : exec i s = finish (popIp s)) (hd : InDomain s s.sp 16) (hv : HoldsCell s s.sp 16 v) :
    ∃ t, exec i s = .next t ∧ Returned s t v 0 := by
  rw [popIp_eq_poppedIp hd hv] at hi
  exact ⟨_, hi, returned_withIpSp (BitVec.add_zero _).symm⟩

/-- A return that removes arguments, its slot mapped. -/
theorem exec_returnWith (hi : exec i s = finish (returnWith size s)) (hk : size (s.poppedIp v) = k)
    (hd : InDomain s s.sp 16) (hv : HoldsCell s s.sp 16 v) : ∃ t, exec i s = .next t ∧ Returned s t v k := by
  rw [returnWith_eq_withIpSp size hd hv, hk] at hi
  exact ⟨_, hi, returned_withIpSp rfl⟩

/-- A conditional plain return: the slot matters only where the condition holds. -/
theorem exec_popIpIf (hi : exec i s = finish (onlyIf c w popIp s)) :
    (¬ CondTrue c w → exec i s = .next s) ∧ ∀ v, CondTrue c w → InDomain s s.sp 16 → HoldsCell s s.sp 16 v →
      ∃ t, exec i s = .next t ∧ Returned s t v 0 :=
  ⟨exec_onlyIf_false hi, fun _ hc hd hv => exec_popIp (exec_onlyIf_true hi hc) hd hv⟩

/-- The same of a return that removes arguments. -/
theorem exec_returnIf (hi : exec i s = finish (onlyIf c w (returnWith size) s))
    (hk : ∀ v, size (s.poppedIp v) = k) :
    (¬ CondTrue c w → exec i s = .next s) ∧ ∀ v, CondTrue c w → InDomain s s.sp 16 → HoldsCell s s.sp 16 v →
      ∃ t, exec i s = .next t ∧ Returned s t v k :=
  ⟨exec_onlyIf_false hi, fun v hc hd hv => exec_returnWith (exec_onlyIf_true hi hc) (hk v) hd hv⟩

end

/-- Settles O54: `exec_returnWith` with each size read after the pop. -/
theorem returns : Obligations.Returns := fun a imm s v hd hv =>
  ⟨exec_popIp rfl hd hv, exec_returnWith rfl (getX_poppedIp s v a) hd hv,
    exec_returnWith rfl (zext_eq_ofNat imm) hd hv⟩

/-- Settles O55: `exec_returnIf` with the size of each form. -/
theorem conditionalReturns : Obligations.ConditionalReturns := by
  intro c x a imm s p hp
  simp only [List.mem_cons, List.not_mem_nil, or_false] at hp
  rcases hp with rfl | rfl | rfl
  · exact exec_popIpIf (exec_retCc c x s)
  · exact exec_returnIf (exec_retaCcR c x a s) fun v => getX_poppedIp s v a
  · exact exec_returnIf (exec_retaCcI c x imm s) fun _ => zext_eq_ofNat imm

/-- Settles O56: the slot that the call filled is the one that the return reads, and `sp` goes down and up by 16. -/
theorem returnAfterCall : Obligations.ReturnAfterCall := by
  intro a s hd
  obtain ⟨t, ht, -, htsp, hslot, htx, htf, htb, htcfg⟩ := (calls a 0 s hd).1
  rw [← htsp] at hslot
  obtain ⟨u, hu, huip, husp, hux, huf, hub, hucfg⟩ :=
    (returns a 0 t s.ip (htsp ▸ hd.of_cfg htcfg) hslot).1
  refine ⟨t, u, ht, hu, huip, fun r _ => ?_, fun r hr => (huf r hr).trans (htf r hr),
    fun b hb => (hub b).trans (htb b hb), hucfg.trans htcfg⟩
  by_cases hr : r = spReg
  · subst hr
    calc u.sp = s.slotBelow 1 + 16 + 0 := by rw [husp, htsp]
      _ = s.sp := by rw [State.slotBelow]; bv_omega
  · have hr' : r ∉ [spReg] := by simpa using hr
    rw [hux r hr', htx r hr']

/-! ### Taking the software interrupt -/

theorem allRegs_eq_regRange_spReg : allRegs = regRange 0 spReg := allRegs_eq_regRange

/-- The slot of `r31` gets its own address (40 R137). -/
theorem pushed_spReg (s : State) : s.pushed 0 spReg = s.slotBelow 32 := if_pos rfl

theorem pushed_of_ne {s : State} {n : Reg} (hn : n ≠ spReg) : s.pushed 0 n = s.getX n := if_neg hn

/-- The frame that `trap` saves, seen from the state `s` before it: the registers in 32 slots, the return address in the
next, `sp` there; of `ip` nothing is said (45 R300, 60 R315). -/
structure FrameSaved (s t : State) : Prop where
  sp : t.sp = s.slotBelow 33
  slots : ∀ n : Reg, HoldsCell t (s.slotBelow (n.val + 1)) 16 (s.pushed 0 n)
  ret : HoldsCell t (s.slotBelow 33) 16 s.ip
  x : SameXBut [spReg] s t
  f : SameFBut [] s t
  bytes : SameBytesOutside (s.slotBelow 33) 528 s t
  cfg : t.cfg = s.cfg

theorem FrameSaved.setIp {s t : State} (h : FrameSaved s t) (v : Word) : FrameSaved s (t.setIp v) :=
  ⟨h.sp, h.slots, h.ret, h.x, h.f, h.bytes, h.cfg⟩

/-- A register read once the frame is saved. -/
theorem FrameSaved.getX {s t : State} (h : FrameSaved s t) (r : Reg) :
    t.getX r = if r = spReg then s.slotBelow 33 else s.getX r := by
  split
  · next hr => rw [hr]; exact h.sp
  · next hr => exact h.x r (by simpa using hr)

/-- The first 32 slots of the frame: what the push loop of `trap` leaves. -/
theorem pushAll_allRegs_eq {s : State} (hd : InDomain s (s.slotBelow 32) 512) :
    ∃ t, pushAll State.getX allRegs s = .ok t ∧ t.sp = s.slotBelow 32 ∧
      (∀ n : Reg, HoldsCell t (s.slotBelow (n.val + 1)) 16 (s.pushed 0 n)) ∧
      SameXBut [spReg] s t ∧ SameFBut [] s t ∧ SameBytesOutside (s.slotBelow 32) 512 s t ∧
      t.ip = s.ip ∧ t.cfg = s.cfg := by
  obtain ⟨t, ht, hsp, hslots, hrest⟩ :=
    pushAll_range_eq (i := 0) (j := spReg) (pushedX s) (fun _ n hx _ => getX_eq_pushedX hx n) hd
  exact ⟨t, by rw [allRegs_eq_regRange_spReg, ht], hsp, fun n => hslots n (Fin.zero_le n) (le_spReg n), hrest⟩

/-- Slots further below. -/
theorem slotBelow_of_sp {s t : State} {k p q : Nat} (hsp : t.sp = s.slotBelow k) (h : k + p = q) :
    t.slotBelow p = s.slotBelow q := by
  subst h
  rw [State.slotBelow, hsp, State.slotBelow, State.slotBelow]
  bv_omega

/-- The push of `ip` after the push loop completes the frame. -/
theorem frameSaved_pushedIp {s t : State} (hsp : t.sp = s.slotBelow 32)
    (hslots : ∀ n : Reg, HoldsCell t (s.slotBelow (n.val + 1)) 16 (s.pushed 0 n)) (hx : SameXBut [spReg] s t)
    (hf : SameFBut [] s t) (hb : SameBytesOutside (s.slotBelow 32) 512 s t) (hip : t.ip = s.ip)
    (hcfg : t.cfg = s.cfg) : FrameSaved s t.pushedIp := by
  obtain ⟨-, hsp', hret, hx', hf', hb', hcfg'⟩ := called_setIp_pushedIp t t.ip
  rw [slotBelow_of_sp hsp rfl] at hsp' hret hb'
  refine ⟨hsp', fun n => ?_, hip ▸ hret, fun r hr => (hx' r hr).trans (hx r hr),
    fun r hr => (hf' r hr).trans (hf r hr), fun b hout => ?_, hcfg'.trans hcfg⟩
  · refine (hslots n).congr hcfg' fun k hk => hb' _ fun p hp => ?_
    exact slotBelow_ne (by omega) (by omega) hk hp
  · refine (hb' b fun k hk => hout k (by omega)).trans (hb b fun k hk => ?_)
    have := hout (16 + k) (by omega)
    rwa [show s.slotBelow 33 + BitVec.ofNat 128 (16 + k) = s.slotBelow 32 + BitVec.ofNat 128 k by
      rw [State.slotBelow, State.slotBelow]; bv_omega] at this

/-- A software interrupt whose frame is mapped saves it and goes to the handler of the number, read afterwards. -/
theorem exec_enterTrap {i : Instr} {number : State → BitVec 10} {s : State}
    (hi : exec i s = finish (enterTrap number s)) (hd : InDomain s (s.slotBelow 33) 528) :
    ∃ t, exec i s = .next (t.setIp (handlerEntry (number t))) ∧ FrameSaved s t := by
  have hd32 : InDomain s (s.slotBelow 32) 512 := hd.mono 16 (by rw [State.slotBelow, State.slotBelow]; bv_omega) le_rfl
  obtain ⟨t, ht, hsp, hslots, hx, hf, hb, hip, hcfg⟩ := pushAll_allRegs_eq hd32
  have hslot : InDomain t (t.slotBelow 1) 16 := by
    rw [slotBelow_of_sp hsp rfl]
    exact (hd.of_le (by decide)).of_cfg hcfg
  rw [enterTrap_eq ht (pushSlot_ip_eq hslot), finish_ok] at hi
  exact ⟨_, hi, frameSaved_pushedIp hsp hslots hx hf hb hip hcfg⟩

/-- The handler's address does not wrap: a number has 10 bits (20 R54, D36). -/
theorem uval_handlerEntry (n : BitVec 10) : uval (handlerEntry n) = 16 * n.toNat := by
  have := n.isLt
  rw [uval, handlerEntry, zext, BitVec.toNat_mul, BitVec.toNat_setWidth_of_le (by decide),
    show (16 : Word).toNat = 16 from rfl]
  omega

/-- A software interrupt whose number is known once the frame is saved. -/
theorem exec_enterTrap_number {i : Instr} {number : State → BitVec 10} {s : State} {k : Nat}
    (hi : exec i s = finish (enterTrap number s)) (hk : ∀ t, FrameSaved s t → (number t).toNat = k)
    (hd : InDomain s (s.slotBelow 33) 528) : ∃ t, exec i s = .next t ∧ uval t.ip = 16 * k ∧ FrameSaved s t := by
  obtain ⟨t, ht, hframe⟩ := exec_enterTrap hi hd
  exact ⟨_, ht, by rw [State.setIp_ip, uval_handlerEntry, hk t hframe], hframe.setIp _⟩

/-- The number in a register is its low 10 bits after the pushes (45 R300). -/
theorem exec_trapR (a : Reg) {s : State} (hd : InDomain s (s.slotBelow 33) 528) :
    ∃ t, exec (.trapR a) s = .next t ∧ uval t.ip = 16 * (uval (if a = spReg then s.slotBelow 33 else s.getX a) % 1024) ∧
      FrameSaved s t :=
  exec_enterTrap_number rfl (fun t h => by rw [BitVec.toNat_setWidth, h.getX]) hd

/-- The number in the word is unsigned (45 R301). -/
theorem exec_trapI (imm : BitVec 10) {s : State} (hd : InDomain s (s.slotBelow 33) 528) :
    ∃ t, exec (.trapI imm) s = .next t ∧ uval t.ip = 16 * imm.toNat ∧ FrameSaved s t :=
  exec_enterTrap_number rfl (fun _ _ => rfl) hd

/-- Settles O58: what `exec_trapR` and `exec_trapI` say of the saved frame, slot by slot. -/
theorem trapSavesTheFrame : Obligations.TrapSavesTheFrame := by
  intro a imm s hd p hp
  have hsaved : ∃ t, exec p.1 s = .next t ∧ uval t.ip = 16 * p.2 ∧ FrameSaved s t := by
    simp only [List.mem_cons, List.not_mem_nil, or_false] at hp
    rcases hp with rfl | rfl
    · exact exec_trapR a hd
    · exact exec_trapI imm hd
  obtain ⟨t, ht, hip, h⟩ := hsaved
  exact ⟨t, ht, hip, h.sp, fun n hn => pushed_of_ne hn ▸ h.slots n, h.slots spReg, h.ret, h.x, h.f, h.bytes, h.cfg⟩

/-! ### Returning from it -/

theorem slotAbove_poppedIp (s : State) (p : Word) (k : Nat) : (s.poppedIp p).slotAbove k = s.slotAbove (k + 1) := by
  rw [slotAbove_withIpSp, State.slotAbove, State.slotAbove]
  bv_omega

/-- The stack that is left once `ip` has been popped. -/
theorem InDomain.poppedIp {s : State} {n : Nat} (h : InDomain s s.sp (16 + n)) (p : Word) :
    InDomain (s.poppedIp p) (s.poppedIp p).sp n :=
  (h.mono 16 (withIpSp_sp s p _) le_rfl).of_cfg rfl

/-- `reti` is the pop of `ip`, then that of the range `r0` to `r31`. -/
theorem exec_reti {s : State} {p : Word} (hd : InDomain s s.sp 16) (hp : HoldsCell s s.sp 16 p) :
    exec .reti s = finish (popAll putX (inPopOrder s.cfg.popOrder (regRange 0 spReg)) (s.poppedIp p)) := by
  rw [← allRegs_eq_regRange_spReg, ← leaveTrap_eq (popIp_eq_poppedIp hd hp)]
  rfl

/-- Under `source_ascending` the frame is one block of 33 slots. -/
theorem exec_reti_sourceAscending {s : State} {p : Word} {v : Reg → Word} (ho : s.cfg.popOrder = .sourceAscending)
    (hp : HoldsCell s s.sp 16 p) (hd : InDomain s s.sp 528)
    (hv : ∀ n : Reg, HoldsCell s (s.slotAbove (n.val + 1)) 16 (v n)) :
    ∃ t, exec .reti s = .next t ∧ t.ip = p ∧ t.sp = v spReg + 16 ∧ (∀ n : Reg, n ≠ spReg → t.getX n = v n) ∧
      SameFBut [] s t ∧ SameBytes s t ∧ t.cfg = s.cfg := by
  obtain ⟨t, ht, hsp, hloaded, -, hf, hb, hip, hcfg⟩ :=
    popAll_putX_to_sp_eq (i := 0) (s := s.poppedIp p) v (InDomain.poppedIp (n := 512) hd p)
      (fun n _ => by rw [slotAbove_poppedIp]; exact hv n)
  refine ⟨t, ?_, hip, hsp, fun n hn => hloaded n (Fin.zero_le n) hn, hf, hb, hcfg⟩
  rw [exec_reti (hd.of_le (by decide)) hp, ho, inPopOrder, ht, finish_ok]

/-- Under `descending` the second slot gives `sp`, and `r0` to `r30` come from the stack there. -/
theorem exec_reti_descending {s : State} {p w : Word} (ho : s.cfg.popOrder = .descending) (hp : HoldsCell s s.sp 16 p)
    (hd : InDomain s s.sp 32) (hw : HoldsCell s (s.slotAbove 1) 16 w) :
    exec .reti s = finish (popAll putX (inPopOrder .descending (regRange 0 30)) (s.withIpSp p (w + 16))) := by
  have hw' : HoldsCell (s.poppedIp p) (s.poppedIp p).sp 16 w := by rw [withIpSp_sp]; exact hw
  rw [exec_reti (hd.of_le (by decide)) hp, ho,
    popAll_putX_from_sp_eq 0 (InDomain.poppedIp hd p) hw', setX_spReg_withIpSp]

/-- Settles O59: one block of slots under `source_ascending`; under `descending` a pop of `r0` to `r30` from the stack that
the second slot gives. -/
theorem retiLoadsTheFrame : Obligations.RetiLoadsTheFrame := by
  intro s p v hp
  refine ⟨fun ho hd hv => exec_reti_sourceAscending ho hp hd hv, fun ho hd hw hd' hv => ?_⟩
  have hstack : InDomain (s.withIpSp p (v spReg + 16)) (s.withIpSp p (v spReg + 16)).sp 496 := by
    rw [withIpSp_sp]; exact hd'.of_cfg rfl
  obtain ⟨t, ht, hsp, hloaded, -, hf, hb, hip, hcfg⟩ :=
    popAll_putX_range_eq (o := .descending) (i := 0) (j := 30) (s := s.withIpSp p (v spReg + 16)) v (by decide) hstack
      (fun n _ hn => by rw [slotAbove_withIpSp]; exact hv n (ne_spReg_of_le hn (by decide)))
  refine ⟨t, ?_, hip, ?_, fun n hn => hloaded n (Fin.zero_le n) (Nat.le_of_lt_succ (lt_spReg hn)), hf, hb, hcfg⟩
  · rw [exec_reti_descending ho hp hd hw, ht, finish_ok]
  · rw [hsp, slotAbove_withIpSp, BitVec.add_assoc]
    rfl

/-! ### From `trap` to `reti` -/

section

variable {s t : State} (h : FrameSaved s t) (hd : InDomain s (s.slotBelow 33) 528)
include h

theorem FrameSaved.ret_sp : HoldsCell t t.sp 16 s.ip := h.sp ▸ h.ret

/-- The slot that `reti` loads into register `n` holds what `trap` pushed there. -/
theorem FrameSaved.slotAbove (n : Reg) :
    HoldsCell t (t.slotAbove (popPlace s.cfg.popOrder 0 spReg n + 1)) 16
      (s.pushed 0 (poppedInto s.cfg.popOrder 0 spReg n)) := by
  obtain ⟨-, -, hplace⟩ := poppedInto_spec s.cfg.popOrder (Fin.zero_le n) (le_spReg n)
  have hsum : (poppedInto s.cfg.popOrder 0 spReg n).val + 1 + popPlace s.cfg.popOrder 0 spReg n = 32 := hplace
  rw [slotAbove_of_sp h.sp (q := (poppedInto s.cfg.popOrder 0 spReg n).val + 1) (by omega)]
  exact h.slots _

include hd

/-- The orders of the two loops are opposite: register `n` gets what was pushed for `r(31 - n)`. -/
theorem FrameSaved.reti_sourceAscending (ho : s.cfg.popOrder = .sourceAscending) :
    ∃ u, exec .reti t = .next u ∧ u.ip = s.ip ∧ SameFBut [] t u ∧ SameBytes t u ∧ u.cfg = t.cfg ∧
      u.getX 0 = s.slotBelow 32 ∧ (∀ n : Reg, n ≠ 0 → n ≠ spReg → u.getX n = s.getX (31 - n)) ∧
      u.sp = s.getX 0 + 16 := by
  have hcells := h.slotAbove
  rw [ho] at hcells
  obtain ⟨u, hu, huip, husp, hloaded, huf, hub, hucfg⟩ :=
    exec_reti_sourceAscending (h.cfg ▸ ho) h.ret_sp (h.sp ▸ hd.of_cfg h.cfg) hcells
  refine ⟨u, hu, huip, huf, hub, hucfg, hloaded 0 (by decide), fun n h0 hn => ?_, husp⟩
  have hne : 31 - n ≠ spReg := fun e => h0 (by simpa using sub_eq_self.1 e)
  rw [hloaded n hn, poppedInto, zero_add]
  exact pushed_of_ne hne

/-- The orders of the two loops agree: every register gets back what it was, `sp` by going up the frame. -/
theorem FrameSaved.reti_descending (ho : s.cfg.popOrder = .descending) :
    ∃ u, exec .reti t = .next u ∧ u.ip = s.ip ∧ SameFBut [] t u ∧ SameBytes t u ∧ u.cfg = t.cfg ∧
      SameXBut [] s u := by
  have hframe : InDomain t (s.slotBelow 33) 528 := hd.of_cfg h.cfg
  have hcells := h.slotAbove
  rw [ho] at hcells
  have hstack : InDomain t (s.pushed 0 spReg + 16) 496 :=
    hframe.mono 32 (by rw [pushed_spReg, State.slotBelow, State.slotBelow]; bv_omega) le_rfl
  have hslots (n : Reg) (hn : n ≠ spReg) :
      HoldsCell t (s.pushed 0 spReg + 16 + BitVec.ofNat 128 (16 * (30 - n.val))) 16 (s.pushed 0 n) := by
    have hlt : n.val < 31 := lt_spReg hn
    have hplace : s.pushed 0 spReg + 16 + BitVec.ofNat 128 (16 * (30 - n.val)) = s.slotBelow (n.val + 1) := by
      rw [pushed_spReg, State.slotBelow, State.slotBelow]
      bv_omega
    rw [hplace]
    exact h.slots n
  obtain ⟨u, hu, huip, husp, hloaded, huf, hub, hucfg⟩ :=
    (retiLoadsTheFrame t s.ip (s.pushed 0) h.ret_sp).2 (h.cfg ▸ ho)
      (h.sp ▸ hframe.of_le (by decide)) (hcells spReg) hstack hslots
  refine ⟨u, hu, huip, huf, hub, hucfg, fun n _ => ?_⟩
  by_cases hn : n = spReg
  · subst hn
    calc u.sp = s.slotBelow 32 + 512 := by rw [husp, pushed_spReg]
      _ = s.sp := by rw [State.slotBelow]; bv_omega
  · rw [hloaded n hn, pushed_of_ne hn]

/-- `reti` once the frame is saved, under either order. -/
theorem FrameSaved.reti :
    ∃ u, exec .reti t = .next u ∧ u.ip = s.ip ∧ SameFBut [] t u ∧ SameBytes t u ∧ u.cfg = t.cfg ∧
      (s.cfg.popOrder = .descending → SameXBut [] s u) ∧
      (s.cfg.popOrder = .sourceAscending →
        u.getX 0 = s.slotBelow 32 ∧ (∀ n : Reg, n ≠ 0 → n ≠ spReg → u.getX n = s.getX (31 - n)) ∧
        u.sp = s.getX 0 + 16) := by
  cases ho : s.cfg.popOrder with
  | sourceAscending =>
    obtain ⟨u, hu, hip, hf, hb, hcfg, hregs⟩ := h.reti_sourceAscending hd ho
    exact ⟨u, hu, hip, hf, hb, hcfg, nofun, fun _ => hregs⟩
  | descending =>
    obtain ⟨u, hu, hip, hf, hb, hcfg, hregs⟩ := h.reti_descending hd ho
    exact ⟨u, hu, hip, hf, hb, hcfg, fun _ => hregs, nofun⟩

end

/-- Settles O60: `trap` saves the frame, and `reti` finds it. -/
theorem retiAfterTrap : Obligations.RetiAfterTrap := by
  intro imm a s hd i hi
  have hsaved : ∃ t, exec i s = .next t ∧ FrameSaved s t := by
    simp only [List.mem_cons, List.not_mem_nil, or_false] at hi
    rcases hi with rfl | rfl
    · obtain ⟨t, ht, -, h⟩ := exec_trapI imm hd
      exact ⟨t, ht, h⟩
    · obtain ⟨t, ht, -, h⟩ := exec_trapR a hd
      exact ⟨t, ht, h⟩
  obtain ⟨t, ht, h⟩ := hsaved
  obtain ⟨u, hu, hip, hf, hb, hcfg, hregs⟩ := h.reti hd
  exact ⟨t, u, ht, hu, hip, fun r hr => (hf r hr).trans (h.f r hr), fun b hout => (hb b).trans (h.bytes b hout),
    hcfg.trans h.cfg, hregs⟩

/-! ### Stack slots that are not mapped -/

section

variable {i : Instr} {s : State}

/-- `sp` is decremented before the push that fails, and nothing is stored. -/
theorem stoppedPushing_first (s : State) (v : Reg → Word) :
    StoppedPushing s (s.setX spReg (s.slotBelow 1)) 0 0 v :=
  ⟨State.getX_setX_self _ _ _, fun _ _ h => absurd h (Nat.not_lt_zero _),
    fun _ hr => State.getX_setX_of_ne _ _ (List.ne_of_not_mem_cons hr), fun _ _ => rfl, fun _ _ => rfl, rfl, rfl⟩

theorem exec_callTo_unmapped {target : State → Word} (hi : exec i s = finish (callTo target s))
    (hn : ¬ InDomain s (s.slotBelow 1) 16) :
    exec i s = .fault (.unmappedAccess (s.slotBelow 1) 16 (s.setX spReg (s.slotBelow 1))) := by
  rw [hi, callTo_unmapped target hn, finish_error]
  rfl

theorem exec_popIp_unmapped (hi : exec i s = finish (popIp s)) (hn : ¬ InDomain s s.sp 16) :
    exec i s = .fault (.unmappedAccess s.sp 16 s) := by
  rw [hi, popIp_unmapped hn, finish_error]

theorem exec_returnWith_unmapped {size : State → Word} (hi : exec i s = finish (returnWith size s))
    (hn : ¬ InDomain s s.sp 16) : exec i s = .fault (.unmappedAccess s.sp 16 s) := by
  rw [hi, returnWith_unmapped size hn, finish_error]

theorem exec_reti_unmapped (hn : ¬ InDomain s s.sp 16) : exec .reti s = .fault (.unmappedAccess s.sp 16 s) :=
  finish_eq_fault.2 (by rw [leaveTrap, popIp_unmapped hn, Except.bind])

end

/-- Taking the software interrupt stops at the first of its 33 slots that is not mapped, whatever its number: in the push
loop, or at the slot of `ip` after it. -/
theorem enterTrap_stops {k : Nat} {s : State} (hk : k ≤ 32) (hd : InDomain s (s.slotBelow k) (16 * k))
    (hn : ¬ InDomain s (s.slotBelow (k + 1)) 16) :
    ∃ u, StoppedPushing s u 0 k (s.pushed 0) ∧
      ∀ number, enterTrap number s = .error (.unmappedAccess (s.slotBelow (k + 1)) 16 u) := by
  rcases Nat.lt_or_eq_of_le hk with hlt | rfl
  · obtain ⟨u, hu, hstop⟩ := pushAll_range_unmapped (i := 0) (j := spReg) (pushedX s)
      (by simpa using Nat.le_of_lt_succ hlt) (fun _ n hx _ => getX_eq_pushedX hx n) hd hn
    exact ⟨u, hstop, fun _ => enterTrap_error (by rw [allRegs_eq_regRange_spReg, hu])⟩
  · obtain ⟨t, ht, hsp, hslots, hx, hf, hb, hip, hcfg⟩ := pushAll_allRegs_eq hd
    have hsp1 : t.sp - 16 = s.slotBelow 33 := slotBelow_of_sp (p := 1) hsp rfl
    have hn1 : ¬ InDomain t (t.sp - 16) 16 := by rw [hsp1]; exact fun h => hn (h.of_cfg hcfg.symm)
    refine ⟨t.setX spReg (s.slotBelow 33), ⟨State.getX_setX_self _ _ _, fun n _ _ => hslots n, fun r hr => ?_, hf, hb,
      hip, hcfg⟩, fun _ => ?_⟩
    · rw [State.getX_setX_of_ne _ _ (List.ne_of_not_mem_cons hr), hx r hr]
    · rw [enterTrap_unmapped ht hn1, hsp1]

/-- A stop on the way is one told from the start: the registers but `sp` are the same in both states. -/
theorem StoppedPopping.of_withIpSp {s u : State} {p w a : Word} {loaded loaded' : Reg → Prop} {v : Reg → Word}
    (h : StoppedPopping (s.withIpSp p w) u a p loaded v) (hl : ∀ n, n ≠ spReg → (loaded n ↔ loaded' n)) :
    StoppedPopping s u a p loaded' v := by
  obtain ⟨hsp, hip, hregs, hframe⟩ := h
  refine ⟨hsp, hip, fun n hn => ?_, hframe⟩
  rw [← hl n hn, ← show (s.withIpSp p w).getX n = s.getX n by rw [getX_withIpSp, if_neg hn]]
  exact hregs n hn

/-- The places below `k`, where `r31` comes last or no register has been loaded. -/
theorem popPlace_lt_iff {o : PopOrder} {k : Nat} (hcase : o = .sourceAscending ∨ k = 0) (n : Reg) :
    (0 ≤ n ∧ n ≤ spReg ∧ popPlace o 0 spReg n < k) ↔ n.val < k := by
  rcases hcase with rfl | rfl
  · simp [popPlace, le_spReg]
  · simp

/-- `reti` stops at the first unmapped slot of one block. -/
theorem exec_reti_stops {k : Nat} {s : State} {p : Word} {v : Reg → Word} (hp : HoldsCell s s.sp 16 p) (hk : k ≤ 31)
    (hcase : s.cfg.popOrder = .sourceAscending ∨ k = 0) (hd : InDomain s s.sp (16 * (k + 1)))
    (hn : ¬ InDomain s (s.slotAbove (k + 1)) 16)
    (hv : ∀ n : Reg, n.val < k → HoldsCell s (s.slotAbove (n.val + 1)) 16 (v n)) :
    ∃ u, exec .reti s = .fault (.unmappedAccess (s.slotAbove (k + 1)) 16 u) ∧
      StoppedPopping s u (s.slotAbove (k + 1)) p (fun n => n.val < k) v := by
  have hblock : InDomain s s.sp (16 + 16 * k) := hd.of_le (by omega)
  have hk' : (0 : Reg).val + k ≤ spReg.val := by rw [Fin.val_zero, Nat.zero_add]; exact hk
  obtain ⟨u, hu, hstop⟩ := popAll_putX_unmapped (o := s.cfg.popOrder) (i := 0) (j := spReg) (k := k)
    (s := s.poppedIp p) v hk' (popPlace_spReg_not_lt hk' (hcase.imp_right .inr)) (hblock.poppedIp p)
    (by rw [slotAbove_poppedIp]; exact hn)
    (fun n h0 h31 hplace => by
      have hlt := (popPlace_lt_iff hcase n).1 ⟨h0, h31, hplace⟩
      rcases hcase with ho | rfl
      · rw [ho, slotAbove_poppedIp]; exact hv n hlt
      · exact absurd hlt (Nat.not_lt_zero _))
  rw [slotAbove_poppedIp] at hu hstop
  refine ⟨u, ?_, hstop.of_withIpSp fun n _ => popPlace_lt_iff hcase n⟩
  rw [exec_reti (hblock.of_le (by omega)) hp, hu, finish_error]

/-- Under `descending` it stops at the first unmapped slot of the stack that the loaded `sp` gives. -/
theorem exec_reti_stops_descending {k : Nat} {s : State} {p : Word} {v : Reg → Word} (hp : HoldsCell s s.sp 16 p)
    (hk : k ≤ 30) (ho : s.cfg.popOrder = .descending) (hd : InDomain s s.sp 32)
    (hw : HoldsCell s (s.slotAbove 1) 16 (v spReg)) (hd' : InDomain s (v spReg + 16) (16 * k))
    (hn : ¬ InDomain s (v spReg + 16 + BitVec.ofNat 128 (16 * k)) 16)
    (hv : ∀ n : Reg, n ≠ spReg → 30 - n.val < k →
      HoldsCell s (v spReg + 16 + BitVec.ofNat 128 (16 * (30 - n.val))) 16 (v n)) :
    ∃ u, exec .reti s = .fault (.unmappedAccess (v spReg + 16 + BitVec.ofNat 128 (16 * k)) 16 u) ∧
      StoppedPopping s u (v spReg + 16 + BitVec.ofNat 128 (16 * k)) p (fun n => 30 - n.val < k) v := by
  have hstack : InDomain (s.withIpSp p (v spReg + 16)) (s.withIpSp p (v spReg + 16)).sp (16 * k) := by
    rw [withIpSp_sp]; exact hd'.of_cfg rfl
  obtain ⟨u, hu, hstop⟩ := popAll_putX_unmapped (o := .descending) (i := 0) (j := 30) (k := k)
    (s := s.withIpSp p (v spReg + 16)) v (by simpa using hk) (fun ⟨_, h30, _⟩ => absurd h30 (by decide)) hstack
    (by rw [slotAbove_withIpSp]; exact hn)
    (fun n _ hn hplace => by rw [slotAbove_withIpSp]; exact hv n (ne_spReg_of_le hn (by decide)) hplace)
  rw [slotAbove_withIpSp] at hu hstop
  refine ⟨u, by rw [exec_reti_descending ho hp hd hw, hu, finish_error], hstop.of_withIpSp fun n hn => ?_⟩
  exact ⟨fun ⟨_, _, h⟩ => h, fun h => ⟨Fin.zero_le n, Nat.le_of_lt_succ (lt_spReg hn), h⟩⟩

/-- Settles O57: calls, returns, `trap`, and `reti` where its slots are one block and where they are not. -/
theorem unmappedStackSlotsFault : Obligations.UnmappedStackSlotsFault := by
  intro c x a i20 i15 i10 s p v
  refine ⟨fun hn => ⟨_, stoppedPushing_first s _, fun i hi => ?_, fun hc i hi => ?_⟩,
    fun hn => ⟨fun i hi => ?_, fun hc i hi => ?_⟩, fun k hk hd hn => ?_,
    fun hp => ⟨fun k => exec_reti_stops hp, fun k => exec_reti_stops_descending hp⟩⟩
  · simp only [List.mem_cons, List.not_mem_nil, or_false] at hi
    rcases hi with rfl | rfl | rfl <;> exact exec_callTo_unmapped rfl hn
  · simp only [List.mem_cons, List.not_mem_nil, or_false] at hi
    rcases hi with rfl | rfl | rfl
    · exact exec_callTo_unmapped (exec_onlyIf_true (exec_callCc c x a s) hc) hn
    · exact exec_callTo_unmapped (exec_onlyIf_true (exec_callCcrR c x a s) hc) hn
    · exact exec_callTo_unmapped (exec_onlyIf_true (exec_callCcrI c x i15 s) hc) hn
  · simp only [List.mem_cons, List.not_mem_nil, or_false] at hi
    rcases hi with rfl | rfl | rfl | rfl
    · exact exec_popIp_unmapped rfl hn
    · exact exec_returnWith_unmapped rfl hn
    · exact exec_returnWith_unmapped rfl hn
    · exact exec_reti_unmapped hn
  · simp only [List.mem_cons, List.not_mem_nil, or_false] at hi
    rcases hi with rfl | rfl | rfl
    · exact exec_popIp_unmapped (exec_onlyIf_true (exec_retCc c x s) hc) hn
    · exact exec_returnWith_unmapped (exec_onlyIf_true (exec_retaCcR c x a s) hc) hn
    · exact exec_returnWith_unmapped (exec_onlyIf_true (exec_retaCcI c x i15 s) hc) hn
  · obtain ⟨u, hstop, hu⟩ := enterTrap_stops hk hd hn
    refine ⟨u, hstop, fun i hi => ?_⟩
    simp only [List.mem_cons, List.not_mem_nil, or_false] at hi
    rcases hi with rfl | rfl
    · exact finish_eq_fault.2 (hu _)
    · exact finish_eq_fault.2 (hu _)

end Sys2Proof.Machine
end

section
/-! PROOFS of the family 70_reset_and_hazards: launch states, which registers and memory do not restrict, and the reset state,
which is one of them (O8). -/

namespace Sys2Proof.Machine

/-! ### What a launch state holds -/

section

variable (c : Config) (x f : Vector Word 32) (m : Memory)

@[simp] theorem State.launch_ip : (State.launch c x f m).ip = c.resetIp := rfl
@[simp] theorem State.launch_cfg : (State.launch c x f m).cfg = c := rfl
@[simp] theorem State.launch_getX (r : Reg) : (State.launch c x f m).getX r = x[r] := rfl
@[simp] theorem State.launch_getF (r : FReg) : (State.launch c x f m).getF r = f[r] := rfl
@[simp] theorem State.launch_mem : (State.launch c x f m).mem = m := rfl

theorem State.launch_isLaunch : (State.launch c x f m).IsLaunch := rfl

end

/-- What a launch leaves unsaid of a launch state is how many free values have been drawn (00 R14). -/
theorem State.isLaunch_iff (s : State) :
    s.IsLaunch ↔ ∃ n, s = { State.launch s.cfg s.x s.f s.mem with draws := n } := by
  constructor
  · intro h
    obtain ⟨x, f, ip, mem, cfg, draws⟩ := s
    obtain rfl : ip = cfg.resetIp := h
    exact ⟨draws, rfl⟩
  · rintro ⟨n, h⟩
    exact congrArg State.ip h

/-! ### Any contents is that of a launch state -/

/-- Every contents of the whole address space is that of a canonical memory (20 R40). -/
theorem Memory.exists_contents (bytes : Word → Byte) :
    ∃ m : Memory, m.wf ∧ ∀ a : Word, m.byteAt a.toNat = bytes a := by
  obtain ⟨m, hm, hbytes⟩ := Memory.exists_byteAt (fun a => bytes (BitVec.ofNat 128 a)) le_rfl
  refine ⟨m, hm, fun a => ?_⟩
  rw [hbytes a.toNat a.isLt, BitVec.ofNat_toNat, BitVec.setWidth_eq]

/-- No register and no byte has an initial value (70 R340). -/
theorem State.exists_isLaunch (c : Config) (x f : Reg → Word) (bytes : Word → Byte) :
    ∃ s : State, s.IsLaunch ∧ s.Inv ∧ s.cfg = c ∧
      (∀ r, s.getX r = x r) ∧ (∀ r, s.getF r = f r) ∧ ∀ a, s.readByte a = bytes a := by
  obtain ⟨m, hm, hbytes⟩ := Memory.exists_contents bytes
  refine ⟨State.launch c (Vector.ofFn x) (Vector.ofFn f) m, State.launch_isLaunch .., hm, rfl,
    fun r => ?_, fun r => ?_, hbytes⟩
  · rw [State.launch_getX, Fin.getElem_fin, Vector.getElem_ofFn]
  · rw [State.launch_getF, Fin.getElem_fin, Vector.getElem_ofFn]

/-! ### The reset state -/

@[simp] theorem State.reset_getX (r : Reg) : State.reset.getX r = 0 := by
  rw [State.reset, State.launch_getX, Fin.getElem_fin, Vector.getElem_replicate]

@[simp] theorem State.reset_getF (r : FReg) : State.reset.getF r = 0 := by
  rw [State.reset, State.launch_getF, Fin.getElem_fin, Vector.getElem_replicate]

theorem State.reset_inv : State.reset.Inv := Memory.wf_nil

/-- Settles O8: a launch state for any contents is the launch with the registers listed and a memory built byte by byte. -/
theorem launchAndReset : Obligations.LaunchAndReset :=
  ⟨fun c x f m => ⟨State.launch_ip c x f m, State.launch_cfg c x f m, State.launch_getX c x f m,
      State.launch_getF c x f m, State.launch_mem c x f m⟩,
    State.exists_isLaunch, State.isLaunch_iff, State.reset_getX, State.reset_getF, rfl, rfl, State.reset_inv⟩

end Sys2Proof.Machine
end

section
/-! PROOFS of the family other, the encoding: the word of a decoded instruction (O2), and the words that select none (O3). -/

namespace Sys2Proof

open Sys2Proof.Machine Sys2Proof.Laws

/-! ### From a word to its instruction and back (30 R96) -/

section

variable {w : InstrWord} {i : Instr} {k : BitVec 12}

/-- The word that a template lays out under the key of `w` is `w`, if that is the word `encode` lays out. -/
theorem encode_eq_of_key (word : BitVec 12 → InstrWord) (hw : w = word (keyBits w)) (hi : encode i = word k)
    (hk : keyNumber w = k.toNat) : encode i = w := by
  have hkey : keyBits w = k := BitVec.eq_of_toNat_eq ((keyBits_toNat w).trans hk)
  rw [hw, hkey, hi]

/-! ### The condition field (30 R76, R92) -/

/-- The code of a condition. -/
def condCode : Cond → BitVec 3
  | .s => 0
  | .z => 1
  | .p => 2
  | .nz => 3
  | .ge => 4
  | .le => 5

theorem condOf_condCode (cc : Cond) : condOf (condCode cc) = .ok cc := by cases cc <;> rfl

theorem condOf_ok {c : BitVec 3} {cc : Cond} (h : condOf c = .ok cc) : c = condCode cc := by
  unfold condOf at h
  split at h <;> cases h <;> (rename_i hc; exact BitVec.eq_of_toNat_eq hc)

theorem uncond_ok {c : BitVec 3} {e : Except DecodeReject Instr} (h : uncond c e = .ok i) : c = 0 ∧ e = .ok i := by
  unfold uncond at h
  split at h
  · next hc => exact ⟨hc, h⟩
  · cases h

theorem withCond_ok {c : BitVec 3} {mk : Cond → Except DecodeReject Instr} (h : withCond c mk = .ok i) :
    ∃ cc, c = condCode cc ∧ mk cc = .ok i := by
  unfold withCond at h
  cases hc : condOf c with
  | error e => rw [hc] at h; cases h
  | ok cc => rw [hc] at h; exact ⟨cc, condOf_ok hc, h⟩

/-! ### The four tables

One case per template: what its reader accepts is the template's word, with the checks of well-formedness made. -/

theorem encode_of_decodeInt {op : Nat} (hkey : keyNumber w = 0 * 1024 + op) (h : decodeInt op w = .ok i) :
    encode i = w ∧ i.wf = true := by
  unfold decodeInt at h
  split at h
  case h_1 | h_3 | h_5 | h_7 | h_9 | h_11 | h_13 | h_15 | h_19 | h_21 | h_23 | h_25 | h_27 | h_29 | h_31 | h_33
    | h_35 | h_37 | h_39 =>
    obtain ⟨a, b, c, rfl, hw⟩ := readF_ok h
    exact ⟨encode_eq_of_key (wordF · a b c) hw rfl hkey, rfl⟩
  case h_2 | h_4 | h_6 | h_8 | h_10 | h_12 | h_14 | h_16 | h_20 | h_22 | h_24 | h_26 | h_28 | h_30 | h_32 | h_34
    | h_36 | h_38 | h_40 =>
    obtain ⟨a, b, imm, rfl, hw⟩ := readE_ok h
    exact ⟨encode_eq_of_key (wordE · a b imm) hw rfl hkey, rfl⟩
  case h_17 | h_18 =>
    obtain ⟨a, b, c, d, rfl, hw⟩ := readG_ok h
    exact ⟨encode_eq_of_key (wordG · a b c d) hw rfl hkey, rfl⟩
  case h_41 =>
    obtain ⟨a, b, rfl, hw⟩ := readD_ok h
    exact ⟨encode_eq_of_key (wordD · a b) hw rfl hkey, rfl⟩
  case h_42 =>
    obtain ⟨a, imm, rfl, hw⟩ := readC_ok h
    exact ⟨encode_eq_of_key (wordC · a imm) hw rfl hkey, rfl⟩
  case h_43 => cases h

theorem encode_of_decodeFloat {op : Nat} (hkey : keyNumber w = 1 * 1024 + op) (h : decodeFloat op w = .ok i) :
    encode i = w ∧ i.wf = true := by
  unfold decodeFloat at h
  split at h
  case h_1 | h_2 | h_3 | h_4 | h_5 =>
    obtain ⟨a, b, c, rfl, hw⟩ := readF_ok h
    exact ⟨encode_eq_of_key (wordF · a b c) hw rfl hkey, rfl⟩
  case h_6 | h_7 | h_8 | h_9 | h_10 =>
    obtain ⟨a, b, rfl, hw⟩ := readD_ok h
    exact ⟨encode_eq_of_key (wordD · a b) hw rfl hkey, rfl⟩
  case h_11 => cases h

theorem encode_of_decodeMove {op : Nat} (hkey : keyNumber w = 3 * 1024 + op) (h : decodeMove op w = .ok i) :
    encode i = w ∧ i.wf = true := by
  unfold decodeMove at h
  split at h
  case h_1 | h_20 =>
    obtain ⟨a, b, rfl, hw⟩ := readD_ok h
    exact ⟨encode_eq_of_key (wordD · a b) hw rfl hkey, rfl⟩
  case h_2 | h_3 =>
    obtain ⟨a, imm, rfl, hw⟩ := readC_ok h
    exact ⟨encode_eq_of_key (wordC · a imm) hw rfl hkey, rfl⟩
  case h_18 | h_19 | h_28 | h_29 =>
    obtain ⟨a, b, rfl, hab, hw⟩ := readRange_ok h
    exact ⟨encode_eq_of_key (wordD · a b) hw rfl hkey, decide_eq_true hab⟩
  case h_30 => cases h
  all_goals
    obtain ⟨a, m, rfl, hm, hw⟩ := readM_ok h
    exact ⟨encode_eq_of_key (wordM · a m) hw rfl hkey, hm⟩

theorem encode_of_decodeControl {row : Nat} {c : BitVec 3} (hkey : keyNumber w = 2 * 1024 + (8 * row + c.toNat))
    (h : decodeControl row c w = .ok i) : encode i = w ∧ i.wf = true := by
  unfold decodeControl at h
  split at h
  -- unconditional forms
  case h_1 | h_2 | h_7 | h_8 | h_15 | h_19 =>
    obtain ⟨rfl, hread⟩ := uncond_ok h
    obtain ⟨a, rfl, hw⟩ := readB_ok hread
    exact ⟨encode_eq_of_key (wordB · a) hw rfl hkey, rfl⟩
  case h_3 | h_9 | h_16 =>
    obtain ⟨rfl, hread⟩ := uncond_ok h
    obtain ⟨imm, rfl, hw⟩ := readA_ok hread
    exact ⟨encode_eq_of_key (wordA · imm) hw rfl hkey, rfl⟩
  case h_20 =>
    obtain ⟨rfl, hread⟩ := uncond_ok h
    obtain ⟨imm, rfl, hw⟩ := readA10_ok hread
    exact ⟨encode_eq_of_key (wordA · (0#10 ++ imm)) hw rfl hkey, rfl⟩
  case h_13 | h_21 =>
    obtain ⟨rfl, hread⟩ := uncond_ok h
    obtain ⟨rfl, hw⟩ := readZ_ok hread
    exact ⟨encode_eq_of_key wordZ hw rfl hkey, rfl⟩
  -- conditional forms
  case h_4 | h_5 | h_10 | h_11 | h_17 =>
    obtain ⟨cc, rfl, hread⟩ := withCond_ok h
    obtain ⟨a, b, rfl, hw⟩ := readD_ok hread
    cases cc <;> exact ⟨encode_eq_of_key (wordD · a b) hw rfl hkey, rfl⟩
  case h_6 | h_12 | h_18 =>
    obtain ⟨cc, rfl, hread⟩ := withCond_ok h
    obtain ⟨a, imm, rfl, hw⟩ := readC_ok hread
    cases cc <;> exact ⟨encode_eq_of_key (wordC · a imm) hw rfl hkey, rfl⟩
  case h_14 =>
    obtain ⟨cc, rfl, hread⟩ := withCond_ok h
    obtain ⟨a, rfl, hw⟩ := readB_ok hread
    cases cc <;> exact ⟨encode_eq_of_key (wordB · a) hw rfl hkey, rfl⟩
  case h_22 => cases h

end

/-! ### All words -/

/-- A word's key is its fields T and OP (30 R71). -/
theorem keyNumber_eq (w : InstrWord) : keyNumber w = (typeField w).toNat * 1024 + (opField w).toNat := by
  rw [typeField_toNat, opField_toNat]; omega

/-- OP is the row of 30 R92 and the condition. -/
theorem opField_eq (w : InstrWord) : (opField w).toNat = 8 * (field 23 7 w).toNat + (field 20 3 w).toNat := by
  rw [opField_toNat, rowField_toNat, condField_toNat]; omega

/-- The table the word is looked up in fixes T, the entry OP. -/
theorem encode_of_decode {w : InstrWord} {i : Instr} (h : decode w = .ok i) : encode i = w ∧ i.wf = true := by
  have hkey := keyNumber_eq w
  unfold decode at h
  split at h
  case h_1 ht => rw [ht] at hkey; exact encode_of_decodeInt hkey h
  case h_2 ht => rw [ht] at hkey; exact encode_of_decodeFloat hkey h
  case h_3 ht => rw [ht, opField_eq] at hkey; exact encode_of_decodeControl hkey h
  case h_4 h0 h1 h2 =>
    have ht : (typeField w).toNat = 3 := by
      simp only [imp_false] at h0 h1 h2
      have := (typeField w).isLt
      omega
    rw [ht] at hkey
    exact encode_of_decodeMove hkey h

/-- Settles O2: `encode_of_decode` at every word. -/
theorem encodeOfDecode : Obligations.EncodeOfDecode := fun _ _ => encode_of_decode

/-! ### What a reader rejects (30 R94) -/

/-- The answer rejects the word. -/
def Rejects (e : Except DecodeReject Instr) : Prop := ∃ r, e = .error r

@[simp] theorem rejects_error (r : DecodeReject) : Rejects (.error r) := ⟨r, rfl⟩

@[simp] theorem not_rejects_ok (i : Instr) : ¬ Rejects (.ok i) := nofun

theorem rejects_ite {c : Prop} [Decidable c] {e : Except DecodeReject Instr} {r : DecodeReject} :
    Rejects (if c then e else .error r) ↔ ¬ c ∨ Rejects e := by
  split <;> simp [*]

theorem field_eq_zero_iff (lo n : Nat) (w : InstrWord) : field lo n w = 0 ↔ slice w lo n = 0 := by
  rw [slice, ← field_toNat]
  exact BitVec.toNat_inj.symm

section

variable (w : InstrWord)

theorem rejects_needZero (n : Nat) (e : Except DecodeReject Instr) :
    Rejects (needZero n w e) ↔ slice w 0 n ≠ 0 ∨ Rejects e := by
  rw [needZero, rejects_ite, field_eq_zero_iff]

@[simp] theorem not_rejects_readA (mk : BitVec 20 → Instr) : ¬ Rejects (readA mk w) := nofun

@[simp] theorem not_rejects_readC (mk : Fin 32 → BitVec 15 → Instr) : ¬ Rejects (readC mk w) := nofun

@[simp] theorem not_rejects_readE (mk : Fin 32 → Fin 32 → BitVec 10 → Instr) : ¬ Rejects (readE mk w) := nofun

@[simp] theorem not_rejects_readG (mk : Fin 32 → Fin 32 → Fin 32 → Fin 32 → Instr) : ¬ Rejects (readG mk w) := nofun

@[simp] theorem rejects_readA10 (mk : BitVec 10 → Instr) : Rejects (readA10 mk w) ↔ slice w 10 10 ≠ 0 := by
  rw [readA10, rejects_ite, field_eq_zero_iff]; simp

@[simp] theorem rejects_readB (mk : Fin 32 → Instr) : Rejects (readB mk w) ↔ slice w 0 15 ≠ 0 := by
  rw [readB, rejects_needZero]; simp

@[simp] theorem rejects_readD (mk : Fin 32 → Fin 32 → Instr) : Rejects (readD mk w) ↔ slice w 0 10 ≠ 0 := by
  rw [readD, rejects_needZero]; simp

@[simp] theorem rejects_readF (mk : Fin 32 → Fin 32 → Fin 32 → Instr) : Rejects (readF mk w) ↔ slice w 0 5 ≠ 0 := by
  rw [readF, rejects_needZero]; simp

@[simp] theorem rejects_readZ (i : Instr) : Rejects (readZ i w) ↔ slice w 0 20 ≠ 0 := by
  rw [readZ, rejects_needZero]; simp

theorem regField_eq_slice (lo : Nat) : (regField lo w).val = slice w lo 5 := regField_val lo w

@[simp] theorem rejects_readRange (mk : Fin 32 → Fin 32 → Instr) :
    Rejects (readRange mk w) ↔ slice w 0 10 ≠ 0 ∨ slice w 10 5 < slice w 15 5 := by
  rw [readRange, rejects_needZero, rejects_ite, Fin.le_def, regField_eq_slice, regField_eq_slice]; simp

/-- The scale codes 110 and 111 are reserved (20 R42). -/
theorem rejects_scaleOf (c : BitVec 3) (mk : Scale → Instr) :
    Rejects ((scaleOf c).bind fun sc => .ok (mk sc)) ↔ 6 ≤ c.toNat := by
  unfold scaleOf
  split
  case h_7 h0 h1 h2 h3 h4 h5 =>
    simp only [imp_false] at h0 h1 h2 h3 h4 h5
    simp only [Except.bind, rejects_error, true_iff]
    omega
  all_goals simp [Except.bind, *]

@[simp] theorem rejects_readM (mk : Fin 32 → MemOperand → Instr) :
    Rejects (readM mk w) ↔ slice w 0 2 ≠ 0 ∨ 6 ≤ slice w 2 3 ∨ slice w 5 5 = 31 := by
  have hindex : regField 5 w = spReg ↔ slice w 5 5 = 31 := by rw [← regField_eq_slice]; exact Fin.ext_iff
  rw [readM, rejects_needZero]
  split
  case isTrue h => simp [hindex.1 h]
  case isFalse h =>
    rw [hindex] at h
    rw [rejects_scaleOf, field_toNat, ← slice, or_iff_left h]

@[simp] theorem rejects_uncond (c : BitVec 3) (e : Except DecodeReject Instr) :
    Rejects (uncond c e) ↔ c.toNat ≠ 0 ∨ Rejects e := by
  rw [uncond, rejects_ite, ← BitVec.toNat_inj]; rfl

/-- The condition codes 110 and 111 are unassigned (30 R76). -/
theorem rejects_withCond {c : BitVec 3} {mk : Cond → Except DecodeReject Instr} {p : Prop}
    (hmk : ∀ cc, Rejects (mk cc) ↔ p) : Rejects (withCond c mk) ↔ 6 ≤ c.toNat ∨ p := by
  unfold withCond condOf
  split
  case h_7 h0 h1 h2 h3 h4 h5 =>
    simp only [imp_false] at h0 h1 h2 h3 h4 h5
    simp only [Except.bind, rejects_error, true_iff]
    omega
  all_goals simp [Except.bind, *]

end

/-! ### What a table rejects: one clause of `IllegalWord` for each template -/

section

variable {w : InstrWord}

theorem rejects_decodeInt (ht : slice w 30 2 = 0) : Rejects (decodeInt (slice w 20 10) w) ↔ IllegalWord w := by
  simp only [IllegalWord, TemplateD, TemplateF, TemplateM, TemplateRange, ht]
  generalize slice w 20 10 = op
  unfold decodeInt
  split
  case h_43 =>
    simp only [imp_false] at *
    have hop : 42 ≤ op := by omega
    simp [hop]
  all_goals simp

theorem rejects_decodeFloat (ht : slice w 30 2 = 1) : Rejects (decodeFloat (slice w 20 10) w) ↔ IllegalWord w := by
  simp only [IllegalWord, TemplateD, TemplateF, TemplateM, TemplateRange, ht]
  generalize slice w 20 10 = op
  unfold decodeFloat
  split
  case h_11 =>
    simp only [imp_false] at *
    have hop : 10 ≤ op := by omega
    simp [hop]
  all_goals simp

theorem rejects_decodeMove (ht : slice w 30 2 = 3) : Rejects (decodeMove (slice w 20 10) w) ↔ IllegalWord w := by
  simp only [IllegalWord, TemplateD, TemplateF, TemplateM, TemplateRange, ht]
  generalize slice w 20 10 = op
  unfold decodeMove
  split
  case h_30 =>
    simp only [imp_false] at *
    have hop : 29 ≤ op := by omega
    simp [hop]
  all_goals simp

theorem rejects_decodeControl {c : BitVec 3} (ht : slice w 30 2 = 2) (hc : c.toNat = slice w 20 3) :
    Rejects (decodeControl (slice w 23 7) c w) ↔ IllegalWord w := by
  simp only [IllegalWord, TemplateD, TemplateF, TemplateM, TemplateRange, ht, ← hc]
  generalize slice w 23 7 = row
  unfold decodeControl
  split
  case h_4 | h_5 | h_10 | h_11 | h_17 =>
    rw [rejects_withCond fun cc => rejects_readD w _]; simp
  case h_6 | h_12 | h_18 =>
    rw [rejects_withCond fun cc => iff_false_intro (not_rejects_readC w _)]; simp
  case h_14 =>
    rw [rejects_withCond fun cc => rejects_readB w _]; simp
  case h_22 =>
    simp only [imp_false] at *
    have hrow : 21 ≤ row := by omega
    simp [hrow]
  all_goals simp

end

theorem rejects_decode (w : InstrWord) : Rejects (decode w) ↔ IllegalWord w := by
  have htype : (typeField w).toNat = slice w 30 2 := field_toNat 30 2 w
  have hop : (opField w).toNat = slice w 20 10 := field_toNat 20 10 w
  have hrow : (field 23 7 w).toNat = slice w 23 7 := field_toNat 23 7 w
  unfold decode
  rw [htype, hop, hrow]
  split
  case h_1 ht => exact rejects_decodeInt ht
  case h_2 ht => exact rejects_decodeFloat ht
  case h_3 ht => exact rejects_decodeControl ht (field_toNat 20 3 w)
  case h_4 h0 h1 h2 =>
    simp only [imp_false] at h0 h1 h2
    have hlt : slice w 30 2 < 2 ^ 2 := Nat.mod_lt _ (by decide)
    exact rejects_decodeMove (by omega)

/-- Settles O3: `rejects_decode` at every word. -/
theorem rejectedWordsAreTheSixCases : Obligations.RejectedWordsAreTheSixCases := rejects_decode

end Sys2Proof
end

section
/-! PROOFS of the family other, the step, memory and division: what a step does (O5, O6, O7), the canonical form of memory
(O9), where faults come from (O11, O18, O30), addresses (O14), and a load after a store (O17). -/

namespace Sys2Proof.Machine

/-! ### The step (00 R15) -/

section

variable {s : State} {w : InstrWord} {i : Instr}

theorem step_of_halted (h : s.cfg.haltIp = some s.ip) : step s = .next s := if_pos (decide_eq_true h)

theorem halted_eq_false (h : s.cfg.haltIp ≠ some s.ip) : s.halted = false := decide_eq_false h

theorem step_of_fetch_error {r : Fault} (h : s.cfg.haltIp ≠ some s.ip) (hfetch : fetch s = .error r) :
    step s = .fault r := by
  simp [step, halted_eq_false h, hfetch]

theorem step_of_decode_error {e : DecodeReject} (h : s.cfg.haltIp ≠ some s.ip) (hfetch : fetch s = .ok w)
    (hdecode : decode w = .error e) : step s = .fault (.illegalEncoding w s.advance) := by
  simp [step, halted_eq_false h, hfetch, hdecode]

theorem step_of_decode_ok (h : s.cfg.haltIp ≠ some s.ip) (hfetch : fetch s = .ok w) (hdecode : decode w = .ok i) :
    step s = exec i s.advance := by
  simp [step, halted_eq_false h, hfetch, hdecode]

/-- The fetch reads the word that lies at `ip`, in either byte order (20 R48). -/
theorem fetch_eq (hd : InDomain s s.ip 4) (hw : HoldsCell s s.ip 4 (w.setWidth 128)) : fetch s = .ok w := by
  have hword : (w.setWidth 128).setWidth 32 = w := by simp
  rw [fetch, memRead_eq hd hw (by decide), Except.map, setWidth_lowBytes (by decide) (by decide), hword]

theorem fetch_unmapped (hd : ¬ InDomain s s.ip 4) : fetch s = .error (.unmappedAccess s.ip 4 s) := by
  rw [fetch, memRead_unmapped hd, Except.map]

end

/-- Settles O5: the fetch, the decode, and `ip` moved by one instruction. -/
theorem stepRunsTheDecodedInstruction : Obligations.StepRunsTheDecodedInstruction := by
  intro s w i hrun hd hw hi
  exact ⟨step_of_decode_ok hrun (fetch_eq hd hw) hi, moved_setIp s _, rfl⟩

/-- Settles O6: the fetch faults before the decode does. -/
theorem fetchAndDecodeFaults : Obligations.FetchAndDecodeFaults := by
  intro s hrun
  refine ⟨fun hd => step_of_fetch_error hrun (fetch_unmapped hd), ?_⟩
  rintro w hd hw ⟨e, he⟩
  exact step_of_decode_error hrun (fetch_eq hd hw) he

/-- A run whose first step answers a next state goes on from there. -/
theorem core_run_succ {s t : State} (k : Nat) (h : step s = .next t) :
    Sys2Proof.core.run (k + 1) s = Sys2Proof.core.run k t := by
  have hstep : Sys2Proof.core.step s = .next t := h
  simp only [Host.Core.run, hstep]

/-- Settles O7, by induction on the number of steps. -/
theorem haltedRunStays : Obligations.HaltedRunStays := by
  intro s k hhalt
  induction k with
  | zero => rfl
  | succ k ih =>
    exact (core_run_succ k (step_of_halted hhalt)).trans ih

/-- Settles O9: the canonical form is one of the things that every step keeps. -/
theorem everyStepKeepsTheCanonicalMemory : Obligations.EveryStepKeepsTheCanonicalMemory :=
  fun _ _ hs h => (keeps_step h).wf hs

/-! ### Addresses (20 R41) -/

theorem uval_ea (s : State) (m : MemOperand) :
    uval (s.ea m) = (uval (s.getX m.base) + uval (s.getX m.index) * uval (scaleFactor m.scale)) % 2 ^ 128 := by
  rw [uval, State.ea, BitVec.toNat_add, BitVec.toNat_mul, Nat.add_mod_mod]

/-- Settles O14: `uval_ea` with the factor of each scale. -/
theorem effectiveAddress : Obligations.EffectiveAddress := by
  intro s b x p hp
  rw [uval_ea]
  simp only [List.mem_cons, List.not_mem_nil, or_false] at hp
  rcases hp with rfl | rfl | rfl | rfl | rfl | rfl <;> rfl

/-! ### A load after a store (20 R60) -/

/-- Signed and unsigned loads of a whole word are the same. -/
theorem sextCell_sixteen : sextCell 16 = id := by
  funext v
  simp [sextCell, sext]

/-- A store of the low `n` bytes of `r`, then a load of `n` bytes from the same operand into `d`: the stored bits,
extended with zeros or with their sign. -/
theorem exec_load_after_store {i j k : Instr} {n : Nat} {r d : Reg} {m : MemOperand} {s : State} (hn : n ≤ 16)
    (hi : exec i s = finish (storeX n r m s)) (hj : ∀ t, exec j t = finish (loadX n id d m t))
    (hk : ∀ t, exec k t = finish (loadX n (sextCell n) d m t)) (hd : InDomain s (s.ea m) n) :
    ∃ t u v, exec i s = .next t ∧ exec j t = .next u ∧ exec k t = .next v ∧
      uval (u.getX d) = uval (s.getX r) % 2 ^ (8 * n) ∧
      sval (v.getX d) = Int.bmod (uval (s.getX r)) (2 ^ (8 * n)) := by
  obtain ⟨t, ht, hcell, hx, -, -, -, hcfg⟩ := exec_storeX hi hn hd
  have hea : t.ea m = s.ea m := by
    rw [State.ea, hx m.base List.not_mem_nil, hx m.index List.not_mem_nil, State.ea]
  have hdt : InDomain t (t.ea m) n := hea ▸ hd.of_cfg hcfg
  have hcellt : HoldsCell t (t.ea m) n (s.getX r) := hea ▸ hcell
  obtain ⟨u, hu, huval, -⟩ := exec_loadX_unsigned (hj t) hn hdt hcellt
  obtain ⟨v, hv, hvval, -⟩ := exec_loadX_signed (hk t) hn hdt hcellt
  exact ⟨t, u, v, ht, hu, hv, huval, hvval⟩

/-- Settles O17: `exec_load_after_store` at each width. -/
theorem loadAfterStore : Obligations.LoadAfterStore := by
  intro r d m s p hp hd
  simp only [List.mem_cons, List.not_mem_nil, or_false] at hp
  rcases hp with rfl | rfl | rfl | rfl | rfl
  · exact exec_load_after_store (by simp) rfl (fun _ => rfl) (fun _ => by rw [sextCell_sixteen]; rfl) hd
  all_goals exact exec_load_after_store (by simp) rfl (fun _ => rfl) (fun _ => rfl) hd

/-! ### Cells that are not mapped (20 R44, R45) -/

section

variable {i : Instr} {n : Nat} {r : Reg} {f : FReg} {m : MemOperand} {s : State}

theorem onlyX_refl (s : State) : OnlyX [] s s := ⟨fun _ _ => rfl, fun _ _ => rfl, fun _ => rfl, rfl, rfl⟩

/-- Taking a draw changes nothing but the draw counter. -/
theorem onlyX_fpAfter {w : Nat} (s : State) (a : FpVal w) : OnlyX [] s (fpAfter s a) := by
  cases a with
  | bits => exact onlyX_refl s
  | anyNan | any => exact (onlyX_refl s.drawn).of_drawn

theorem exec_loadX_unmapped {widen : Word → Word} (hi : exec i s = finish (loadX n widen r m s))
    (hd : ¬ InDomain s (s.ea m) n) :
    ∃ u, exec i s = .fault (.unmappedAccess (s.ea m) n u) ∧ OnlyX [] s u :=
  ⟨s, by rw [hi, loadX_unmapped hd, finish_error], onlyX_refl s⟩

theorem exec_storeX_unmapped (hi : exec i s = finish (storeX n r m s)) (hd : ¬ InDomain s (s.ea m) n) :
    ∃ u, exec i s = .fault (.unmappedAccess (s.ea m) n u) ∧ OnlyX [] s u :=
  ⟨s, by rw [hi, storeX_unmapped hd, finish_error], onlyX_refl s⟩

theorem exec_loadF_unmapped {convert : Word → FpVal 128} (hi : exec i s = finish (loadF n convert f m s))
    (hd : ¬ InDomain s (s.ea m) n) :
    ∃ u, exec i s = .fault (.unmappedAccess (s.ea m) n u) ∧ OnlyX [] s u :=
  ⟨s, by rw [hi, loadF_unmapped hd, finish_error], onlyX_refl s⟩

/-- The bits of a NaN may have been drawn already. -/
theorem exec_storeF_unmapped {w : Nat} {nan : Word → BitVec w} {a : FpVal w}
    (hi : exec i s = finish (storeF n nan a m s)) (hd : ¬ InDomain s (s.ea m) n) :
    ∃ u, exec i s = .fault (.unmappedAccess (s.ea m) n u) ∧ OnlyX [] s u :=
  ⟨fpAfter s a, by rw [hi, storeF_unmapped hd, finish_error], onlyX_fpAfter s a⟩

end

/-- Settles O18: the nine integer loads, the five integer stores, the four floating-point loads and the three
floating-point stores. -/
theorem unmappedCellsFault : Obligations.UnmappedCellsFault := by
  intro r f m s
  simp only [List.forall_mem_cons]
  exact ⟨exec_loadX_unmapped rfl, exec_loadX_unmapped rfl, exec_loadX_unmapped rfl, exec_loadX_unmapped rfl,
    exec_loadX_unmapped rfl, exec_loadX_unmapped rfl, exec_loadX_unmapped rfl, exec_loadX_unmapped rfl,
    exec_loadX_unmapped rfl, exec_storeX_unmapped rfl, exec_storeX_unmapped rfl, exec_storeX_unmapped rfl,
    exec_storeX_unmapped rfl, exec_storeX_unmapped rfl, exec_loadF_unmapped rfl, exec_loadF_unmapped rfl,
    exec_loadF_unmapped rfl, exec_loadF_unmapped rfl, exec_storeF_unmapped rfl, exec_storeF_unmapped rfl,
    exec_storeF_unmapped rfl, nofun⟩

/-! ### Faults of division (41 R169) -/

section

variable {i : Instr} {d q r : Reg} {x y : State → Except Fault Word} {s : State} {e : Fault}

theorem exec_setDivision_fault (hi : exec i s = finish (setDivision d x s)) (hx : x s = .error e) :
    exec i s = .fault e := by
  rw [hi, setDivision_error hx, finish_error]

theorem exec_setDivMod_fault (hi : exec i s = finish (setDivMod q r x y s)) (hx : x s = .error e) :
    exec i s = .fault e := by
  rw [hi, setDivMod_error hx, finish_error]

end

theorem divisions_of_zero (a : Word) {b : Word} (s : State) (hb : b = 0) :
    udiv a b s = .error (.divideByZero s) ∧ urem a b s = .error (.divideByZero s) ∧
      sdiv a b s = .error (.divideByZero s) ∧ srem a b s = .error (.divideByZero s) :=
  hb ▸ divisions_by_zero a s

/-- Settles O30: each form is `setDivision` or `setDivMod` of a division that faults in the state itself. -/
theorem divisionFaults : Obligations.DivisionFaults := by
  intro d e a b s
  refine ⟨fun i hi => ?_, fun hb i hi => ?_, fun ha => ?_⟩
  · obtain ⟨hudiv, hurem, hsdiv, hsrem⟩ :=
      divisions_of_zero (s.getX a) s (show sext (0 : BitVec 10) = 0 by decide)
    simp only [List.mem_cons, List.not_mem_nil, or_false] at hi
    rcases hi with rfl | rfl | rfl | rfl
    · exact exec_setDivision_fault (d := d) rfl hudiv
    · exact exec_setDivision_fault (d := d) rfl hsdiv
    · exact exec_setDivision_fault (d := d) rfl hurem
    · exact exec_setDivision_fault (d := d) rfl hsrem
  · obtain ⟨hudiv, hurem, hsdiv, hsrem⟩ := divisions_of_zero (s.getX a) s (BitVec.eq_of_toNat_eq hb)
    simp only [List.mem_cons, List.not_mem_nil, or_false] at hi
    rcases hi with rfl | rfl | rfl | rfl | rfl | rfl
    · exact exec_setDivision_fault rfl hudiv
    · exact exec_setDivision_fault rfl hsdiv
    · exact exec_setDivision_fault rfl hurem
    · exact exec_setDivision_fault rfl hsrem
    · exact exec_setDivMod_fault rfl hudiv
    · exact exec_setDivMod_fault rfl hsdiv
  · refine ⟨exec_setDivision_fault rfl (sdiv_overflow s ha (sval_sext _ (by decide))), fun hb i hi => ?_⟩
    simp only [List.mem_cons, List.not_mem_nil, or_false] at hi
    rcases hi with rfl | rfl
    · exact exec_setDivision_fault rfl (sdiv_overflow s ha hb)
    · exact exec_setDivMod_fault rfl (sdiv_overflow s ha hb)

end Sys2Proof.Machine
end

section
/-! PROOFS of the family other, faults: which instruction raises which fault, and on which operands (O11). -/

namespace Sys2Proof.Machine

/-! ### Accesses that fault -/

/-- The fault of an access: some byte of it lies outside MEM_DOMAIN, and the faulted state has the parameters of `s`. -/
def AccessFault (s : State) (r : Fault) : Prop :=
  ∃ a n u, r = .unmappedAccess a n u ∧ ¬ InDomain s a n ∧ u.cfg = s.cfg

section

variable {s : State} {r : Fault}

theorem accessFault_of_unmapped {a : Word} {n : Nat} (h : ¬ InDomain s a n ∧ r = .unmappedAccess a n s) :
    AccessFault s r :=
  ⟨a, n, s, h.2, h.1, rfl⟩

/-- The form in which the loops over slots give their faults. -/
theorem accessFault_of_slot (h : ∃ u a, r = .unmappedAccess a 16 u ∧ ¬ InDomain s a 16 ∧ Keeps s u) :
    AccessFault s r := by
  obtain ⟨u, a, hr, hd, hk⟩ := h
  exact ⟨a, 16, u, hr, hd, hk.cfg⟩

theorem accessFault_storeF {n w : Nat} {nan : Word → BitVec w} {v : FpVal w} {m : MemOperand}
    (h : storeF n nan v m s = .error r) : AccessFault s r := by
  obtain ⟨hd, hr⟩ := storeF_fault h
  exact ⟨_, n, _, hr, hd, fpAfter_cfg s v⟩

theorem accessFault_callTo {target : State → Word} (h : callTo target s = .error r) : AccessFault s r := by
  obtain ⟨hd, hr⟩ := callTo_fault h
  exact ⟨_, 16, _, hr, hd, rfl⟩

theorem accessFault_popIp (h : popIp s = .error r) : AccessFault s r := accessFault_of_unmapped (popSlot_fault h)

theorem accessFault_returnWith {size : State → Word} (h : returnWith size s = .error r) : AccessFault s r :=
  accessFault_of_unmapped (returnWith_fault h)

/-- A conditional transfer faults only where it is taken. -/
theorem accessFault_onlyIf {c : Cond} {v : Word} {act : State → Except Fault State}
    (hact : act s = .error r → AccessFault s r) (h : onlyIf c v act s = .error r) : AccessFault s r :=
  hact (onlyIf_fault h).2

end

/-! ### Faults of an instruction -/

/-- What 60 R311 says of the instructions and operands that raise a fault, of the faulted state, and that no
instruction is refused. -/
def OutcomeOf (i : Instr) (s : State) : Outcome → Prop
  | .next _ => True
  | .refused _ => False
  | .fault (.illegalEncoding _ _) => False
  | .fault (.divideByZero u) => (∃ p, divisionOf s i = some (p, 0)) ∧ u = s
  | .fault (.divideOverflow u) => dividesSigned i = true ∧
      (∃ p q, divisionOf s i = some (p, q) ∧ sval p = -2 ^ 127 ∧ sval q = -1) ∧ u = s
  | .fault (.unmappedAccess a n u) =>
      (loadsMemory i = true ∨ storesMemory i = true) ∧ ¬ InDomain s a n ∧ u.cfg = s.cfg

section

variable {i : Instr} {s : State} {a b : Word} {r : Fault}

theorem outcomeOf_finish {e : Except Fault State} (he : ∀ r, e = .error r → OutcomeOf i s (.fault r)) :
    OutcomeOf i s (finish e) := by
  cases e with
  | ok t => trivial
  | error r => exact he r rfl

/-- An instruction that loads or stores may raise the fault of an access. -/
theorem outcomeOf_access {e : Except Fault State} (hi : loadsMemory i = true ∨ storesMemory i = true)
    (he : ∀ r, e = .error r → AccessFault s r) : OutcomeOf i s (finish e) := by
  refine outcomeOf_finish fun r hr => ?_
  obtain ⟨a, n, u, rfl, hd, hcfg⟩ := he r hr
  exact ⟨hi, hd, hcfg⟩

/-- A conditional jump raises none. -/
theorem outcomeOf_jumpIf {c : Cond} {v : Word} {target : State → Word} :
    OutcomeOf i s (finish (onlyIf c v (fun s1 => .ok (s1.setIp (target s1))) s)) :=
  outcomeOf_finish fun _ h => nomatch (onlyIf_fault h).2

theorem outcomeOf_divideByZero (hi : divisionOf s i = some (a, b)) (h : b = 0 ∧ r = .divideByZero s) :
    OutcomeOf i s (.fault r) := by
  obtain ⟨rfl, rfl⟩ := h
  exact ⟨⟨a, hi⟩, rfl⟩

theorem outcomeOf_sdiv (hi : divisionOf s i = some (a, b)) (hs : dividesSigned i = true) (h : sdiv a b s = .error r) :
    OutcomeOf i s (.fault r) := by
  rcases sdiv_fault h with hzero | ⟨⟨ha, hb⟩, rfl⟩
  · exact outcomeOf_divideByZero hi hzero
  · exact ⟨hs, ⟨a, b, hi, ha, hb⟩, rfl⟩

end

/-- Every instruction raises only the faults of its kind. One case per operation that the meanings are made of; at each
constructor what it divides and whether it loads or stores are known, and they must be those of the operation. -/
theorem outcomeOf_exec (i : Instr) (s : State) : OutcomeOf i s (exec i s) := by
  cases i with
  -- no fault
  | movR | movu | movs | addiR | addiI | subiR | subiI | muliuR | muliuI | mulisR | mulisI
  | cmpiuR | cmpiuI | cmpisR | cmpisI | andR | andI | orR | orI | xorR | xorI | andnR | andnI
  | ornR | ornI | xornR | xornI | notR | notI | cmpf
  | lshiftR | lshiftI | rshiftR | rshiftI | rshiftsR | rshiftsI | roundn | roundl | roundg | roundt
  | movF | addf | subf | mulf | divf | frac | jmp | jmprR | jmprI => trivial
  | jmpS | jmpZ | jmpP | jmpNz | jmpGe | jmpLe | jmpSrR | jmpZrR | jmpPrR | jmpNzrR | jmpGerR | jmpLerR
  | jmpSrI | jmpZrI | jmpPrI | jmpNzrI | jmpGerI | jmpLerI => exact outcomeOf_jumpIf
  -- 41: divisions
  | diviuR | diviuI =>
    exact outcomeOf_finish fun _ h => outcomeOf_divideByZero rfl (udiv_fault (setDivision_fault h))
  | modiuR | modiuI =>
    exact outcomeOf_finish fun _ h => outcomeOf_divideByZero rfl (urem_fault (setDivision_fault h))
  | modisR | modisI =>
    exact outcomeOf_finish fun _ h => outcomeOf_divideByZero rfl (srem_fault (setDivision_fault h))
  | divisR | divisI => exact outcomeOf_finish fun _ h => outcomeOf_sdiv rfl rfl (setDivision_fault h)
  | divmodiu =>
    refine outcomeOf_finish fun _ h => ?_
    rcases setDivMod_fault h with h | h
    · exact outcomeOf_divideByZero rfl (udiv_fault h)
    · exact outcomeOf_divideByZero rfl (urem_fault h)
  | divmodis =>
    refine outcomeOf_finish fun _ h => ?_
    rcases setDivMod_fault h with h | h
    · exact outcomeOf_sdiv rfl rfl h
    · exact outcomeOf_divideByZero rfl (srem_fault h)
  -- 40, 43: loads and stores
  | movLoad | mov8u | mov16u | mov32u | mov64u | mov8s | mov16s | mov32s | mov64s =>
    exact outcomeOf_access (.inl rfl) fun _ h => accessFault_of_unmapped (loadX_fault h)
  | movFLoad | mov32fLoad | mov64fLoad | mov80fLoad =>
    exact outcomeOf_access (.inl rfl) fun _ h => accessFault_of_unmapped (loadF_fault h)
  | movStore | mov8 | mov16 | mov32 | mov64 =>
    exact outcomeOf_access (.inr rfl) fun _ h => accessFault_of_unmapped (storeX_fault h)
  | mov32fStore | mov64fStore | mov80fStore => exact outcomeOf_access (.inr rfl) fun _ => accessFault_storeF
  -- 40, 43: ranges on the stack
  | push | pushF => exact outcomeOf_access (.inr rfl) fun _ h => accessFault_of_slot (pushAll_fault _ _ h)
  | pop => exact outcomeOf_access (.inl rfl) fun _ h => accessFault_of_slot (popAll_fault keeps_putX _ h)
  | popF => exact outcomeOf_access (.inl rfl) fun _ h => accessFault_of_slot (popAll_fault keeps_putF _ h)
  -- 45: calls and returns
  | call | callrR | callrI => exact outcomeOf_access (.inr rfl) fun _ => accessFault_callTo
  | callS | callZ | callP | callNz | callGe | callLe | callSrR | callZrR | callPrR | callNzrR | callGerR | callLerR
  | callSrI | callZrI | callPrI | callNzrI | callGerI | callLerI =>
    exact outcomeOf_access (.inr rfl) fun _ => accessFault_onlyIf accessFault_callTo
  | ret => exact outcomeOf_access (.inl rfl) fun _ => accessFault_popIp
  | retS | retZ | retP | retNz | retGe | retLe =>
    exact outcomeOf_access (.inl rfl) fun _ => accessFault_onlyIf accessFault_popIp
  | retaR | retaI => exact outcomeOf_access (.inl rfl) fun _ => accessFault_returnWith
  | retaSR | retaZR | retaPR | retaNzR | retaGeR | retaLeR
  | retaSI | retaZI | retaPI | retaNzI | retaGeI | retaLeI =>
    exact outcomeOf_access (.inl rfl) fun _ => accessFault_onlyIf accessFault_returnWith
  -- 60: the software interrupt
  | trapR | trapI => exact outcomeOf_access (.inr rfl) fun _ h => accessFault_of_slot (enterTrap_fault h)
  | reti => exact outcomeOf_access (.inl rfl) fun _ h => accessFault_of_slot (leaveTrap_fault h)

/-- Settles O11: `outcomeOf_exec`, fault by fault; an access outside MEM_DOMAIN is one that the whole space does not
have. -/
theorem faultsComeFromTheirInstructions : Obligations.FaultsComeFromTheirInstructions := by
  intro i s
  have hall := outcomeOf_exec i s
  refine ⟨fun r h => ?_, fun w u h => ?_, fun u h => ?_, fun u h => ?_, fun a n u h => ?_⟩ <;> rw [h] at hall
  · exact hall
  · exact hall
  · exact hall
  · exact hall
  · obtain ⟨hi, hd, hcfg⟩ := hall
    exact ⟨hi, hd, fun hwhole => hd (inDomain_whole hwhole a n), hcfg⟩

end Sys2Proof.Machine
end

section
/-! PROOFS of the family other, floating point under the IEEE record: NaNs, infinities and zeros of the arithmetic (O45, O46),
the compare (O47) and the fraction (O49). -/

namespace Sys2Proof.Machine

/-! ### The data that the arithmetic writes (44 R241) -/

/-- The instruction `i` writes the datum `x` to `f[d]`, rounded to the registers' format, and changes nothing else. -/
def WritesDatum (i : Instr) (d : FReg) (s : State) (x : FpNum) : Prop :=
  ∃ t, exec i s = .next t ∧ OnlyF [d] s t ∧ FpAdmits quad (pack128 x) (t.getF d)

section

variable {s : State} (hfp : s.cfg.fp = .ieee754) (d a b : FReg)

theorem writesDatum_of_exec {i : Instr} {x : FpNum} (hi : exec i s = .next (s.setFp d (pack128 x))) :
    WritesDatum i d s x := by
  obtain ⟨t, ht, hr, -, hframe⟩ := exec_setFp hi
  exact ⟨t, ht, hframe, hr⟩

include hfp

theorem writesDatum_addf : WritesDatum (.addf d a b) d s (addNum (num128 (s.getF a)) (num128 (s.getF b))) :=
  writesDatum_of_exec d (by rw [exec, execAddf, fpOf_ieee754 hfp]; rfl)

theorem writesDatum_subf :
    WritesDatum (.subf d a b) d s (addNum (num128 (s.getF a)) (negNum (num128 (s.getF b)))) :=
  writesDatum_of_exec d (by rw [exec, execSubf, fpOf_ieee754 hfp]; rfl)

theorem writesDatum_mulf : WritesDatum (.mulf d a b) d s (mulNum (num128 (s.getF a)) (num128 (s.getF b))) :=
  writesDatum_of_exec d (by rw [exec, execMulf, fpOf_ieee754 hfp]; rfl)

theorem writesDatum_divf : WritesDatum (.divf d a b) d s (divNum (num128 (s.getF a)) (num128 (s.getF b))) :=
  writesDatum_of_exec d (by rw [exec, execDivf, fpOf_ieee754 hfp]; rfl)

end

/-- A zero is written as a zero with its sign, whatever its exponent. -/
theorem pack128_zero {neg : Bool} {e : Int} {r : Word} (h : FpAdmits quad (pack128 (.fin neg 0 e)) r) :
    quad.Finite r ∧ quad.value r = 0 ∧ quad.sign r = neg := by
  have hexp : pack128 (.fin neg 0 e) = pack128 (.fin neg 0 0) := by
    simp only [pack128, pack, roundMagnitude, if_pos]
  rw [hexp] at h
  obtain ⟨hfin, hval⟩ :=
    pack128_exact h (by norm_num) (by decide) (by rw [Nat.cast_zero, zero_mul]; exact two_pow_pos _)
  exact ⟨hfin, hval.trans ((toRat_eq_zero _ _ _).2 rfl), (pack128_fin h).1⟩

section

variable {i : Instr} {d : FReg} {s : State} {x : FpNum} {neg : Bool} {m : Nat} {e : Int}

theorem WritesDatum.nan (h : WritesDatum i d s x) (hx : x = .nan) :
    ∃ t, exec i s = .next t ∧ OnlyF [d] s t ∧ quad.NaN (t.getF d) := by
  obtain ⟨t, ht, hframe, hr⟩ := h
  exact ⟨t, ht, hframe, by rwa [hx] at hr⟩

theorem WritesDatum.inf (h : WritesDatum i d s x) (hx : x = .inf neg) :
    ∃ t, exec i s = .next t ∧ OnlyF [d] s t ∧ quad.Infinite (t.getF d) ∧ quad.sign (t.getF d) = neg := by
  obtain ⟨t, ht, hframe, hr⟩ := h
  exact ⟨t, ht, hframe, pack128_inf (by rwa [hx] at hr)⟩

theorem WritesDatum.sign (h : WritesDatum i d s x) (hx : x = .fin neg m e) :
    ∃ t, exec i s = .next t ∧ OnlyF [d] s t ∧ quad.sign (t.getF d) = neg := by
  obtain ⟨t, ht, hframe, hr⟩ := h
  rw [hx] at hr
  exact ⟨t, ht, hframe, (pack128_fin hr).1⟩

theorem WritesDatum.zero (h : WritesDatum i d s x) (hx : x = .fin neg 0 e) :
    ∃ t, exec i s = .next t ∧ OnlyF [d] s t ∧ quad.Finite (t.getF d) ∧ quad.value (t.getF d) = 0 ∧
      quad.sign (t.getF d) = neg := by
  obtain ⟨t, ht, hframe, hr⟩ := h
  exact ⟨t, ht, hframe, pack128_zero (by rwa [hx] at hr)⟩

end

/-! ### Exact arithmetic on NaNs, infinities and zeros -/

section

variable {s t : Bool} {m n : Nat} {e g : Int}

/-- A NaN goes through every operation. -/
theorem arithmetic_nan {x y : FpNum} (h : x = .nan ∨ y = .nan) :
    addNum x y = .nan ∧ addNum x (negNum y) = .nan ∧ mulNum x y = .nan ∧ divNum x y = .nan := by
  rcases h with rfl | rfl
  · exact ⟨rfl, rfl, rfl, rfl⟩
  · cases x <;> exact ⟨rfl, rfl, rfl, rfl⟩

theorem addNum_inf_self : addNum (.inf s) (.inf s) = .inf s := if_pos rfl

theorem addNum_inf_of_ne (h : s ≠ t) : addNum (.inf s) (.inf t) = .nan := if_neg h

theorem mulNum_inf_fin (hn : n ≠ 0) : mulNum (.inf s) (.fin t n g) = .inf (s ^^ t) := if_neg hn

theorem mulNum_fin_inf (hm : m ≠ 0) : mulNum (.fin s m e) (.inf t) = .inf (s ^^ t) := if_neg hm

theorem divNum_fin_zero (hm : m ≠ 0) : divNum (.fin s m e) (.fin t 0 g) = .inf (s ^^ t) := if_neg hm

theorem quotientSig_zero (n : Nat) : quotientSig 0 n = 0 := by simp [quotientSig]

end

/-- The datum of a number: its significand is 0 exactly if its value is. -/
theorem num128_of_finite_value {v : Word} (h : quad.Finite v) :
    ∃ m e, num128 v = .fin (quad.sign v) m e ∧ (FpNum.fin (quad.sign v) m e).toRat = quad.value v ∧
      (quad.value v = 0 ↔ m = 0) := by
  obtain ⟨m, e, hnum, hval, -⟩ := num128_of_finite h
  exact ⟨m, e, hnum, hval, by rw [← hval]; exact toRat_eq_zero _ _ _⟩

theorem num128_of_zero {v : Word} (h : quad.Finite v) (h0 : quad.value v = 0) :
    ∃ e, num128 v = .fin (quad.sign v) 0 e := by
  obtain ⟨m, e, hnum, -, hzero⟩ := num128_of_finite_value h
  exact ⟨e, by rw [hnum, hzero.1 h0]⟩

/-- Settles O45: the exact arithmetic answers `nan` for each of these operands. -/
theorem invalidOperationsGiveNaN : Obligations.InvalidOperationsGiveNaN := by
  intro d a b s hfp
  refine ⟨?_, ?_, ?_⟩
  · simp only [List.forall_mem_cons]
    intro hnan
    obtain ⟨hadd, hsub, hmul, hdiv⟩ := arithmetic_nan (hnan.imp num128_of_nan num128_of_nan)
    exact ⟨(writesDatum_addf hfp d a b).nan hadd, (writesDatum_subf hfp d a b).nan hsub,
      (writesDatum_mulf hfp d a b).nan hmul, (writesDatum_divf hfp d a b).nan hdiv, nofun⟩
  · rintro ⟨ha, hb⟩
    have hna := num128_of_infinite ha
    have hnb := num128_of_infinite hb
    refine ⟨(writesDatum_divf hfp d a b).nan (by rw [hna, hnb]; rfl), fun hsign => ?_, fun hsign => ?_⟩
    · exact (writesDatum_addf hfp d a b).nan (by rw [hna, hnb, addNum_inf_of_ne hsign])
    · exact (writesDatum_subf hfp d a b).nan (by rw [hna, hnb, negNum, addNum_inf_of_ne (by simp [hsign])])
  · rintro ⟨ha, ha0⟩
    obtain ⟨e, hna⟩ := num128_of_zero ha ha0
    refine ⟨fun hb => ?_, fun ⟨hb, hb0⟩ => ?_⟩
    · have hnb := num128_of_infinite hb
      exact ⟨(writesDatum_mulf hfp d a b).nan (by rw [hna, hnb]; rfl),
        (writesDatum_mulf hfp d b a).nan (by rw [hna, hnb]; rfl)⟩
    · obtain ⟨g, hnb⟩ := num128_of_zero hb hb0
      exact (writesDatum_divf hfp d a b).nan (by rw [hna, hnb]; rfl)

/-- Settles O46: an infinity with a number, two infinities, two numbers. -/
theorem infinitiesAndSignedZeros : Obligations.InfinitiesAndSignedZeros := by
  intro d a b s hfp
  refine ⟨fun ha hb => ?_, fun ha hb => ?_, fun ha hb => ?_⟩
  · have hna := num128_of_infinite ha
    obtain ⟨n, g, hnb, -, hzero⟩ := num128_of_finite_value hb
    simp only [List.forall_mem_cons]
    refine ⟨⟨?_, ?_, ?_, ?_, ?_, nofun⟩, fun hb0 => ?_, ?_⟩
    · exact (writesDatum_addf hfp d a b).inf (by rw [hna, hnb]; rfl)
    · exact (writesDatum_addf hfp d b a).inf (by rw [hna, hnb]; rfl)
    · exact (writesDatum_subf hfp d a b).inf (by rw [hna, hnb]; rfl)
    · exact (writesDatum_subf hfp d b a).inf (by rw [hna, hnb]; rfl)
    · exact (writesDatum_divf hfp d a b).inf (by rw [hna, hnb]; rfl)
    · have hn : n ≠ 0 := mt hzero.2 hb0
      exact ⟨(writesDatum_mulf hfp d a b).inf (by rw [hna, hnb, mulNum_inf_fin hn]),
        (writesDatum_mulf hfp d b a).inf (by rw [hna, hnb, mulNum_fin_inf hn, Bool.xor_comm]), nofun⟩
    · exact (writesDatum_divf hfp d b a).zero (by rw [hna, hnb, divNum, Bool.xor_comm])
  · have hna := num128_of_infinite ha
    have hnb := num128_of_infinite hb
    simp only [List.forall_mem_cons]
    refine ⟨(writesDatum_mulf hfp d a b).inf (by rw [hna, hnb]; rfl), fun hsign => ?_, fun hsign => ?_, nofun⟩
    · exact (writesDatum_addf hfp d a b).inf (by rw [hna, hnb, hsign, addNum_inf_self])
    · exact (writesDatum_subf hfp d a b).inf (by rw [hna, hnb, hsign, negNum, addNum_inf_self])
  · obtain ⟨m, e, hna, hvala, hzeroa⟩ := num128_of_finite_value ha
    obtain ⟨n, g, hnb, hvalb, hzerob⟩ := num128_of_finite_value hb
    refine ⟨fun ha0 hb0 => ?_, fun hb0 => ?_, ?_, fun hsum => ?_, fun hdiff => ?_⟩
    · exact (writesDatum_divf hfp d a b).inf
        (by rw [hna, hnb, hzerob.1 hb0, divNum_fin_zero (mt hzeroa.2 ha0)])
    · have hquot := divNum_fin (quad.sign (s.getF a)) m e (quad.sign (s.getF b)) (mt hzerob.2 hb0) g
      by_cases ha0 : quad.value (s.getF a) = 0
      · obtain ⟨t, ht, hframe, hfin, hval, hsign⟩ := (writesDatum_divf hfp d a b).zero
          (by rw [hna, hnb, hquot, hzeroa.1 ha0, quotientSig_zero])
        exact ⟨t, ht, hframe, hsign, fun _ => ⟨hfin, hval⟩⟩
      · obtain ⟨t, ht, hframe, hsign⟩ := (writesDatum_divf hfp d a b).sign (by rw [hna, hnb, hquot])
        exact ⟨t, ht, hframe, hsign, fun h => absurd h ha0⟩
    · exact (writesDatum_mulf hfp d a b).sign (by rw [hna, hnb, mulNum])
    · obtain ⟨_, _, _, hnum, -, hsign⟩ := addNum_fin (quad.sign (s.getF a)) m e (quad.sign (s.getF b)) n g
      rw [hvala, hvalb] at hsign
      exact (writesDatum_addf hfp d a b).sign (by rw [hna, hnb, hnum, hsign hsum])
    · obtain ⟨_, _, _, hnum, -, hsign⟩ := addNum_fin (quad.sign (s.getF a)) m e (!quad.sign (s.getF b)) n g
      have hneg : (FpNum.fin (!quad.sign (s.getF b)) n g).toRat = -quad.value (s.getF b) :=
        hvalb ▸ negNum_toRat (.fin (quad.sign (s.getF b)) n g)
      rw [hvala, hneg, ← sub_eq_add_neg] at hsign
      exact (writesDatum_subf hfp d a b).sign (by rw [hna, hnb, negNum, hnum, hsign hdiff])

/-! ### The compare (44 R245) -/

/-- The integer that `cmpf` writes for an order. -/
def orderInt : FpOrder → Int
  | .lt => -1
  | .eq => 0
  | .gt => 1
  | .un => 2

theorem exec_cmpf_ieee (d : Reg) (a b : FReg) {s : State} (hfp : s.cfg.fp = .ieee754) :
    ∃ t, exec (.cmpf d a b) s = .next t ∧ OnlyX [d] s t ∧
      sval (t.getX d) = orderInt (cmpNum (num128 (s.getF a)) (num128 (s.getF b))) := by
  obtain ⟨⟨t, ht, hframe, hval⟩, -⟩ := floatToIntegerResults d a b s
  rw [fpOf_ieee754 hfp] at hval
  exact ⟨t, ht, hframe, hval⟩

theorem cmpNum_nan_right (x : FpNum) : cmpNum x .nan = .un := by cases x <;> rfl

theorem cmpNum_of_finite {v w : Word} (hv : quad.Finite v) (hw : quad.Finite w) :
    cmpNum (num128 v) (num128 w) =
      if quad.value v < quad.value w then .lt else if quad.value v = quad.value w then .eq else .gt := by
  obtain ⟨m, e, hnv, hvalv, -⟩ := num128_of_finite hv
  obtain ⟨n, g, hnw, hvalw, -⟩ := num128_of_finite hw
  rw [hnv, hnw, cmpNum_fin, hvalv, hvalw]

theorem cmpNum_infinite_finite {v w : Word} (hv : quad.Infinite v) (hw : quad.Finite w) :
    cmpNum (num128 v) (num128 w) = if quad.sign v then .lt else .gt := by
  obtain ⟨n, g, hnw, -⟩ := num128_of_finite hw
  rw [num128_of_infinite hv, hnw, cmpNum]

theorem cmpNum_finite_infinite {v w : Word} (hv : quad.Finite v) (hw : quad.Infinite w) :
    cmpNum (num128 v) (num128 w) = if quad.sign w then .gt else .lt := by
  obtain ⟨m, e, hnv, -⟩ := num128_of_finite hv
  rw [hnv, num128_of_infinite hw, cmpNum]

theorem cmpNum_of_infinite {v w : Word} (hv : quad.Infinite v) (hw : quad.Infinite w) :
    cmpNum (num128 v) (num128 w) =
      if quad.sign v = quad.sign w then .eq else if quad.sign v then .lt else .gt := by
  rw [num128_of_infinite hv, num128_of_infinite hw, cmpNum]

theorem not_nan_of_infinite_or_finite {v : Word} (h : quad.Infinite v ∨ quad.Finite v) : ¬ quad.NaN v :=
  h.elim infinite_not_nan fun hfin => (finite_not_infinite hfin).2

/-- Unordered means a NaN. -/
theorem cmpNum_eq_un (v w : Word) : cmpNum (num128 v) (num128 w) = .un ↔ quad.NaN v ∨ quad.NaN w := by
  rcases quad_cases v with hv | hv
  · rw [num128_of_nan hv]
    exact iff_of_true rfl (.inl hv)
  rcases quad_cases w with hw | hw
  · rw [num128_of_nan hw, cmpNum_nan_right]
    exact iff_of_true rfl (.inr hw)
  refine iff_of_false ?_ (not_or.2 ⟨not_nan_of_infinite_or_finite hv, not_nan_of_infinite_or_finite hw⟩)
  rcases hv with hv | hv <;> rcases hw with hw | hw
  · rw [cmpNum_of_infinite hv hw]; split_ifs <;> nofun
  · rw [cmpNum_infinite_finite hv hw]; split_ifs <;> nofun
  · rw [cmpNum_finite_infinite hv hw]; split_ifs <;> nofun
  · rw [cmpNum_of_finite hv hw]; split_ifs <;> nofun

theorem orderInt_eq_two (o : FpOrder) : orderInt o = 2 ↔ o = .un := by cases o <;> simp [orderInt]

/-- The order of two numbers, as the integer written. -/
theorem orderInt_of_numbers (x y : ℚ) :
    let z := orderInt (if x < y then .lt else if x = y then .eq else .gt)
    (z = -1 ↔ x < y) ∧ (z = 0 ↔ x = y) ∧ (z = 1 ↔ y < x) := by
  rcases lt_trichotomy x y with h | rfl | h
  · simp [orderInt, h, h.ne, h.not_gt]
  · simp [orderInt]
  · simp [orderInt, h, h.ne', h.not_gt]

/-- Settles O47: the order of the two data, by the kinds of the operands. -/
theorem compareOrdersValues : Obligations.CompareOrdersValues := by
  intro d a b s hfp
  obtain ⟨t, ht, hframe, hval⟩ := exec_cmpf_ieee d a b hfp
  refine ⟨t, ht, hframe, ?_⟩
  rw [hval]
  refine ⟨?_, fun ha hb => ?_, fun ha hb => ?_, fun ha hb => ?_, fun ha hb => ?_⟩
  · rw [orderInt_eq_two, cmpNum_eq_un]
  · rw [cmpNum_of_finite ha hb]
    exact orderInt_of_numbers _ _
  · rw [cmpNum_infinite_finite ha hb]
    split <;> rfl
  · rw [cmpNum_finite_infinite ha hb]
    split <;> rfl
  · rw [cmpNum_of_infinite ha hb]
    split_ifs <;> rfl

/-! ### The fraction (44 R251) -/

/-- The fraction kept of a number is below 1, or there is none. -/
theorem fracPart_mul_lt (m : Nat) (e : Int) : (fracPart m e : ℚ) * 2 ^ e < 2 ^ (16384 : Int) := by
  have hone : (fracPart m e : ℚ) * 2 ^ e < 1 := by
    unfold fracPart
    split
    case isTrue => simp
    case isFalse he =>
      have hlt : m % 2 ^ (-e).toNat < 2 ^ (-e).toNat := Nat.mod_lt _ (Nat.two_pow_pos _)
      calc ((m % 2 ^ (-e).toNat : Nat) : ℚ) * 2 ^ e
          < (2 ^ (-e).toNat : Nat) * 2 ^ e := mul_lt_mul_of_pos_right (by exact_mod_cast hlt) (two_pow_pos e)
        _ = 1 := by rw [← two_pow_nat, ← two_pow_split, show ((-e).toNat : Int) + e = 0 by omega, zpow_zero]
  exact hone.trans (one_lt_zpow₀ (by norm_num) (by norm_num))

/-- What `frac` answers for a number with the integer part `z` toward zero: the exact rest, +0 or with the operand's sign. -/
theorem fracNum_of_finite {tie : RoundnTie} {v r : Word} {z : ℤ} (hv : quad.Finite v)
    (hz : ChoosesInt tie .trunc (quad.value v) z) (hr : FpAdmits quad (fracNum (num128 v)) r) :
    quad.Finite r ∧ quad.value r = quad.value v - z ∧ quad.sign r = (quad.sign v && decide (quad.value v ≠ z)) := by
  obtain ⟨m, e, hnum, hval, hm, he⟩ := num128_of_finite hv
  obtain ⟨z', hz', hrest⟩ := fracPart_spec tie (quad.sign v) m e
  rw [hval] at hz' hrest
  rw [choosesInt_unique hz' hz] at hrest
  rw [hnum, fracNum_fin] at hr
  by_cases h0 : fracPart m e = 0
  · have hint : quad.value v - z = 0 := by rw [← hrest, h0, toRat_eq_zero]
    rw [if_pos h0] at hr
    have hzero : FpAdmits quad (pack128 (.fin false 0 0)) r := hr
    obtain ⟨hfin, hval0, hsign⟩ := pack128_zero hzero
    exact ⟨hfin, hval0.trans hint.symm, by rw [hsign, sub_eq_zero.1 hint]; simp⟩
  · have hne : quad.value v ≠ z := fun h => h0 ((toRat_eq_zero (quad.sign v) _ e).1 (hrest.trans (sub_eq_zero.2 h)))
    rw [if_neg h0] at hr
    obtain ⟨hfin, hexact⟩ := pack128_exact hr ((fracPart_le m e).trans_lt hm) he (fracPart_mul_lt m e)
    exact ⟨hfin, hexact.trans hrest, by rw [(pack128_fin hr).1, decide_eq_true hne, Bool.and_true]⟩

/-- Settles O49: the destination holds what `fracNum` answers. -/
theorem fractionIsExact : Obligations.FractionIsExact := by
  intro d a s z hfp ha hz
  have hexec : exec (.frac d a) s = .next (s.setFp d (fracNum (num128 (s.getF a)))) := by
    rw [exec, execFrac, fpOf_ieee754 hfp]; rfl
  obtain ⟨t, ht, hr, -, hframe⟩ := exec_setFp hexec
  exact ⟨t, ht, hframe, fracNum_of_finite ha hz hr⟩

end Sys2Proof.Machine
end
